-- ==== Sys2Proof/Word.lean ====
section
/-! DEFINITION. The widths the manual gives its words (0.6, 12): names only, no arithmetic. -/

namespace Sys2Proof

/-- One byte of the host port or of a frame. -/
abbrev Byte := BitVec 8

/-- A cycle number: 16 bits, wrapping (0.6). -/
abbrev Cycle := BitVec 16

/-- A segment sequence number: 16 bits, wrapping (R21). -/
abbrev SeqNo := BitVec 16

/-- A station mask: bit s stands for station s (0.6). -/
abbrev Mask := BitVec 16

/-- A position: a signed 32-bit count of steps, in two's complement (R52, 12). -/
abbrev Position := BitVec 32

/-- A station number, 0..15. -/
abbrev Station := Fin 16

end Sys2Proof
end

