-- ==== Sys2Proof/Config.lean ====
section
/-! DEFINITION. What one accepted CONFIGURE fixes (R172, R173), and the capacities the manual gives the part.
The one value of a result the manual leaves open is an opaque constant here (log entry 7); the order in which two
events or two blocks are taken, where it is open, is an operand of the command (log entry 3). -/

namespace Sys2Proof

/-- The settings of one accepted CONFIGURE (11.3, R173). A polarity field is true for active high. -/
structure Settings where
  cycleCode : Nat
  stationCount : Nat
  lossLimit : Nat
  releaseLead : Nat
  minStepUs : Nat
  stepPulseUs : Nat
  dirSetupUs : Nat
  stopGroup : Mask
  homeHigh : Bool
  probeHigh : Bool
  limpHigh : Bool
  limnHigh : Bool
  lateHalts : Bool
  probeMissHalts : Bool
  haltReleasesEn : Bool
  intEnable : BitVec 6
  deriving DecidableEq, Repr

/-- What the settings read as before CONFIGURE: STOP_GROUP 0000h (R107), no flag enabled (R179). The other
fields are read in no state the link can be in before CONFIGURE. -/
def Settings.unconfigured : Settings where
  cycleCode := 0
  stationCount := 0
  lossLimit := 0
  releaseLead := 0
  minStepUs := 0
  stepPulseUs := 0
  dirSetupUs := 0
  stopGroup := 0
  homeHigh := false
  probeHigh := false
  limpHigh := false
  limnHigh := false
  lateHalts := false
  probeMissHalts := false
  haltReleasesEn := false
  intEnable := 0

/-- The largest of several arrival cycles when none of them is later than, or equal to, each of the others (0.6, R77):
the manual gives no value there, so this is a free value, applied to the arrivals (log entry 7, DESIGN CHOICE). -/
opaque Config.noLargest : List Cycle → Cycle

/-- The motion queue holds at most 32 segments (R22). -/
abbrev Config.queueCapacity : Nat := 32

/-- The completion queue has 16 entries (R114). -/
abbrev Config.completionCapacity : Nat := 16

/-- The incoming note queue holds at most 8 notes (R161). -/
abbrev Config.inboxCapacity : Nat := 8

end Sys2Proof
end

