-- ==== Sys2Proof/Syntax.lean ====
section
/-! DEFINITION. The commands: one constructor of Instr for each row of spec/opcode_table.json, with the operands the
row's rule gives it (the bytes of a request, the levels sampled at a tick, the bits of a received frame), and the
order operand of log entry 3 where the manual lets blocks take one event in either order. -/

namespace Sys2Proof

/-- The four filtered axis inputs (R50). -/
inductive AxisInput where
  | home | probe | limp | limn
  deriving DecidableEq, Repr

/-- The levels of the input pins sampled at one tick (R3, R50, R91); true is high. `sync` is the level the SYNC line
has from the OTHER stations: the own pulse is joined to it by wired-AND (R9). -/
structure PinLevels where
  sync : Bool
  home : Bool
  probe : Bool
  limp : Bool
  limn : Bool
  stopn : Bool
  deriving DecidableEq, Repr

/-- What one tick samples: the input pins, and whether a dominant start bit is seen on a recessive LINE in the position
that the tick begins (R13, R133). -/
structure TickInput where
  pins : PinLevels
  lineStart : Bool
  deriving DecidableEq, Repr

/-- One byte as the receiver samples it (R130, R133): its start bit, its eight data bits, its stop bit. -/
structure RxChar where
  startDominant : Bool
  data : Byte
  stopRecessive : Bool
  deriving DecidableEq, Repr

/-- The turns of a boundary (R7): the Link Interface; the Peer Table's ageing; the Step Generator and the Motion
Sequencer with a barrier's release; the first examination of a HOME or PROBE that has started (R56), which a halt of the
same boundary may precede (R34); the step events that the order names; the Halt Controller's taking of the SEGMENT_FAULT
of a late release (R80, R103); the Barrier Unit's deadline; the Note Unit. `stopInput` and `hostHalt` are no blocks: a
STOP_INPUT and a HALT request that fall at the tick of the boundary, which the Halt Controller may take between the turns
(R34, R86, R103). -/
inductive BoundaryTurn where
  | link | peers | motion | examination | stepEvents | lateHalt | stopInput | hostHalt | deadline | notes
  deriving DecidableEq, Repr

/-- The events of the Step Generator at the tick of a boundary that may end a HOME or PROBE, with those that lead to
them: a halt from the boundary and that end may be taken in either order (R67). -/
inductive StepTurn where
  | probeChange | stepDue | untimedStepDue | closingTick | dirChange | stepPulseBegin
  deriving DecidableEq, Repr

/-- The order in which the blocks take one event, where the manual says that either may be taken first.
`turns` names the turns of the boundary in their order; a turn it does not name follows in the order link, peers, motion,
examination, stepEvents, lateHalt, deadline, notes, and a STOP_INPUT or HALT request it does not name is not taken inside
the boundary. Examination, step events and late halt come after the motion turn, so a place before it is no place.
`steps` names the events of the Step Generator at this tick that the turn stepEvents takes, in their order (R67); those it
does not name wait for the boundary's end. The flags settle the orders inside one turn: `joinFirst`, the JOINING count
before the examinations that leave the link (R125); `syncLossFirst`, sync loss before duplicate detection (R131);
`linkLostFirst`, LINK_LOST before the PEER_LOST causes of the same entry to LISTEN (R96); `barrierFirst`, a barrier
failure before the halt controller's cause from the same event (R84); `lateHaltFirst`, the halt for RELEASED_LATE before
the start at the same boundary (R80). -/
structure EventOrder where
  turns : List BoundaryTurn
  steps : List StepTurn
  joinFirst : Bool
  syncLossFirst : Bool
  linkLostFirst : Bool
  barrierFirst : Bool
  lateHaltFirst : Bool
  deriving DecidableEq, Repr

/-- The commands, in the order of spec/opcode_table.json. -/
inductive Instr where
  /-- DEVICE_RESET (R180): RESETN low, then released with the straps ID3..ID0 at this station number. -/
  | deviceReset (straps : Station)
  /-- TICK (R1): the divider passes 15, and this is sampled at the tick. -/
  | tick (input : TickInput)
  /-- RUN_OUT (R4). -/
  | runOut (order : EventOrder)
  /-- STRETCHED_RUN_OUT (R6). -/
  | stretchedRunOut (order : EventOrder)
  /-- SYNC_FALLING_EDGE (R5). -/
  | syncFallingEdge (order : EventOrder)
  /-- EDGE_DETECTOR_ARMED (R3). -/
  | edgeDetectorArmed
  /-- SYNC_PULSE_END (R9). -/
  | syncPulseEnd
  /-- FOUNDING (R15). -/
  | founding
  /-- SILENCE (R124). -/
  | silence
  /-- SLOT_START (R13). -/
  | slotStart
  /-- COLLISION (R131): the bit of the own frame with this index (0 is the first start bit) is read back dominant. -/
  | collision (bit : Nat)
  /-- FRAME_RECEIVED (R133): the last stop bit is sampled of the frame with these bytes, to whose start bit the Cycle
  Timer gave this position. -/
  | frameReceived (start : Nat) (chars : List RxChar) (barrierFirst : Bool)
  /-- STEP_DUE (R38). -/
  | stepDue
  /-- UNTIMED_STEP_DUE (R57). -/
  | untimedStepDue
  /-- CLOSING_TICK (R57). -/
  | closingTick
  /-- STEP_PULSE_BEGIN (R42). -/
  | stepPulseBegin
  /-- STEP_PULSE_END (R43). -/
  | stepPulseEnd
  /-- DIR_CHANGE (R44). -/
  | dirChange
  /-- DIR_SETUP_EXPIRY (R44). -/
  | dirSetupExpiry
  /-- FILTERED_LEVEL_CHANGE (R50). -/
  | filteredLevelChange (input : AxisInput)
  /-- STOP_INPUT (R94). -/
  | stopInput
  /-- STOPN_INACTIVE (R94). -/
  | stopnInactive
  /-- CSN_FALL (R167). -/
  | csnFall
  /-- CSN_RISE (R170). -/
  | csnRise
  /-- REMOVAL (R170): the last response byte completes. -/
  | removal
  /-- CONFIGURE (R172): the request code, or its continuation, with these parameter bytes. -/
  | configure (params : List Byte)
  /-- START (R174). -/
  | start
  /-- RESTART (R175). -/
  | restart
  /-- HALT (R95). -/
  | halt
  /-- CLEAR_HALT (R105). -/
  | clearHalt
  /-- QUEUE_SEGMENT (R18): these parameter bytes of the segment record. -/
  | queueSegment (params : List Byte)
  /-- FLUSH_QUEUE (R24). -/
  | flushQueue
  /-- SET_POSITION (R53): these parameter bytes. -/
  | setPosition (params : List Byte)
  /-- CLEAR_EVENTS (R178): these parameter bytes. -/
  | clearEvents (params : List Byte)
  /-- READ_STATE (R176). -/
  | readState
  /-- READ_COMPLETION (R115). -/
  | readCompletion
  /-- READ_HALT_REPORT (R104). -/
  | readHaltReport
  /-- READ_PEER (R148): these parameter bytes. -/
  | readPeer (params : List Byte)
  /-- READ_PEER_CHANGES (R149). -/
  | readPeerChanges
  /-- SEND_NOTE (R151): these parameter bytes. -/
  | sendNote (params : List Byte)
  /-- READ_NOTE (R162). -/
  | readNote
  /-- READ_NOTE_SLOT (R163): these parameter bytes. -/
  | readNoteSlot (params : List Byte)
  /-- RELEASE_NOTE_SLOT (R164): these parameter bytes. -/
  | releaseNoteSlot (params : List Byte)
  /-- UNKNOWN_REQUEST (R171): this request code, which names no request. -/
  | unknownRequest (code : Byte)
  /-- OWN_FRAME_END (R130). -/
  | ownFrameEnd
  /-- LOOK_FOR_START_AGAIN (R133). -/
  | lookForStartAgain
  deriving DecidableEq, Repr

end Sys2Proof
end

