-- ==== Sys2Proof/Machine/State.lean ====
section
/-! DEFINITION. The state of one station as plain data: one structure for each block of the manual (0.3), the pins,
the configuration store, the queue of waiting commands, and State.reset (R17, R36, R54, R87, R107, R118, R137, R150,
R166, R180). INVENTORY.md lists every field with its rule. -/

namespace Sys2Proof.Machine

/-! ## Names the manual enumerates (12.1) -/

/-- The five link states (8.1). -/
inductive LinkState where
  | idle | listen | joining | active | duplicate
  deriving DecidableEq, Repr

/-- The five axis states (2.4). -/
inductive AxisState where
  | disabled | idle | running | waiting | halted
  deriving DecidableEq, Repr

/-- The presence of a peer entry (9.1). -/
inductive Presence where
  | absent | present | stale | lost | incompatible
  deriving DecidableEq, Repr

/-- The direction of stepping (2.1). -/
inductive Direction where
  | plus | minus
  deriving DecidableEq, Repr

/-- The five segment kinds (2.1). -/
inductive SegKind where
  | moveRel | moveAbs | home | probe | barrier
  deriving DecidableEq, Repr

/-- The seventeen completion codes (R111, 12.1). -/
inductive Code where
  | done | homed | homeFailed | tripped | probeMiss | probeActiveAtStart | released | releasedLate | halted | limit
  | positionUnknown | range | rateLimit | barrierTimeout | barrierMismatch | memberLost | memberHalted
  deriving DecidableEq, Repr

/-- The seven halt causes (R93). -/
inductive HaltCause where
  | stopInput | hostHalt | groupHalt | peerLost | linkLost | resultSpace | segmentFault
  deriving DecidableEq, Repr

/-- The seventeen outcome codes of the host port (R169). -/
inductive Answer where
  | accepted | unknownRequest | badParameter | notConfigured | alreadyConfigured | alreadyStarted | rate | queueFull
  | halted | notHalted | stopActive | groupOrigin | linkNotActive | notIdle | empty | noSlot | notDone
  deriving DecidableEq, Repr

/-! ## Cycle Timer (chapter 1) -/

/-- The founding request of the Link Interface (R15): none; made by SILENCE; or brought to the tick that takes it. -/
inductive FoundingRequest where
  | none | requested | due
  deriving DecidableEq, Repr

/-- What the present tick has raised and no event has yet taken (the model's own field, log entry 2). -/
structure Raised where
  runOut : Bool
  stretched : Bool
  edge : Bool
  slotStart : Bool
  silence : Bool
  deriving DecidableEq, Repr

/-- The Cycle Timer. `pulse` is the own SYNC pulse in ticks remaining (`some 0`: its end event is due at this tick).
`syncHigh` is the last sample of SYNC and `highRun` the consecutive high samples since the detector was disarmed,
held at 4 (R3). -/
structure Timer where
  divider : Nat
  t : Nat
  cycle : Cycle
  earlyRun : Nat
  earlySeen : Bool
  armed : Bool
  pulse : Option Nat
  adoption : Option Cycle
  syncHigh : Bool
  highRun : Nat
  founding : FoundingRequest
  raised : Raised
  deriving DecidableEq, Repr

/-! ## Link Interface (chapter 8) -/

/-- A cycle number with its sender's JOIN flag: a candidate (R123) or an adoption request (R126). -/
structure CycleOffer where
  cycle : Cycle
  join : Bool
  deriving DecidableEq, Repr

/-- What the compatible frames of the current cycle have shown (R127). -/
inductive SlipView where
  | none | agreed | allSlips
  deriving DecidableEq, Repr

/-- The own frame in transmission: its bytes, and the ticks since its slot start (a byte lasts 2 ticks, R130). -/
structure OwnFrame where
  bytes : List Byte
  elapsed : Nat
  deriving DecidableEq, Repr

/-- What the receiver is doing (R133): it looks for a start; it samples a frame whose start bit came at this position of
the Cycle Timer, this many ticks ago; or it waits for the line to stay recessive for one full byte time. -/
inductive RxState where
  | looking
  | receiving (start elapsed : Nat)
  | waiting
  deriving DecidableEq, Repr

/-- The Link Interface. `tx` is the own frame being sent, `rx` what the receiver is doing. -/
structure Link where
  state : LinkState
  joinCount : Nat
  request : Option CycleOffer
  slipRun : Nat
  slips : SlipView
  collisionRun : Nat
  collision : Bool
  prevEdge : Bool
  candidate : Option CycleOffer
  profileMismatch : Bool
  tx : Option OwnFrame
  rx : RxState
  deriving DecidableEq, Repr

/-! ## Peer Table (chapter 9) -/

/-- The last note shown by a station, as its entry keeps it (R139). -/
structure NoteShown where
  number : Byte
  pendingMask : Mask
  toggle : Bool
  deriving DecidableEq, Repr

/-- The frame fields of a peer entry: what the station last said about itself (9.1). The axis state is the frame's
three bits as they stand (R181). -/
structure PeerView where
  lastCycle : Cycle
  join : Bool
  halted : Bool
  origin : Bool
  known : Bool
  axis : BitVec 3
  position : Position
  barTag : Byte
  barArrival : Cycle
  barMask : Mask
  relTag : Byte
  relCycle : Cycle
  note : Option NoteShown
  deriving DecidableEq, Repr

/-- The frame fields of an ABSENT entry (9.1): all 0, last note shown absent. -/
def PeerView.blank : PeerView where
  lastCycle := 0
  join := false
  halted := false
  origin := false
  known := false
  axis := 0
  position := 0
  barTag := 0
  barArrival := 0
  barMask := 0
  relTag := 0
  relCycle := 0
  note := .none

/-- One peer entry, its heard flag, its four note bits, and the resync shown cycle the Note Unit keeps for the
station (9.1, 10). -/
structure PeerEntry where
  presence : Presence
  missed : Nat
  view : PeerView
  heard : Bool
  memory : Bool
  toggle : Bool
  resync : Bool
  refuse : Bool
  resyncShown : Option Cycle
  deriving DecidableEq, Repr

/-- The entry after device reset (R150, R166). -/
def PeerEntry.blank : PeerEntry where
  presence := .absent
  missed := 0
  view := PeerView.blank
  heard := false
  memory := false
  toggle := false
  resync := false
  refuse := false
  resyncShown := .none

/-- The Peer Table: sixteen entries and the change map (R138, R147). -/
structure PeerTable where
  entries : Vector PeerEntry 16
  changeMap : Mask
  deriving DecidableEq, Repr

/-! ## Motion Sequencer and Step Generator (chapters 2, 3, 4) -/

/-- The fields of a segment that its kind uses (2.1). -/
inductive SegBody where
  | moveRel (steps : Int) (d : Nat)
  | moveAbs (target : Position) (d : Nat)
  | home (dir : Direction) (interval maxSteps : Nat) (homeValue : Position)
  | probe (dir : Direction) (interval maxSteps : Nat)
  | barrier (tag : Byte) (mask : Mask) (timeout : Nat)
  deriving DecidableEq, Repr

/-- A segment record with its sequence number (2.1, R21). -/
structure Segment where
  seq : SeqNo
  label : BitVec 16
  body : SegBody
  deriving DecidableEq, Repr

/-- The step source of a timed segment (R37): direction, step count n, length T, steps emitted, and how many of its
due points have fallen due. Its backlog is `fallen - emitted`. -/
structure TimedSource where
  dir : Direction
  n : Nat
  length : Nat
  emitted : Nat
  fallen : Nat
  deriving DecidableEq, Repr

/-- The phase of a HOME or PROBE source (R56). -/
inductive UntimedPhase where
  | pending | stepping | closing
  deriving DecidableEq, Repr

/-- The step source of a HOME (`home` holds its home value) or PROBE (4.1). -/
structure UntimedSource where
  home : Option Position
  dir : Direction
  interval : Nat
  maxSteps : Nat
  emitted : Nat
  phase : UntimedPhase
  intervalCount : Nat
  backlog : Bool
  lastProbe : Bool
  deriving DecidableEq, Repr

/-- The step source of the executing segment, if its kind has one. -/
inductive Source where
  | none
  | timed (src : TimedSource)
  | untimed (src : UntimedSource)
  deriving DecidableEq, Repr

/-- The executing-segment context (R26) with its step source. -/
structure Executing where
  seg : Segment
  startCycle : Cycle
  source : Source
  deriving DecidableEq, Repr

/-- A finishing segment: its end boundary has passed and it still owes steps (R30, R41). -/
structure Finishing where
  seg : Segment
  startCycle : Cycle
  source : TimedSource
  deriving DecidableEq, Repr

/-- The optional part of a completion record (R109). -/
inductive RecordPart where
  | none
  | trip (position : Position)
  | release (cycle lateness : Cycle)
  deriving DecidableEq, Repr

/-- A completion record (R109). -/
structure Record where
  seq : SeqNo
  kind : SegKind
  code : Code
  label : BitVec 16
  startCycle : Cycle
  endCycle : Cycle
  steps : Nat
  position : Position
  known : Bool
  part : RecordPart
  deriving DecidableEq, Repr

/-- A started segment, other than the executing one, that still holds a completion entry: a finishing segment, or a
record held back behind one (R113). -/
inductive Outstanding where
  | finishing (f : Finishing)
  | heldBack (r : Record)
  deriving DecidableEq, Repr

/-- The Motion Sequencer. `outstanding` is the finishing list with the held-back records among it, in the order the
segments started (2.0, 7.0). The emission list of the Step Generator is the sources of its finishing segments, then
the source of the executing one (R39); the reserved entries are counted from both (R27). -/
structure Sequencer where
  axis : AxisState
  queue : List Segment
  exec : Option Executing
  outstanding : List Outstanding
  nextSeq : SeqNo
  deriving DecidableEq, Repr

/-- An input filter: the filtered level, the consecutive samples that differ from it, and whether the first sample
after device reset has been taken (R50, R91). -/
structure Filter where
  level : Bool
  run : Nat
  primed : Bool
  deriving DecidableEq, Repr

/-- The Step Generator (3.0). Timers count ticks remaining, `none` is idle, and `some 0` says that the timer's event
is due at this tick. -/
structure StepGen where
  position : Position
  known : Bool
  dirHigh : Bool
  spacing : Option Nat
  dirSetup : Option Nat
  pulse : Option Nat
  refused : Bool
  home : Filter
  probe : Filter
  limp : Filter
  limn : Filter
  deriving DecidableEq, Repr

/-! ## Barrier Unit (chapter 5) -/

/-- What a COMPLETE context knows (R77, R78): the release cycle r, the release boundary q, the lateness. -/
structure Release where
  r : Cycle
  q : Cycle
  lateness : Cycle
  deriving DecidableEq, Repr

/-- A barrier context (5.0). Its phase is COMPLETE exactly when `release` is present; its deadline is
`arrival + timeout`, absent when the timeout is 0 (R69). -/
structure BarrierCtx where
  seq : SeqNo
  tag : Byte
  mask : Mask
  arrival : Cycle
  arrivals : Vector (Option Cycle) 16
  timeout : Nat
  release : Option Release
  deriving DecidableEq, Repr

/-- The Barrier Unit: the context and the release history (5.0). -/
structure BarrierUnit where
  ctx : Option BarrierCtx
  histTag : Byte
  histCycle : Cycle
  deriving DecidableEq, Repr

/-! ## Halt Controller (chapter 6) -/

/-- The halt report (R100). -/
structure HaltReport where
  cause : HaltCause
  peer : Option Station
  segment : Option (SeqNo × Code)
  cycle : Cycle
  position : Position
  discarded : Nat
  range : Option (SeqNo × SeqNo)
  deriving DecidableEq, Repr

/-- The Halt Controller: the STOPN filter, the own-fault latch, the halt report (6.0). ORIGIN and STOP_GROUP are read
through `State.origin` and the settings. -/
structure HaltCtl where
  stopn : Filter
  latch : Bool
  report : Option HaltReport
  deriving DecidableEq, Repr

/-! ## Note Unit (chapter 10) -/

/-- Why a destination failed (10.0). -/
inductive FailReason where
  | gone | restarted | noAck
  deriving DecidableEq, Repr

/-- Where a station stands in a note that is SENDING or DONE (10.0); `no` for a station that is not a destination. -/
inductive Standing where
  | no | deferred | delivered
  | pending (shown : Option Cycle)
  | failed (reason : FailReason)
  deriving DecidableEq, Repr

/-- An outgoing slot (10.0). In QUEUED every destination is waiting, so no standing is stored. -/
inductive NoteSlot where
  | free
  | queued (number : Byte) (dests : Mask) (payload : List Byte)
  | sending (number : Byte) (dests : Mask) (payload : List Byte) (startCycle : Cycle) (standing : Vector Standing 16)
  | done (number : Byte) (dests : Mask) (standing : Vector Standing 16)
  deriving DecidableEq, Repr

/-- An incoming note (R161). -/
structure InNote where
  sender : Station
  number : Byte
  payload : List Byte
  acceptCycle : Cycle
  deriving DecidableEq, Repr

/-- The Note Unit: the four slots, the acceptance order, the next note number, the incoming queue (10.0). Its bits
per station are in the peer entries. -/
structure NoteUnit where
  slots : Vector NoteSlot 4
  order : List (Fin 4)
  nextNumber : Byte
  inbox : List InNote
  deriving DecidableEq, Repr

/-! ## Host Port (chapter 11) -/

/-- Where the transaction stands (R167). -/
inductive PortPhase where
  | closed | request | parameters | answer | ignore
  deriving DecidableEq, Repr

/-- What a read is to remove at its last response byte (R170). -/
inductive Removal where
  | record
  | note
  | changes (returned : Mask)
  deriving DecidableEq, Repr

/-- The Host Port (11.0). `csnHigh` is the level of the CSN pin, `status` the port status byte presented at the last
fall, `answer` the outcome code and the response bytes fixed when the request was taken. -/
structure HostPort where
  phase : PortPhase
  csnHigh : Bool
  byteCount : Nat
  request : Option Byte
  params : List Byte
  status : Byte
  answer : List Byte
  removal : Option Removal
  haltFlag : Bool
  linkFlag : Bool
  deriving DecidableEq, Repr

/-! ## The station -/

/-- One station (0.3): the straps' number S, the configuration store (`none`: unconfigured), the input pins at the
last tick, one structure for each block, the held completion records oldest first, and the waiting commands. -/
structure State where
  id : Station
  config : Option Settings
  pins : PinLevels
  timer : Timer
  link : Link
  peers : PeerTable
  seq : Sequencer
  gen : StepGen
  barrier : BarrierUnit
  haltCtl : HaltCtl
  held : List Record
  notes : NoteUnit
  port : HostPort
  pending : List Instr
  deriving DecidableEq, Repr

/-! ## One update for each field -/

def State.setConfig (s : State) (x : Option Settings) : State := { s with config := x }
def State.setPins (s : State) (x : PinLevels) : State := { s with pins := x }
def State.setTimer (s : State) (x : Timer) : State := { s with timer := x }
def State.setLink (s : State) (x : Link) : State := { s with link := x }
def State.setPeers (s : State) (x : PeerTable) : State := { s with peers := x }
def State.setSeq (s : State) (x : Sequencer) : State := { s with seq := x }
def State.setGen (s : State) (x : StepGen) : State := { s with gen := x }
def State.setBarrier (s : State) (x : BarrierUnit) : State := { s with barrier := x }
def State.setHaltCtl (s : State) (x : HaltCtl) : State := { s with haltCtl := x }
def State.setHeld (s : State) (x : List Record) : State := { s with held := x }
def State.setNotes (s : State) (x : NoteUnit) : State := { s with notes := x }
def State.setPort (s : State) (x : HostPort) : State := { s with port := x }
def State.setPending (s : State) (x : List Instr) : State := { s with pending := x }

/-! ## Device reset -/

/-- No event of the tick is due. -/
def Raised.clear : Raised where
  runOut := false
  stretched := false
  edge := false
  slotStart := false
  silence := false

/-- The Cycle Timer after device reset (R17). The last SYNC sample and the run of high samples have no stated value:
high and 0 (DESIGN CHOICE, log entry 6). -/
def Timer.reset : Timer where
  divider := 0
  t := 0
  cycle := 0
  earlyRun := 0
  earlySeen := false
  armed := false
  pulse := .none
  adoption := .none
  syncHigh := true
  highRun := 0
  founding := .none
  raised := Raised.clear

/-- The Link Interface after device reset (R137). That the receiver looks for a start is DEDUCED (log entry 6). -/
def Link.reset : Link where
  state := .idle
  joinCount := 0
  request := .none
  slipRun := 0
  slips := .none
  collisionRun := 0
  collision := false
  prevEdge := false
  candidate := .none
  profileMismatch := false
  tx := .none
  rx := .looking

/-- The Peer Table after device reset and after RESTART (R150). -/
def PeerTable.reset : PeerTable where
  entries := Vector.replicate 16 PeerEntry.blank
  changeMap := 0

/-- The Motion Sequencer after device reset (R36). -/
def Sequencer.reset : Sequencer where
  axis := .disabled
  queue := []
  exec := .none
  outstanding := []
  nextSeq := 1

/-- A filter before its first sample (R50, R91): the level is taken from that sample; until then it reads high
(DESIGN CHOICE, log entry 6). -/
def Filter.reset : Filter where
  level := true
  run := 0
  primed := false

/-- The Step Generator after device reset (R54). -/
def StepGen.reset : StepGen where
  position := 0
  known := false
  dirHigh := false
  spacing := .none
  dirSetup := .none
  pulse := .none
  refused := false
  home := Filter.reset
  probe := Filter.reset
  limp := Filter.reset
  limn := Filter.reset

/-- The Barrier Unit after device reset (R87). -/
def BarrierUnit.reset : BarrierUnit where
  ctx := .none
  histTag := 0
  histCycle := 0

/-- The Halt Controller after device reset (R107). -/
def HaltCtl.reset : HaltCtl where
  stopn := Filter.reset
  latch := false
  report := .none

/-- The Note Unit after device reset and after RESTART (R166). -/
def NoteUnit.reset : NoteUnit where
  slots := Vector.replicate 4 .free
  order := []
  nextNumber := 1
  inbox := []

/-- The Host Port after device reset (R180). The CSN pin is an input; its level here, and the byte count, status and
answer of no transaction, are DESIGN CHOICEs (log entry 6). -/
def HostPort.reset : HostPort where
  phase := .closed
  csnHigh := true
  byteCount := 0
  request := .none
  params := []
  status := 0
  answer := []
  removal := .none
  haltFlag := false
  linkFlag := false

/-- The input pins as the reset state holds them, every one high (DESIGN CHOICE, log entry 6). -/
def PinLevels.reset : PinLevels where
  sync := true
  home := true
  probe := true
  limp := true
  limn := true
  stopn := true

/-- The station right after device reset: every block at the value its chapter gives, no command waiting. The straps
read station 0 (DESIGN CHOICE, log entry 6: the manual takes the number from the pins). -/
def State.reset : State where
  id := 0
  config := .none
  pins := PinLevels.reset
  timer := Timer.reset
  link := Link.reset
  peers := PeerTable.reset
  seq := Sequencer.reset
  gen := StepGen.reset
  barrier := BarrierUnit.reset
  haltCtl := HaltCtl.reset
  held := []
  notes := NoteUnit.reset
  port := HostPort.reset
  pending := []

/-! ## Stops -/

/-- Why the machine stops with a fault. No rule of the manual stops a station, so there is no fault. -/
inductive Fault where
  deriving DecidableEq, Repr

/-- Why a command has no meaning. -/
inductive Refusal where
  /-- Raised only by an arm of exec whose command the model does not yet give a meaning; no arm does. Safe. -/
  | notModelled (mnemonic : String)
  deriving DecidableEq, Repr

end Sys2Proof.Machine
end

