-- ==== Sys2Proof/Machine/Bits.lean ====
section
/-! DEFINITION. Bits, bytes and modular comparison: cycle numbers (0.6), station masks (0.6), big-endian fields (12),
the CRC (R133, R181), the positions of slots (R13). -/

namespace Sys2Proof.Machine

/-! ## Cycle numbers (0.6) -/

/-- The modular difference x − y, read as a signed value. -/
def cycleDiff (x y : Cycle) : Int := (x - y).toInt

/-- x is later than y. -/
def later (x y : Cycle) : Bool := decide (0 < cycleDiff x y)

/-- x is later than, or equal to, each of these cycle numbers. -/
def isLargest (xs : List Cycle) (x : Cycle) : Bool := xs.all fun y => decide (x = y) || later x y

/-- The largest of several cycle numbers: the one that is later than, or equal to, each of the others. Where none is,
the manual gives no value, and it is free (log entry 7). -/
def largestOf (xs : List Cycle) : Cycle := (xs.find? (isLargest xs)).getD (Config.noLargest xs)

/-! ## Stations and masks -/

/-- The station numbers in increasing order. -/
def stations : List Station := [0, 1, 2, 3, 4, 5, 6, 7, 8, 9, 10, 11, 12, 13, 14, 15]

/-- The mask of one station. -/
def maskOf (k : Station) : Mask := 1#16 <<< k.val

/-- k is in the mask. -/
def inMask (m : Mask) (k : Station) : Bool := m.getLsbD k.val

/-- The mask of the stations that meet a condition. -/
def maskWhere (p : Station → Bool) : Mask := stations.foldl (fun m k => if p k then m ||| maskOf k else m) 0

/-- A bit at or above n is set in the mask. -/
def hasBitFrom (m : Mask) (n : Nat) : Bool := stations.any fun k => decide (n ≤ k.val) && inMask m k

/-! ## Fields of a byte block, most significant byte first (12) -/

/-- Byte i of a block; 00h beyond its end. -/
def byteAt (bs : List Byte) (i : Nat) : Byte := bs.getD i 0

/-- The 16-bit field that begins at byte i. -/
def word16At (bs : List Byte) (i : Nat) : BitVec 16 := byteAt bs i ++ byteAt bs (i + 1)

/-- The 24-bit field that begins at byte i. -/
def word24At (bs : List Byte) (i : Nat) : BitVec 24 := word16At bs i ++ byteAt bs (i + 2)

/-- The 32-bit field that begins at byte i. -/
def word32At (bs : List Byte) (i : Nat) : BitVec 32 := word16At bs i ++ word16At bs (i + 2)

/-- A 16-bit value as two bytes. -/
def bytes16 (w : BitVec 16) : List Byte := [w.extractLsb' 8 8, w.extractLsb' 0 8]

/-- A number as three bytes (R109's steps done). -/
def bytes24 (n : Nat) : List Byte := [BitVec.ofNat 8 (n / 65536), BitVec.ofNat 8 (n / 256), BitVec.ofNat 8 n]

/-- A 32-bit value as four bytes. -/
def bytes32 (w : BitVec 32) : List Byte :=
  [w.extractLsb' 24 8, w.extractLsb' 16 8, w.extractLsb' 8 8, w.extractLsb' 0 8]

/-- A byte from its bits, bit 0 first. -/
def byteOfBits (bits : List Bool) : Byte :=
  BitVec.ofNat 8 (bits.foldr (fun b n => (if b then 1 else 0) + 2 * n) 0)

/-! ## The CRC (R133, R181) -/

/-- One data bit enters the register: it shifts left by one, and is combined with 1021h when the bit shifted out
differs from the data bit. -/
def crcBit (reg : BitVec 16) (b : Bool) : BitVec 16 :=
  if reg.msb != b then (reg <<< 1) ^^^ 0x1021#16 else reg <<< 1

/-- One byte enters, most significant bit first. -/
def crcByte (reg : BitVec 16) (x : Byte) : BitVec 16 :=
  [7, 6, 5, 4, 3, 2, 1, 0].foldl (fun r i => crcBit r (x.getLsbD i)) reg

/-- The CRC of some bytes: the register starts at FFFFh and is not inverted at the end. -/
def crc16 (bs : List Byte) : BitVec 16 := bs.foldl crcByte 0xFFFF#16

/-! ## Slots (R13) -/

/-- The slot of an N-station link that begins at this position. -/
def slotBeginning (n pos : Nat) : Option Nat :=
  if 24 ≤ pos ∧ (pos - 24) % 96 = 0 ∧ (pos - 24) / 96 < n then some ((pos - 24) / 96) else none

/-- The slot whose start window (its first 8 positions) holds this position. -/
def slotOfStart (n pos : Nat) : Option Nat :=
  if 24 ≤ pos ∧ (pos - 24) % 96 < 8 ∧ (pos - 24) / 96 < n then some ((pos - 24) / 96) else none

/-- The position lies in slot k. -/
def inSlot (k : Station) (pos : Nat) : Bool := decide (24 ≤ pos ∧ (pos - 24) / 96 = k.val)

end Sys2Proof.Machine
end

