-- ==== Sys2Proof/Machine/Operands.lean ====
section
/-! DEFINITION. Every operand form: the segment record (R18, R19, R182), the CONFIGURE block (R172), the parameter
counts of the requests (R169), the received frame (12.2, R133, R181), and the sources a segment is given (R37, R49). -/

namespace Sys2Proof.Machine

/-! ## Requests (R169) -/

/-- How many parameter bytes SEND NOTE has, by the parameter bytes clocked so far (R151). -/
def sendNoteNeeds (ps : List Byte) : Nat :=
  if ps.length < 3 then 3
  else if (byteAt ps 2).toNat ≤ 8 then 3 + (byteAt ps 2).toNat
  else 3

/-- The request codes that name a request. -/
def requestCodes : List Byte :=
  [0x01, 0x02, 0x0F, 0x10, 0x11, 0x12, 0x13, 0x14, 0x20, 0x21, 0x22, 0x23, 0x24, 0x25, 0x30, 0x31, 0x32, 0x33]

/-! ## The segment record (12.3, R182) -/

/-- A direction byte: 00h is +, 01h is −, any other is invalid. -/
def parseDirection (b : Byte) : Option Direction :=
  if b = 0 then some .plus else if b = 1 then some .minus else none

/-- The fields a record's kind uses, read as 12.3 lays them out; `none` when the kind code or the direction code is
invalid. The other bytes are not kept. -/
def parseBody (bs : List Byte) : Option SegBody :=
  let kind := (byteAt bs 0).toNat
  if kind = 1 then some (.moveRel (word32At bs 3).toInt (word16At bs 7).toNat)
  else if kind = 2 then some (.moveAbs (word32At bs 3) (word16At bs 7).toNat)
  else if kind = 3 then
    (parseDirection (byteAt bs 3)).map fun dir =>
      .home dir (word16At bs 4).toNat (word24At bs 6).toNat (word32At bs 9)
  else if kind = 4 then
    (parseDirection (byteAt bs 3)).map fun dir => .probe dir (word16At bs 4).toNat (word24At bs 6).toNat
  else if kind = 5 then some (.barrier (byteAt bs 3) (word16At bs 4) (word16At bs 6).toNat)
  else none

/-- The range checks of R19 on the fields of a record. -/
def bodyValid (own : Station) (cfg : Settings) : SegBody → Bool
  | .moveRel steps d => decide (-65535 ≤ steps ∧ steps ≤ 65535 ∧ 1 ≤ d ∧ d ≤ 4095)
  | .moveAbs _ d => decide (1 ≤ d ∧ d ≤ 4095)
  | .home _ interval maxSteps _ => decide (cfg.minStepUs ≤ interval ∧ 1 ≤ maxSteps)
  | .probe _ interval maxSteps => decide (cfg.minStepUs ≤ interval ∧ 1 ≤ maxSteps)
  | .barrier tag mask timeout =>
    decide (tag ≠ 0 ∧ timeout ≤ 4095) && inMask mask own && !hasBitFrom mask cfg.stationCount

/-- A step count that fits no rate of one step each MIN_STEP_US in D cycles (R20, R29). -/
def rateTooHigh (cfg : Settings) (n d : Nat) : Bool :=
  decide (d * (cfg.cycleCode * 125) < n * cfg.minStepUs)

/-- The rate check of QUEUE SEGMENT: MOVE_REL only (R20). -/
def queueRateFails (cfg : Settings) : SegBody → Bool
  | .moveRel steps d => rateTooHigh cfg steps.natAbs d
  | _ => false

/-! ## The CONFIGURE block (12.3, R172) -/

/-- The settings that a 12-byte block gives. -/
def parseSettings (bs : List Byte) : Settings where
  cycleCode := (byteAt bs 0).toNat
  stationCount := (byteAt bs 1).toNat
  lossLimit := (byteAt bs 2).toNat
  releaseLead := (byteAt bs 3).toNat
  minStepUs := (byteAt bs 4).toNat
  stepPulseUs := (byteAt bs 5).toNat
  dirSetupUs := (byteAt bs 6).toNat
  stopGroup := word16At bs 7
  homeHigh := (byteAt bs 9).getLsbD 0
  probeHigh := (byteAt bs 9).getLsbD 1
  limpHigh := (byteAt bs 9).getLsbD 2
  limnHigh := (byteAt bs 9).getLsbD 3
  lateHalts := (byteAt bs 10).getLsbD 0
  probeMissHalts := (byteAt bs 10).getLsbD 1
  haltReleasesEn := (byteAt bs 10).getLsbD 2
  intEnable := (byteAt bs 11).extractLsb' 0 6

/-- Conditions 2 to 6 of R172, none of which may hold. -/
def settingsValid (own : Station) (c : Settings) : Bool :=
  decide (4 ≤ c.cycleCode ∧ c.cycleCode ≤ 64 ∧ 2 ≤ c.stationCount ∧ c.stationCount ≤ 16 ∧ 3 ≤ c.lossLimit ∧
    c.lossLimit ≤ 15 ∧ 1 ≤ c.releaseLead ∧ c.releaseLead ≤ 8 ∧ 2 ≤ c.minStepUs ∧ c.minStepUs ≤ 255 ∧
    1 ≤ c.stepPulseUs ∧ c.stepPulseUs ≤ 15 ∧ c.dirSetupUs ≤ 63) &&
  !inMask c.stopGroup own && !hasBitFrom c.stopGroup c.stationCount &&
  decide (own.val < c.stationCount ∧ 96 * c.stationCount + 64 ≤ c.cycleCode * 125 ∧
    2 * c.stepPulseUs ≤ c.minStepUs)

/-! ## The received frame (12.2) -/

/-- The note section of a frame. -/
structure FrameNote where
  number : Byte
  pendingMask : Mask
  toggleMap : Mask
  payload : List Byte
  deriving DecidableEq, Repr

/-- The assigned fields of a frame. -/
structure Frame where
  station : BitVec 4
  cycleCode : Nat
  nMinus1 : Nat
  leadMinus1 : Nat
  view : PeerView
  ackMap : Mask
  refuseMap : Mask
  resyncMap : Mask
  note : Option FrameNote
  deriving DecidableEq, Repr

/-- The NOTE flag of a frame. -/
def frameNoteFlag (bs : List Byte) : Bool := (byteAt bs 1).getLsbD 7

/-- The count of bytes the frame must hold: 27 without a note, 33 + L with one, none when L is above 8 (R133). -/
def frameLength (bs : List Byte) : Option Nat :=
  if frameNoteFlag bs then
    if (byteAt bs 30).toNat ≤ 8 then some (33 + (byteAt bs 30).toNat) else none
  else some 27

/-- The note section, when the NOTE flag is set. -/
def parseNote (bs : List Byte) : Option FrameNote :=
  if frameNoteFlag bs then
    some { number := byteAt bs 25, pendingMask := word16At bs 26, toggleMap := word16At bs 28,
           payload := (bs.drop 31).take (byteAt bs 30).toNat }
  else none

/-- What an entry keeps of a note section: the toggle bit is the one for the own station (R139). -/
def FrameNote.shown (own : Station) (n : FrameNote) : NoteShown where
  number := n.number
  pendingMask := n.pendingMask
  toggle := inMask n.toggleMap own

/-- The frame fields a peer entry records (R139); the bits 12.2 does not assign are not read (R181). -/
def parseView (own : Station) (bs : List Byte) : PeerView where
  lastCycle := word16At bs 2
  join := (byteAt bs 1).getLsbD 4
  halted := (byteAt bs 1).getLsbD 5
  origin := (byteAt bs 1).getLsbD 6
  known := (byteAt bs 6).getLsbD 7
  axis := (byteAt bs 6).extractLsb' 0 3
  position := word32At bs 7
  barTag := byteAt bs 11
  barArrival := word16At bs 12
  barMask := word16At bs 14
  relTag := byteAt bs 16
  relCycle := word16At bs 17
  note := (parseNote bs).map (FrameNote.shown own)

/-- A frame's fields from its bytes. -/
def parseFrame (own : Station) (bs : List Byte) : Frame where
  station := (byteAt bs 1).extractLsb' 0 4
  cycleCode := ((byteAt bs 4).extractLsb' 0 7).toNat
  nMinus1 := ((byteAt bs 5).extractLsb' 4 4).toNat
  leadMinus1 := ((byteAt bs 5).extractLsb' 0 3).toNat
  view := parseView own bs
  ackMap := word16At bs 19
  refuseMap := word16At bs 21
  resyncMap := word16At bs 23
  note := parseNote bs

/-- Every byte has its start bit directly and a recessive stop bit (R133, check 2). -/
def framingOk (chars : List RxChar) : Bool := chars.all fun c => c.startDominant && c.stopRecessive

/-- The bytes from the station byte through the last payload byte, over which the CRC is formed (R181). -/
def crcSpan (bs : List Byte) : List Byte := (bs.drop 1).take (bs.length - 3)

/-- The six checks of R133; the slot k of a valid frame. -/
def validSlot (n start : Nat) (chars : List RxChar) : Option Station :=
  let bs := chars.map RxChar.data
  match slotOfStart n start with
  | none => none
  | some k =>
    if h : k < 16 then
      if framingOk chars && decide (byteAt bs 0 = 0x6B) && decide (frameLength bs = some bs.length) &&
          decide (crc16 (crcSpan bs) = word16At bs (bs.length - 2)) &&
          decide (((byteAt bs 1).extractLsb' 0 4).toNat = k)
      then some ⟨k, h⟩ else none
    else none

/-- The frame's profile equals the own configured values (R134). -/
def profileMatches (cfg : Settings) (f : Frame) : Bool :=
  decide (f.cycleCode = cfg.cycleCode ∧ f.nMinus1 + 1 = cfg.stationCount ∧ f.leadMinus1 + 1 = cfg.releaseLead)

/-! ## Segments and their sources -/

/-- The kind of a segment. -/
def SegBody.kind : SegBody → SegKind
  | .moveRel .. => .moveRel
  | .moveAbs .. => .moveAbs
  | .home .. => .home
  | .probe .. => .probe
  | .barrier .. => .barrier

/-- D of a timed segment; 0 for the other kinds, which have none. -/
def SegBody.cycles : SegBody → Nat
  | .moveRel _ d => d
  | .moveAbs _ d => d
  | _ => 0

/-- The due point of step k (R38): ⌊(2k − 1) × T / (2n)⌋. -/
def TimedSource.duePoint (src : TimedSource) (k : Nat) : Nat := (2 * k - 1) * src.length / (2 * src.n)

/-- Steps fallen due and not yet emitted (3.0). -/
def TimedSource.backlog (src : TimedSource) : Nat := src.fallen - src.emitted

/-- The signed count of the steps a source has still to emit. -/
def TimedSource.owed (src : TimedSource) : Int :=
  match src.dir with
  | .plus => (src.n - src.emitted : Nat)
  | .minus => -((src.n - src.emitted : Nat) : Int)

/-- The source of a timed segment that moves by this signed count over D cycles (R37). That a source with no steps holds +
is the model's choice (DESIGN CHOICE, log entry 26); nothing reads it. -/
def timedSourceOf (cfg : Settings) (steps : Int) (d : Nat) : TimedSource where
  dir := if steps < 0 then .minus else .plus
  n := steps.natAbs
  length := d * (cfg.cycleCode * 125)
  emitted := 0
  fallen := 0

/-- The source of a HOME or PROBE at its start (R56). R62 gives the last probe level at the first examination, and R57
the interval count at a step; that before these the level is inactive and the count 0 is the model's choice (DESIGN CHOICE,
log entry 29). -/
def untimedSourceOf (home : Option Position) (dir : Direction) (interval maxSteps : Nat) : UntimedSource where
  home := home
  dir := dir
  interval := interval
  maxSteps := maxSteps
  emitted := 0
  phase := .pending
  intervalCount := 0
  backlog := false
  lastProbe := false

/-- Steps emitted by the source of the executing segment; 0 where it has none. -/
def Source.emitted : Source → Nat
  | .none => 0
  | .timed src => src.emitted
  | .untimed src => src.emitted

/-- The value lies in −2147483648..2147483647 (R28, R46). -/
def inPositionRange (x : Int) : Bool := decide (-2147483648 ≤ x ∧ x ≤ 2147483647)

end Sys2Proof.Machine
end

