-- ==== Sys2Proof/Machine/Flags.lean ====
section
/-! DEFINITION. What the station shows that is computed from its state: the settings in force, ORIGIN (R92), the six
event flags (11.6), INTN (R179), DREN (R51), STEP, SYNC and LINE drive, the activity of the inputs (R50), the
completion entries (R27), the emission list and its head (R39). -/

namespace Sys2Proof.Machine

/-! ## Settings -/

/-- The settings in force; before CONFIGURE those of `Settings.unconfigured`. -/
def State.cfg (s : State) : Settings := s.config.getD Settings.unconfigured

/-- CYCLE_US: the cycle code times 125 µs (1.2). -/
def State.cycleUs (s : State) : Nat := s.cfg.cycleCode * 125

/-- N (8.0). -/
def State.stationCount (s : State) : Nat := s.cfg.stationCount

/-- The link state is one in which the timer counts cycles (R2). -/
def State.counting (s : State) : Bool :=
  match s.link.state with
  | .idle | .listen => false
  | .joining | .active | .duplicate => true

/-! ## Inputs (R50, R91) -/

/-- STOPN is active when its filtered level is low. -/
def State.stopActive (s : State) : Bool := !s.haltCtl.stopn.level

/-- The filter of an axis input. -/
def StepGen.filter (g : StepGen) : AxisInput → Filter
  | .home => g.home
  | .probe => g.probe
  | .limp => g.limp
  | .limn => g.limn

/-- The active level CONFIGURE chose for an axis input. -/
def activeHigh (c : Settings) : AxisInput → Bool
  | .home => c.homeHigh
  | .probe => c.probeHigh
  | .limp => c.limpHigh
  | .limn => c.limnHigh

/-- The input's filtered level equals its active level; before CONFIGURE no axis input is active (R50). -/
def State.inputActive (s : State) (i : AxisInput) : Bool :=
  s.config.isSome && ((s.gen.filter i).level == activeHigh s.cfg i)

/-! ## Halt Controller outputs (R92) -/

/-- ORIGIN: STOPN active, or the own-fault latch set. -/
def State.origin (s : State) : Bool := s.stopActive || s.haltCtl.latch

/-! ## Event flags and INTN (11.6, 12.1) -/

/-- A slot is DONE. -/
def NoteSlot.isDone : NoteSlot → Bool
  | .done .. => true
  | _ => false

/-- The slot ids. -/
def slotIds : List (Fin 4) := [0, 1, 2, 3]

/-- Any slot is DONE (R159). -/
def State.noteDone (s : State) : Bool := slotIds.any fun i => (s.notes.slots.get i).isDone

/-- The six event flags: bit 0 COMPLETION, 1 HALT, 2 PEER, 3 NOTE_IN, 4 NOTE_DONE, 5 LINK. -/
def State.flags (s : State) : BitVec 6 :=
  (byteOfBits [!s.held.isEmpty, s.port.haltFlag, decide (s.peers.changeMap ≠ 0), !s.notes.inbox.isEmpty,
    s.noteDone, s.port.linkFlag]).extractLsb' 0 6

/-- INTN is high while no enabled flag is set (R179). -/
def State.intnHigh (s : State) : Bool := decide (s.flags &&& s.cfg.intEnable = 0)

/-- The port status byte (R168): the flags, bit 6 configured, bit 7 link ACTIVE. -/
def State.statusByte (s : State) : Byte :=
  byteOfBits [s.flags.getLsbD 0, s.flags.getLsbD 1, s.flags.getLsbD 2, s.flags.getLsbD 3, s.flags.getLsbD 4,
    s.flags.getLsbD 5, s.config.isSome, decide (s.link.state = .active)]

/-- The byte SDO shows as byte i of the transaction (R167): the port status byte with the request code, 00h with each
parameter byte, then the outcome code and the response bytes, and 00h after them. -/
def HostPort.sdoByte (p : HostPort) (i : Nat) : Byte :=
  if i = 0 then p.status else if i ≤ p.params.length then 0 else byteAt p.answer (i - 1 - p.params.length)

/-- SDO is driven while a transaction is open (R167, R180). -/
def State.sdoDriven (s : State) : Bool := decide (s.port.phase ≠ .closed)

/-! ## Axis and link outputs -/

/-- STEP is high while a pulse is in progress (R43). -/
def State.stepHigh (s : State) : Bool := s.gen.pulse.isSome

/-- The level of DREN that the axis state asks for (R51). -/
def State.drenByAxis (s : State) : Bool :=
  match s.seq.axis with
  | .disabled => false
  | .idle | .running | .waiting => true
  | .halted => !s.cfg.haltReleasesEn

/-- DREN (R51): it follows the axis state, and stays active while a pulse is in progress. -/
def State.dren (s : State) : Bool := s.drenByAxis || s.stepHigh

/-- The station pulls SYNC low (R9). -/
def State.drivesSync (s : State) : Bool := s.timer.pulse.isSome

/-- The station drives the LINE pair with its own frame (R130). -/
def State.drivesLine (s : State) : Bool := s.link.tx.isSome

/-! ## Completion entries (R27, R114) -/

/-- The entries reserved: one for each finishing segment and held-back record, one for the executing segment. -/
def Sequencer.reserved (q : Sequencer) : Nat := q.outstanding.length + (if q.exec.isSome then 1 else 0)

/-- The free entries: 16 less the held records and the reserved entries. -/
def State.freeEntries (s : State) : Nat := Config.completionCapacity - s.held.length - s.seq.reserved

/-- The finishing segments in sequence order. -/
def Sequencer.finishing (q : Sequencer) : List Finishing :=
  q.outstanding.filterMap fun
    | .finishing f => some f
    | .heldBack _ => none

/-! ## The emission list (R39) -/

/-- The head of the emission list: the first source that still has a step to emit. A finishing source always has
one; a HOME or PROBE is the head while STEPPING or CLOSING (R56, R57). -/
inductive Head where
  | none
  | finishing (src : TimedSource)
  | timed (src : TimedSource)
  | untimed (src : UntimedSource)
  deriving DecidableEq, Repr

/-- The emission list: the sources of the finishing segments, then the source of the executing segment. -/
def Sequencer.emissionList (q : Sequencer) : List Source :=
  q.finishing.map (fun f => .timed f.source) ++
    match q.exec with
    | .none => []
    | .some e =>
      match e.source with
      | .none => []
      | src => [src]

/-- The source of the executing segment as head, when nothing finishing stands ahead of it. -/
def execHead : Option Executing → Head
  | .none => .none
  | .some e =>
    match e.source with
    | .none => .none
    | .timed src => if src.emitted < src.n then .timed src else .none
    | .untimed src => if src.phase = .pending then .none else .untimed src

/-- The head of the emission list. -/
def Sequencer.head (q : Sequencer) : Head :=
  match q.finishing with
  | f :: _ => .finishing f.source
  | [] => execHead q.exec

/-- The head's direction when it still has a step to emit (R44). A CLOSING source has none. -/
def Head.direction : Head → Option Direction
  | .none => .none
  | .finishing src => some src.dir
  | .timed src => some src.dir
  | .untimed src => if src.phase = .stepping then some src.dir else .none

/-- The head has a step in its backlog (R42, condition 3). -/
def Head.hasDueStep : Head → Bool
  | .none => false
  | .finishing src => decide (0 < src.backlog)
  | .timed src => decide (0 < src.backlog)
  | .untimed src => src.backlog

/-- DIR is high for + and low for − (R44). -/
def Direction.high : Direction → Bool
  | .plus => true
  | .minus => false

/-- The position the counter will hold once every owed step has been emitted (R28). -/
def State.startPosition (s : State) : Int :=
  s.seq.finishing.foldl (fun p f => p + f.source.owed) s.gen.position.toInt

end Sys2Proof.Machine
end

