-- ==== Sys2Proof/Machine/Formats.lean ====
section
/-! DEFINITION. The codes of the enumerated values (12.1), the responses of the host port (12.3), and the assembly of
the own frame (12.2, R88, R89, R130, R153, R181). -/

namespace Sys2Proof.Machine

/-! ## Codes (12.1) -/

def AxisState.code : AxisState → BitVec 3
  | .disabled => 0 | .idle => 1 | .running => 2 | .waiting => 3 | .halted => 4

def LinkState.code : LinkState → Byte
  | .idle => 0 | .listen => 1 | .joining => 2 | .active => 3 | .duplicate => 4

def Presence.code : Presence → Byte
  | .absent => 0 | .present => 1 | .stale => 2 | .lost => 3 | .incompatible => 4

def SegKind.code : SegKind → Byte
  | .moveRel => 0x01 | .moveAbs => 0x02 | .home => 0x03 | .probe => 0x04 | .barrier => 0x05

def Code.byte : Code → Byte
  | .done => 0x01 | .homed => 0x02 | .homeFailed => 0x03 | .tripped => 0x04 | .probeMiss => 0x05
  | .probeActiveAtStart => 0x06 | .released => 0x07 | .releasedLate => 0x08 | .halted => 0x09 | .limit => 0x0A
  | .positionUnknown => 0x0B | .range => 0x0C | .rateLimit => 0x0D | .barrierTimeout => 0x0E
  | .barrierMismatch => 0x0F | .memberLost => 0x10 | .memberHalted => 0x11

def HaltCause.byte : HaltCause → Byte
  | .stopInput => 0x01 | .hostHalt => 0x02 | .groupHalt => 0x03 | .peerLost => 0x04 | .linkLost => 0x05
  | .resultSpace => 0x06 | .segmentFault => 0x07

def Answer.byte : Answer → Byte
  | .accepted => 0x01 | .unknownRequest => 0x02 | .badParameter => 0x03 | .notConfigured => 0x04
  | .alreadyConfigured => 0x05 | .alreadyStarted => 0x06 | .rate => 0x07 | .queueFull => 0x08 | .halted => 0x09
  | .notHalted => 0x0A | .stopActive => 0x0B | .groupOrigin => 0x0C | .linkNotActive => 0x0D | .notIdle => 0x0E
  | .empty => 0x0F | .noSlot => 0x10 | .notDone => 0x11

/-! ## Responses (12.3) -/

/-- READ STATE, 13 bytes (R176). Bits of a response that 12.3 does not assign are 0, here and below (DESIGN CHOICE, log
entry 31). -/
def readStateBytes (s : State) : List Byte :=
  [BitVec.ofNat 8 s.id.val, s.seq.axis.code.setWidth 8, s.link.state.code] ++ bytes32 s.gen.position ++
    [byteOfBits [s.gen.known, s.origin, s.haltCtl.latch, s.link.profileMismatch],
      BitVec.ofNat 8 s.seq.queue.length, BitVec.ofNat 8 s.held.length] ++ bytes16 s.timer.cycle ++
    [s.flags.setWidth 8]

/-- The optional part of a completion record: presence byte, then bytes 19..22 (12.3). Bits 7..2 of the presence byte are 0
(DESIGN CHOICE, log entry 31). -/
def RecordPart.bytes : RecordPart → List Byte
  | .none => [0x00, 0, 0, 0, 0]
  | .trip p => 0x01 :: bytes32 p
  | .release c l => 0x02 :: (bytes16 c ++ bytes16 l)

/-- The completion record, 23 bytes. Bits 7..1 of byte 17 are 0 (DESIGN CHOICE, log entry 31). -/
def Record.bytes (r : Record) : List Byte :=
  bytes16 r.seq ++ [r.kind.code, r.code.byte] ++ bytes16 r.label ++ bytes16 r.startCycle ++ bytes16 r.endCycle ++
    bytes24 r.steps ++ bytes32 r.position ++ [byteOfBits [r.known]] ++ r.part.bytes

/-- The halt report, 16 bytes; a field R100 marks absent reads 0. -/
def HaltReport.bytes (h : HaltReport) : List Byte :=
  [h.cause.byte, BitVec.ofNat 8 ((h.peer.map Fin.val).getD 0)] ++
    (match h.segment with
      | some (q, c) => bytes16 q ++ [c.byte]
      | none => [0, 0, 0]) ++
    bytes16 h.cycle ++ bytes32 h.position ++ [BitVec.ofNat 8 h.discarded] ++
    (match h.range with
      | some (a, b) => bytes16 a ++ bytes16 b
      | none => [0, 0, 0, 0])

/-- The peer entry, 22 bytes (R148); bytes 19..21 and bits 4 and 5 of byte 18 read 0 with no note shown.
Bits 7..4 of byte 4 and bits 7..6 of byte 18 are 0 (DESIGN CHOICE, log entry 31). -/
def PeerEntry.bytes (e : PeerEntry) : List Byte :=
  let v := e.view
  [e.presence.code, BitVec.ofNat 8 e.missed] ++ bytes16 v.lastCycle ++
    [byteOfBits [v.join, v.halted, v.origin, v.known], v.axis.setWidth 8] ++ bytes32 v.position ++ [v.barTag] ++
    bytes16 v.barArrival ++ bytes16 v.barMask ++ [v.relTag] ++ bytes16 v.relCycle ++
    (match v.note with
      | some n =>
        [byteOfBits [e.memory, e.toggle, e.resync, e.refuse, true, n.toggle], n.number] ++ bytes16 n.pendingMask
      | none => [byteOfBits [e.memory, e.toggle, e.resync, e.refuse], 0, 0, 0])

/-- The incoming note, 13 bytes (R162). -/
def InNote.bytes (n : InNote) : List Byte :=
  [BitVec.ofNat 8 n.sender.val, n.number, BitVec.ofNat 8 n.payload.length] ++ bytes16 n.acceptCycle ++
    (n.payload ++ List.replicate 8 0).take 8

/-- The stations of a note in one standing. -/
def standingMask (st : Vector Standing 16) (p : Standing → Bool) : Mask := maskWhere fun k => p (st.get k)

def Standing.isPending : Standing → Bool
  | .pending _ => true
  | _ => false

def Standing.isFailed : Standing → Bool
  | .failed _ => true
  | _ => false

/-- The outcome of a note so far (R159): the delivered and failed masks and the three reason masks. -/
def outcomeBytes (st : Vector Standing 16) : List Byte :=
  bytes16 (standingMask st (· == .delivered)) ++ bytes16 (standingMask st Standing.isFailed) ++
    bytes16 (standingMask st (· == .failed .gone)) ++ bytes16 (standingMask st (· == .failed .restarted)) ++
    bytes16 (standingMask st (· == .failed .noAck))

/-- The outgoing slot, 18 bytes (R163). A DONE slot has no destination pending or deferred (R159), and its two masks of
these read 0. -/
def NoteSlot.bytes : NoteSlot → List Byte
  | .free => List.replicate 18 0
  | .queued number dests _ => [0x01, number] ++ bytes16 dests ++ List.replicate 14 0
  | .sending number dests _ _ st =>
    [0x02, number] ++ bytes16 dests ++ bytes16 (standingMask st Standing.isPending) ++
      bytes16 (standingMask st (· == .deferred)) ++ outcomeBytes st
  | .done number dests st => [0x03, number] ++ bytes16 dests ++ [0, 0, 0, 0] ++ outcomeBytes st

/-- An answer: the outcome code, then the response at its full length, which reads 00h unless the outcome is
ACCEPTED (R169). -/
def answerBytes (a : Answer) (response : List Byte) (len : Nat) : List Byte :=
  a.byte :: (if a = .accepted then response else List.replicate len 0)

/-! ## The own frame (12.2) -/

/-- A bit per station from its peer entry; 0 for S and for stations at or above N (R153). -/
def State.peerBits (s : State) (p : PeerEntry → Bool) : Mask :=
  maskWhere fun k => decide (k ≠ s.id ∧ k.val < s.stationCount) && p (s.peers.entries.get k)

/-- The slot that is SENDING. -/
def NoteUnit.sendingId (u : NoteUnit) : Option (Fin 4) :=
  slotIds.find? fun i =>
    match u.slots.get i with
    | .sending .. => true
    | _ => false

/-- The note section of the own frame (R153): empty while no slot is SENDING. -/
def State.noteSection (s : State) : List Byte :=
  match s.notes.sendingId with
  | none => []
  | some i =>
    match s.notes.slots.get i with
    | .sending number _ payload _ st =>
      [number] ++ bytes16 (standingMask st Standing.isPending) ++ bytes16 (s.peerBits PeerEntry.toggle) ++
        [BitVec.ofNat 8 payload.length] ++ payload
    | _ => []

/-- The barrier field (R88): the context's tag, arrival cycle and mask; all 0 with no context. -/
def State.barrierField (s : State) : List Byte :=
  match s.barrier.ctx with
  | some c => [c.tag] ++ bytes16 c.arrival ++ bytes16 c.mask
  | none => [0, 0, 0, 0, 0]

/-- The station byte's flags: JOIN, HALTED, ORIGIN, NOTE (R92, R130). -/
def State.stationByte (s : State) : Byte :=
  BitVec.ofNat 8 s.id.val ||| byteOfBits [false, false, false, false, decide (s.link.state = .joining),
    decide (s.seq.axis = .halted), s.origin, s.notes.sendingId.isSome]

/-- The bytes of the own frame from the station byte through the last payload byte (R130, R181). -/
def State.ownFrameBody (s : State) : List Byte :=
  [s.stationByte] ++ bytes16 s.timer.cycle ++
    [BitVec.ofNat 8 s.cfg.cycleCode,
      BitVec.ofNat 8 ((s.cfg.stationCount - 1) * 16 + (s.cfg.releaseLead - 1)),
      s.seq.axis.code.setWidth 8 ||| byteOfBits [false, false, false, false, false, false, false, s.gen.known]] ++
    bytes32 s.gen.position ++ s.barrierField ++ [s.barrier.histTag] ++ bytes16 s.barrier.histCycle ++
    bytes16 (s.peerBits PeerEntry.memory) ++ bytes16 (s.peerBits PeerEntry.refuse) ++
    bytes16 (s.peerBits PeerEntry.resync) ++ s.noteSection

/-- The own frame: the delimiter 6Bh, the body, the CRC over the body, high byte first. -/
def State.ownFrame (s : State) : List Byte := [0x6B] ++ s.ownFrameBody ++ bytes16 (crc16 s.ownFrameBody)

/-- Bit i of the own frame as sent is recessive (R130): a start bit is dominant, a data bit of 1 is recessive,
least significant first, and a stop bit is recessive. -/
def sentRecessive (bs : List Byte) (i : Nat) : Bool :=
  decide (i / 10 < bs.length) &&
    (if i % 10 = 0 then false else if i % 10 = 9 then true else (byteAt bs (i / 10)).getLsbD (i % 10 - 1))

end Sys2Proof.Machine
end

