-- ==== Sys2Proof/Machine/Ops.lean ====
section
/-! DEFINITION. The operations several blocks share: the event latches (R177), the change map (R147, R149), writing a
completion record (R110, R113), taking a halt cause (R93, R99, R101), and entering LISTEN (R121). -/

namespace Sys2Proof.Machine

/-- What a meaning answers. -/
abbrev Result := Host.Outcome State Fault Refusal

/-! ## Latches and the change map -/

/-- The LINK event flag is latched at a change of the link state (R177). -/
def latchLink (s : State) : State := s.setPort { s.port with linkFlag := true }

/-- A change bit that is set again while a read that returned it is open is not among the bits that read clears
(R149). -/
def keepChange (k : Station) : Option Removal → Option Removal
  | some (.changes m) => some (.changes (m &&& ~~~(maskOf k)))
  | r => r

/-- Bit k of the change map is set (R147). -/
def setChange (k : Station) (s : State) : State :=
  (s.setPeers { s.peers with changeMap := s.peers.changeMap ||| maskOf k }).setPort
    { s.port with removal := keepChange k s.port.removal }

/-- The peer entry of station k. -/
def State.entry (s : State) (k : Station) : PeerEntry := s.peers.entries.get k

/-- Entry k is replaced. -/
def setEntry (k : Station) (e : PeerEntry) (s : State) : State :=
  s.setPeers { s.peers with entries := s.peers.entries.set k.val e }

/-! ## Completion records (R110, R113) -/

/-- The held-back records that no earlier-started segment stands before, and what is left. -/
def drain : List Outstanding → List Record × List Outstanding
  | [] => ([], [])
  | .finishing f :: rest => ([], .finishing f :: rest)
  | .heldBack r :: rest => (r :: (drain rest).1, (drain rest).2)

/-- Every record that may join the held records joins, in the order the segments started (R113). -/
def joinRecords (s : State) : State :=
  (s.setHeld (s.held ++ (drain s.seq.outstanding).1)).setSeq
    { s.seq with outstanding := (drain s.seq.outstanding).2 }

/-- The executing segment ends: its record is written into the entry it reserved. -/
def writeExecRecord (r : Record) (s : State) : State :=
  joinRecords (s.setSeq { s.seq with exec := none, outstanding := s.seq.outstanding ++ [.heldBack r] })

/-- The first finishing segment of the list gives way to its record. -/
def replaceFinishing (r : Record) : List Outstanding → List Outstanding
  | [] => []
  | .finishing _ :: rest => .heldBack r :: rest
  | .heldBack q :: rest => .heldBack q :: replaceFinishing r rest

/-- The first finishing segment completes: its record is written. -/
def writeFinishingRecord (r : Record) (s : State) : State :=
  joinRecords (s.setSeq { s.seq with outstanding := replaceFinishing r s.seq.outstanding })

/-- The cycle number of the end boundary of a segment (R30): start cycle + D. -/
def endBoundary (seg : Segment) (startCycle : Cycle) : Cycle := startCycle + BitVec.ofNat 16 seg.body.cycles

/-- The record of the executing segment that ends in the present cycle (R109, R110). -/
def State.execRecord (s : State) (e : Executing) (code : Code) (part : RecordPart) : Record where
  seq := e.seg.seq
  kind := e.seg.body.kind
  code := code
  label := e.seg.label
  startCycle := e.startCycle
  endCycle := s.timer.cycle
  steps := e.source.emitted
  position := s.gen.position
  known := s.gen.known
  part := part

/-- The record of a finishing segment: its end cycle is its end boundary whatever code it completes with (R110). -/
def State.finishingRecord (s : State) (f : Finishing) (code : Code) : Record where
  seq := f.seg.seq
  kind := f.seg.body.kind
  code := code
  label := f.seg.label
  startCycle := f.startCycle
  endCycle := endBoundary f.seg f.startCycle
  steps := f.source.emitted
  position := s.gen.position
  known := s.gen.known
  part := .none

/-! ## Halts (R93, R99) -/

/-- Where the segment of a SEGMENT_FAULT stands when the fault is taken (R97). -/
inductive Faulted where
  | executing | firstFinishing | ended
  deriving DecidableEq, Repr

/-- A halt cause as its source raises it (R93, R97). -/
structure Cause where
  kind : HaltCause
  peer : Option Station
  segment : Option (SeqNo × Code)
  faulted : Faulted
  deriving DecidableEq, Repr

def Cause.plain (kind : HaltCause) : Cause where
  kind := kind
  peer := none
  segment := none
  faulted := .ended

def Cause.fromPeer (kind : HaltCause) (k : Station) : Cause where
  kind := kind
  peer := some k
  segment := none
  faulted := .ended

def Cause.segmentFault (seq : SeqNo) (code : Code) (faulted : Faulted) : Cause where
  kind := .segmentFault
  peer := none
  segment := some (seq, code)
  faulted := faulted

/-- The cause sets the own-fault latch (R93). -/
def HaltCause.setsLatch : HaltCause → Bool
  | .stopInput | .groupHalt => false
  | .hostHalt | .segmentFault | .peerLost | .linkLost | .resultSpace => true

/-- The code a segment completes with at a halt: its own fault code when the cause is that segment, HALTED otherwise
(R33). -/
def Cause.codeFor (c : Cause) (who : Faulted) : Code :=
  match c.segment with
  | some (_, code) => if c.faulted = who then code else .halted
  | none => .halted

/-- Every finishing segment completes with HALTED, the first of them with the given code (R33, step 2). -/
def completeFinishing (s : State) : Code → List Outstanding → List Outstanding
  | _, [] => []
  | code, .finishing f :: rest => .heldBack (s.finishingRecord f code) :: completeFinishing s .halted rest
  | code, .heldBack r :: rest => .heldBack r :: completeFinishing s code rest

/-- The executing segment completes (R33, step 3). -/
def completeExecuting (s : State) (c : Cause) : List Outstanding :=
  match s.seq.exec with
  | none => []
  | some e => [.heldBack (s.execRecord e (c.codeFor .executing) .none)]

/-- The discarded range (R100): the first and last sequence numbers of the queue. -/
def queueRange (queue : List Segment) : Option (SeqNo × SeqNo) :=
  match queue.head?, queue.getLast? with
  | some a, some b => some (a.seq, b.seq)
  | _, _ => none

/-- The halt report (R99, R100). -/
def haltReportOf (c : Cause) (s : State) : HaltReport where
  cause := c.kind
  peer := c.peer
  segment := c.segment
  cycle := s.timer.cycle
  position := s.gen.position
  discarded := s.seq.queue.length
  range := queueRange s.seq.queue

/-- A halt is taken (R99): report, sequencer (R33), step generator (R48), barrier withdrawal (R85), axis, event flag,
latch. -/
def haltTaken (c : Cause) (s : State) : State :=
  joinRecords
    (((((s.setSeq
            { s.seq with
              axis := .halted
              queue := []
              exec := none
              outstanding :=
                completeFinishing s (c.codeFor .firstFinishing) s.seq.outstanding ++ completeExecuting s c }).setGen
          { s.gen with dirSetup := none, refused := false }).setBarrier
        { s.barrier with ctx := none }).setHaltCtl
      { s.haltCtl with report := some (haltReportOf c s), latch := s.haltCtl.latch || c.kind.setsLatch }).setPort
    { s.port with haltFlag := true })

/-- The own-fault latch is set. -/
def setLatch (s : State) : State := s.setHaltCtl { s.haltCtl with latch := true }

/-- A cause is taken by the axis state (R93): IDLE, RUNNING and WAITING halt; HALTED lets a latch-setting cause set
the latch; DISABLED lets HOST_HALT set it. -/
def takeCause (c : Cause) (s : State) : State :=
  match s.seq.axis with
  | .idle | .running | .waiting => haltTaken c s
  | .halted => if c.kind.setsLatch then setLatch s else s
  | .disabled => if c.kind = .hostHalt then setLatch s else s

/-- A cause that an earlier event raised, if it raised one, is taken now. -/
def takeRaised : Option Cause → State → State
  | none, s => s
  | some c, s => takeCause c s

/-! ## Entering LISTEN (R121, R17) -/

/-- The timer at an entry to LISTEN (R14, R17): free count from 0, detector disarmed, the own pulse ended, the pending
adoption and the early-edge state dropped. The cycle number, the divider and the SYNC sample are kept. -/
def listenTimer (x : Timer) : Timer :=
  { x with
    t := 0
    earlyRun := 0
    earlySeen := false
    armed := false
    pulse := none
    adoption := none
    highRun := 0
    founding := .none
    raised := Raised.clear }

/-- The link at an entry to LISTEN (R121): counts and observations cleared, an own frame in progress cut off. The
receiver keeps what it is doing (DEDUCED, log entry 6). -/
def listenLink (x : Link) : Link :=
  { x with
    state := .listen
    joinCount := 0
    request := none
    slipRun := 0
    slips := .none
    collisionRun := 0
    collision := false
    prevEdge := false
    candidate := none
    profileMismatch := false
    tx := none }

/-- Entry to LISTEN, whatever its cause (R121); the change latches LINK (R177). -/
def enterListen (s : State) : State :=
  latchLink ((s.setLink (listenLink s.link)).setTimer (listenTimer s.timer))

end Sys2Proof.Machine
end

