-- ==== Sys2Proof/Machine/Barriers.lean ====
section
/-! DEFINITION. The Barrier Unit (chapter 5): arrivals, adoption, completion, failure, creation, the deadline. -/

namespace Sys2Proof.Machine

/-! ## Completion (R77, R78) -/

/-- The release boundary and lateness for release cycle r of a context that completes in cycle c (R78). Where r lies 32767
or 32768 cycles back, the formula of R78 exceeds the 32767 that R78 and R109 give as its bound; the lateness is then the
formula's, 32768 or 32769 (DESIGN CHOICE, log entry 30). -/
def releaseFor (r c : Cycle) : Release :=
  if 1 ≤ cycleDiff r c then { r := r, q := r, lateness := 0 } else { r := r, q := c + 1, lateness := c + 1 - r }

/-- Every member other than S has a recorded arrival. -/
def allArrived (own : Station) (x : BarrierCtx) : Bool :=
  stations.all fun k => !inMask x.mask k || decide (k = own) || (x.arrivals.get k).isSome

/-- The recorded arrival cycles of the members, the own arrival first. -/
def arrivalCycles (own : Station) (x : BarrierCtx) : List Cycle :=
  x.arrival ::
    stations.filterMap fun k => if inMask x.mask k && decide (k ≠ own) then x.arrivals.get k else none

/-- The largest recorded arrival cycle, the own arrival included (R77). -/
def largestArrival (own : Station) (x : BarrierCtx) : Cycle := largestOf (arrivalCycles own x)

/-- The context completes with a computed release cycle, when every member has arrived (R77). -/
def completeComputed (own : Station) (lead : Nat) (c : Cycle) (x : BarrierCtx) : BarrierCtx :=
  if allArrived own x then
    { x with release := some (releaseFor (largestArrival own x + BitVec.ofNat 16 lead) c) }
  else x

/-! ## Failure (R81) -/

/-- The barrier fails: the context goes, and SEGMENT_FAULT is raised for its segment. -/
def failBarrier (code : Code) (s : State) : State :=
  match s.barrier.ctx with
  | none => s
  | some x => takeCause (.segmentFault x.seq code .executing) (s.setBarrier { s.barrier with ctx := none })

/-- The context is replaced. -/
def setCtx (x : BarrierCtx) (s : State) : State := s.setBarrier { s.barrier with ctx := some x }

/-! ## Frames from members (R72 to R76) -/

/-- A frame's release report is adopted (R75): same tag, later than the own arrival, not later than cycle c. -/
def adoptable (x : BarrierCtx) (v : PeerView) (c : Cycle) : Bool :=
  decide (v.relTag = x.tag) && later v.relCycle x.arrival && !later v.relCycle c

/-- What the four steps of R72 make of a member's frame. -/
inductive MemberFrame where
  | mismatch
  | context (x : BarrierCtx)
  | halted (x : BarrierCtx)

/-- Steps 2 to 4 of R72, on the context that step 1 left. -/
def examineRest (m : Station) (v : PeerView) (c : Cycle) (x : BarrierCtx) : MemberFrame :=
  if adoptable x v c then .context { x with release := some (releaseFor v.relCycle c) }
  else
    let y := if v.barTag = x.tag then x else { x with arrivals := x.arrivals.set m.val none }
    if v.halted then .halted y else .context y

/-- The four steps of R72 on the frame fields of member m, in cycle c. -/
def examine (own : Station) (lead : Nat) (m : Station) (v : PeerView) (c : Cycle) (x : BarrierCtx) : MemberFrame :=
  if v.barTag = x.tag then
    if v.barMask ≠ x.mask then .mismatch
    else
      let y := completeComputed own lead c { x with arrivals := x.arrivals.set m.val (some v.barArrival) }
      if y.release.isSome then .context y else examineRest m v c y
  else examineRest m v c x

/-- The Barrier Unit examines the frame fields of station m (R72): only for a member other than S, and only while a
context is INCOMPLETE. -/
def barrierFrame (m : Station) (v : PeerView) (s : State) : State :=
  match s.barrier.ctx with
  | none => s
  | some x =>
    if x.release.isSome || !inMask x.mask m || decide (m = s.id) then s
    else
      match examine s.id s.cfg.releaseLead m v s.timer.cycle x with
      | .mismatch => failBarrier .barrierMismatch s
      | .context y => setCtx y s
      | .halted y => failBarrier .memberHalted (setCtx y s)

/-- A member's entry enters LOST or INCOMPATIBLE (R83): an INCOMPLETE context fails with MEMBER_LOST. A COMPLETE one
stands (R77, R81), also where its own creation completed it at this boundary, before the ageing that loses the member;
there R70 says that the barrier fails in both orders, and the model follows R77, R81 and R83 (DESIGN CHOICE, log entry
24). -/
def barrierMemberLost (m : Station) (s : State) : State :=
  match s.barrier.ctx with
  | none => s
  | some x => if x.release.isSome || !inMask x.mask m then s else failBarrier .memberLost s

/-! ## Creation (R69 to R71) -/

/-- The context as it is created, before the peer table is read. -/
def newCtx (seq : SeqNo) (tag : Byte) (mask : Mask) (timeout : Nat) (a : Cycle) : BarrierCtx where
  seq := seq
  tag := tag
  mask := mask
  arrival := a
  arrivals := Vector.replicate 16 none
  timeout := timeout
  release := none

/-- One member's stored entry is taken at creation (R70). -/
def fillFrom (s : State) (m : Station) : State :=
  match s.barrier.ctx with
  | none => s
  | some x =>
    if x.release.isSome || !inMask x.mask m || decide (m = s.id) then s
    else
      match (s.entry m).presence with
      | .lost | .incompatible => failBarrier .memberLost s
      | .absent => s
      | .present | .stale => barrierFrame m (s.entry m).view s

/-- After the last member, the context completes if every member has arrived: with members other than S a second
look that changes nothing (R70), with S alone the completion of R71. -/
def completeAtCreation (s : State) : State :=
  match s.barrier.ctx with
  | none => s
  | some x => if x.release.isSome then s else setCtx (completeComputed s.id s.cfg.releaseLead s.timer.cycle x) s

/-- A BARRIER starts: the context is created in the present cycle and filled from the peer table (R69, R70). -/
def createBarrier (seq : SeqNo) (tag : Byte) (mask : Mask) (timeout : Nat) (s : State) : State :=
  completeAtCreation (stations.foldl fillFrom (setCtx (newCtx seq tag mask timeout s.timer.cycle) s))

/-! ## The deadline (R82) -/

/-- At a boundary an INCOMPLETE context with a deadline fails when x − a ≥ timeout. -/
def barrierDeadline (s : State) : State :=
  match s.barrier.ctx with
  | none => s
  | some x =>
    if x.release.isNone && decide (x.timeout ≠ 0 ∧ (x.timeout : Int) ≤ cycleDiff s.timer.cycle x.arrival) then
      failBarrier .barrierTimeout s
    else s

end Sys2Proof.Machine
end

