-- ==== Sys2Proof/Machine/Notes.lean ====
section
/-! DEFINITION. The Note Unit (chapter 10): starting a note, its failures, delivery and resync on the sender side, the
receiver side, and the link's entry to LISTEN. -/

namespace Sys2Proof.Machine

/-! ## Small updates -/

/-- Slot i is replaced. -/
def setSlot (i : Fin 4) (x : NoteSlot) (s : State) : State :=
  s.setNotes { s.notes with slots := s.notes.slots.set i.val x }

/-- Entry k is changed by a function of it. -/
def updateEntry (k : Station) (f : PeerEntry → PeerEntry) (s : State) : State := setEntry k (f (s.entry k)) s

/-- The entry is one a destination fails on with GONE (R152, R156). -/
def gonePresence : Presence → Bool
  | .absent | .lost | .incompatible => true
  | .present | .stale => false

/-- The destination is pending or deferred: the note is still on its way to it. -/
def Standing.isOpen : Standing → Bool
  | .pending _ | .deferred => true
  | _ => false

/-- Some destination is pending or deferred. -/
def anyOpen (st : Vector Standing 16) : Bool := stations.any fun k => (st.get k).isOpen

/-- The SENDING slot, with its contents. -/
structure SendingNote where
  id : Fin 4
  number : Byte
  dests : Mask
  payload : List Byte
  startCycle : Cycle
  standing : Vector Standing 16

/-- The note that is SENDING. -/
def State.sending (s : State) : Option SendingNote :=
  match s.notes.sendingId with
  | none => none
  | some i =>
    match s.notes.slots.get i with
    | .sending number dests payload startCycle standing => some ⟨i, number, dests, payload, startCycle, standing⟩
    | _ => none

/-- The note stays SENDING with new standings, or becomes DONE when no destination is left open (R159). -/
def putSending (n : SendingNote) (standing : Vector Standing 16) (s : State) : State :=
  setSlot n.id
    (if anyOpen standing then .sending n.number n.dests n.payload n.startCycle standing
      else .done n.number n.dests standing) s

/-! ## Failures -/

/-- The destination enters the resync set with its resync shown cycle absent and its toggle 0 (R156, R157). -/
def enterResync (e : PeerEntry) : PeerEntry := { e with resync := true, resyncShown := none, toggle := false }

/-- A destination that fails with NO_ACK (R157): it enters the resync set, or stays in it with its shown cycle. -/
def noAckEntry (e : PeerEntry) : PeerEntry :=
  { e with resync := true, resyncShown := if e.resync then e.resyncShown else none, toggle := false }

/-- Standings and state, as one destination after another is settled. -/
abbrev Settling := Vector Standing 16 × State

/-- A pending or deferred destination whose entry is ABSENT, LOST or INCOMPATIBLE fails with GONE (R156). -/
def failGone (x : Settling) (d : Station) : Settling :=
  if (x.1.get d).isOpen && gonePresence (x.2.entry d).presence then
    (x.1.set d.val (.failed .gone), if (x.1.get d).isPending then updateEntry d enterResync x.2 else x.2)
  else x

/-- A destination still pending or deferred fails with NO_ACK (R157). -/
def failNoAck (x : Settling) (d : Station) : Settling :=
  if (x.1.get d).isOpen then (x.1.set d.val (.failed .noAck), updateEntry d noAckEntry x.2) else x

/-- The failures a boundary brings to the SENDING note: GONE, and after it NO_ACK at the boundary that begins
b + 16 (R156, R157). -/
def noteFailures (s : State) : State :=
  match s.sending with
  | none => s
  | some n =>
    let x := stations.foldl failGone (n.standing, s)
    let y := if s.timer.cycle = n.startCycle + 16 then stations.foldl failNoAck x else x
    putSending n y.1 y.2

/-! ## Starting a note (R152) -/

/-- One destination of a note that starts is settled. -/
def settleDest (dests : Mask) (x : Settling) (d : Station) : Settling :=
  if inMask dests d then
    if gonePresence (x.2.entry d).presence then (x.1.set d.val (.failed .gone), x.2)
    else if (x.2.entry d).resync then (x.1.set d.val .deferred, x.2)
    else (x.1.set d.val (.pending none), updateEntry d (fun e => { e with toggle := !e.toggle }) x.2)
  else x

/-- The QUEUED slot becomes SENDING and its destinations are settled; it is DONE at once when none is open. -/
def startNote (i : Fin 4) (s : State) : State :=
  match s.notes.slots.get i with
  | .queued number dests payload =>
    let x := stations.foldl (settleDest dests) (Vector.replicate 16 .no, s)
    putSending ⟨i, number, dests, payload, s.timer.cycle, x.1⟩ x.1 x.2
  | _ => s

/-- The acceptance order is replaced. -/
def setOrder (order : List (Fin 4)) (s : State) : State := s.setNotes { s.notes with order := order }

/-- The QUEUED slots start one after another, oldest first, until one stays SENDING or none is left (R152). -/
def startNotes : List (Fin 4) → State → State
  | [], s => s
  | i :: rest, s =>
    let s' := startNote i (setOrder rest s)
    if s'.notes.sendingId.isSome then s' else startNotes rest s'

/-- The Note Unit takes a boundary: the failures, then a start while the link is ACTIVE and no slot is SENDING. -/
def noteBoundary (s : State) : State :=
  let s' := noteFailures s
  if s'.link.state = .active ∧ s'.notes.sendingId = none then startNotes s'.notes.order s' else s'

/-! ## The own slot start (R153) -/

/-- A pending destination with no shown cycle takes the own current cycle number. -/
def showPending (c : Cycle) (st : Vector Standing 16) (d : Station) : Vector Standing 16 :=
  match st.get d with
  | .pending none => st.set d.val (.pending (some c))
  | _ => st

/-- A station of the resync set with no resync shown cycle takes the own current cycle number. -/
def showResync (s : State) (d : Station) : State :=
  updateEntry d
    (fun e => { e with resyncShown := if e.resync && e.resyncShown.isNone then some s.timer.cycle else e.resyncShown }) s

/-- The shown cycles recorded as the own frame is assembled; none while the link is JOINING. -/
def noteShown (s : State) : State :=
  if s.link.state = .joining then s
  else
    let s' := stations.foldl showResync s
    match s'.sending with
    | none => s'
    | some n =>
      setSlot n.id (.sending n.number n.dests n.payload n.startCycle
        (stations.foldl (showPending s.timer.cycle) n.standing)) s'

/-! ## The sender side of a frame (R154, R155, R158) -/

/-- A frame from d counts against a shown cycle (R154). -/
def frameCounts (s : State) (d : Station) : Option Cycle → Bool
  | none => false
  | some x =>
    decide (s.link.state ≠ .joining) &&
      (later s.timer.cycle x || (decide (s.timer.cycle = x) && decide (s.id.val < d.val)))

/-- Step 1, JOIN: the toggle toward d becomes 0 and an open destination fails with RESTARTED. -/
def senderJoin (d : Station) (join : Bool) (x : Settling) : Settling :=
  if join then
    (if (x.1.get d).isOpen then x.1.set d.val (.failed .restarted) else x.1,
      updateEntry d (fun e => { e with toggle := false }) x.2)
  else x

/-- Step 2, delivery: d is pending, the frame counts, and its ack bit for S equals the toggle toward d. -/
def senderDelivery (d : Station) (ack : Bool) (x : Settling) : Settling :=
  match x.1.get d with
  | .pending shown =>
    if frameCounts x.2 d shown && (ack == (x.2.entry d).toggle) then (x.1.set d.val .delivered, x.2) else x
  | _ => x

/-- Step 3, resync (R158): d leaves the set at a counting frame with ack bit 0; a deferred d becomes pending with its
toggle flipped. -/
def senderResync (d : Station) (ack : Bool) (x : Settling) : Settling :=
  let e := x.2.entry d
  if e.resync && frameCounts x.2 d e.resyncShown && !ack then
    if x.1.get d = .deferred then
      (x.1.set d.val (.pending none),
        updateEntry d (fun e => { e with resync := false, resyncShown := none, toggle := !e.toggle }) x.2)
    else (x.1, updateEntry d (fun e => { e with resync := false, resyncShown := none }) x.2)
  else x

/-- The three steps of R155 in order. -/
def senderSteps (d : Station) (f : Frame) (own : Station) (x : Settling) : Settling :=
  let ack := inMask f.ackMap own
  senderResync d ack (senderDelivery d ack (senderJoin d f.view.join x))

/-- The sender side takes a recorded frame from d (R155). -/
def noteSenderFrame (d : Station) (f : Frame) (s : State) : State :=
  match s.sending with
  | none => (senderSteps d f s.id (Vector.replicate 16 .no, s)).2
  | some n =>
    let x := senderSteps d f s.id (n.standing, s)
    putSending n x.1 x.2

/-! ## The receiver side of a frame (R160, R161) -/

/-- The refuse bit for station k is written. -/
def setRefuse (k : Station) (b : Bool) (s : State) : State := updateEntry k (fun e => { e with refuse := b }) s

/-- Steps 1 and 2: JOIN clears memory and refuse; a resync bit for S clears the memory. -/
def receiverClear (f : Frame) (own : Station) (e : PeerEntry) : PeerEntry :=
  if f.view.join then { e with memory := false, refuse := false }
  else if inMask f.resyncMap own then { e with memory := false }
  else e

/-- A new note from k is appended and remembered. -/
def acceptNote (k : Station) (n : FrameNote) (t : Bool) (s : State) : State :=
  updateEntry k (fun e => { e with memory := t, refuse := false })
    (s.setNotes
      { s.notes with
        inbox := s.notes.inbox ++ [{ sender := k, number := n.number, payload := n.payload,
                                     acceptCycle := s.timer.cycle }] })

/-- Step 3 for a note that shows S pending, with toggle bit t. -/
def receiveNote (k : Station) (n : FrameNote) (t : Bool) (s : State) : State :=
  if t = (s.entry k).memory then setRefuse k false s
  else if s.notes.inbox.length < Config.inboxCapacity then acceptNote k n t s
  else setRefuse k true s

/-- The receiver side takes a recorded frame from k (R160). -/
def noteReceiverFrame (k : Station) (f : Frame) (s : State) : State :=
  let s' := updateEntry k (receiverClear f s.id) s
  match f.note with
  | none => setRefuse k false s'
  | some n =>
    if f.view.join || decide (s.link.state = .joining) || !inMask n.pendingMask s.id then setRefuse k false s'
    else receiveNote k n (inMask n.toggleMap s.id) s'

/-! ## Entry to LISTEN (R165) -/

/-- An open destination fails with GONE and does not enter the resync set. -/
def failAtListen (st : Vector Standing 16) (d : Station) : Vector Standing 16 :=
  if (st.get d).isOpen then st.set d.val (.failed .gone) else st

/-- Every toggle, memory and refuse bit becomes 0; every resync shown cycle becomes absent. -/
def clearNoteBits (s : State) (d : Station) : State :=
  updateEntry d (fun e => { e with toggle := false, memory := false, refuse := false, resyncShown := none }) s

/-- The Note Unit at an entry to LISTEN other than by RESTART. -/
def notesAtListen (s : State) : State :=
  let s' := stations.foldl clearNoteBits s
  match s'.sending with
  | none => s'
  | some n => putSending n (stations.foldl failAtListen n.standing) s'

end Sys2Proof.Machine
end

