-- ==== Sys2Proof/Machine/Peers.lean ====
section
/-! DEFINITION. The Peer Table (chapter 9): recording a frame, a mismatched profile, ageing, marking LOST, handing a
transition on, the own entry. -/

namespace Sys2Proof.Machine

/-! ## Handing on (R145) -/

/-- The halt controller's part of a transition into LOST or INCOMPATIBLE: PEER_LOST for a stop-group member (R96). -/
def haltPeerLost (k : Station) (s : State) : State :=
  if inMask s.cfg.stopGroup k then takeCause (.fromPeer .peerLost k) s else s

/-- A transition of entry k into LOST or INCOMPATIBLE is handed on; the barrier failure and the halt cause are taken
in either order (R84, R145). -/
def handOn (barrierFirst : Bool) (k : Station) (s : State) : State :=
  if barrierFirst then haltPeerLost k (barrierMemberLost k s) else barrierMemberLost k (haltPeerLost k s)

/-! ## Recording (R139, R140, R142) -/

/-- The entry after a frame with these fields is recorded in it. -/
def recordedEntry (v : PeerView) (e : PeerEntry) : PeerEntry :=
  if gonePresence e.presence then { e with view := v, heard := true, presence := .present, missed := 0 }
  else { e with view := v, heard := true }

/-- A valid, compatible frame is recorded in entry k; a return to PRESENT sets the change bit. -/
def recordFrame (k : Station) (v : PeerView) (s : State) : State :=
  let s' := setEntry k (recordedEntry v (s.entry k)) s
  if gonePresence (s.entry k).presence then setChange k s' else s'

/-- A valid frame from station k has a mismatched profile (R142). -/
def profileMismatch (barrierFirst : Bool) (k : Station) (s : State) : State :=
  if (s.entry k).presence = .incompatible then s
  else
    handOn barrierFirst k
      (setChange k (updateEntry k (fun e => { e with presence := .incompatible, missed := 0, heard := false }) s))

/-! ## Ageing (R143) -/

/-- The entry is PRESENT or STALE. -/
def onLink : Presence → Bool
  | .present | .stale => true
  | .absent | .lost | .incompatible => false

/-- One peer entry is aged, and its heard flag cleared. -/
def ageEntry (barrierFirst : Bool) (s : State) (k : Station) : State :=
  let e := s.entry k
  if k = s.id ∨ s.stationCount ≤ k.val then s
  else if onLink e.presence then
    if e.heard then setEntry k { e with presence := .present, missed := 0, heard := false } s
    else if e.missed + 1 < s.cfg.lossLimit then
      setEntry k { e with presence := .stale, missed := e.missed + 1, heard := false } s
    else
      handOn barrierFirst k
        (setChange k (setEntry k { e with presence := .lost, missed := e.missed + 1, heard := false } s))
  else setEntry k { e with heard := false } s

/-- The Peer Table takes a boundary: ageing in JOINING, ACTIVE and DUPLICATE, in increasing order of station. -/
def ageing (barrierFirst : Bool) (s : State) : State :=
  if s.counting then stations.foldl (ageEntry barrierFirst) s else s

/-! ## Entry to LISTEN by sync loss (R144) -/

/-- A PRESENT or STALE peer entry is marked LOST; every heard flag is cleared. -/
def markLost (barrierFirst : Bool) (s : State) (k : Station) : State :=
  let e := s.entry k
  if k = s.id ∨ s.stationCount ≤ k.val then s
  else if onLink e.presence then
    handOn barrierFirst k (setChange k (setEntry k { e with presence := .lost, heard := false } s))
  else setEntry k { e with heard := false } s

/-- Every PRESENT and STALE peer entry is marked LOST, in increasing order of station. -/
def markAllLost (barrierFirst : Bool) (s : State) : State := stations.foldl (markLost barrierFirst) s

/-! ## The own entry (R146) -/

/-- The own entry takes the contents of the own frame. -/
def writeOwnEntry (bytes : List Byte) (s : State) : State :=
  updateEntry s.id (fun e => { e with presence := .present, missed := 0, view := parseView s.id bytes }) s

end Sys2Proof.Machine
end

