-- ==== Sys2Proof/Machine/Port.lean ====
section
/-! DEFINITION. The transactions of the host port (R167 to R171): how a request is assembled and taken, the taking of
HALT (R95), and the meanings of CSN_FALL, CSN_RISE, REMOVAL and UNKNOWN_REQUEST. -/

namespace Sys2Proof.Machine

/-! ## CSN_FALL and CSN_RISE -/

/-- CSN falls (R167, R168): a transaction begins in REQUEST, and the port status byte is presented. -/
def beginTransaction (s : State) : State :=
  s.setPort
    { s.port with
      phase := .request
      csnHigh := false
      byteCount := 0
      request := none
      params := []
      status := s.statusByte
      answer := []
      removal := none }

/-- A falling edge needs CSN high before it. -/
def execCsnFall (s : State) : Result := .next (if s.port.csnHigh then beginTransaction s else s)

/-- CSN rises (R167, R170): the transaction ends; an untaken request and a pending removal are dropped. -/
def endTransaction (s : State) : State :=
  s.setPort
    { s.port with
      phase := .closed
      csnHigh := true
      byteCount := 0
      request := none
      params := []
      answer := []
      removal := none }

def execCsnRise (s : State) : Result := .next (if s.port.csnHigh then s else endTransaction s)

/-! ## REMOVAL (R170) -/

/-- What the read removes: the head record (R116), the head note (R162), the returned change bits (R149). -/
def removeItem (s : State) : Option Removal → State
  | none => s
  | some .record => s.setHeld (s.held.drop 1)
  | some .note => s.setNotes { s.notes with inbox := s.notes.inbox.drop 1 }
  | some (.changes m) => s.setPeers { s.peers with changeMap := s.peers.changeMap &&& ~~~m }

/-- The last response byte completes (R167, R170): the pending removal is made, and the port enters IGNORE. -/
def completeAnswer (s : State) : State :=
  (removeItem s s.port.removal).setPort
    { s.port with phase := .ignore, byteCount := s.port.byteCount + s.port.answer.length, removal := none }

def execRemoval (s : State) : Result := .next (if s.port.phase = .answer then completeAnswer s else s)

/-! ## Taking a request (R167, R169) -/

/-- The answer a request was given: its outcome bytes and the removal it leaves pending. -/
def giveAnswer (answer : List Byte) (removal : Option Removal) (s : State) : State :=
  s.setPort { s.port with phase := .answer, answer := answer, removal := removal }

/-- An answer that removes nothing. -/
def respond (a : Answer) (response : List Byte) (len : Nat) (s : State) : State :=
  giveAnswer (answerBytes a response len) none s

/-- A refused request changes nothing but the answer. -/
def refuse (a : Answer) (len : Nat) (s : State) : State := respond a [] len s

/-- The parameter bytes assembled so far, when this request's bytes come next: its code in REQUEST, its continuation
in PARAMETERS; SDI is ignored in every other state (R167). -/
def assembled (code : Byte) (bytes : List Byte) (p : HostPort) : Option (List Byte) :=
  match p.phase with
  | .request => some bytes
  | .parameters => if p.request = some code then some (p.params ++ bytes) else none
  | .closed | .answer | .ignore => none

/-- The port holds this much of the request, and goes on holding it until CSN rises, also through the answer to a refusal:
R182's "none of its bytes is kept" is read of the queue, where no place is taken (DESIGN CHOICE, log entry 27). Only the
number of these bytes is read after the answer is given. -/
def holdParams (code : Byte) (params : List Byte) (s : State) : State :=
  s.setPort
    { s.port with phase := .parameters, request := some code, params := params, byteCount := 1 + params.length }

/-- A request's bytes are clocked: it is taken when its last parameter byte completes, and waits in PARAMETERS before
(R169). Bytes beyond the last parameter are not read (R167). -/
def clockRequest (code : Byte) (needs : List Byte → Nat) (bytes : List Byte) (take : List Byte → State → State)
    (s : State) : State :=
  match assembled code bytes s.port with
  | none => s
  | some ps =>
    if ps.length < needs ps then holdParams code ps s
    else take (ps.take (needs ps)) (holdParams code (ps.take (needs ps)) s)

/-- A request without parameter bytes is taken when its code completes, in REQUEST. -/
def clockPlain (code : Byte) (take : State → State) (s : State) : State :=
  match s.port.phase with
  | .request => take (holdParams code [] s)
  | .closed | .parameters | .answer | .ignore => s

/-! ## HALT (R95) -/

/-- HALT is taken: refused in an unconfigured station, otherwise HOST_HALT is raised. -/
def takeHalt (s : State) : State :=
  if s.config.isNone then refuse .notConfigured 0 s
  else respond .accepted [] 0 (takeCause (.plain .hostHalt) s)

/-! ## UNKNOWN_REQUEST (R171) -/

/-- A code that names no request: answered UNKNOWN_REQUEST without response bytes, and nothing changes. The outcome
byte is the last of the answer, so the port enters IGNORE when it completes (R167, R171). -/
def answerUnknown (s : State) : State := refuse .unknownRequest 0 s

def execUnknownRequest (code : Byte) (s : State) : Result :=
  .next (if code ∈ requestCodes then s else clockPlain code answerUnknown s)

end Sys2Proof.Machine
end

