-- ==== Sys2Proof/Machine/Motion.lean ====
section
/-! DEFINITION. The Motion Sequencer and the Step Generator at a start, at an end and at a step: the start of the head
segment (R26 to R29), the end of a HOME or PROBE (R56, R59, R62, R66), a step and its refusal (R42 to R46), and the
sequencer's turn at a boundary (R30, R40, R41, R79, R80). -/

namespace Sys2Proof.Machine

/-! ## The end of a HOME or PROBE (R66) -/

/-- The outcome halts the station (R60, R62, R64). -/
def haltingOutcome (cfg : Settings) : Code → Bool
  | .homeFailed | .probeActiveAtStart => true
  | .probeMiss => cfg.probeMissHalts
  | _ => false

/-- The axis state is changed. -/
def setAxis (a : AxisState) (s : State) : State := s.setSeq { s.seq with axis := a }

/-- A HOME or PROBE ends with this outcome: its source goes, its record is written, the axis becomes IDLE, and a
halting outcome then raises SEGMENT_FAULT (R31, R66). -/
def endUntimed (e : Executing) (code : Code) (part : RecordPart) (s : State) : State :=
  let s' := setAxis .idle (writeExecRecord (s.execRecord e code part) s)
  if haltingOutcome s.cfg code then takeCause (.segmentFault e.seg.seq code .ended) s' else s'

/-- HOMED (R59): the counter takes the home value and the flag is set before the segment ends. -/
def endHomed (e : Executing) (homeValue : Position) (s : State) : State :=
  endUntimed e .homed .none (s.setGen { s.gen with position := homeValue, known := true })

/-- HOME_FAILED (R60): the position-known flag is cleared. -/
def endHomeFailed (e : Executing) (s : State) : State :=
  endUntimed e .homeFailed .none (s.setGen { s.gen with known := false })

/-- The source of the executing segment is replaced. -/
def setExecSource (e : Executing) (src : Source) (s : State) : State :=
  s.setSeq { s.seq with exec := some { e with source := src } }

/-- The source enters STEPPING and its step 1 falls due (R57). -/
def enterStepping (u : UntimedSource) : UntimedSource :=
  { u with phase := .stepping, backlog := true, lastProbe := false }

/-- The first examination of a PENDING source (R56, R59, R62). -/
def examineFirst (e : Executing) (u : UntimedSource) (s : State) : State :=
  match u.home with
  | some homeValue =>
    if s.inputActive .home then endHomed e homeValue s else setExecSource e (.untimed (enterStepping u)) s
  | none =>
    if s.inputActive .probe then endUntimed e .probeActiveAtStart .none s
    else setExecSource e (.untimed (enterStepping u)) s

/-- A PENDING source is examined at the tick at which nothing finishing is left ahead of it (R56). -/
def firstExamination (s : State) : State :=
  match s.seq.exec with
  | none => s
  | some e =>
    match e.source with
    | .untimed u => if u.phase = .pending ∧ s.seq.finishing = [] then examineFirst e u s else s
    | _ => s

/-! ## Starting the head segment (R26 to R29) -/

/-- The executing-segment context of a segment that starts in the present cycle; the head leaves the queue. -/
def startWith (seg : Segment) (axis : AxisState) (src : Source) (rest : List Segment) (s : State) : State :=
  s.setSeq
    { s.seq with
      axis := axis
      queue := rest
      exec := some { seg := seg, startCycle := s.timer.cycle, source := src } }

/-- A segment that fails its start check ends at once as the executing segment (R29). -/
def failStart (seg : Segment) (code : Code) (rest : List Segment) (s : State) : State :=
  takeCause (.segmentFault seg.seq code .executing) (startWith seg .running .none rest s)

/-- The first failing start check of a MOVE_ABS (R29), from the start position of R28. -/
def moveAbsFailure (s : State) (target : Position) (d : Nat) : Option Code :=
  let n := (target.toInt - s.startPosition).natAbs
  if !s.gen.known then some .positionUnknown
  else if 65535 < n then some .range
  else if rateTooHigh s.cfg n d then some .rateLimit
  else none

/-- The head segment starts and is handed on by its kind (R26). A HOME or PROBE is PENDING; the boundary examines it in a
turn of its own (R56), since a halt of the same boundary may come between (R34). -/
def startSegment (seg : Segment) (rest : List Segment) (s : State) : State :=
  match seg.body with
  | .moveRel steps d =>
    if inPositionRange (s.startPosition + steps) then
      startWith seg .running (.timed (timedSourceOf s.cfg steps d)) rest s
    else failStart seg .range rest s
  | .moveAbs target d =>
    match moveAbsFailure s target d with
    | some code => failStart seg code rest s
    | none => startWith seg .running (.timed (timedSourceOf s.cfg (target.toInt - s.startPosition) d)) rest s
  | .home dir interval maxSteps homeValue =>
    startWith seg .running (.untimed (untimedSourceOf (some homeValue) dir interval maxSteps)) rest s
  | .probe dir interval maxSteps =>
    startWith seg .running (.untimed (untimedSourceOf none dir interval maxSteps)) rest s
  | .barrier tag mask timeout => createBarrier seg.seq tag mask timeout (startWith seg .waiting .none rest s)

/-- The axis lets a start be made: it is IDLE, or the executing segment has just ended (R26). -/
def mayStart (ended : Bool) : AxisState → Bool
  | .idle => true
  | .running | .waiting => ended
  | .disabled | .halted => false

/-- The sequencer examines the boundary for a start: the gate of R27, the start of R26, or the underrun of R32. -/
def startAtBoundary (ended : Bool) (s : State) : State :=
  if mayStart ended s.seq.axis then
    match s.seq.queue with
    | [] => setAxis .idle s
    | seg :: rest =>
      if s.freeEntries = 0 then takeCause (.plain .resultSpace) s else startSegment seg rest s
  else s

/-! ## The end of a timed segment (R30, R40, R41) -/

/-- The due points below motion tick x join the source's backlog, at most `fuel` of them (R40). -/
def joinDue (x : Nat) : Nat → TimedSource → TimedSource
  | 0, src => src
  | fuel + 1, src =>
    if src.fallen < src.n ∧ src.duePoint (src.fallen + 1) < x then joinDue x fuel { src with fallen := src.fallen + 1 }
    else src

/-- The motion tick at which the present cycle begins, for a segment that started in the given cycle (R38). -/
def State.motionStart (s : State) (startCycle : Cycle) : Nat := (s.timer.cycle - startCycle).toNat * s.cycleUs

/-- The due points in the skipped positions of the cycle just ended join the backlog of the executing timed segment
(R40): at most as many as there are skipped positions. -/
def joinSkipped (skipped : Nat) (s : State) : State :=
  match s.seq.exec with
  | none => s
  | some e =>
    match e.source with
    | .timed src => setExecSource e (.timed (joinDue (s.motionStart e.startCycle) skipped src)) s
    | _ => s

/-- A timed segment reaches its end boundary (R30, R41): DONE, or finishing with every due point fallen. -/
def endTimed (e : Executing) (src : TimedSource) (s : State) : State :=
  if src.emitted = src.n then writeExecRecord (s.execRecord e .done .none) s
  else
    s.setSeq
      { s.seq with
        exec := none
        outstanding :=
          s.seq.outstanding ++
            [.finishing { seg := e.seg, startCycle := e.startCycle, source := { src with fallen := src.n } }] }

/-! ## Barrier release (R79, R80) -/

/-- RELEASED when the lateness is 0, RELEASED_LATE otherwise. -/
def releaseCode (r : Release) : Code := if r.lateness = 0 then .released else .releasedLate

/-- The context releases: history, context, record (R79). -/
def releaseBarrier (e : Executing) (x : BarrierCtx) (r : Release) (s : State) : State :=
  let s' := s.setBarrier { ctx := none, histTag := x.tag, histCycle := r.r }
  writeExecRecord (s'.execRecord e (releaseCode r) (.release r.r r.lateness)) s'

/-- The SEGMENT_FAULT that a late release raises under LATE_HALTS, for a segment whose record is written (R80, R97). -/
def lateFault (cfg : Settings) (e : Executing) (r : Release) : Option Cause :=
  if r.lateness ≠ 0 ∧ cfg.lateHalts then some (.segmentFault e.seg.seq .releasedLate .ended) else none

/-! ## The sequencer's turn at a boundary -/

/-- A COMPLETE context whose release boundary is the present one. -/
def releaseDue (s : State) : Option (BarrierCtx × Release) :=
  match s.barrier.ctx with
  | none => none
  | some x =>
    match x.release with
    | none => none
    | some r => if r.q = s.timer.cycle then some (x, r) else none

/-- A state, and the cause that has been raised in it and not yet taken. -/
abbrev Raising := State × Option Cause

/-- The end of the executing segment that the boundary brings, and the start it allows (R26, R30, R79, R80). The halt of
a late release is taken before the start when `lateHaltFirst` says so; otherwise it is left raised after the start, and
the boundary takes it in its own turn, so that another cause of the same boundary may come between the record and the
fault (R80, R101, R103; the order is the command's operand, log entry 3). -/
def sequencerBoundary (lateHaltFirst : Bool) (s : State) : Raising :=
  match s.seq.exec with
  | none => (startAtBoundary false s, none)
  | some e =>
    match e.source with
    | .timed src =>
      if endBoundary e.seg e.startCycle = s.timer.cycle then (startAtBoundary true (endTimed e src s), none)
      else (startAtBoundary false s, none)
    | .untimed _ => (startAtBoundary false s, none)
    | .none =>
      match releaseDue s with
      | none => (startAtBoundary false s, none)
      | some (x, r) =>
        let s' := releaseBarrier e x r s
        if lateHaltFirst then (startAtBoundary true (takeRaised (lateFault s.cfg e r) s'), none)
        else (startAtBoundary true s', lateFault s.cfg e r)

/-- The Step Generator and the sequencer take a boundary with this skipped count. -/
def motionBoundary (lateHaltFirst : Bool) (skipped : Nat) (s : State) : Raising :=
  sequencerBoundary lateHaltFirst (joinSkipped skipped s)

/-! ## A step (R42 to R46) -/

/-- Conditions 1 to 5 of R42. -/
def stepConditions (s : State) : Bool :=
  decide (s.seq.axis = .running) && !s.gen.refused && s.seq.head.hasDueStep &&
    (match s.gen.spacing with
      | none => true
      | some k => decide (s.cfg.minStepUs ≤ k)) &&
    (match s.seq.head.direction with
      | none => false
      | some d => d.high == s.gen.dirHigh) &&
    s.gen.dirSetup.isNone

/-- The limit input a step in the direction of DIR approaches (R45). -/
def limitAhead (dirHigh : Bool) : AxisInput := if dirHigh then .limp else .limn

/-- The counter after a step in the direction of DIR (R43), exact. -/
def steppedPosition (g : StepGen) : Int := if g.dirHigh then g.position.toInt + 1 else g.position.toInt - 1

/-- A step is refused (R45, R46): refused becomes "yes", and SEGMENT_FAULT is raised for the head's segment, which
returns it to "no" (R48). -/
def refuseStep (seq : SeqNo) (code : Code) (who : Faulted) (s : State) : State :=
  takeCause (.segmentFault seq code who) (s.setGen { s.gen with refused := true })

/-- The pulse begins (R43): counter, spacing measure, pulse timer. -/
def beginPulse (s : State) : State :=
  s.setGen
    { s.gen with
      position := BitVec.ofInt 32 (steppedPosition s.gen)
      spacing := some 0
      pulse := some s.cfg.stepPulseUs }

/-- The first finishing segment of the list takes a new source. -/
def setFinishingSource (src : TimedSource) : List Outstanding → List Outstanding
  | [] => []
  | .finishing f :: rest => .finishing { f with source := src } :: rest
  | .heldBack r :: rest => .heldBack r :: setFinishingSource src rest

/-- A step of a finishing source is counted; at its last one the record is written DONE, and a PENDING source behind
it may be examined (R39, R56). -/
def countFinishingStep (f : Finishing) (s : State) : State :=
  let src := { f.source with emitted := f.source.emitted + 1 }
  let s' := s.setSeq { s.seq with outstanding := setFinishingSource src s.seq.outstanding }
  if f.source.n ≤ src.emitted then
    firstExamination (writeFinishingRecord (s'.finishingRecord { f with source := src } .done) s')
  else s'

/-- A step of a HOME or PROBE source is counted; at max steps the phase becomes CLOSING (R57). -/
def countUntimedStep (u : UntimedSource) : UntimedSource :=
  { u with
    emitted := u.emitted + 1
    backlog := false
    intervalCount := 0
    phase := if u.maxSteps ≤ u.emitted + 1 then .closing else u.phase }

/-- A step of the executing segment's source is counted. -/
def countExecStep (s : State) : State :=
  match s.seq.exec with
  | none => s
  | some e =>
    match e.source with
    | .none => s
    | .timed src => setExecSource e (.timed { src with emitted := src.emitted + 1 }) s
    | .untimed u => setExecSource e (.untimed (countUntimedStep u)) s

/-- Condition 6 of R42 on the head's step: the code that refuses it, LIMIT before RANGE (R46). -/
def stepRefusal (s : State) : Option Code :=
  if s.inputActive (limitAhead s.gen.dirHigh) then some .limit
  else if inPositionRange (steppedPosition s.gen) then none
  else some .range

/-- The step of a finishing head. -/
def stepFinishing (f : Finishing) (s : State) : State :=
  match stepRefusal s with
  | some code => refuseStep f.seg.seq code .firstFinishing s
  | none => countFinishingStep f (beginPulse s)

/-- The step of the executing segment as head. -/
def stepExecuting (e : Executing) (s : State) : State :=
  match stepRefusal s with
  | some code => refuseStep e.seg.seq code .executing s
  | none => countExecStep (beginPulse s)

/-- The home value of the executing HOME. -/
def Executing.homeValue (e : Executing) : Option Position :=
  match e.source with
  | .untimed u => u.home
  | _ => none

/-- A due step that meets conditions 1 to 5 is taken: the HOME examination (R59), then condition 6, then the pulse. -/
def takeStep (s : State) : State :=
  match s.seq.finishing with
  | f :: _ => stepFinishing f s
  | [] =>
    match s.seq.exec with
    | none => s
    | some e =>
      match e.homeValue with
      | some v => if s.inputActive .home then endHomed e v s else stepExecuting e s
      | none => stepExecuting e s

end Sys2Proof.Machine
end

