-- ==== Sys2Proof/Machine/Due.lean ====
section
/-! DEFINITION. When each event of the station's own making is due: the condition its rule gives, read from the state
the last tick left. A command of such an event acts only while the event is due, and TICK is taken only when none is
(log entries 2 and 4). -/

namespace Sys2Proof.Machine

/-! ## The boundary of this tick -/

/-- The position of the tick at which an edge was taken (R5): the one the count would have reached, when its run-out
falls at the same tick. -/
def State.edgePosition (s : State) : Nat :=
  if s.timer.raised.runOut || s.timer.raised.stretched then s.timer.t + 1 else s.timer.t

/-- A taken edge lies in the acceptance window (R5, R6). -/
def State.edgeAccepted (s : State) : Bool := s.counting && decide (s.cycleUs ≤ s.edgePosition + 16)

/-- A boundary falls at this tick and has not been taken. The events of the Step Generator at this tick come after it:
position 0 of the new cycle is this tick (R5, R39 to R42, R66). -/
def State.boundaryDue (s : State) : Bool :=
  s.timer.raised.runOut || s.timer.raised.stretched || (s.timer.raised.edge && s.edgeAccepted)

/-! ## Timer and link events -/

def stretchedRunOutDue (s : State) : Bool := s.timer.raised.stretched && decide (s.link.state = .duplicate)

/-- The detector becomes armed at the tick that completes four high samples (R3). -/
def edgeDetectorArmedDue (s : State) : Bool := !s.timer.armed && decide (4 ≤ s.timer.highRun)

def syncPulseEndDue (s : State) : Bool := decide (s.timer.pulse = some 0)

def foundingDue (s : State) : Bool := decide (s.timer.founding = .due ∧ s.link.state = .listen)

def silenceDue (s : State) : Bool := s.timer.raised.silence && decide (s.link.state = .listen)

/-- The last stop bit of the own frame has been sent: 2 ticks for each byte (R130). -/
def ownFrameEndDue (s : State) : Bool :=
  match s.link.tx with
  | none => false
  | some f => decide (2 * f.bytes.length ≤ f.elapsed)

/-! ## Input events (R50, R91) -/

/-- An axis input has been sampled at the other level for two ticks. -/
def levelChangeDue (f : Filter) : Bool := decide (2 ≤ f.run)

/-- A change of PROBE under a PROBE that is STEPPING or CLOSING may end it, so it comes after the boundary of its
tick (R66). -/
def probeWatching (s : State) : Bool :=
  match s.seq.head with
  | .untimed u => u.home.isNone
  | _ => false

/-- The HOME and PROBE levels of this tick are settled before a first examination that it may bring (R56, R59, R62).
A change of PROBE that a stepping PROBE watches waits for the boundary instead. -/
def examinationLevelsSettled (s : State) : Bool :=
  !levelChangeDue s.gen.home && (probeWatching s || !levelChangeDue s.gen.probe)

def runOutDue (s : State) : Bool :=
  s.timer.raised.runOut && examinationLevelsSettled s && decide (s.link.state = .joining ∨ s.link.state = .active)

/-- The edge of this tick can be taken: one that ends the cycle waits, as a run-out does, for the levels of its tick. -/
def edgeDue (s : State) : Bool := s.timer.raised.edge && (!s.edgeAccepted || examinationLevelsSettled s)

/-- STOPN has been sampled at the other level for four ticks. -/
def stopChangeDue (s : State) : Bool := decide (4 ≤ s.haltCtl.stopn.run)

def stopInputDue (s : State) : Bool := stopChangeDue s && s.haltCtl.stopn.level

def stopnInactiveDue (s : State) : Bool := stopChangeDue s && !s.haltCtl.stopn.level

/-- Any axis input has a change due. -/
def anyLevelChange (s : State) : Bool :=
  levelChangeDue s.gen.home || levelChangeDue s.gen.probe || levelChangeDue s.gen.limp || levelChangeDue s.gen.limn

/-! ## Step Generator events -/

/-- The next due point of the executing timed segment has been reached (R38). -/
def stepDueNow (s : State) : Bool :=
  match s.seq.exec with
  | none => false
  | some e =>
    match e.source with
    | .timed src =>
      decide (src.fallen < src.n ∧ src.duePoint (src.fallen + 1) ≤ s.motionStart e.startCycle + s.timer.t)
    | _ => false

/-- The interval count of a STEPPING source has reached the interval after a step of it (R57). -/
def untimedStepDueNow (s : State) : Bool :=
  match s.seq.head with
  | .untimed u =>
    decide (u.phase = .stepping ∧ u.backlog = false ∧ 0 < u.emitted ∧ u.emitted < u.maxSteps ∧
      u.interval ≤ u.intervalCount)
  | _ => false

/-- The closing tick of a CLOSING source (R57). -/
def closingTickNow (s : State) : Bool :=
  match s.seq.head with
  | .untimed u => decide (u.phase = .closing ∧ u.interval ≤ u.intervalCount)
  | _ => false

/-- The head has a step to emit in the other direction from DIR, and no pulse is in progress (R44). -/
def dirChangeNow (s : State) : Bool :=
  s.gen.pulse.isNone &&
    (match s.seq.head.direction with
      | none => false
      | some d => d.high != s.gen.dirHigh)

/-- The limit, HOME and PROBE levels of this tick are settled before a step of it is checked and before the first
examination that it may bring (R45, R56, R58). A trip and a step may be taken in either order (R63). -/
def stepLevelsSettled (s : State) : Bool :=
  examinationLevelsSettled s && !(levelChangeDue s.gen.limp || levelChangeDue s.gen.limn)

def stepDueDue (s : State) : Bool := !s.boundaryDue && stepDueNow s

def untimedStepDueDue (s : State) : Bool := !s.boundaryDue && untimedStepDueNow s

/-- The final examination sees the levels of its tick (R60, R64). -/
def closingTickDue (s : State) : Bool :=
  !s.boundaryDue && !levelChangeDue s.gen.home && !levelChangeDue s.gen.probe && closingTickNow s

/-- R44 changes DIR whenever the head needs it, and also has DIR hold its level through IDLE and WAITING: there the
change may be made, and TICK does not wait for it (log entry 8). -/
def dirChangeDue (s : State) : Bool := !s.boundaryDue && dirChangeNow s

/-- The axis is RUNNING, and the change of DIR is made in this tick. -/
def dirChangeMust (s : State) : Bool := decide (s.seq.axis = .running) && dirChangeNow s

def stepPulseBeginDue (s : State) : Bool := !s.boundaryDue && stepLevelsSettled s && stepConditions s

def stepPulseEndDue (s : State) : Bool := decide (s.gen.pulse = some 0)

def dirSetupExpiryDue (s : State) : Bool := decide (s.gen.dirSetup = some 0)

/-! ## All of them -/

/-- Some event of the present tick is due and has not been taken. -/
def anyDue (s : State) : Bool :=
  s.timer.raised.runOut || s.timer.raised.stretched || s.timer.raised.edge || s.timer.raised.slotStart ||
    silenceDue s || foundingDue s || edgeDetectorArmedDue s || syncPulseEndDue s || ownFrameEndDue s ||
    anyLevelChange s || stopChangeDue s || stepDueNow s || untimedStepDueNow s || closingTickNow s ||
    dirChangeMust s || stepConditions s || stepPulseEndDue s || dirSetupExpiryDue s

end Sys2Proof.Machine
end

