-- ==== Sys2Proof/Machine/StepEvents.lean ====
section
/-! DEFINITION. The meanings of STEP_DUE, UNTIMED_STEP_DUE, CLOSING_TICK, STEP_PULSE_BEGIN, STEP_PULSE_END, DIR_CHANGE,
DIR_SETUP_EXPIRY (chapters 3 and 4), FILTERED_LEVEL_CHANGE (R50, R63), STOP_INPUT and STOPN_INACTIVE (R94). -/

namespace Sys2Proof.Machine

/-! ## Steps falling due -/

/-- The next step of the executing timed segment joins its backlog (R38). -/
def fallDue (s : State) : State :=
  match s.seq.exec with
  | none => s
  | some e =>
    match e.source with
    | .timed src => setExecSource e (.timed { src with fallen := src.fallen + 1 }) s
    | _ => s

def execStepDue (s : State) : Result := .next (if stepDueDue s then fallDue s else s)

/-- The next step of a HOME or PROBE falls due (R57). -/
def fallDueUntimed (s : State) : State :=
  match s.seq.exec with
  | none => s
  | some e =>
    match e.source with
    | .untimed u => setExecSource e (.untimed { u with backlog := true }) s
    | _ => s

def execUntimedStepDue (s : State) : Result := .next (if untimedStepDueDue s then fallDueUntimed s else s)

/-! ## CLOSING_TICK (R60, R64) -/

/-- The final examination: a HOME ends HOMED or HOME_FAILED; a PROBE that has not tripped ends PROBE_MISS. -/
def closeSegment (s : State) : State :=
  match s.seq.exec with
  | none => s
  | some e =>
    match e.source with
    | .untimed u =>
      match u.home with
      | some v => if s.inputActive .home then endHomed e v s else endHomeFailed e s
      | none => endUntimed e .probeMiss .none s
    | _ => s

def execClosingTick (s : State) : Result := .next (if closingTickDue s then closeSegment s else s)

/-! ## STEP_PULSE_BEGIN and STEP_PULSE_END (R42, R43) -/

/-- All of conditions 1 to 5 hold at this tick: the step is examined, refused or begun. -/
def execStepPulseBegin (s : State) : Result := .next (if stepPulseBeginDue s then takeStep s else s)

/-- STEP returns low. -/
def execStepPulseEnd (s : State) : Result :=
  .next (if stepPulseEndDue s then s.setGen { s.gen with pulse := none } else s)

/-! ## DIR_CHANGE and DIR_SETUP_EXPIRY (R44) -/

/-- DIR takes the other level, and the setup timer is loaded unless DIR_SETUP_US is 0. -/
def changeDir (s : State) : State :=
  s.setGen
    { s.gen with
      dirHigh := !s.gen.dirHigh
      dirSetup := if s.cfg.dirSetupUs = 0 then none else some s.cfg.dirSetupUs }

def execDirChange (s : State) : Result := .next (if dirChangeDue s then changeDir s else s)

/-- The setup timer becomes idle. -/
def execDirSetupExpiry (s : State) : Result :=
  .next (if dirSetupExpiryDue s then s.setGen { s.gen with dirSetup := none } else s)

/-! ## FILTERED_LEVEL_CHANGE (R50, R63) -/

/-- The filtered level takes the other level, and the run returns to 0. -/
def Filter.flip (f : Filter) : Filter := { f with level := !f.level, run := 0 }

/-- One axis input's filter is replaced. -/
def setFilter (i : AxisInput) (f : Filter) (g : StepGen) : StepGen :=
  match i with
  | .home => { g with home := f }
  | .probe => { g with probe := f }
  | .limp => { g with limp := f }
  | .limn => { g with limn := f }

/-- The axis input's filtered level changes. -/
def flipInput (i : AxisInput) (s : State) : State := s.setGen (setFilter i (s.gen.filter i).flip s.gen)

/-- A PROBE that is STEPPING or CLOSING compares the new filtered level with its last probe level (R63): inactive to
active is a trip, which ends it with the counter as trip position; otherwise the last probe level is recorded. -/
def watchProbe (e : Executing) (u : UntimedSource) (s : State) : State :=
  if s.inputActive .probe && !u.lastProbe then endUntimed e .tripped (.trip s.gen.position) s
  else setExecSource e (.untimed { u with lastProbe := s.inputActive .probe }) s

/-- The executing PROBE, if one is STEPPING or CLOSING, sees a change of the PROBE level. -/
def probeChanged (s : State) : State :=
  match s.seq.exec with
  | none => s
  | some e =>
    match e.source with
    | .untimed u => if u.home = none ∧ u.phase ≠ .pending then watchProbe e u s else s
    | _ => s

/-- The level change of one input. -/
def changeLevel (i : AxisInput) (s : State) : State :=
  match i with
  | .probe => probeChanged (flipInput .probe s)
  | .home => flipInput .home s
  | .limp => flipInput .limp s
  | .limn => flipInput .limn s

/-- A change of this input is due. -/
def filteredLevelChangeDue (i : AxisInput) (s : State) : Bool :=
  levelChangeDue (s.gen.filter i) && !(decide (i = .probe) && probeWatching s && s.boundaryDue)

def execFilteredLevelChange (input : AxisInput) (s : State) : Result :=
  .next (if filteredLevelChangeDue input s then changeLevel input s else s)

/-! ## STOP_INPUT and STOPN_INACTIVE (R91, R94) -/

/-- STOPN's filtered level takes the other level. -/
def flipStop (s : State) : State := s.setHaltCtl { s.haltCtl with stopn := s.haltCtl.stopn.flip }

/-- STOPN becomes active, and STOP_INPUT is raised. At the tick of a boundary, taken before the boundary's command, it falls
in the cycle that is ending, and taken as a turn of the boundary in the cycle begun (DESIGN CHOICE, log entry 3). -/
def execStopInput (s : State) : Result :=
  .next (if stopInputDue s then takeCause (.plain .stopInput) (flipStop s) else s)

/-- STOPN becomes inactive: nothing else happens, and ORIGIN follows. -/
def execStopnInactive (s : State) : Result := .next (if stopnInactiveDue s then flipStop s else s)

end Sys2Proof.Machine
end

