-- ==== Sys2Proof/Machine/Boundary.lean ====
section
/-! DEFINITION. The boundary (R7, R8, R11) and each turn of it, and the changes of the link state made there
(R102, R125, R127, R128, R131). -/

namespace Sys2Proof.Machine

/-! ## Changes of the link state -/

/-- The axis leaves DISABLED at the first entry to ACTIVE: IDLE, or HALTED when STOPN is active or the latch is set
(R25, R102). -/
def leaveDisabled (s : State) : State :=
  if s.seq.axis = .disabled then
    if s.stopActive then haltTaken (.plain .stopInput) s
    else if s.haltCtl.latch then haltTaken (.plain .hostHalt) s
    else setAxis .idle s
  else s

/-- The link enters ACTIVE (R125). -/
def enterActive (s : State) : State := leaveDisabled (latchLink (s.setLink { s.link with state := .active }))

/-- LINK_LOST, when the link leaves ACTIVE (R96). -/
def linkLost (wasActive : Bool) (s : State) : State := if wasActive then takeCause (.plain .linkLost) s else s

/-- Sync loss takes a JOINING or ACTIVE link to LISTEN (R128, R129): the notes (R165), the entries marked LOST (R144)
and LINK_LOST, the last two in either order (R96). -/
def syncLoss (o : EventOrder) (s : State) : State :=
  let wasActive := decide (s.link.state = .active)
  let s' := notesAtListen (enterListen s)
  if o.linkLostFirst then markAllLost o.barrierFirst (linkLost wasActive s')
  else linkLost wasActive (markAllLost o.barrierFirst s')

/-- The link enters DUPLICATE (R131): it transmits no more (R132), the own SYNC pulse ends (R9), a pending adoption
goes (R12). The slip run count and what slips this cycle holds stay as ACTIVE left them: R127 examines them at a
boundary in ACTIVE alone and no rule names a change of them here. The JOINING count stays as it is at the entry, also where
R125 has not counted this boundary yet, and the request is cleared in either order (DESIGN CHOICE, log entry 25). -/
def enterDuplicate (s : State) : State :=
  linkLost (decide (s.link.state = .active))
    (latchLink
      ((s.setLink
          { s.link with
            state := .duplicate
            collisionRun := 0
            collision := false
            request := none
            tx := none }).setTimer
        { s.timer with pulse := none, adoption := none }))

/-! ## The Link Interface's turn -/

/-- The JOINING count (R125): 0 at an adoption, else one more; the fourth enters ACTIVE. -/
def joinCountTurn (adopted : Bool) (s : State) : State :=
  if s.link.state = .joining then
    let n := if adopted then 0 else s.link.joinCount + 1
    let s' := s.setLink { s.link with joinCount := n, request := none }
    if 4 ≤ n then enterActive s' else s'
  else s

/-- The collision run (R131): the third consecutive cycle with a collision enters DUPLICATE. -/
def collisionTurn (s : State) : State :=
  if s.link.state = .joining ∨ s.link.state = .active then
    if s.link.collision then
      if 3 ≤ s.link.collisionRun + 1 then enterDuplicate s
      else s.setLink { s.link with collisionRun := s.link.collisionRun + 1, collision := false }
    else s.setLink { s.link with collisionRun := 0 }
  else s

/-- The slip run of an ACTIVE link (R127), and whether it reports slip sync loss. -/
def slipTurn (s : State) : State × Bool :=
  if s.link.state = .active then
    if s.link.slips = .allSlips then
      if 3 ≤ s.link.slipRun + 1 then (s.setLink { s.link with slipRun := 0, slips := .none }, true)
      else (s.setLink { s.link with slipRun := s.link.slipRun + 1, slips := .none }, false)
    else (s.setLink { s.link with slipRun := 0, slips := .none }, false)
  else (s, false)

/-- The two sources of sync loss act on a JOINING or ACTIVE link (R128). -/
def syncLossTurn (o : EventOrder) (earlyLoss : Bool) (s : State) : State :=
  let x := slipTurn s
  if (earlyLoss || x.2) ∧ (x.1.link.state = .joining ∨ x.1.link.state = .active) then syncLoss o x.1 else x.1

/-- The examinations that may take the link out of JOINING or ACTIVE, in either order (R131). -/
def leaveTurns (o : EventOrder) (earlyLoss : Bool) (s : State) : State :=
  if o.syncLossFirst then collisionTurn (syncLossTurn o earlyLoss s)
  else syncLossTurn o earlyLoss (collisionTurn s)

/-- The Link Interface takes a boundary. An entry to ACTIVE and a leaving of it at one boundary are one turn, so no start of a
note or of a segment comes between the two (DESIGN CHOICE, log entry 28). -/
def linkBoundary (o : EventOrder) (adopted earlyLoss : Bool) (s : State) : State :=
  if o.joinFirst then leaveTurns o earlyLoss (joinCountTurn adopted s)
  else joinCountTurn adopted (leaveTurns o earlyLoss s)

/-! ## The Cycle Timer at a boundary (R8, R11) -/

/-- The third consecutive cycle with an early edge reports early-edge sync loss (R11). -/
def earlyLossOf (x : Timer) : Bool := x.earlySeen && decide (3 ≤ x.earlyRun + 1)

/-- The timer begins the next cycle: the number advances or is adopted, t is 0, the detector is disarmed, the
early-edge run is counted, and nothing the ended tick raised is left. -/
def timerBoundary (x : Timer) : Timer :=
  { x with
    t := 0
    cycle := x.adoption.getD x.cycle + 1
    adoption := none
    earlyRun := if x.earlySeen then (if 3 ≤ x.earlyRun + 1 then 0 else x.earlyRun + 1) else 0
    earlySeen := false
    armed := false
    highRun := 0
    raised := Raised.clear }

/-! ## The step events (R67) -/

/-- A list without its later repeats. -/
def firsts {α : Type} [DecidableEq α] : List α → List α
  | [] => []
  | b :: rest => b :: (firsts rest).filter (· ≠ b)

/-- One event of the Step Generator at this tick, if it is due. -/
def stepTurn (s : State) : StepTurn → State
  | .probeChange => if filteredLevelChangeDue .probe s then changeLevel .probe s else s
  | .stepDue => if stepDueDue s then fallDue s else s
  | .untimedStepDue => if untimedStepDueDue s then fallDueUntimed s else s
  | .closingTick => if closingTickDue s then closeSegment s else s
  | .dirChange => if dirChangeDue s then changeDir s else s
  | .stepPulseBegin => if stepPulseBeginDue s then takeStep s else s

/-- Of the first step of a HOME or PROBE that started at this boundary, the refusal may be taken inside it, and the DIR
change ahead of it (R67). A step that begins follows the boundary: a segment that starts and is halted at one boundary
has 0 steps, unless it was itself the cause (R34). -/
def ownStartTurnOpen (s : State) : StepTurn → Bool
  | .dirChange => true
  | .stepPulseBegin => (stepRefusal s).isSome
  | .probeChange | .stepDue | .untimedStepDue | .closingTick => false

/-- The event may be taken inside the boundary at which `before` was the executing segment: steps of a finishing segment
are owed ahead, or no segment has started there, or one has whose own start allows it. A timed segment that starts there
allows none: its DIR change (R44) follows the boundary, so a halt of that boundary leaves DIR as it was (DESIGN CHOICE, log
entry 32). -/
def stepTurnOpen (before : Option Segment) (s : State) (e : StepTurn) : Bool :=
  !s.seq.finishing.isEmpty || decide (s.seq.exec.map Executing.seg = before) ||
    (match s.seq.head with
      | .untimed _ => ownStartTurnOpen s e
      | .none | .finishing _ | .timed _ => false)

/-- The events of the Step Generator that the order names, each once (R67). -/
def stepEventsTurn (o : EventOrder) (before : Option Segment) (s : State) : State :=
  (firsts o.steps).foldl (fun s e => if stepTurnOpen before s e then stepTurn s e else s) s

/-! ## The boundary -/

/-- STOPN becomes active at this tick, if it does, and STOP_INPUT is taken (R94). -/
def stopTurn (s : State) : State := if stopInputDue s then takeCause (.plain .stopInput) (flipStop s) else s

/-- What the cycle that ends hands to the turns of its boundary: the skipped count (R7), whether an adoption was pending
(R125), whether the timer reports early-edge sync loss (R11), and the segment that was executing. -/
structure CycleEnd where
  skipped : Nat
  adopted : Bool
  earlyLoss : Bool
  executing : Option Segment

/-- The end of the present cycle with this skipped count. -/
def cycleEnd (skipped : Nat) (s : State) : CycleEnd where
  skipped := skipped
  adopted := s.timer.adoption.isSome
  earlyLoss := earlyLossOf s.timer
  executing := s.seq.exec.map Executing.seg

/-- One turn of the boundary, with the cause that is raised and not yet taken. -/
def takeTurn (o : EventOrder) (e : CycleEnd) (x : Raising) : BoundaryTurn → Raising
  | .link => (linkBoundary o e.adopted e.earlyLoss x.1, x.2)
  | .peers => (ageing o.barrierFirst x.1, x.2)
  | .motion => motionBoundary o.lateHaltFirst e.skipped x.1
  | .examination => (firstExamination x.1, x.2)
  | .stepEvents => (stepEventsTurn o e.executing x.1, x.2)
  | .lateHalt => (takeRaised x.2 x.1, none)
  | .stopInput => (stopTurn x.1, x.2)
  | .hostHalt => (clockPlain 0x12 takeHalt x.1, x.2)
  | .deadline => (barrierDeadline x.1, x.2)
  | .notes => (noteBoundary x.1, x.2)

/-- The turn acts on what the motion turn has done, and so comes after it. -/
def afterMotion : BoundaryTurn → Bool
  | .examination | .stepEvents | .lateHalt => true
  | .link | .peers | .motion | .stopInput | .hostHalt | .deadline | .notes => false

/-- Every turn once: those the order names first, then the other blocks. -/
def turnsOf (o : EventOrder) : List BoundaryTurn :=
  firsts
    ((o.turns.takeWhile (· ≠ .motion)).filter (!afterMotion ·) ++ o.turns.dropWhile (· ≠ .motion) ++
      [.link, .peers, .motion, .examination, .stepEvents, .lateHalt, .deadline, .notes])

/-- The boundary that ends the present cycle with this skipped count (R7): the timer begins the next cycle, and each
block takes the boundary once. -/
def boundary (o : EventOrder) (skipped : Nat) (s : State) : State :=
  ((turnsOf o).foldl (takeTurn o (cycleEnd skipped s)) (s.setTimer (timerBoundary s.timer), none)).1

end Sys2Proof.Machine
end

