-- ==== Sys2Proof/Machine/TimerEvents.lean ====
section
/-! DEFINITION. The meanings of DEVICE_RESET, TICK, RUN_OUT, STRETCHED_RUN_OUT, SYNC_FALLING_EDGE, EDGE_DETECTOR_ARMED,
SYNC_PULSE_END, FOUNDING, SILENCE and SLOT_START. -/

namespace Sys2Proof.Machine

/-! ## DEVICE_RESET (R180) -/

/-- RESETN is held low and released: every block takes its device-reset values and S the straps' number. The input
pins and the CSN level stay what the outside drives; the waiting commands are not the station's. -/
def execDeviceReset (straps : Station) (s : State) : Result :=
  .next
    { State.reset with
      id := straps
      pins := s.pins
      port := { HostPort.reset with csnHigh := s.port.csnHigh }
      pending := s.pending }

/-! ## TICK (R1) -/

/-- A timer in ticks remaining counts down by one; idle stays idle. -/
def countDown : Option Nat → Option Nat
  | none => none
  | some n => some (n - 1)

/-- One sample of an input (R50, R91): the first after device reset is the filtered level; a later one that differs
from the filtered level lengthens the run, and one that agrees cancels it. -/
def Filter.sample (level : Bool) (f : Filter) : Filter :=
  if f.primed then { f with run := if level = f.level then 0 else f.run + 1 }
  else { level := level, run := 0, primed := true }

/-- SYNC as sampled: the wired-AND of the other stations' line and the own pulse (R9). -/
def syncSample (pins : PinLevels) (pulse : Option Nat) : Bool :=
  pins.sync &&
    (match pulse with
      | none => true
      | some n => decide (n = 0))

/-- The detector's part of a tick (R3): a falling edge seen by an armed detector, and the run of high samples. -/
def sampleSync (sample : Bool) (x : Timer) : Timer :=
  { x with
    syncHigh := sample
    highRun := if sample then min 4 (x.highRun + 1) else 0
    raised := { x.raised with edge := x.armed && x.syncHigh && !sample } }

/-- The count reaches position p: a slot start is raised where one falls (R13). -/
def reachPosition (n p : Nat) (x : Timer) : Timer :=
  { x with t := p, raised := { x.raised with slotStart := (slotBeginning n p).isSome } }

/-- A founding request comes to the tick that takes it (R15). -/
def ageFounding : FoundingRequest → FoundingRequest
  | .none => .none
  | .requested => .due
  | .due => .due

/-- The count's part of a tick, by the manner of counting (R2, R4, R6, R14). In LISTEN the slot starts are given while
t is below CYCLE_US, silence is raised at 3 × CYCLE_US, and t stops there. -/
def advanceCount (state : LinkState) (cycleUs n : Nat) (x : Timer) : Timer :=
  match state with
  | .idle => x
  | .listen =>
    if x.t + 1 < 3 * cycleUs then
      { reachPosition (if x.t + 1 < cycleUs then n else 0) (x.t + 1) x with founding := ageFounding x.founding }
    else
      { x with
        t := 3 * cycleUs
        founding := ageFounding x.founding
        raised := { x.raised with silence := decide (x.t < 3 * cycleUs) } }
  | .joining | .active =>
    if x.t + 1 < cycleUs then reachPosition n (x.t + 1) x
    else { x with raised := { x.raised with runOut := true } }
  | .duplicate =>
    if x.t + 1 < cycleUs + 16 then reachPosition n (x.t + 1) x
    else { x with raised := { x.raised with stretched := true } }

/-- The Cycle Timer's part of a tick. -/
def tickTimer (s : State) (pins : PinLevels) : Timer :=
  let pulse := countDown s.timer.pulse
  advanceCount s.link.state s.cycleUs s.stationCount
    (sampleSync (syncSample pins pulse) { s.timer with divider := 0, pulse := pulse })

/-- The Step Generator's part of a tick: spacing measure, pulse and setup timers, filters (R42, R43, R44, R50). -/
def tickGen (g : StepGen) (pins : PinLevels) : StepGen :=
  { g with
    spacing := g.spacing.map fun k => min 255 (k + 1)
    dirSetup := countDown g.dirSetup
    pulse := countDown g.pulse
    home := g.home.sample pins.home
    probe := g.probe.sample pins.probe
    limp := g.limp.sample pins.limp
    limn := g.limn.sample pins.limn }

/-- The interval count of a HOME or PROBE source, from its first step on (R57); it is held at 65535. -/
def tickSource : Source → Source
  | .none => .none
  | .timed src => .timed src
  | .untimed u => .untimed (if u.emitted = 0 then u else { u with intervalCount := min 65535 (u.intervalCount + 1) })

/-- The sequencer's part of a tick: only the interval count moves. -/
def tickSeq (q : Sequencer) : Sequencer :=
  { q with exec := q.exec.map fun e => { e with source := tickSource e.source } }

/-- The link does not receive a start at this position (R133): it is IDLE, or transmits in slot S in JOINING and
ACTIVE. -/
def receiverOff (s : State) (pos : Nat) : Bool :=
  match s.link.state with
  | .idle => true
  | .listen | .duplicate => false
  | .joining | .active => inSlot s.id pos

/-- A start at this position begins a frame: it falls in the start window of a slot (R13), and in LISTEN the timer gives
positions only while t is below CYCLE_US (R14). -/
def beginsFrame (s : State) (pos : Nat) : Bool :=
  (slotOfStart s.stationCount pos).isSome && (decide (s.link.state ≠ .listen) || decide (pos < s.cycleUs))

/-- The receiver's part of a tick that comes to position pos (R133): a frame in progress is a tick older; a receiver that
looks for a start takes one that the link receives, and the Cycle Timer gives it the position (R13). A start that falls in
no slot begins no frame, and the receiver waits for a recessive line. -/
def tickRx (s : State) (pos : Nat) (lineStart : Bool) : RxState :=
  match s.link.rx with
  | .receiving start elapsed => .receiving start (elapsed + 1)
  | .waiting => .waiting
  | .looking =>
    if lineStart && !receiverOff s pos then if beginsFrame s pos then .receiving pos 0 else .waiting else .looking

/-- The Link Interface's part of a tick: the own frame in transmission, and the receiver. -/
def tickLink (s : State) (pos : Nat) (lineStart : Bool) : Link :=
  { s.link with
    tx := s.link.tx.map fun f => { f with elapsed := f.elapsed + 1 }
    rx := tickRx s pos lineStart }

/-- One tick of every block. -/
def tickAll (pins : PinLevels) (lineStart : Bool) (s : State) : State :=
  { s with
    pins := pins
    timer := tickTimer s pins
    link := tickLink s (tickTimer s pins).t lineStart
    seq := tickSeq s.seq
    gen := tickGen s.gen pins
    haltCtl := { s.haltCtl with stopn := s.haltCtl.stopn.sample pins.stopn } }

/-- The divider passes 15 and a tick is raised (R1). It is not taken while an event of the present tick is still due:
each event falls at its tick (log entry 4). -/
def execTick (input : TickInput) (s : State) : Result :=
  .next (if anyDue s then s else tickAll input.pins input.lineStart s)

/-! ## RUN_OUT and STRETCHED_RUN_OUT -/

/-- The timer begins a SYNC pulse of 8 ticks (R9). -/
def beginSyncPulse (s : State) : State := s.setTimer { s.timer with pulse := some 8 }

/-- The own count runs out in JOINING or ACTIVE (R4): SYNC pulse, t 0, boundary with skipped count 0. -/
def execRunOut (order : EventOrder) (s : State) : Result :=
  .next (if runOutDue s then boundary order 0 (beginSyncPulse s) else s)

/-- The stretched count of DUPLICATE runs out (R6): boundary with skipped count 0, SYNC not driven. -/
def execStretchedRunOut (order : EventOrder) (s : State) : Result :=
  .next (if stretchedRunOutDue s then boundary order 0 s else s)

/-! ## SYNC_FALLING_EDGE (R5, R10, R14) -/

/-- An early edge (R10): it is seen, and the detector is disarmed. -/
def earlyEdge (s : State) : State :=
  s.setTimer { s.timer with earlySeen := true, armed := false, highRun := 0, raised := { s.timer.raised with edge := false } }

/-- The candidate whose number a confirming edge gives (R122): previous edge present, spacing within 16 ticks of the
cycle, a candidate held. An edge that withdraws a founding is decided with the previous edge absent (R124). -/
def confirmation (s : State) : Option CycleOffer :=
  if s.link.prevEdge ∧ s.timer.founding = .none ∧ s.cycleUs ≤ s.timer.t + 16 ∧ s.timer.t ≤ s.cycleUs + 16 then
    s.link.candidate
  else none

/-- The timer after an edge taken in LISTEN (R14, R15): t 0, detector disarmed, a founding request withdrawn. -/
def listenEdgeTimer (x : Timer) : Timer :=
  { x with t := 0, armed := false, highRun := 0, founding := .none, raised := Raised.clear }

/-- A confirming edge (R16, R122): the timer takes the candidate's number plus 1, and the link enters JOINING. -/
def confirm (c : CycleOffer) (s : State) : State :=
  latchLink
    ((s.setTimer { listenEdgeTimer s.timer with cycle := c.cycle + 1, earlyRun := 0 }).setLink
      { s.link with state := .joining, joinCount := 0 })

/-- An edge that does not confirm (R122): the previous edge is present, the candidate absent. -/
def observeEdge (s : State) : State :=
  (s.setTimer (listenEdgeTimer s.timer)).setLink { s.link with prevEdge := true, candidate := none }

/-- An edge taken in LISTEN. -/
def listenEdge (s : State) : State :=
  match confirmation s with
  | some c => confirm c s
  | none => observeEdge s

/-- An edge taken in IDLE only disarms the detector (R3). -/
def idleEdge (s : State) : State :=
  s.setTimer { s.timer with armed := false, highRun := 0, raised := { s.timer.raised with edge := false } }

/-- The skipped count of an accepted edge (R5, R6). -/
def State.skippedCount (s : State) : Nat := s.cycleUs - s.edgePosition

/-- A taken edge acts by the link state and its position. -/
def takeEdge (order : EventOrder) (s : State) : State :=
  match s.link.state with
  | .idle => idleEdge s
  | .listen => listenEdge s
  | .joining | .active | .duplicate =>
    if s.edgeAccepted then boundary order s.skippedCount s else earlyEdge s

/-- An armed detector takes a falling edge of SYNC (R5). -/
def execSyncFallingEdge (order : EventOrder) (s : State) : Result :=
  .next (if edgeDue s then takeEdge order s else s)

/-! ## The detector, the pulse, silence and founding -/

/-- The detector becomes armed (R3). -/
def execEdgeDetectorArmed (s : State) : Result :=
  .next (if edgeDetectorArmedDue s then s.setTimer { s.timer with armed := true } else s)

/-- The own SYNC pulse ends (R9). -/
def execSyncPulseEnd (s : State) : Result :=
  .next (if syncPulseEndDue s then s.setTimer { s.timer with pulse := none } else s)

/-- The station founds (R15): SYNC pulse, cycle number 0, t 0, detector disarmed, JOINING with its count at 0. -/
def found (s : State) : State :=
  latchLink
    ((s.setTimer
        { s.timer with
          t := 0
          cycle := 0
          earlyRun := 0
          armed := false
          highRun := 0
          pulse := some 8
          founding := .none
          raised := Raised.clear }).setLink
      { s.link with state := .joining, joinCount := 0 })

def execFounding (s : State) : Result := .next (if foundingDue s then found s else s)

/-- t reaches 3 × CYCLE_US in LISTEN (R14): the link decides to found, and asks the timer (R124). -/
def execSilence (s : State) : Result :=
  .next
    (if silenceDue s then
      s.setTimer { s.timer with founding := .requested, raised := { s.timer.raised with silence := false } }
    else s)

/-! ## SLOT_START (R13, R130) -/

/-- The own frame is assembled and its transmission begins (R130): the shown cycles are recorded (R153), and the own
entry is written (R146). -/
def transmitOwnFrame (s : State) : State :=
  (writeOwnEntry s.ownFrame (noteShown s)).setLink { s.link with tx := some { bytes := s.ownFrame, elapsed := 0 } }

/-- The slot that begins at this tick is the own slot, and the link may transmit (R130). -/
def ownSlotStart (s : State) : Bool :=
  decide (slotBeginning s.stationCount s.timer.t = some s.id.val) &&
    decide (s.link.state = .joining ∨ s.link.state = .active)

/-- A slot start is raised to the link (R13); at the own one it transmits. -/
def slotStart (s : State) : State :=
  let s' := s.setTimer { s.timer with raised := { s.timer.raised with slotStart := false } }
  if ownSlotStart s then transmitOwnFrame s' else s'

def execSlotStart (s : State) : Result := .next (if s.timer.raised.slotStart then slotStart s else s)

end Sys2Proof.Machine
end

