-- ==== Sys2Proof/Machine/LinkEvents.lean ====
section
/-! DEFINITION. The meanings of COLLISION, FRAME_RECEIVED, OWN_FRAME_END and LOOK_FOR_START_AGAIN (chapter 8). -/

namespace Sys2Proof.Machine

/-! ## COLLISION (R131) -/

/-- The bit is one the own frame sends recessive, in the present tick: a bit lasts 200 ns, so five fall in a tick. -/
def collisionAt (bit : Nat) (s : State) : Bool :=
  match s.link.tx with
  | none => false
  | some f => sentRecessive f.bytes bit && decide (bit / 5 = f.elapsed)

/-- A recessive bit of the own frame reads back dominant: transmission stops, and the cycle is marked. -/
def execCollision (bit : Nat) (s : State) : Result :=
  .next (if collisionAt bit s then s.setLink { s.link with tx := none, collision := true } else s)

/-! ## OWN_FRAME_END (R130) -/

/-- The last stop bit has been sent, and the line is left recessive. -/
def execOwnFrameEnd (s : State) : Result :=
  .next (if ownFrameEndDue s then s.setLink { s.link with tx := none } else s)

/-! ## LOOK_FOR_START_AGAIN (R133) -/

/-- The line has stayed recessive for one full byte time after a start in no slot, or after a frame that was judged or
has failed a check at any point, and the receiver looks for a start again. -/
def execLookForStartAgain (s : State) : Result := .next (s.setLink { s.link with rx := .looking })

/-! ## FRAME_RECEIVED: LISTEN (R123) -/

/-- The frame replaces the candidate (R123): none is held, or the held one is from a joiner and this one is from a
member, or from a joiner with a later number. -/
def beatsCandidate (v : PeerView) : Option CycleOffer → Bool
  | none => true
  | some c => c.join && (!v.join || later v.lastCycle c.cycle)

/-- A valid frame in LISTEN: the candidate rule. -/
def candidateRule (f : Frame) (s : State) : State :=
  if profileMatches s.cfg f then
    if beatsCandidate f.view s.link.candidate then
      s.setLink { s.link with candidate := some { cycle := f.view.lastCycle, join := f.view.join } }
    else s
  else s.setLink { s.link with profileMismatch := true }

/-! ## FRAME_RECEIVED: JOINING (R126) -/

/-- The frame would be adopted against the own number: a different number from a member, or a later one from a
joiner. -/
def beatsOwn (v : PeerView) (own : Cycle) : Bool :=
  decide (v.lastCycle ≠ own) && (!v.join || later v.lastCycle own)

/-- The frame wins against the request recorded in this cycle. -/
def beatsRequest (v : PeerView) : Option CycleOffer → Bool
  | none => true
  | some c => if v.join then c.join && later v.lastCycle c.cycle else true

/-- The adoption rule: the link asks the timer to adopt the frame's number. -/
def adoptionRule (f : Frame) (s : State) : State :=
  if beatsOwn f.view s.timer.cycle && beatsRequest f.view s.link.request then
    (s.setLink { s.link with request := some { cycle := f.view.lastCycle, join := f.view.join } }).setTimer
      { s.timer with adoption := some f.view.lastCycle }
  else s

/-! ## FRAME_RECEIVED: recording and handing on (R139, R141) -/

/-- The halt controller takes a recorded frame (R98): ORIGIN from a stop-group member raises GROUP_HALT. -/
def haltFrame (k : Station) (v : PeerView) (s : State) : State :=
  if inMask s.cfg.stopGroup k && v.origin then takeCause (.fromPeer .groupHalt k) s else s

/-- The frame is recorded and handed to the Barrier Unit and the Halt Controller, in either order (R84), and to the
Note Unit. -/
def acceptFrame (barrierFirst : Bool) (k : Station) (f : Frame) (s : State) : State :=
  let s1 := recordFrame k f.view s
  let s2 :=
    if barrierFirst then haltFrame k f.view (barrierFrame k f.view s1)
    else barrierFrame k f.view (haltFrame k f.view s1)
  noteReceiverFrame k f (noteSenderFrame k f s2)

/-- A slip is discarded and counted (R127). -/
def noteSlip (s : State) : State :=
  s.setLink { s.link with slips := if s.link.slips = .agreed then .agreed else .allSlips }

/-- An agreeing frame marks the cycle (R127). -/
def noteAgreed (s : State) : State := s.setLink { s.link with slips := .agreed }

/-- A valid frame from slot k ≠ S in JOINING, ACTIVE or DUPLICATE (R134, R135). -/
def handleFrame (barrierFirst : Bool) (k : Station) (f : Frame) (s : State) : State :=
  if profileMatches s.cfg f then
    match s.link.state with
    | .joining => acceptFrame barrierFirst k f (adoptionRule f s)
    | .active =>
      if f.view.lastCycle = s.timer.cycle then acceptFrame barrierFirst k f (noteAgreed s) else noteSlip s
    | .duplicate => if f.view.lastCycle = s.timer.cycle then acceptFrame barrierFirst k f s else s
    | .idle | .listen => s
  else profileMismatch barrierFirst k s

/-- A valid frame from slot k, by the link state (R123, R135, R136). In LISTEN the previous edge is the one that stands when
the frame is judged, also where an edge came between its start and its last stop bit (DESIGN CHOICE, log entry 13). -/
def validFrame (barrierFirst : Bool) (k : Station) (f : Frame) (s : State) : State :=
  match s.link.state with
  | .idle => s
  | .listen => if s.link.prevEdge then candidateRule f s else s
  | .joining | .active | .duplicate => if k = s.id then s else handleFrame barrierFirst k f s

/-- The position the Cycle Timer gave to the start of a frame of this many bytes whose last stop bit falls in the
present tick (R133). A byte lasts two ticks, and its stop bit is sampled in the middle, 100 ns before they end: in the
last tick of the frame, or in the tick after it when the start came late in its own (DEDUCED, log entry 12). -/
def receivedStart (bytes : Nat) : RxState → Option Nat
  | .receiving start elapsed => if 2 * bytes ≤ elapsed + 1 ∧ elapsed ≤ 2 * bytes then some start else none
  | .looking | .waiting => none

/-- A received frame is checked, and a valid one is handed on; the receiver then waits for the line to stay
recessive. -/
def receiveFrame (barrierFirst : Bool) (start : Nat) (chars : List RxChar) (s : State) : State :=
  let s' := s.setLink { s.link with rx := .waiting }
  match validSlot s.stationCount start chars with
  | none => s'
  | some k => validFrame barrierFirst k (parseFrame s.id (chars.map RxChar.data)) s'

/-- The frame that the receiver is receiving is judged at its last stop bit. A frame with another start, or at another
moment, does not exist (log entry 1). -/
def execFrameReceived (start : Nat) (chars : List RxChar) (barrierFirst : Bool) (s : State) : Result :=
  .next (if receivedStart chars.length s.link.rx = some start then receiveFrame barrierFirst start chars s else s)

end Sys2Proof.Machine
end

