-- ==== Sys2Proof/Machine/Requests.lean ====
section
/-! DEFINITION. The meanings of the requests: CONFIGURE, START, RESTART, HALT, CLEAR_HALT, CLEAR_EVENTS (chapters 6, 11),
QUEUE_SEGMENT, FLUSH_QUEUE, SET_POSITION (chapters 2, 3), the reads (R104, R115, R148, R149, R162, R163, R176), SEND_NOTE
and RELEASE_NOTE_SLOT (R151, R164). Each taking is a function from the parameter bytes. -/

namespace Sys2Proof.Machine

/-! ## CONFIGURE (R172, R173) -/

def takeConfigure (ps : List Byte) (s : State) : State :=
  if s.config.isSome then refuse .alreadyConfigured 0 s
  else if settingsValid s.id (parseSettings ps) then
    respond .accepted [] 0 (s.setConfig (some (parseSettings ps)))
  else refuse .badParameter 0 s

def execConfigure (params : List Byte) (s : State) : Result :=
  .next (clockRequest 0x01 (fun _ => 12) params takeConfigure s)

/-! ## START (R174) -/

def takeStart (s : State) : State :=
  if s.config.isNone then refuse .notConfigured 0 s
  else if s.link.state ≠ .idle then refuse .alreadyStarted 0 s
  else respond .accepted [] 0 (enterListen s)

def execStart (s : State) : Result := .next (clockPlain 0x02 takeStart s)

/-! ## RESTART (R175) -/

/-- The Motion Sequencer at RESTART (R36): the next sequence number is kept. -/
def restartSeq (q : Sequencer) : Sequencer := { Sequencer.reset with nextSeq := q.nextSeq }

/-- The Step Generator at RESTART (R55): a pulse in progress completes; position, flag, DIR, spacing measure and
filters are kept. -/
def restartGen (g : StepGen) : StepGen := { g with dirSetup := none, refused := false }

/-- Every block makes its changes; the two latched flags are cleared after them. -/
def restartAll (s : State) : State :=
  let s' := enterListen s
  { s' with
    peers := PeerTable.reset
    seq := restartSeq s.seq
    gen := restartGen s.gen
    barrier := BarrierUnit.reset
    haltCtl := { s.haltCtl with latch := false, report := none }
    held := []
    notes := NoteUnit.reset
    port := { s.port with haltFlag := false, linkFlag := false } }

def takeRestart (s : State) : State :=
  if s.config.isNone then refuse .notConfigured 0 s else respond .accepted [] 0 (restartAll s)

def execRestart (s : State) : Result := .next (clockPlain 0x0F takeRestart s)

/-! ## HALT (R95) -/

def execHalt (s : State) : Result := .next (clockPlain 0x12 takeHalt s)

/-! ## CLEAR_HALT (R105) -/

/-- A stop-group member whose entry is PRESENT or STALE showed ORIGIN in its last recorded frame. -/
def groupOrigin (s : State) : Bool :=
  stations.any fun k => inMask s.cfg.stopGroup k && onLink (s.entry k).presence && (s.entry k).view.origin

/-- The conditions of R105 in order: the first that holds refuses the request. -/
def clearHaltRefusal (s : State) : Option Answer :=
  if s.seq.axis ≠ .halted then some .notHalted
  else if s.link.state ≠ .active then some .linkNotActive
  else if s.stopActive then some .stopActive
  else if groupOrigin s then some .groupOrigin
  else none

/-- The latch is cleared and the axis becomes IDLE. -/
def haltCleared (s : State) : State := setAxis .idle (s.setHaltCtl { s.haltCtl with latch := false })

def takeClearHalt (s : State) : State :=
  match clearHaltRefusal s with
  | some a => refuse a 0 s
  | none => respond .accepted [] 0 (haltCleared s)

def execClearHalt (s : State) : Result := .next (clockPlain 0x13 takeClearHalt s)

/-! ## CLEAR_EVENTS (R178) -/

/-- The latched flags the mask names are cleared: bit 1 HALT, bit 5 LINK. -/
def eventsCleared (mask : Byte) (p : HostPort) : HostPort :=
  { p with haltFlag := p.haltFlag && !mask.getLsbD 1, linkFlag := p.linkFlag && !mask.getLsbD 5 }

def takeClearEvents (ps : List Byte) (s : State) : State :=
  respond .accepted [] 0 (s.setPort (eventsCleared (byteAt ps 0) s.port))

def execClearEvents (params : List Byte) (s : State) : Result :=
  .next (clockRequest 0x25 (fun _ => 1) params takeClearEvents s)

/-! ## QUEUE_SEGMENT (R18) -/

/-- The fields of a record that is valid under R19. -/
def validBody (s : State) (ps : List Byte) : Option SegBody :=
  match parseBody ps with
  | none => none
  | some b => if bodyValid s.id s.cfg b then some b else none

/-- The segment joins the queue at the tail with the next sequence number (R21). -/
def appendSegment (label : BitVec 16) (body : SegBody) (s : State) : State :=
  s.setSeq
    { s.seq with
      queue := s.seq.queue ++ [{ seq := s.seq.nextSeq, label := label, body := body }]
      nextSeq := s.seq.nextSeq + 1 }

/-- The conditions of R18 in order. -/
def takeQueueSegment (ps : List Byte) (s : State) : State :=
  if s.config.isNone then refuse .notConfigured 2 s
  else
    match validBody s ps with
    | none => refuse .badParameter 2 s
    | some body =>
      if queueRateFails s.cfg body then refuse .rate 2 s
      else if s.seq.axis = .halted then refuse .halted 2 s
      else if Config.queueCapacity ≤ s.seq.queue.length then refuse .queueFull 2 s
      else respond .accepted (bytes16 s.seq.nextSeq) 2 (appendSegment (word16At ps 1) body s)

def execQueueSegment (params : List Byte) (s : State) : Result :=
  .next (clockRequest 0x10 (fun _ => 16) params takeQueueSegment s)

/-! ## FLUSH_QUEUE (R24) -/

def takeFlushQueue (s : State) : State :=
  respond .accepted [BitVec.ofNat 8 s.seq.queue.length] 1 (s.setSeq { s.seq with queue := [] })

def execFlushQueue (s : State) : Result := .next (clockPlain 0x11 takeFlushQueue s)

/-! ## SET_POSITION (R53) -/

/-- The axis is moving or waiting, or steps are owed while it is IDLE. -/
def positionBusy (q : Sequencer) : Bool :=
  match q.axis with
  | .running | .waiting => true
  | .idle => !q.finishing.isEmpty
  | .disabled | .halted => false

def takeSetPosition (ps : List Byte) (s : State) : State :=
  if positionBusy s.seq then refuse .notIdle 0 s
  else respond .accepted [] 0 (s.setGen { s.gen with position := word32At ps 0, known := true })

def execSetPosition (params : List Byte) (s : State) : Result :=
  .next (clockRequest 0x14 (fun _ => 4) params takeSetPosition s)

/-! ## READ_STATE, READ_COMPLETION, READ_HALT_REPORT -/

def takeReadState (s : State) : State := respond .accepted (readStateBytes s) 13 s

def execReadState (s : State) : Result := .next (clockPlain 0x20 takeReadState s)

/-- The head record, removed at its last response byte; or EMPTY (R115, R116). -/
def takeReadCompletion (s : State) : State :=
  match s.held with
  | [] => refuse .empty 23 s
  | r :: _ => giveAnswer (answerBytes .accepted r.bytes 23) (some .record) s

def execReadCompletion (s : State) : Result := .next (clockPlain 0x21 takeReadCompletion s)

/-- The halt report, which stays; or EMPTY (R104). -/
def takeReadHaltReport (s : State) : State :=
  match s.haltCtl.report with
  | none => refuse .empty 16 s
  | some h => respond .accepted h.bytes 16 s

def execReadHaltReport (s : State) : Result := .next (clockPlain 0x22 takeReadHaltReport s)

/-! ## READ_PEER and READ_PEER_CHANGES (R148, R149) -/

def takeReadPeer (ps : List Byte) (s : State) : State :=
  if h : (byteAt ps 0).toNat < 16 then respond .accepted (s.entry ⟨(byteAt ps 0).toNat, h⟩).bytes 22 s
  else refuse .badParameter 22 s

def execReadPeer (params : List Byte) (s : State) : Result :=
  .next (clockRequest 0x23 (fun _ => 1) params takeReadPeer s)

/-- The change map, whose returned bits are cleared at the last response byte; or EMPTY. -/
def takeReadPeerChanges (s : State) : State :=
  if s.peers.changeMap = 0 then refuse .empty 2 s
  else
    giveAnswer (answerBytes .accepted (bytes16 s.peers.changeMap) 2) (some (.changes s.peers.changeMap)) s

def execReadPeerChanges (s : State) : Result := .next (clockPlain 0x24 takeReadPeerChanges s)

/-! ## Notes (R151, R162, R163, R164) -/

/-- The parameters of SEND NOTE are in range (R151, condition 2). -/
def noteValid (s : State) (ps : List Byte) : Bool :=
  decide ((byteAt ps 2).toNat ≤ 8) && decide (word16At ps 0 ≠ 0) && !inMask (word16At ps 0) s.id &&
    !hasBitFrom (word16At ps 0) s.stationCount

/-- The lowest-numbered FREE slot. -/
def NoteUnit.freeId (u : NoteUnit) : Option (Fin 4) := slotIds.find? fun i => decide (u.slots.get i = .free)

/-- The number after a note number: from 255 it goes to 1. -/
def nextNoteNumber (n : Byte) : Byte := if n = 255 then 1 else n + 1

/-- The note goes into slot i, QUEUED at the tail of the acceptance order. -/
def placeNote (i : Fin 4) (dests : Mask) (payload : List Byte) (s : State) : State :=
  s.setNotes
    { s.notes with
      slots := s.notes.slots.set i.val (.queued s.notes.nextNumber dests payload)
      order := s.notes.order ++ [i]
      nextNumber := nextNoteNumber s.notes.nextNumber }

def takeSendNote (ps : List Byte) (s : State) : State :=
  if s.config.isNone then refuse .notConfigured 2 s
  else if noteValid s ps then
    match s.notes.freeId with
    | none => refuse .noSlot 2 s
    | some i =>
      respond .accepted [BitVec.ofNat 8 i.val, s.notes.nextNumber] 2
        (placeNote i (word16At ps 0) ((ps.drop 3).take (byteAt ps 2).toNat) s)
  else refuse .badParameter 2 s

def execSendNote (params : List Byte) (s : State) : Result :=
  .next (clockRequest 0x30 sendNoteNeeds params takeSendNote s)

/-- The head note, removed at its last response byte; or EMPTY. -/
def takeReadNote (s : State) : State :=
  match s.notes.inbox with
  | [] => refuse .empty 13 s
  | n :: _ => giveAnswer (answerBytes .accepted n.bytes 13) (some .note) s

def execReadNote (s : State) : Result := .next (clockPlain 0x31 takeReadNote s)

def takeReadNoteSlot (ps : List Byte) (s : State) : State :=
  if h : (byteAt ps 0).toNat < 4 then respond .accepted (s.notes.slots.get ⟨(byteAt ps 0).toNat, h⟩).bytes 18 s
  else refuse .badParameter 18 s

def execReadNoteSlot (params : List Byte) (s : State) : Result :=
  .next (clockRequest 0x32 (fun _ => 1) params takeReadNoteSlot s)

def takeReleaseNoteSlot (ps : List Byte) (s : State) : State :=
  if h : (byteAt ps 0).toNat < 4 then
    if (s.notes.slots.get ⟨(byteAt ps 0).toNat, h⟩).isDone then
      respond .accepted [] 0 (setSlot ⟨(byteAt ps 0).toNat, h⟩ .free s)
    else refuse .notDone 0 s
  else refuse .badParameter 0 s

def execReleaseNoteSlot (params : List Byte) (s : State) : Result :=
  .next (clockRequest 0x33 (fun _ => 1) params takeReleaseNoteSlot s)

end Sys2Proof.Machine
end

