-- ==== Sys2Proof/Machine/Dispatch.lean ====
section
/-! DEFINITION. One arm per command: each calls its meaning. -/

namespace Sys2Proof.Machine

def exec (i : Instr) (s : State) : Host.Outcome State Fault Refusal :=
  match i with
  | .deviceReset straps => Sys2Proof.Machine.execDeviceReset straps s
  | .tick input => Sys2Proof.Machine.execTick input s
  | .runOut order => Sys2Proof.Machine.execRunOut order s
  | .stretchedRunOut order => Sys2Proof.Machine.execStretchedRunOut order s
  | .syncFallingEdge order => Sys2Proof.Machine.execSyncFallingEdge order s
  | .edgeDetectorArmed => Sys2Proof.Machine.execEdgeDetectorArmed s
  | .syncPulseEnd => Sys2Proof.Machine.execSyncPulseEnd s
  | .founding => Sys2Proof.Machine.execFounding s
  | .silence => Sys2Proof.Machine.execSilence s
  | .slotStart => Sys2Proof.Machine.execSlotStart s
  | .collision bit => Sys2Proof.Machine.execCollision bit s
  | .frameReceived start chars barrierFirst => Sys2Proof.Machine.execFrameReceived start chars barrierFirst s
  | .stepDue => Sys2Proof.Machine.execStepDue s
  | .untimedStepDue => Sys2Proof.Machine.execUntimedStepDue s
  | .closingTick => Sys2Proof.Machine.execClosingTick s
  | .stepPulseBegin => Sys2Proof.Machine.execStepPulseBegin s
  | .stepPulseEnd => Sys2Proof.Machine.execStepPulseEnd s
  | .dirChange => Sys2Proof.Machine.execDirChange s
  | .dirSetupExpiry => Sys2Proof.Machine.execDirSetupExpiry s
  | .filteredLevelChange input => Sys2Proof.Machine.execFilteredLevelChange input s
  | .stopInput => Sys2Proof.Machine.execStopInput s
  | .stopnInactive => Sys2Proof.Machine.execStopnInactive s
  | .csnFall => Sys2Proof.Machine.execCsnFall s
  | .csnRise => Sys2Proof.Machine.execCsnRise s
  | .removal => Sys2Proof.Machine.execRemoval s
  | .configure params => Sys2Proof.Machine.execConfigure params s
  | .start => Sys2Proof.Machine.execStart s
  | .restart => Sys2Proof.Machine.execRestart s
  | .halt => Sys2Proof.Machine.execHalt s
  | .clearHalt => Sys2Proof.Machine.execClearHalt s
  | .queueSegment params => Sys2Proof.Machine.execQueueSegment params s
  | .flushQueue => Sys2Proof.Machine.execFlushQueue s
  | .setPosition params => Sys2Proof.Machine.execSetPosition params s
  | .clearEvents params => Sys2Proof.Machine.execClearEvents params s
  | .readState => Sys2Proof.Machine.execReadState s
  | .readCompletion => Sys2Proof.Machine.execReadCompletion s
  | .readHaltReport => Sys2Proof.Machine.execReadHaltReport s
  | .readPeer params => Sys2Proof.Machine.execReadPeer params s
  | .readPeerChanges => Sys2Proof.Machine.execReadPeerChanges s
  | .sendNote params => Sys2Proof.Machine.execSendNote params s
  | .readNote => Sys2Proof.Machine.execReadNote s
  | .readNoteSlot params => Sys2Proof.Machine.execReadNoteSlot params s
  | .releaseNoteSlot params => Sys2Proof.Machine.execReleaseNoteSlot params s
  | .unknownRequest code => Sys2Proof.Machine.execUnknownRequest code s
  | .ownFrameEnd => Sys2Proof.Machine.execOwnFrameEnd s
  | .lookForStartAgain => Sys2Proof.Machine.execLookForStartAgain s

end Sys2Proof.Machine
end

