-- ==== Sys2Proof/Machine/Idle.lean ====
section
/-! DEFINITION. What passes while no command waits: one period of the 16 MHz reference (R1). -/

namespace Sys2Proof.Machine

/-- The tick divider counts a period of the reference. -/
def countPeriod (s : State) : State := s.setTimer { s.timer with divider := s.timer.divider + 1 }

/-- One reference period (R1): the divider counts from 0 to 15, and on the period that would take it past 15 it
returns to 0 and raises one tick, at which the input pins have the levels they last had and no start bit is seen on the
LINE pair (log entry 5). -/
def referencePeriod (s : State) : Result :=
  if s.timer.divider < 15 then .next (countPeriod s) else execTick { pins := s.pins, lineStart := false } s

end Sys2Proof.Machine
end

