-- ==== Sys2Proof/Machine/Step.lean ====
section
/-! DEFINITION. One step of the block: the command at the front of the queue, or a reference period (log entry 5). -/

namespace Sys2Proof.Machine

/-- The front command is taken and executed on the state with the queue's rest; on an empty queue one reference period
passes. -/
def step (s : State) : Host.Outcome State Fault Refusal :=
  match s.pending with
  | [] => referencePeriod s
  | c :: rest => exec c (s.setPending rest)

/-- The state with the command that the word spells at the front of its queue; unchanged where the word spells none. -/
def State.withFetchWord (s : State) (nbits w : Nat) : State :=
  match decodeTableWord nbits w with
  | some c => s.setPending (c :: s.pending)
  | none => s

end Sys2Proof.Machine
end

