-- ==== Sys2Proof/Safety.lean ====
section
/-! DEFINITION. What counts as a safe state: the laws of the device that the manual states over all its events, one
predicate each, and `Safe`, all of them together. Each is a Bool, so that a state can be tested for it. -/

namespace Sys2Proof.Machine

/-! ## The axis (R25, R33, R35, R48, R87) -/

/-- The step source of a segment is of the kind its body asks for. -/
def Executing.sourceFits (e : Executing) : Bool :=
  match e.seg.body, e.source with
  | .moveRel .., .timed _ => true
  | .moveAbs .., .timed _ => true
  | .home .., .untimed u => u.home.isSome
  | .probe .., .untimed u => u.home.isNone
  | _, _ => false

/-- The executing segment is a BARRIER, and has no step source. -/
def Executing.isBarrier (e : Executing) : Bool :=
  match e.seg.body, e.source with
  | .barrier .., .none => true
  | _, _ => false

/-- What each axis state says of the executing segment, the outstanding ones, the queue and the barrier context: in
DISABLED and HALTED nothing has started and not ended (R33, R36), in IDLE nothing executes, in RUNNING a segment with a
step source executes, in WAITING a BARRIER with its context (2.4, R69, R87). -/
def axisLaw (s : State) : Bool :=
  match s.seq.axis with
  | .disabled => s.seq.exec.isNone && s.seq.outstanding.isEmpty && s.barrier.ctx.isNone
  | .halted => s.seq.exec.isNone && s.seq.outstanding.isEmpty && s.barrier.ctx.isNone && s.seq.queue.isEmpty
  | .idle => s.seq.exec.isNone && s.barrier.ctx.isNone
  | .running =>
    s.barrier.ctx.isNone &&
      (match s.seq.exec with
        | none => false
        | some e => e.sourceFits)
  | .waiting =>
    match s.seq.exec, s.barrier.ctx with
    | some e, some x => e.isBarrier && decide (x.seq = e.seg.seq)
    | _, _ => false

/-- While the link state is not ACTIVE, the axis state is DISABLED or HALTED (R35). -/
def linkAxisLaw (s : State) : Bool :=
  decide (s.link.state = .active ∨ s.seq.axis = .disabled ∨ s.seq.axis = .halted)

/-- Refused is "no" outside the step that refuses: the halt of a refusal returns it (R45, R48). -/
def refusalLaw (s : State) : Bool := !s.gen.refused

/-- The DIR setup timer is idle where DIR_SETUP_US is 0, and counts from no more than it elsewhere (R44). -/
def setupLaw (s : State) : Bool :=
  match s.gen.dirSetup with
  | none => true
  | some n => decide (0 < s.cfg.dirSetupUs ∧ n ≤ s.cfg.dirSetupUs)

/-! ## Completion entries and the queue (R22, R27) -/

/-- Held records and reservations never exceed 16 (R27). -/
def completionLaw (s : State) : Bool := decide (s.held.length + s.seq.reserved ≤ Config.completionCapacity)

/-- The queue's numbers are consecutive and end just before the next sequence number (R21, R22). -/
def numbered (next : SeqNo) : List Segment → Bool
  | [] => true
  | seg :: rest => decide (seg.seq = next - BitVec.ofNat 16 (rest.length + 1)) && numbered next rest

/-- The queue holds at most 32 segments, numbered consecutively from head to tail (R22). -/
def queueLaw (s : State) : Bool :=
  decide (s.seq.queue.length ≤ Config.queueCapacity) && numbered s.seq.nextSeq s.seq.queue

/-! ## Step sources (R37, R38, R41, R57) -/

/-- No more steps have fallen due than the source has, and no more are emitted than have fallen due (R38, R39). -/
def TimedSource.counted (src : TimedSource) : Bool := decide (src.emitted ≤ src.fallen ∧ src.fallen ≤ src.n)

/-- A finishing source owes steps, all of them in its backlog (R41). -/
def Finishing.owing (f : Finishing) : Bool := decide (f.source.emitted < f.source.n ∧ f.source.fallen = f.source.n)

/-- The step sources count as R38, R39 and R41 state. -/
def sourceLaw (s : State) : Bool :=
  (s.seq.finishing.all Finishing.owing) &&
    (match s.seq.exec with
      | none => true
      | some e =>
        match e.source with
        | .timed src => src.counted
        | _ => true)

/-! ## Notes (R152, R161) -/

/-- Slot i is QUEUED. -/
def NoteUnit.isQueued (u : NoteUnit) (i : Fin 4) : Bool :=
  match u.slots.get i with
  | .queued .. => true
  | _ => false

/-- Slot i is SENDING. -/
def NoteUnit.isSending (u : NoteUnit) (i : Fin 4) : Bool :=
  match u.slots.get i with
  | .sending .. => true
  | _ => false

/-- The payload of a note on its way is 0 to 8 bytes (10.0, R151). -/
def NoteSlot.payloadFits : NoteSlot → Bool
  | .queued _ _ payload => decide (payload.length ≤ 8)
  | .sending _ _ payload _ _ => decide (payload.length ≤ 8)
  | .free | .done .. => true

/-- At most one outgoing slot is SENDING, the acceptance order names exactly the QUEUED slots, each once, a payload has
at most 8 bytes, and the incoming queue holds at most 8 notes (10.0, R151, R152, R161). -/
def noteLaw (s : State) : Bool :=
  decide ((slotIds.filter s.notes.isSending).length ≤ 1) && decide s.notes.order.Nodup &&
    (slotIds.all fun i => decide (i ∈ s.notes.order) == s.notes.isQueued i) &&
    (slotIds.all fun i => (s.notes.slots.get i).payloadFits) &&
    decide (s.notes.inbox.length ≤ Config.inboxCapacity)

/-! ## Peers (R138, R147) -/

/-- Every entry at or above N is ABSENT, and the change map names only stations below N other than S (R138, R147).
Before CONFIGURE the settings in force give N as 0. -/
def peerLaw (s : State) : Bool :=
  stations.all fun k =>
    (decide (k.val < s.stationCount) || decide ((s.entry k).presence = .absent)) &&
      ((decide (k.val < s.stationCount) && decide (k ≠ s.id)) || !inMask s.peers.changeMap k)

/-! ## The timer and the lines (R2, R6, R14, R130) -/

/-- The settings in force are ones CONFIGURE accepts, and the link is IDLE before CONFIGURE (R172, R174, R175). -/
def settingsLaw (s : State) : Bool :=
  match s.config with
  | none => decide (s.link.state = .idle)
  | some c => settingsValid s.id c

/-- t stays in the range of its manner of counting (R2, R6, R14). -/
def timerLaw (s : State) : Bool :=
  match s.link.state with
  | .idle => decide (s.timer.t = 0)
  | .listen => decide (s.timer.t ≤ 3 * s.cycleUs)
  | .joining | .active => decide (s.timer.t < s.cycleUs)
  | .duplicate => decide (s.timer.t < s.cycleUs + 16)

/-- The station drives LINE and SYNC only in JOINING and ACTIVE; the founding pulse begins at the entry to JOINING
(R130, R9). -/
def driveLaw (s : State) : Bool :=
  (!s.drivesLine && !s.drivesSync) || decide (s.link.state = .joining ∨ s.link.state = .active)

/-! ## All of them -/

/-- A safe state obeys every law above. -/
def Safe (s : State) : Bool :=
  axisLaw s && linkAxisLaw s && refusalLaw s && completionLaw s && queueLaw s && sourceLaw s && noteLaw s &&
    peerLaw s && settingsLaw s && timerLaw s && driveLaw s && setupLaw s

end Sys2Proof.Machine
end

