-- ==== Sys2Proof/Certificates/Slice0/Obligations.lean ====
section
/-! DEFINITION. The statements for the provers, in the order of the spec's files: the queue and the tick, the link, peers
and notes, barriers and motion, halts, the host port, and the laws that every step keeps. Each says what a command does to
the whole state, or what it leaves unchanged. -/

namespace Sys2Proof.Claims

open Sys2Proof.Machine

/-! ## Words the statements share -/

/-- The port once a request has been taken with these parameters and this answer: it is in ANSWER. -/
def taken (code : Byte) (params answer : List Byte) (removal : Option Removal) (p : HostPort) : HostPort :=
  { p with
    phase := .answer
    request := some code
    params := params
    byteCount := 1 + params.length
    answer := answer
    removal := removal }

/-- These bytes complete the request with this code, whose parameters are `ps`, n bytes: the bytes follow the code in
REQUEST, or the parameters already clocked in PARAMETERS; bytes beyond the last parameter are not read. -/
def Completes (code : Byte) (n : Nat) (bytes : List Byte) (p : HostPort) (ps : List Byte) : Prop :=
  ∃ all : List Byte,
    ((p.phase = .request ∧ all = bytes) ∨
      (p.phase = .parameters ∧ p.request = some code ∧ all = p.params ++ bytes)) ∧
    n ≤ all.length ∧ ps = all.take n

/-- What every boundary leaves in the Cycle Timer, and what it leaves alone. -/
structure BeganCycle (s t : State) : Prop where
  cycle : t.timer.cycle = (match s.timer.adoption with
    | some c => c + 1
    | none => s.timer.cycle + 1)
  position : t.timer.t = 0
  adoption : t.timer.adoption = none
  disarmed : t.timer.armed = false
  earlySeen : t.timer.earlySeen = false
  earlyRun : t.timer.earlyRun =
    if t.link.state = .listen ∨ s.timer.earlySeen = false ∨ 3 ≤ s.timer.earlyRun + 1 then 0 else s.timer.earlyRun + 1
  divider : t.timer.divider = s.timer.divider
  id : t.id = s.id
  config : t.config = s.config
  pins : t.pins = s.pins
  pending : t.pending = s.pending

/-- The state after the boundary of this tick: the own run-out of JOINING or ACTIVE, the stretched run-out of DUPLICATE,
or an accepted edge ends the cycle, and t is the answer. -/
def EndsCycle (o : EventOrder) (s t : State) : Prop :=
  (runOutDue s = true ∧ exec (.runOut o) s = .next t) ∨
    (stretchedRunOutDue s = true ∧ exec (.stretchedRunOut o) s = .next t) ∨
    (edgeDue s = true ∧ s.edgeAccepted = true ∧ exec (.syncFallingEdge o) s = .next t)

/-- No stop from outside is taken inside the boundary: the order names no STOP_INPUT that is due and no HALT request that
would be taken. -/
structure Unstopped (o : EventOrder) (s : State) : Prop where
  stopInput : .stopInput ∈ o.turns → stopInputDue s = false
  hostHalt : .hostHalt ∈ o.turns → s.port.phase ≠ .request

/-- Every peer entry that is PRESENT or STALE was heard: the boundary loses no peer. -/
def AllHeard (s : State) : Prop :=
  ∀ k : Station, k ≠ s.id → k.val < s.stationCount →
    (s.entry k).presence = .present ∨ (s.entry k).presence = .stale → (s.entry k).heard = true

/-- The link is ACTIVE, and nothing that the boundary brings ends that, loses a peer or stops the axis from outside: no
collision, no third early edge, no cycle of slips, no silent peer, no STOP_INPUT and no HALT request. -/
structure Quiet (o : EventOrder) (s : State) : Prop where
  active : s.link.state = .active
  collision : s.link.collision = false
  early : s.timer.earlySeen = true → s.timer.earlyRun + 1 < 3
  slips : s.link.slips ≠ .allSlips
  heard : AllHeard s
  unstopped : Unstopped o s

/-- The number of the cycle that the next boundary begins. -/
def nextCycle (s : State) : Cycle :=
  match s.timer.adoption with
  | some c => c + 1
  | none => s.timer.cycle + 1

/-- The last stop bit of a frame of these bytes falls in the present tick, and its start bit came at this position. -/
def Sampled (chars : List RxChar) (s : State) (start : Nat) : Prop :=
  ∃ elapsed, s.link.rx = .receiving start elapsed ∧ 2 * chars.length ≤ elapsed + 1 ∧ elapsed ≤ 2 * chars.length

/-- A frame is received from slot k with these fields: its start has a position, and it passes the six checks. -/
def Hears (start : Nat) (chars : List RxChar) (s : State) (k : Station) (f : Frame) : Prop :=
  Sampled chars s start ∧ validSlot s.stationCount start chars = some k ∧
    f = parseFrame s.id (chars.map RxChar.data)

/-- A compatible frame from a station other than S that the link hands to the Peer Table (R135). -/
def Records (start : Nat) (chars : List RxChar) (s : State) (k : Station) (f : Frame) : Prop :=
  Hears start chars s k f ∧ k ≠ s.id ∧ profileMatches s.cfg f = true ∧
    (s.link.state = .joining ∨
      ((s.link.state = .active ∨ s.link.state = .duplicate) ∧ f.view.lastCycle = s.timer.cycle))

/-- The entry is one that a recorded frame returns to PRESENT. -/
abbrev Returning (p : Presence) : Prop := p = .absent ∨ p = .lost ∨ p = .incompatible

/-- The level a pin has at a tick. -/
def axisPin (p : PinLevels) : AxisInput → Bool
  | .home => p.home
  | .probe => p.probe
  | .limp => p.limp
  | .limn => p.limn

/-- One sample of a filter (R50, R91): the first is its level; a later one changes only the run of differing samples. -/
def Filtered (pin : Bool) (f g : Filter) : Prop :=
  (f.primed = false → g = { level := pin, run := 0, primed := true }) ∧
    (f.primed = true → g = { f with run := if pin = f.level then 0 else f.run + 1 })

/-- A timer in ticks after one tick. -/
def ticked : Option Nat → Option Nat
  | none => none
  | some n => some (n - 1)

/-- The record of a segment that ends in cycle c (R109, R110). -/
def recordOf (e : Executing) (code : Code) (c : Cycle) (steps : Nat) (g : StepGen) (part : RecordPart) : Record where
  seq := e.seg.seq
  kind := e.seg.body.kind
  code := code
  label := e.seg.label
  startCycle := e.startCycle
  endCycle := c
  steps := steps
  position := g.position
  known := g.known
  part := part

/-- The command is a request of the host. -/
def IsRequest : Instr → Prop
  | .configure _ | .start | .restart | .halt | .clearHalt | .queueSegment _ | .flushQueue | .setPosition _
  | .clearEvents _ | .readState | .readCompletion | .readHaltReport | .readPeer _ | .readPeerChanges | .sendNote _
  | .readNote | .readNoteSlot _ | .releaseNoteSlot _ | .unknownRequest _ => True
  | _ => False

/-- The code and the bytes of a request that has parameters (R169). -/
def paramsOf : Instr → Option (Byte × List Byte)
  | .configure bs => some (0x01, bs)
  | .queueSegment bs => some (0x10, bs)
  | .setPosition bs => some (0x14, bs)
  | .readPeer bs => some (0x23, bs)
  | .clearEvents bs => some (0x25, bs)
  | .sendNote bs => some (0x30, bs)
  | .readNoteSlot bs => some (0x32, bs)
  | .releaseNoteSlot bs => some (0x33, bs)
  | _ => none

/-- How many parameter bytes the request with this code has, when these are clocked (R169): SEND NOTE has its payload's
bytes too, once its length is known and is at most 8 (R151). -/
def needed (code : Byte) (bs : List Byte) : Nat :=
  if code = 0x01 then 12
  else if code = 0x10 then 16
  else if code = 0x14 then 4
  else if code = 0x30 then if 3 ≤ bs.length ∧ (byteAt bs 2).toNat ≤ 8 then 3 + (byteAt bs 2).toNat else 3
  else 1

/-- The axis is IDLE, RUNNING or WAITING: a halt is taken in it. -/
def Haltable (a : AxisState) : Prop := a = .idle ∨ a = .running ∨ a = .waiting

/-- The report a halt leaves names this cause, this peer and this segment. -/
def Reports (t : State) (cause : HaltCause) (peer : Option Station) (segment : Option (SeqNo × Code)) : Prop :=
  ∃ r, t.haltCtl.report = some r ∧ r.cause = cause ∧ r.peer = peer ∧ r.segment = segment

/-- The command takes a boundary, with this order. -/
def Bounds (c : Instr) (o : EventOrder) : Prop := c = .runOut o ∨ c = .stretchedRunOut o ∨ c = .syncFallingEdge o

/-- The record of a segment that started in cycle c as one that halts it there: HALTED and 0 steps (R34). -/
def haltedAtStart (seg : Segment) (c : Cycle) (g : StepGen) : Record where
  seq := seg.seq
  kind := seg.body.kind
  code := .halted
  label := seg.label
  startCycle := c
  endCycle := c
  steps := 0
  position := g.position
  known := g.known
  part := .none

/-- The segment is a MOVE_REL of this count over d cycles, and its range check passes from this start position (R28). -/
def StartsFrom (start : Int) (seg : Segment) (count : Int) (d : Nat) : Prop :=
  seg.body = .moveRel count d ∧ -2147483648 ≤ start + count ∧ start + count ≤ 2147483647

/-- The executing context of a timed segment that starts in cycle c (R26, R37). That one with no steps holds the direction +
is log entry 26 (DESIGN CHOICE). -/
def timedStart (s : State) (seg : Segment) (count : Int) (d : Nat) (c : Cycle) : Executing where
  seg := seg
  startCycle := c
  source := .timed {
    dir := if count < 0 then .minus else .plus, n := count.natAbs, length := d * s.cycleUs, emitted := 0, fallen := 0 }

/-- Bytes 8..17 of this READ NOTE SLOT answer, which follow its outcome byte, show the delivered and failed masks and the three
reason masks of these standings (R163). -/
def ShowsOutcome (answer : List Byte) (st : Vector Standing 16) : Prop :=
  ∀ k : Station,
    inMask (word16At answer 9) k = decide (st.get k = .delivered) ∧
    inMask (word16At answer 11) k = (st.get k).isFailed ∧
    inMask (word16At answer 13) k = decide (st.get k = .failed .gone) ∧
    inMask (word16At answer 15) k = decide (st.get k = .failed .restarted) ∧
    inMask (word16At answer 17) k = decide (st.get k = .failed .noAck)

/-- The last recorded frame of station m shows this barrier tag (R70). -/
def ShowsTag (s : State) (tag : Byte) (m : Station) : Prop :=
  (s.entry m).presence ≠ .absent ∧ (s.entry m).view.barTag = tag

/-- A HOME has ended HOMED in going from s to t: HOME was active, the counter holds the home value of the executing HOME
or of the one at the queue's head, the flag is set, and the record says so (R59, R66). -/
def Homed (s t : State) : Prop :=
  s.inputActive .home = true ∧ t.gen.known = true ∧
    ((∃ e u, s.seq.exec = some e ∧ e.source = .untimed u ∧ u.home = some t.gen.position) ∨
      ∃ seg dir interval maxSteps,
        s.seq.queue.head? = some seg ∧ seg.body = .home dir interval maxSteps t.gen.position) ∧
    ∃ r, r ∈ t.held ∧ r.code = .homed ∧ r.position = t.gen.position ∧ r.known = true ∧ r.endCycle = t.timer.cycle

/-- The command completes a SET POSITION, and the counter and the flag are as it sets them (R53). -/
def SetsPosition (c : Instr) (s t : State) : Prop :=
  ∃ bytes ps, c = .setPosition bytes ∧ Completes 0x14 4 bytes s.port ps ∧
    t.gen.position = byteAt ps 0 ++ byteAt ps 1 ++ byteAt ps 2 ++ byteAt ps 3 ∧ t.gen.known = true

/-- The fields a segment record of 16 bytes gives, in the layout of 12.3, when it is valid under R19. -/
def RecordGives (own : Station) (cfg : Settings) (ps : List Byte) (b : SegBody) : Prop :=
  (byteAt ps 0 = 0x01 ∧ ∃ n : Int, ∃ d : Nat,
    n = (byteAt ps 3 ++ byteAt ps 4 ++ byteAt ps 5 ++ byteAt ps 6).toInt ∧ d = (byteAt ps 7 ++ byteAt ps 8).toNat ∧
    b = .moveRel n d ∧ -65535 ≤ n ∧ n ≤ 65535 ∧ 1 ≤ d ∧ d ≤ 4095) ∨
  (byteAt ps 0 = 0x02 ∧ ∃ d : Nat, d = (byteAt ps 7 ++ byteAt ps 8).toNat ∧
    b = .moveAbs (byteAt ps 3 ++ byteAt ps 4 ++ byteAt ps 5 ++ byteAt ps 6) d ∧ 1 ≤ d ∧ d ≤ 4095) ∨
  (∃ dir : Direction, ∃ interval maxSteps : Nat,
    ((byteAt ps 3 = 0x00 ∧ dir = .plus) ∨ (byteAt ps 3 = 0x01 ∧ dir = .minus)) ∧
    interval = (byteAt ps 4 ++ byteAt ps 5).toNat ∧ maxSteps = (byteAt ps 6 ++ byteAt ps 7 ++ byteAt ps 8).toNat ∧
    ((byteAt ps 0 = 0x03 ∧
        b = .home dir interval maxSteps (byteAt ps 9 ++ byteAt ps 10 ++ byteAt ps 11 ++ byteAt ps 12)) ∨
      (byteAt ps 0 = 0x04 ∧ b = .probe dir interval maxSteps)) ∧
    cfg.minStepUs ≤ interval ∧ 1 ≤ maxSteps) ∨
  (byteAt ps 0 = 0x05 ∧ ∃ timeout : Nat, timeout = (byteAt ps 6 ++ byteAt ps 7).toNat ∧
    b = .barrier (byteAt ps 3) (byteAt ps 4 ++ byteAt ps 5) timeout ∧ byteAt ps 3 ≠ 0 ∧ timeout ≤ 4095 ∧
    inMask (byteAt ps 4 ++ byteAt ps 5) own = true ∧
    ∀ k : Station, inMask (byteAt ps 4 ++ byteAt ps 5) k = true → k.val < cfg.stationCount)

end Sys2Proof.Claims

open Sys2Proof Sys2Proof.Machine Sys2Proof.Claims

/-! ## The queue of commands and the tick -/

/-- Each step runs exactly the command at the front of the queue, on the state with the queue's rest. -/
def Obligations.StepRunsFrontCommand : Prop :=
  ∀ (c : Instr) (rest : List Instr) (s : State), s.pending = c :: rest → step s = exec c { s with pending := rest }

/-- The model's own choices of log entries 4 and 5: with no command waiting a step is one period of the reference, 16 of
them make a tick, and a tick waits for the events of the tick before it. -/
def Obligations.EmptyQueueCountsReferencePeriods : Prop :=
  (∀ s : State, s.pending = [] → s.timer.divider < 15 →
    step s = .next { s with timer := { s.timer with divider := s.timer.divider + 1 } }) ∧
  (∀ s : State, s.pending = [] → 15 ≤ s.timer.divider → step s = exec (.tick ⟨s.pins, false⟩) s) ∧
  (∀ (pins : PinLevels) (lineStart : Bool) (s : State), anyDue s = true →
    exec (.tick ⟨pins, lineStart⟩) s = .next s)

/-- None but DEVICE_RESET changes the station number, or the settings once the station is configured, and an unconfigured
station becomes configured by CONFIGURE alone, with settings that R172 allows (R172, R173, R180). That no command touches
the waiting ones, DEVICE_RESET among them, is the model's choice (log entries 5 and 20). -/
def Obligations.ConfigurationIsFrozen : Prop :=
  ∀ (c : Instr) (s t : State), exec c s = .next t →
    t.pending = s.pending ∧
      ((∀ k, c ≠ .deviceReset k) → t.id = s.id ∧ (s.config.isSome = true → t.config = s.config)) ∧
      (s.config = none → t.config ≠ none → ∃ ps x, c = .configure ps ∧ t.config = some x ∧ settingsValid s.id x = true)

/-- Device reset gives every block the values its chapter states (R17, R36, R54, R87, R107, R118, R137, R150, R166,
R180). That the pins keep the levels the outside drives and the waiting commands stay is the model's choice (log entries 6
and 20). -/
def Obligations.DeviceResetGivesResetValues : Prop :=
  ∀ (k : Station) (s : State), ∃ t, exec (.deviceReset k) s = .next t ∧
    t.id = k ∧ t.config = none ∧ t.pending = s.pending ∧ t.pins = s.pins ∧
    (t.timer.divider = 0 ∧ t.timer.t = 0 ∧ t.timer.cycle = 0 ∧ t.timer.earlyRun = 0 ∧ t.timer.earlySeen = false ∧
      t.timer.armed = false ∧ t.timer.pulse = none ∧ t.timer.adoption = none) ∧
    (t.link.state = .idle ∧ t.link.joinCount = 0 ∧ t.link.request = none ∧ t.link.slipRun = 0 ∧ t.link.slips = .none ∧
      t.link.collisionRun = 0 ∧ t.link.collision = false ∧ t.link.prevEdge = false ∧ t.link.candidate = none ∧
      t.link.profileMismatch = false ∧ t.drivesLine = false) ∧
    ((∀ m, t.entry m = PeerEntry.blank) ∧ t.peers.changeMap = 0) ∧
    (t.seq.axis = .disabled ∧ t.seq.queue = [] ∧ t.seq.exec = none ∧ t.seq.outstanding = [] ∧ t.seq.reserved = 0 ∧
      t.seq.nextSeq = 1) ∧
    (t.gen.position = 0 ∧ t.gen.known = false ∧ t.gen.dirHigh = false ∧ t.stepHigh = false ∧ t.dren = false ∧
      t.gen.spacing = none ∧ t.gen.dirSetup = none ∧ t.gen.pulse = none ∧ t.gen.refused = false ∧
      ∀ i, (t.gen.filter i).primed = false) ∧
    (t.barrier.ctx = none ∧ t.barrier.histTag = 0 ∧ t.barrier.histCycle = 0) ∧
    (t.haltCtl.stopn.primed = false ∧ t.haltCtl.stopn.run = 0 ∧ t.haltCtl.latch = false ∧ t.haltCtl.report = none ∧
      t.cfg.stopGroup = 0) ∧
    t.held = [] ∧
    ((∀ i, t.notes.slots.get i = .free) ∧ t.notes.order = [] ∧ t.notes.nextNumber = 1 ∧ t.notes.inbox = []) ∧
    (t.port.phase = .closed ∧ t.port.removal = none ∧ t.sdoDriven = false ∧ t.flags = 0 ∧ t.intnHigh = true)

/-! ## The tick (R1, R2, R3, R6, R13, R14) -/

/-- A tick advances t by the manner of counting of the link state, raises the run-out where t would reach the end of the
cycle, a slot start at position 24 + 96k of each slot, and silence at three cycles of LISTEN. That t stays at the last
position while the run-out is raised, and that a tick leaves the divider at 0 whatever it was, are the model's choices
(log entries 2 and 5). -/
def Obligations.TickCountsByLinkState : Prop :=
  ∀ (pins : PinLevels) (lineStart : Bool) (s : State), anyDue s = false → ∃ t, exec (.tick ⟨pins, lineStart⟩) s = .next t ∧
    t.timer.divider = 0 ∧ t.timer.cycle = s.timer.cycle ∧
    (s.link.state = .idle → t.timer.t = s.timer.t ∧ t.timer.raised.slotStart = false) ∧
    (s.link.state = .listen →
      t.timer.t = min (s.timer.t + 1) (3 * s.cycleUs) ∧
      (t.timer.raised.silence = true ↔ s.timer.t < 3 * s.cycleUs ∧ 3 * s.cycleUs ≤ s.timer.t + 1) ∧
      (t.timer.raised.slotStart = true ↔
        s.timer.t + 1 < s.cycleUs ∧ ∃ k, k < s.stationCount ∧ s.timer.t + 1 = 24 + 96 * k)) ∧
    (s.link.state = .joining ∨ s.link.state = .active →
      if s.timer.t + 1 < s.cycleUs then
        t.timer.t = s.timer.t + 1 ∧ t.timer.raised.runOut = false ∧
          (t.timer.raised.slotStart = true ↔ ∃ k, k < s.stationCount ∧ s.timer.t + 1 = 24 + 96 * k)
      else t.timer.t = s.timer.t ∧ t.timer.raised.runOut = true ∧ t.timer.raised.slotStart = false) ∧
    (s.link.state = .duplicate →
      if s.timer.t + 1 < s.cycleUs + 16 then
        t.timer.t = s.timer.t + 1 ∧ t.timer.raised.stretched = false ∧
          (t.timer.raised.slotStart = true ↔ ∃ k, k < s.stationCount ∧ s.timer.t + 1 = 24 + 96 * k)
      else t.timer.t = s.timer.t ∧ t.timer.raised.stretched = true ∧ t.timer.raised.slotStart = false)

/-- A tick samples SYNC for the edge detector (R3, R9), counts down the pulse and setup timers, advances the spacing
measure and the interval count, samples each input filter (R42, R43, R44, R50, R57, R91), brings a founding request of
LISTEN to its taking (R15, R124), and gives a start bit that the receiver takes the position t, in the start window of a
slot; a start elsewhere begins no frame (R13, R14, R133). It changes nothing else but the count of TickCountsByLinkState.
The model's own readings in it: the frame's elapsed ticks and the receiver's (log entry 12), the interval count that stands
still before the first step and is held at 65535 (log entry 16), the request that waits for the next tick (log entry 2),
the levels of the last tick as a field of their own (log entry 5), and what the pins stand for: the SYNC level joined to
the own pulse, and the position t of a start bit in the tick of an edge of LISTEN, before the edge sets t to 0 (log entry
13). -/
def Obligations.TickSamplesAndAges : Prop :=
  ∀ (pins : PinLevels) (lineStart : Bool) (s : State), anyDue s = false → ∃ t, exec (.tick ⟨pins, lineStart⟩) s = .next t ∧
    t.timer.pulse = ticked s.timer.pulse ∧
    (∀ sample, sample = (pins.sync && (t.timer.pulse == none || t.timer.pulse == some 0)) →
      t.timer.syncHigh = sample ∧ t.timer.raised.edge = (s.timer.armed && s.timer.syncHigh && !sample) ∧
        t.timer.highRun = if sample then min 4 (s.timer.highRun + 1) else 0) ∧
    t.timer.armed = s.timer.armed ∧ t.timer.adoption = s.timer.adoption ∧ t.timer.earlySeen = s.timer.earlySeen ∧
    t.timer.earlyRun = s.timer.earlyRun ∧
    t.timer.founding = (if s.link.state = .listen ∧ s.timer.founding = .requested then .due else s.timer.founding) ∧
    t.gen.spacing = s.gen.spacing.map (fun n => min 255 (n + 1)) ∧ t.gen.pulse = ticked s.gen.pulse ∧
    t.gen.dirSetup = ticked s.gen.dirSetup ∧ t.gen.position = s.gen.position ∧ t.gen.known = s.gen.known ∧
    t.gen.dirHigh = s.gen.dirHigh ∧ t.gen.refused = s.gen.refused ∧
    (∀ i, Filtered (axisPin pins i) (s.gen.filter i) (t.gen.filter i)) ∧
    Filtered pins.stopn s.haltCtl.stopn t.haltCtl.stopn ∧ t.haltCtl.latch = s.haltCtl.latch ∧
    t.haltCtl.report = s.haltCtl.report ∧
    t.link = { s.link with tx := s.link.tx.map fun f => { f with elapsed := f.elapsed + 1 }, rx := t.link.rx } ∧
    (∀ start elapsed, s.link.rx = .receiving start elapsed → t.link.rx = .receiving start (elapsed + 1)) ∧
    (s.link.rx = .waiting → t.link.rx = .waiting) ∧
    (s.link.rx = .looking → lineStart = false → t.link.rx = .looking) ∧
    (s.link.rx = .looking → lineStart = true →
      ∀ off inWindow : Prop,
        (off ↔ s.link.state = .idle ∨ ((s.link.state = .joining ∨ s.link.state = .active) ∧
          24 + 96 * s.id.val ≤ t.timer.t ∧ t.timer.t ≤ 119 + 96 * s.id.val)) →
        (inWindow ↔ (∃ k, k < s.stationCount ∧ 24 + 96 * k ≤ t.timer.t ∧ t.timer.t ≤ 31 + 96 * k) ∧
          (s.link.state = .listen → t.timer.t < s.cycleUs)) →
        (off → t.link.rx = .looking) ∧
        (¬ off → inWindow → t.link.rx = .receiving t.timer.t 0) ∧
        (¬ off → ¬ inWindow → t.link.rx = .waiting)) ∧
    t.seq.axis = s.seq.axis ∧ t.seq.queue = s.seq.queue ∧ t.seq.outstanding = s.seq.outstanding ∧
    t.seq.nextSeq = s.seq.nextSeq ∧
    (match s.seq.exec with
      | none => t.seq.exec = none
      | some e =>
        match e.source with
        | .untimed u =>
          t.seq.exec = some { e with source := .untimed { u with
            intervalCount := if u.emitted = 0 then u.intervalCount else min 65535 (u.intervalCount + 1) } }
        | _ => t.seq.exec = some e) ∧
    t.pins = pins ∧ t.id = s.id ∧ t.config = s.config ∧ t.peers = s.peers ∧ t.barrier = s.barrier ∧ t.held = s.held ∧
    t.notes = s.notes ∧ t.port = s.port ∧ t.pending = s.pending

/-! ## The boundary and the edges (R4 to R11, R14 to R16, R122, R124) -/

/-- The own run-out begins the next cycle: t is 0, the number advances or the pending adoption plus 1 is taken, and the
own pulse of 8 ticks begins; it lasts while the link stays in JOINING or ACTIVE. -/
def Obligations.RunOutBeginsNextCycle : Prop :=
  ∀ (o : EventOrder) (s : State), runOutDue s = true → ∃ t, exec (.runOut o) s = .next t ∧ BeganCycle s t ∧
    t.timer.pulse = if t.link.state = .joining ∨ t.link.state = .active then some 8 else none

/-- The stretched run-out of DUPLICATE and an edge in the acceptance window begin the next cycle, and begin no pulse. -/
def Obligations.EdgeOrStretchedRunOutBeginsNextCycle : Prop :=
  (∀ (o : EventOrder) (s : State), stretchedRunOutDue s = true → ∃ t, exec (.stretchedRunOut o) s = .next t ∧
    BeganCycle s t ∧ t.timer.pulse = s.timer.pulse ∧ t.link.state = .duplicate) ∧
  (∀ (o : EventOrder) (s : State), edgeDue s = true → s.edgeAccepted = true →
    ∃ t, exec (.syncFallingEdge o) s = .next t ∧ BeganCycle s t ∧
      (t.timer.pulse = s.timer.pulse ∨ t.timer.pulse = none))

/-- An early edge of a counting state is marked and disarms the detector; an edge in IDLE only disarms it; neither ends the
cycle or moves t. An edge taken in LISTEN confirms when the previous edge is present, no founding stands, its spacing is
within 16 ticks of the cycle and a candidate is held: the link enters JOINING with the candidate's number plus 1. Any
other edge of LISTEN becomes the previous edge, and the candidate goes (R3, R10, R14, R15, R16, R122). That an edge in
IDLE only disarms is log entry 18, that the candidate and the previous edge stay at confirmation is log entry 17, both
DEDUCED. -/
def Obligations.OtherEdgesActByLinkState : Prop :=
  (∀ (o : EventOrder) (s : State), s.timer.raised.edge = true →
    s.link.state = .joining ∨ s.link.state = .active ∨ s.link.state = .duplicate → s.edgePosition + 16 < s.cycleUs →
    exec (.syncFallingEdge o) s = .next { s with timer := { s.timer with
      earlySeen := true, armed := false, highRun := 0, raised := { s.timer.raised with edge := false } } }) ∧
  (∀ (o : EventOrder) (s : State), s.timer.raised.edge = true → s.link.state = .idle →
    exec (.syncFallingEdge o) s = .next { s with timer := { s.timer with
      armed := false, highRun := 0, raised := { s.timer.raised with edge := false } } }) ∧
  (∀ (o : EventOrder) (s : State) (c : CycleOffer), s.timer.raised.edge = true → s.link.state = .listen →
    s.link.prevEdge = true → s.timer.founding = .none → s.cycleUs ≤ s.timer.t + 16 → s.timer.t ≤ s.cycleUs + 16 →
    s.link.candidate = some c →
    exec (.syncFallingEdge o) s = .next { s with
      timer := { s.timer with
        t := 0, armed := false, highRun := 0, founding := .none, raised := Raised.clear, cycle := c.cycle + 1,
        earlyRun := 0 }
      link := { s.link with state := .joining, joinCount := 0 }
      port := { s.port with linkFlag := true } }) ∧
  (∀ (o : EventOrder) (s : State), s.timer.raised.edge = true → s.link.state = .listen →
    s.link.prevEdge = false ∨ s.timer.founding ≠ .none ∨ s.timer.t + 16 < s.cycleUs ∨ s.cycleUs + 16 < s.timer.t ∨
      s.link.candidate = none →
    exec (.syncFallingEdge o) s = .next { s with
      timer := { s.timer with t := 0, armed := false, highRun := 0, founding := .none, raised := Raised.clear }
      link := { s.link with prevEdge := true, candidate := none } })

/-- The detector arms at four high samples (R3); the own pulse ends after its ticks (R9); silence makes the link ask for the
founding (R124), which begins cycle 0 with a pulse of 8 ticks in JOINING (R15). A recessive bit of the present tick read
back dominant stops the own frame and marks the cycle (R131); the frame ends after its last stop bit (R130); the receiver
looks for a start again (R133). Five bits to a tick and two ticks to a byte are log entry 12, the candidate and the previous
edge kept at founding log entry 17 (both DEDUCED), and the founding held as `requested` log entry 2 (DESIGN CHOICE). That a
COLLISION of a bit not sent recessive changes nothing is log entry 1, and that LOOK_FOR_START_AGAIN acts in every state of the
receiver, a frame being received included, log entry 13 (both DESIGN CHOICE). -/
def Obligations.TimerAndLineEvents : Prop :=
  (∀ s : State, s.timer.armed = false → 4 ≤ s.timer.highRun →
    exec .edgeDetectorArmed s = .next { s with timer := { s.timer with armed := true } }) ∧
  (∀ s : State, s.timer.pulse = some 0 →
    exec .syncPulseEnd s = .next { s with timer := { s.timer with pulse := none } }) ∧
  (∀ s : State, s.timer.raised.silence = true → s.link.state = .listen →
    exec .silence s = .next { s with timer := { s.timer with
      founding := .requested, raised := { s.timer.raised with silence := false } } }) ∧
  (∀ s : State, s.timer.founding = .due → s.link.state = .listen →
    exec .founding s = .next { s with
      timer := { s.timer with
        t := 0, cycle := 0, earlyRun := 0, armed := false, highRun := 0, pulse := some 8, founding := .none,
        raised := Raised.clear }
      link := { s.link with state := .joining, joinCount := 0 }
      port := { s.port with linkFlag := true } }) ∧
  (∀ (bit : Nat) (s : State) (f : OwnFrame), s.link.tx = some f → sentRecessive f.bytes bit = true →
    bit / 5 = f.elapsed → exec (.collision bit) s = .next { s with link := { s.link with
      tx := none, collision := true } }) ∧
  (∀ (bit : Nat) (s : State) (f : OwnFrame), s.link.tx = some f → sentRecessive f.bytes bit = false →
    exec (.collision bit) s = .next s) ∧
  (∀ (s : State) (f : OwnFrame), s.link.tx = some f → 2 * f.bytes.length ≤ f.elapsed →
    exec .ownFrameEnd s = .next { s with link := { s.link with tx := none } }) ∧
  (∀ s : State, exec .lookForStartAgain s = .next { s with link := { s.link with rx := .looking } })

/-! ## The own frame (R13, R130, R131, R146, R153) -/

/-- At the own slot start of JOINING or ACTIVE the own frame, fixed there, begins, the own entry takes it, and the shown
cycles are recorded unless the link is JOINING; any other slot start is only taken (R13, R130, R146, R153). That the own
entry's heard flag stays as it was is log entry 19, and that a frame begins with 0 elapsed ticks log entry 12, both
DEDUCED. -/
def Obligations.SlotStartTransmitsOwnFrame : Prop :=
  (∀ s : State, s.timer.raised.slotStart = true → s.id.val < s.stationCount → s.timer.t = 24 + 96 * s.id.val →
    s.link.state = .joining ∨ s.link.state = .active → ∃ t, exec .slotStart s = .next t ∧
      t.link = { s.link with tx := some { bytes := s.ownFrame, elapsed := 0 } } ∧
      t.timer = { s.timer with raised := { s.timer.raised with slotStart := false } } ∧
      (∀ k, t.entry k =
        { s.entry k with
          presence := if k = s.id then .present else (s.entry k).presence
          missed := if k = s.id then 0 else (s.entry k).missed
          view := if k = s.id then parseView s.id s.ownFrame else (s.entry k).view
          resyncShown :=
            if s.link.state = .active ∧ (s.entry k).resync = true ∧ (s.entry k).resyncShown = none then
              some s.timer.cycle
            else (s.entry k).resyncShown }) ∧
      (∀ i, some i ≠ s.notes.sendingId ∨ s.link.state = .joining → t.notes.slots.get i = s.notes.slots.get i) ∧
      (∀ i n dests p c st, s.notes.sendingId = some i → s.link.state = .active →
        s.notes.slots.get i = .sending n dests p c st → ∃ st', t.notes.slots.get i = .sending n dests p c st' ∧
          ∀ k, st'.get k = if st.get k = .pending none then .pending (some s.timer.cycle) else st.get k) ∧
      t.notes.order = s.notes.order ∧ t.notes.nextNumber = s.notes.nextNumber ∧ t.notes.inbox = s.notes.inbox ∧
      t.peers.changeMap = s.peers.changeMap ∧ t.id = s.id ∧ t.config = s.config ∧ t.pins = s.pins ∧ t.seq = s.seq ∧
      t.gen = s.gen ∧ t.barrier = s.barrier ∧ t.haltCtl = s.haltCtl ∧ t.held = s.held ∧ t.port = s.port ∧
      t.pending = s.pending) ∧
  (∀ s : State, s.timer.raised.slotStart = true →
    s.timer.t ≠ 24 + 96 * s.id.val ∨ (s.link.state ≠ .joining ∧ s.link.state ≠ .active) →
    exec .slotStart s = .next { s with timer := { s.timer with
      raised := { s.timer.raised with slotStart := false } } })

/-- The own frame of a configured station passes all six checks of any station of the same profile that receives it in
the slot, matches its profile, and gives back every field as the sender held it (12.2, R130, R133, R134, R181). -/
def Obligations.OwnFrameIsReceivedWhole : Prop :=
  ∀ (s : State) (c : Settings) (other : Station) (late : Nat), s.config = some c → settingsValid s.id c = true →
    noteLaw s = true → late < 8 →
    (let chars := s.ownFrame.map fun b => ({ startDominant := true, data := b, stopRecessive := true } : RxChar)
      let f := parseFrame other s.ownFrame
      validSlot c.stationCount (24 + 96 * s.id.val + late) chars = some s.id ∧ profileMatches c f = true ∧
        f.station.toNat = s.id.val ∧
        f.view.lastCycle = s.timer.cycle ∧ f.view.join = decide (s.link.state = .joining) ∧
        f.view.halted = decide (s.seq.axis = .halted) ∧ f.view.origin = s.origin ∧ f.view.known = s.gen.known ∧
        f.view.axis = s.seq.axis.code ∧ f.view.position = s.gen.position ∧
        (match s.barrier.ctx with
          | some x => f.view.barTag = x.tag ∧ f.view.barArrival = x.arrival ∧ f.view.barMask = x.mask
          | none => f.view.barTag = 0 ∧ f.view.barArrival = 0 ∧ f.view.barMask = 0) ∧
        f.view.relTag = s.barrier.histTag ∧ f.view.relCycle = s.barrier.histCycle ∧
        f.ackMap = s.peerBits PeerEntry.memory ∧ f.refuseMap = s.peerBits PeerEntry.refuse ∧
        f.resyncMap = s.peerBits PeerEntry.resync ∧
        (s.notes.sendingId = none → f.note = none) ∧
        (∀ i n dests p b st, s.notes.sendingId = some i → s.notes.slots.get i = .sending n dests p b st →
          f.note = some { number := n, pendingMask := standingMask st Standing.isPending,
                          toggleMap := s.peerBits PeerEntry.toggle, payload := p }))

/-! ## Received frames (R123, R126, R127, R133 to R136, R139 to R142) -/

/-- A frame is judged at its last stop bit and by the position of its start (R13, R133); that the bit falls in the last
tick of the frame or in the tick after it is log entry 12 (DEDUCED). That a FRAME_RECEIVED with another start, or at another
moment, changes nothing is the model's choice (log entries 1 and 13, DESIGN CHOICE). A frame that fails a check, such as one whose start
lies in no slot, and a slip leave no trace but the wait for a recessive line and, for a slip, the mark of R127. -/
def Obligations.UnrecordedFrameLeavesNoTrace : Prop :=
  (∀ (start : Nat) (chars : List RxChar) (b : Bool) (s : State), ¬ Sampled chars s start →
    exec (.frameReceived start chars b) s = .next s) ∧
  (∀ (start : Nat) (chars : List RxChar) (b : Bool) (s : State), Sampled chars s start →
    (∀ k, k < s.stationCount → start < 24 + 96 * k ∨ 31 + 96 * k < start) ∨
      validSlot s.stationCount start chars = none →
    exec (.frameReceived start chars b) s = .next { s with link := { s.link with rx := .waiting } }) ∧
  (∀ (start : Nat) (chars : List RxChar) (b : Bool) (s : State) (k : Station) (f : Frame), Hears start chars s k f →
    k ≠ s.id → profileMatches s.cfg f = true → f.view.lastCycle ≠ s.timer.cycle → s.link.state = .active →
    exec (.frameReceived start chars b) s = .next { s with link := { s.link with
      rx := .waiting, slips := if s.link.slips = .agreed then .agreed else .allSlips } }) ∧
  (∀ (start : Nat) (chars : List RxChar) (b : Bool) (s : State) (k : Station) (f : Frame), Hears start chars s k f →
    s.link.state = .duplicate →
    k = s.id ∨ (profileMatches s.cfg f = true ∧ f.view.lastCycle ≠ s.timer.cycle) →
    exec (.frameReceived start chars b) s = .next { s with link := { s.link with rx := .waiting } })

/-- A compatible frame handed to the Peer Table overwrites the frame fields of its sender's entry and sets the heard
flag; an ABSENT, LOST or INCOMPATIBLE entry returns to PRESENT and sets its change bit. No other entry changes, and the
sequencer loses no record. -/
def Obligations.CompatibleFrameIsRecorded : Prop :=
  ∀ (start : Nat) (chars : List RxChar) (b : Bool) (s : State) (k : Station) (f : Frame),
    Records start chars s k f → ∃ t, exec (.frameReceived start chars b) s = .next t ∧
      (t.entry k).view = f.view ∧ (t.entry k).heard = true ∧
      (Returning (s.entry k).presence →
        (t.entry k).presence = .present ∧ (t.entry k).missed = 0 ∧
          t.peers.changeMap = s.peers.changeMap ||| (1#16 <<< k.val)) ∧
      (¬ Returning (s.entry k).presence →
        (t.entry k).presence = (s.entry k).presence ∧ (t.entry k).missed = (s.entry k).missed ∧
          t.peers.changeMap = s.peers.changeMap) ∧
      (∀ m, m ≠ k → t.entry m = s.entry m) ∧
      t.link.state = s.link.state ∧ t.link.rx = .waiting ∧
      t.link.slips = (if s.link.state = .active then .agreed else s.link.slips) ∧
      t.timer.t = s.timer.t ∧ t.timer.cycle = s.timer.cycle ∧
      (s.link.state ≠ .joining → t.timer.adoption = s.timer.adoption) ∧
      t.gen.position = s.gen.position ∧ t.gen.known = s.gen.known ∧ (∃ more, t.held = s.held ++ more) ∧ t.id = s.id ∧
      t.config = s.config ∧ t.pins = s.pins ∧ t.pending = s.pending

/-- A valid frame with another profile makes its sender's entry INCOMPATIBLE, keeps the frame fields and sets the change
bit; an entry that is INCOMPATIBLE already changes nothing (R134, R142). While the axis waits at a barrier whose INCOMPLETE
context has the station as a member, the barrier fails with MEMBER_LOST, or PEER_LOST of a stop-group member is taken
first and withdraws it (R83, R84, R85, R96). -/
def Obligations.ProfileMismatchMakesIncompatible : Prop :=
  ∀ (start : Nat) (chars : List RxChar) (b : Bool) (s : State) (k : Station) (f : Frame), Hears start chars s k f →
    k ≠ s.id → profileMatches s.cfg f = false →
    s.link.state = .joining ∨ s.link.state = .active ∨ s.link.state = .duplicate →
    ((s.entry k).presence = .incompatible →
      exec (.frameReceived start chars b) s = .next { s with link := { s.link with rx := .waiting } }) ∧
    ((s.entry k).presence ≠ .incompatible → ∃ t, exec (.frameReceived start chars b) s = .next t ∧
      t.entry k = { s.entry k with presence := .incompatible, missed := 0, heard := false } ∧
      t.peers.changeMap = s.peers.changeMap ||| (1#16 <<< k.val) ∧ (∀ m, m ≠ k → t.entry m = s.entry m) ∧
      t.timer = s.timer ∧ t.link = { s.link with rx := .waiting } ∧ t.notes = s.notes ∧ t.id = s.id ∧
      t.config = s.config ∧ t.pins = s.pins ∧ t.pending = s.pending ∧
      (inMask s.cfg.stopGroup k = false → s.barrier.ctx = none →
        t.seq = s.seq ∧ t.gen = s.gen ∧ t.haltCtl = s.haltCtl ∧ t.held = s.held) ∧
      (inMask s.cfg.stopGroup k = true → s.barrier.ctx = none → Haltable s.seq.axis →
        t.seq.axis = .halted ∧ t.haltCtl.latch = true ∧
          t.haltCtl.report.map (fun r => (r.cause, r.peer)) = some (.peerLost, some k)) ∧
      (∀ x e, s.seq.axis = .waiting → s.barrier.ctx = some x → s.seq.exec = some e → x.seq = e.seg.seq →
        x.release = none → inMask x.mask k = true →
        t.barrier = { s.barrier with ctx := none } ∧ t.seq.axis = .halted ∧ t.haltCtl.latch = true ∧
        (b = true ∨ inMask s.cfg.stopGroup k = false →
          Reports t .segmentFault none (some (e.seg.seq, .memberLost)) ∧
          t.held.getLast? = some (recordOf e .memberLost s.timer.cycle e.source.emitted s.gen .none)) ∧
        (b = false → inMask s.cfg.stopGroup k = true →
          Reports t .peerLost (some k) none ∧
          t.held.getLast? = some (recordOf e .halted s.timer.cycle e.source.emitted s.gen .none))))

/-- In LISTEN a valid frame is looked at only while the previous edge is present: another profile sets the mismatch flag; a
compatible one becomes the candidate when none is held, or when the held one is a joiner's and this one a member's or a
joiner's with a later number (R123); nothing else changes. In JOINING a compatible frame with another number is adopted
when its sender is a member, or a joiner with a later number, and when it wins against the request of this cycle (R126);
the timer holds the number for the next boundary (R12). That a frame of LISTEN which an edge fell into is judged by the
previous edge that stands at its last stop bit is log entry 13 (DESIGN CHOICE). -/
def Obligations.FrameNumberIsTakenUp : Prop :=
  (∀ (start : Nat) (chars : List RxChar) (b : Bool) (s : State) (k : Station) (f : Frame), Hears start chars s k f →
     s.link.state = .listen →
     exec (.frameReceived start chars b) s = .next { s with link := { s.link with
       rx := .waiting
       profileMismatch := s.link.profileMismatch || (s.link.prevEdge && !profileMatches s.cfg f)
       candidate :=
         if s.link.prevEdge = true ∧ profileMatches s.cfg f = true then
           match s.link.candidate with
           | none => some { cycle := f.view.lastCycle, join := f.view.join }
           | some c =>
             if c.join = true ∧ (f.view.join = false ∨ later f.view.lastCycle c.cycle = true) then
               some { cycle := f.view.lastCycle, join := f.view.join }
             else some c
         else s.link.candidate } }) ∧
  (∀ (start : Nat) (chars : List RxChar) (b : Bool) (s : State) (k : Station) (f : Frame),
     Records start chars s k f → s.link.state = .joining → ∃ t, exec (.frameReceived start chars b) s = .next t ∧
       ((f.view.lastCycle ≠ s.timer.cycle ∧ (f.view.join = false ∨ later f.view.lastCycle s.timer.cycle = true) ∧
           (∀ c, s.link.request = some c → f.view.join = true →
             c.join = true ∧ later f.view.lastCycle c.cycle = true)) →
         t.timer = { s.timer with adoption := some f.view.lastCycle } ∧
         t.link = { s.link with
           rx := .waiting, request := some { cycle := f.view.lastCycle, join := f.view.join } }) ∧
       (¬ (f.view.lastCycle ≠ s.timer.cycle ∧ (f.view.join = false ∨ later f.view.lastCycle s.timer.cycle = true) ∧
           (∀ c, s.link.request = some c → f.view.join = true →
             c.join = true ∧ later f.view.lastCycle c.cycle = true)) →
         t.timer = s.timer ∧ t.link = { s.link with rx := .waiting }))

/-! ## Membership and ageing at a boundary (R125, R128, R131, R143, R144) -/

/-- A boundary of JOINING without collision or early-edge report counts: an adoption restarts the count, the fourth
boundary without one enters ACTIVE and latches LINK (R125, R177). At the first entry to ACTIVE a DISABLED axis halts with
STOP_INPUT when STOPN is active, with HOST_HALT when the latch is set, discarding its queue, and otherwise leaves DISABLED
for IDLE (R25, R102). -/
def Obligations.JoiningCountsToActive : Prop :=
  ∀ (o : EventOrder) (s t : State), EndsCycle o s t → s.link.state = .joining → s.link.collision = false →
    s.link.slips ≠ .allSlips → (s.timer.earlySeen = true → s.timer.earlyRun + 1 < 3) →
    t.link.request = none ∧
    (s.timer.adoption.isSome = true → t.link.state = .joining ∧ t.link.joinCount = 0) ∧
    (s.timer.adoption = none → s.link.joinCount < 3 →
      t.link.state = .joining ∧ t.link.joinCount = s.link.joinCount + 1) ∧
    (s.timer.adoption = none → 3 ≤ s.link.joinCount → t.link.state = .active ∧ t.port.linkFlag = true ∧
      (Unstopped o s → s.seq.axis = .disabled → s.seq.exec = none → s.seq.outstanding = [] → s.barrier.ctx = none →
        (s.haltCtl.stopn.level = false ∨ s.haltCtl.latch = true →
          t.seq.axis = .halted ∧ t.seq.queue = [] ∧ t.held = s.held ∧ t.port.haltFlag = true ∧
            ∃ r, t.haltCtl.report = some r ∧
              r.cause = (if s.haltCtl.stopn.level = false then .stopInput else .hostHalt) ∧ r.cycle = nextCycle s ∧
              r.discarded = s.seq.queue.length) ∧
        (s.haltCtl.stopn.level = true → s.haltCtl.latch = false → s.seq.queue = [] → AllHeard s →
          t.seq.axis = .idle ∧ t.haltCtl = s.haltCtl)))

/-- The third cycle in a row with a collision makes a JOINING or ACTIVE link DUPLICATE: it neither transmits nor drives
SYNC, LINK is latched, and the axis of a link that was ACTIVE halts unless it is DISABLED. An earlier collision is
counted, and a cycle without one clears the run (R131). -/
def Obligations.ThirdCollisionMakesDuplicate : Prop :=
  ∀ (o : EventOrder) (s t : State), EndsCycle o s t → s.link.state = .joining ∨ s.link.state = .active →
    axisLaw s = true → s.link.slips ≠ .allSlips → (s.timer.earlySeen = true → s.timer.earlyRun + 1 < 3) →
    (s.link.collision = true → 2 ≤ s.link.collisionRun →
      t.link.state = .duplicate ∧ t.link.tx = none ∧ t.timer.pulse = none ∧ t.link.collisionRun = 0 ∧
        t.link.collision = false ∧ t.port.linkFlag = true ∧
        (s.link.state = .active → s.seq.axis ≠ .disabled → t.seq.axis = .halted ∧ t.haltCtl.latch = true)) ∧
    (s.link.collision = true → s.link.collisionRun < 2 →
      (t.link.state = .joining ∨ t.link.state = .active) ∧ t.link.collisionRun = s.link.collisionRun + 1 ∧
        t.link.collision = false) ∧
    (s.link.collision = false → (t.link.state = .joining ∨ t.link.state = .active) ∧ t.link.collisionRun = 0)

/-- The third cycle in a row of early edges, and in ACTIVE the third of slips, returns the link to LISTEN: its counts are
cleared, every PRESENT and STALE peer entry is LOST with its change bit set, no axis is left running, and a link that
was ACTIVE sets the latch of an axis that is not DISABLED (R11, R127 to R129, R144). The Note Unit's toggle, memory and
refuse bits are 0 and its shown cycles absent, no station leaves the resync set, no note stays SENDING, and the incoming
notes and the next number stay (R165). -/
def Obligations.SyncLossReturnsToListen : Prop :=
  ∀ (o : EventOrder) (s t : State), EndsCycle o s t → s.link.collision = false →
    s.link.state = .joining ∨ s.link.state = .active → axisLaw s = true → linkAxisLaw s = true →
    (s.timer.earlySeen = true ∧ 2 ≤ s.timer.earlyRun) ∨
      (s.link.state = .active ∧ s.link.slips = .allSlips ∧ 2 ≤ s.link.slipRun) →
    t.link.state = .listen ∧ t.link.joinCount = 0 ∧ t.link.slipRun = 0 ∧ t.link.collisionRun = 0 ∧
      t.link.prevEdge = false ∧ t.link.candidate = none ∧ t.link.profileMismatch = false ∧ t.timer.pulse = none ∧
      t.port.linkFlag = true ∧
      (∀ k : Station, k ≠ s.id → k.val < s.stationCount →
        (t.entry k).heard = false ∧
        ((s.entry k).presence = .present ∨ (s.entry k).presence = .stale →
          (t.entry k).presence = .lost ∧ inMask t.peers.changeMap k = true)) ∧
      ¬ Haltable t.seq.axis ∧
      (s.link.state = .active → s.seq.axis ≠ .disabled → t.seq.axis = .halted ∧ t.haltCtl.latch = true) ∧
      (∀ k, (t.entry k).toggle = false ∧ (t.entry k).memory = false ∧ (t.entry k).refuse = false ∧
        (t.entry k).resyncShown = none ∧ ((s.entry k).resync = true → (t.entry k).resync = true)) ∧
      t.notes.inbox = s.notes.inbox ∧ t.notes.nextNumber = s.notes.nextNumber ∧
      (noteLaw s = true → t.notes.sendingId = none ∧
        ∀ i n dests p c st, s.notes.slots.get i = .sending n dests p c st → ∃ st' : Vector Standing 16,
          t.notes.slots.get i = .done n dests st' ∧
          ∀ k, if (st.get k).isOpen = true then
              st'.get k = .failed .gone ∨ (nextCycle s = c + 16 ∧ st'.get k = .failed .noAck)
            else st'.get k = st.get k)

/-- A boundary that leaves the link counting, the stretched one of DUPLICATE too, ages every peer entry below N once and
clears its heard flag; its frame fields stay (R143). The own entry and the entries from N on are not aged. -/
def Obligations.BoundaryAgesPeers : Prop :=
  ∀ (o : EventOrder) (s t : State), EndsCycle o s t → t.counting = true → ∀ k : Station,
    (t.entry k).view = (s.entry k).view ∧
    (k = s.id ∨ s.stationCount ≤ k.val →
      (t.entry k).presence = (s.entry k).presence ∧ (t.entry k).missed = (s.entry k).missed) ∧
    (k ≠ s.id → k.val < s.stationCount →
      (t.entry k).heard = false ∧
      (Returning (s.entry k).presence →
        (t.entry k).presence = (s.entry k).presence ∧ (t.entry k).missed = (s.entry k).missed) ∧
      (¬ Returning (s.entry k).presence →
        ((s.entry k).heard = true → (t.entry k).presence = .present ∧ (t.entry k).missed = 0) ∧
        ((s.entry k).heard = false → (t.entry k).missed = (s.entry k).missed + 1 ∧
          (t.entry k).presence = (if (s.entry k).missed + 1 < s.cfg.lossLimit then .stale else .lost) ∧
          ((t.entry k).presence = .lost → inMask t.peers.changeMap k = true))))

/-! ## Notes (R154, R155, R160, R161) -/

/-- The receiver side of a recorded frame: JOIN, or a resync bit for S, clears the memory; a note that shows S pending is
appended when its toggle differs from the memory and there is room, refused when there is none, and a repeat when the
toggle equals the memory (R160). -/
def Obligations.NoteIsTakenOnce : Prop :=
  ∀ (start : Nat) (chars : List RxChar) (b : Bool) (s : State) (k : Station) (f : Frame),
    Records start chars s k f → ∃ t, exec (.frameReceived start chars b) s = .next t ∧
      ∀ memory, memory = ((s.entry k).memory && !f.view.join && !inMask f.resyncMap s.id) →
        (∀ n : FrameNote, f.note = some n → f.view.join = false → s.link.state ≠ .joining →
          inMask n.pendingMask s.id = true →
          (inMask n.toggleMap s.id = memory →
            (t.entry k).memory = memory ∧ (t.entry k).refuse = false ∧ t.notes.inbox = s.notes.inbox) ∧
          (inMask n.toggleMap s.id ≠ memory → s.notes.inbox.length < 8 →
            (t.entry k).memory = inMask n.toggleMap s.id ∧ (t.entry k).refuse = false ∧
              t.notes.inbox = s.notes.inbox ++
                [{ sender := k, number := n.number, payload := n.payload, acceptCycle := s.timer.cycle }]) ∧
          (inMask n.toggleMap s.id ≠ memory → 8 ≤ s.notes.inbox.length →
            (t.entry k).memory = memory ∧ (t.entry k).refuse = true ∧ t.notes.inbox = s.notes.inbox)) ∧
        (f.note = none ∨ f.view.join = true ∨ s.link.state = .joining ∨
            (∃ n : FrameNote, f.note = some n ∧ inMask n.pendingMask s.id = false) →
          (t.entry k).memory = memory ∧ (t.entry k).refuse = false ∧ t.notes.inbox = s.notes.inbox)

/-- The sender side. A frame of an ACTIVE link's member that counts against the shown cycle of a pending destination, and
whose ack bit for S equals the toggle toward it, delivers the note; the slot is DONE when no other destination is open. A
JOIN frame fails an open destination with RESTARTED and clears the toggle (R154, R155, R159). A frame that counts against
the resync shown cycle and shows ack 0 takes its sender out of the resync set, and a deferred destination becomes pending
with its toggle flipped (R158). At a quiet boundary the oldest QUEUED note starts and settles its destinations (R152), an
open destination whose entry is ABSENT, LOST or INCOMPATIBLE fails with GONE (R156), and at the boundary that begins b + 16
every other open one fails with NO_ACK (R157). -/
def Obligations.NoteIsDelivered : Prop :=
  (∀ (start : Nat) (chars : List RxChar) (b : Bool) (s : State) (k : Station) (f : Frame) (i : Fin 4) (n : Byte)
    (dests : Mask) (p : List Byte) (c : Cycle) (st : Vector Standing 16),
    Records start chars s k f → s.link.state = .active → s.notes.sendingId = some i →
    s.notes.slots.get i = .sending n dests p c st → ∃ t, exec (.frameReceived start chars b) s = .next t ∧
      (∀ x, f.view.join = false → st.get k = .pending (some x) →
        later s.timer.cycle x = true ∨ (s.timer.cycle = x ∧ s.id.val < k.val) →
        inMask f.ackMap s.id = (s.entry k).toggle →
        ∃ st' : Vector Standing 16, st'.get k = .delivered ∧ (∀ m, m ≠ k → st'.get m = st.get m) ∧
          t.notes.slots.get i = (if ∃ m, (st'.get m).isOpen = true then .sending n dests p c st' else .done n dests st')) ∧
      (f.view.join = true → (st.get k).isOpen = true → (t.entry k).toggle = false ∧
        ∃ st' : Vector Standing 16, st'.get k = .failed .restarted ∧ (∀ m, m ≠ k → st'.get m = st.get m) ∧
          t.notes.slots.get i = (if ∃ m, (st'.get m).isOpen = true then .sending n dests p c st' else .done n dests st')) ∧
      (∀ j, j ≠ i → t.notes.slots.get j = s.notes.slots.get j)) ∧
  (∀ (start : Nat) (chars : List RxChar) (b : Bool) (s : State) (k : Station) (f : Frame) (x : Cycle),
    Records start chars s k f → s.link.state ≠ .joining → f.view.join = false → inMask f.ackMap s.id = false →
    (s.entry k).resync = true → (s.entry k).resyncShown = some x →
    later s.timer.cycle x = true ∨ (s.timer.cycle = x ∧ s.id.val < k.val) →
    ∃ t, exec (.frameReceived start chars b) s = .next t ∧ (t.entry k).resync = false ∧ (t.entry k).resyncShown = none ∧
      (s.notes.sendingId = none → (t.entry k).toggle = (s.entry k).toggle) ∧
      (∀ i n dests p c st, s.notes.sendingId = some i → s.notes.slots.get i = .sending n dests p c st →
        (st.get k = .deferred → (t.entry k).toggle = !(s.entry k).toggle ∧ ∃ st' : Vector Standing 16,
          st'.get k = .pending none ∧ (∀ m, m ≠ k → st'.get m = st.get m) ∧
          t.notes.slots.get i = .sending n dests p c st') ∧
        (st.get k ≠ .deferred → (t.entry k).toggle = (s.entry k).toggle))) ∧
  (∀ (o : EventOrder) (s t : State) (i : Fin 4) (rest : List (Fin 4)) (n : Byte) (dests : Mask) (p : List Byte),
    EndsCycle o s t → Quiet o s → noteLaw s = true → s.notes.sendingId = none → s.notes.order = i :: rest →
    s.notes.slots.get i = .queued n dests p → ∃ st : Vector Standing 16,
      (∀ k, st.get k =
        if inMask dests k = false then .no
        else if Returning (s.entry k).presence then .failed .gone
        else if (s.entry k).resync = true then .deferred
        else .pending none) ∧
      ((∃ k, (st.get k).isOpen = true) →
        t.notes.slots.get i = .sending n dests p (nextCycle s) st ∧ t.notes.order = rest ∧
          ∀ k, (t.entry k).toggle = ((s.entry k).toggle != decide (st.get k = .pending none))) ∧
      ((∀ k, (st.get k).isOpen = false) → t.notes.slots.get i = .done n dests st)) ∧
  (∀ (o : EventOrder) (s t : State) (i : Fin 4) (n : Byte) (dests : Mask) (p : List Byte) (c : Cycle)
    (st : Vector Standing 16), EndsCycle o s t → Quiet o s → noteLaw s = true →
    s.notes.slots.get i = .sending n dests p c st → ∃ st' : Vector Standing 16,
      (∀ k, st'.get k =
        if (st.get k).isOpen = false then st.get k
        else if Returning (s.entry k).presence then .failed .gone
        else if nextCycle s = c + 16 then .failed .noAck
        else st.get k) ∧
      t.notes.slots.get i = (if ∃ k, (st'.get k).isOpen = true then .sending n dests p c st' else .done n dests st') ∧
      (∀ k, (st.get k).isOpen = true → Returning (s.entry k).presence → st.get k ≠ .deferred →
        (t.entry k).resync = true ∧ (t.entry k).resyncShown = none ∧ (t.entry k).toggle = false) ∧
      (∀ k, (st.get k).isOpen = true → ¬ Returning (s.entry k).presence → nextCycle s = c + 16 →
        (t.entry k).resync = true ∧ (t.entry k).toggle = false ∧
          (t.entry k).resyncShown = if (s.entry k).resync = true then (s.entry k).resyncShown else none))

/-! ## The stop group and the barrier (R72 to R83, R98) -/

/-- A recorded frame that shows ORIGIN, from a stop-group member, halts an IDLE or RUNNING axis with GROUP_HALT at the
frame, names the member and does not set the latch; a HALTED or DISABLED axis keeps its report (R93, R98, R99). An axis
that waits at a barrier is halted by it too, which withdraws the context, unless the frame also fails the barrier with
MEMBER_HALTED and that is taken first: then SEGMENT_FAULT is the cause, and the latch is set (R84, R85, R103). -/
def Obligations.GroupHaltFromOrigin : Prop :=
  (∀ (start : Nat) (chars : List RxChar) (b : Bool) (s : State) (k : Station) (f : Frame),
    Records start chars s k f → inMask s.cfg.stopGroup k = true → f.view.origin = true → s.barrier.ctx = none →
    ∃ t, exec (.frameReceived start chars b) s = .next t ∧ t.haltCtl.latch = s.haltCtl.latch ∧
      (s.seq.axis = .idle ∨ s.seq.axis = .running →
        t.seq.axis = .halted ∧ t.seq.queue = [] ∧ t.seq.exec = none ∧ t.seq.outstanding = [] ∧
          t.port.haltFlag = true ∧
          ∃ r, t.haltCtl.report = some r ∧ r.cause = .groupHalt ∧ r.peer = some k ∧ r.segment = none ∧
            r.cycle = s.timer.cycle ∧ r.position = s.gen.position ∧ r.discarded = s.seq.queue.length) ∧
      (s.seq.axis = .halted ∨ s.seq.axis = .disabled →
        t.seq = s.seq ∧ t.haltCtl = s.haltCtl ∧ t.gen = s.gen ∧ t.held = s.held)) ∧
  (∀ (start : Nat) (chars : List RxChar) (b : Bool) (s : State) (k : Station) (f : Frame) (x : BarrierCtx) (e : Executing),
    Records start chars s k f → inMask s.cfg.stopGroup k = true → f.view.origin = true → s.seq.axis = .waiting →
    s.barrier.ctx = some x → s.seq.exec = some e → x.seq = e.seg.seq →
    ∃ t, exec (.frameReceived start chars b) s = .next t ∧ t.seq.axis = .halted ∧ t.seq.queue = [] ∧
      t.barrier = { s.barrier with ctx := none } ∧
      (b = false ∨ x.release.isSome = true ∨ inMask x.mask k = false →
        t.haltCtl.latch = s.haltCtl.latch ∧ Reports t .groupHalt (some k) none ∧
        t.held.getLast? = some (recordOf e .halted s.timer.cycle e.source.emitted s.gen .none)) ∧
      (b = true → x.release = none → inMask x.mask k = true → f.view.barTag ≠ x.tag → f.view.relTag ≠ x.tag →
        f.view.halted = true →
        t.haltCtl.latch = true ∧ Reports t .segmentFault none (some (e.seg.seq, .memberHalted)) ∧
        t.held.getLast? = some (recordOf e .memberHalted s.timer.cycle e.source.emitted s.gen .none)))

/-- A member's frame with the context's tag and mask records its arrival. When every other member has one, the barrier is
COMPLETE with release cycle L + RELEASE_LEAD, L the largest arrival, and releases at that cycle, or late at the next
boundary (R74, R77, R78). A frame with another tag that reports a release of this tag, later than the own arrival and not
later than the present cycle, completes it with that release cycle, HALTED or not (R75, R76); one that reports none
withdraws the member's arrival (R74). That the lateness is the formula's also where it exceeds 32767 is log entry 30 (DESIGN
CHOICE). -/
def Obligations.BarrierArrivalCompletes : Prop :=
  (∀ (start : Nat) (chars : List RxChar) (b : Bool) (s : State) (k : Station) (f : Frame) (x : BarrierCtx),
    Records start chars s k f → inMask s.cfg.stopGroup k = false ∨ f.view.origin = false →
    s.barrier.ctx = some x → x.release = none → inMask x.mask k = true → f.view.barTag = x.tag →
    f.view.barMask = x.mask → f.view.relTag ≠ x.tag → f.view.halted = false →
    ∃ t y, exec (.frameReceived start chars b) s = .next t ∧ t.barrier.ctx = some y ∧
      y.seq = x.seq ∧ y.tag = x.tag ∧ y.mask = x.mask ∧ y.arrival = x.arrival ∧ y.timeout = x.timeout ∧
      y.arrivals.get k = some f.view.barArrival ∧ (∀ m, m ≠ k → y.arrivals.get m = x.arrivals.get m) ∧
      t.barrier.histTag = s.barrier.histTag ∧ t.barrier.histCycle = s.barrier.histCycle ∧ t.seq = s.seq ∧
      ((∃ m, inMask x.mask m = true ∧ m ≠ s.id ∧ y.arrivals.get m = none) → y.release = none) ∧
      ((∀ m, inMask x.mask m = true → m ≠ s.id → (y.arrivals.get m).isSome = true) →
        ∀ largest, (largest = x.arrival ∨ ∃ m, inMask x.mask m = true ∧ m ≠ s.id ∧ y.arrivals.get m = some largest) →
          (x.arrival = largest ∨ later largest x.arrival = true) →
          (∀ m a, inMask x.mask m = true → m ≠ s.id → y.arrivals.get m = some a →
            a = largest ∨ later largest a = true) →
          ∃ r, y.release = some r ∧ r.r = largest + BitVec.ofNat 16 s.cfg.releaseLead ∧
            (1 ≤ cycleDiff r.r s.timer.cycle → r.q = r.r ∧ r.lateness = 0) ∧
            (cycleDiff r.r s.timer.cycle < 1 →
              r.q = s.timer.cycle + 1 ∧ r.lateness = s.timer.cycle + 1 - r.r))) ∧
  (∀ (start : Nat) (chars : List RxChar) (b : Bool) (s : State) (k : Station) (f : Frame) (x : BarrierCtx),
    Records start chars s k f → inMask s.cfg.stopGroup k = false ∨ f.view.origin = false →
    s.barrier.ctx = some x → x.release = none → inMask x.mask k = true → f.view.barTag ≠ x.tag →
    ∃ t, exec (.frameReceived start chars b) s = .next t ∧
      (f.view.relTag = x.tag → later f.view.relCycle x.arrival = true → later f.view.relCycle s.timer.cycle = false →
        t.barrier = { s.barrier with ctx := some { x with release := some {
          r := f.view.relCycle, q := s.timer.cycle + 1, lateness := s.timer.cycle + 1 - f.view.relCycle } } } ∧
        t.seq = s.seq) ∧
      (f.view.relTag ≠ x.tag ∨ later f.view.relCycle x.arrival = false ∨ later f.view.relCycle s.timer.cycle = true →
        f.view.halted = false →
        t.barrier = { s.barrier with ctx := some { x with arrivals := x.arrivals.set k.val none } } ∧ t.seq = s.seq))

/-- A member's frame with the context's tag and another mask fails the barrier with BARRIER_MISMATCH, and one that shows
HALTED, neither an arrival that completes it nor a release, fails it with MEMBER_HALTED: the axis halts with
SEGMENT_FAULT for the BARRIER, whose record carries the code (R73, R76, R81, R97). -/
def Obligations.BarrierFrameFails : Prop :=
  ∀ (start : Nat) (chars : List RxChar) (b : Bool) (s : State) (k : Station) (f : Frame) (x : BarrierCtx) (e : Executing)
    (code : Code),
    Records start chars s k f → inMask s.cfg.stopGroup k = false ∨ f.view.origin = false → s.seq.axis = .waiting →
    s.barrier.ctx = some x → x.release = none → inMask x.mask k = true → s.seq.exec = some e → x.seq = e.seg.seq →
    (f.view.barTag = x.tag ∧ f.view.barMask ≠ x.mask ∧ code = .barrierMismatch) ∨
      (f.view.barTag ≠ x.tag ∧ f.view.relTag ≠ x.tag ∧ f.view.halted = true ∧ code = .memberHalted) →
    ∃ t r, exec (.frameReceived start chars b) s = .next t ∧ t.seq.axis = .halted ∧ t.barrier.ctx = none ∧
      t.barrier.histTag = s.barrier.histTag ∧ t.barrier.histCycle = s.barrier.histCycle ∧
      t.haltCtl.report = some r ∧ r.cause = .segmentFault ∧ r.segment = some (e.seg.seq, code) ∧
      t.haltCtl.latch = true ∧
      t.held.getLast? = some (recordOf e code s.timer.cycle e.source.emitted s.gen .none)

/-- A BARRIER that starts at a quiet boundary arrives in the cycle that begins: its context takes the arrivals its members'
entries show, one that names S alone is COMPLETE at once, and a member's LOST or INCOMPATIBLE entry fails it with
MEMBER_LOST (R69 to R71). At a quiet boundary a COMPLETE barrier whose release boundary it is releases: history, record, and
an IDLE axis when the queue is empty and no late halt follows; an INCOMPLETE one past its deadline fails with
BARRIER_TIMEOUT; any other waits on (R79, R80, R82). The head of a queue starts at the release boundary, and the halt of a
late release is taken before or after it (R26, R80); a STOP_INPUT taken between the record and the fault makes the report,
and the fault after it sets the latch (R101, R103). The orders come with the command (log entry 3), and the direction + of a
started segment with no steps is log entry 26 (both DESIGN CHOICE). -/
def Obligations.BarrierReleasesOrTimesOut : Prop :=
  (∀ (o : EventOrder) (s t : State) (x : BarrierCtx) (e : Executing), EndsCycle o s t → Quiet o s →
    s.seq.axis = .waiting → s.barrier.ctx = some x → s.seq.exec = some e → e.source = .none → x.seq = e.seg.seq →
    s.seq.queue = [] → s.seq.outstanding = [] →
    (∀ r, x.release = some r → r.q = nextCycle s →
      t.barrier.ctx = none ∧ t.barrier.histTag = x.tag ∧ t.barrier.histCycle = r.r ∧
        t.held = s.held ++ [recordOf e (if r.lateness = 0 then .released else .releasedLate) (nextCycle s) 0 s.gen
          (.release r.r r.lateness)] ∧
        t.seq.axis = (if r.lateness ≠ 0 ∧ s.cfg.lateHalts = true then .halted else .idle)) ∧
    (∀ r, x.release = some r → r.q ≠ nextCycle s →
      t.barrier = s.barrier ∧ t.seq = s.seq ∧ t.held = s.held) ∧
    (x.release = none → x.timeout ≠ 0 ∧ (x.timeout : Int) ≤ cycleDiff (nextCycle s) x.arrival →
      t.barrier.ctx = none ∧ t.barrier.histTag = s.barrier.histTag ∧ t.seq.axis = .halted ∧
        t.held = s.held ++ [recordOf e .barrierTimeout (nextCycle s) 0 s.gen .none] ∧
        ∃ r, t.haltCtl.report = some r ∧ r.cause = .segmentFault ∧ r.segment = some (x.seq, .barrierTimeout)) ∧
    (x.release = none → x.timeout = 0 ∨ cycleDiff (nextCycle s) x.arrival < (x.timeout : Int) →
      t.barrier = s.barrier ∧ t.seq = s.seq ∧ t.held = s.held)) ∧
  (∀ (o : EventOrder) (s t : State) (x : BarrierCtx) (e : Executing) (r : Release) (seg : Segment) (rest : List Segment)
    (count : Int) (d : Nat), EndsCycle o s t → Quiet o s → axisLaw s = true → s.seq.axis = .waiting →
    s.barrier.ctx = some x → s.seq.exec = some e → x.release = some r → r.q = nextCycle s → s.seq.queue = seg :: rest →
    s.seq.outstanding = [] → s.held.length + 1 < 16 → StartsFrom s.gen.position.toInt seg count d →
    ∀ late, late = recordOf e (if r.lateness = 0 then .released else .releasedLate) (nextCycle s) 0 s.gen
        (.release r.r r.lateness) →
      t.barrier = { ctx := none, histTag := x.tag, histCycle := r.r } ∧
      (r.lateness = 0 ∨ s.cfg.lateHalts = false →
        t.seq = { s.seq with axis := .running, queue := rest, exec := some (timedStart s seg count d (nextCycle s)) } ∧
        t.held = s.held ++ [late] ∧ t.haltCtl = s.haltCtl) ∧
      (r.lateness ≠ 0 → s.cfg.lateHalts = true →
        t.seq.axis = .halted ∧ t.haltCtl.latch = true ∧ Reports t .segmentFault none (some (e.seg.seq, .releasedLate)) ∧
        (o.lateHaltFirst = true → t.held = s.held ++ [late] ∧
          t.haltCtl.report.map (fun h => h.discarded) = some (rest.length + 1)) ∧
        (o.lateHaltFirst = false → t.held = s.held ++ [late, haltedAtStart seg (nextCycle s) s.gen] ∧
          t.haltCtl.report.map (fun h => h.discarded) = some rest.length))) ∧
  (∀ (o : EventOrder) (s t : State) (x : BarrierCtx) (e : Executing) (r : Release) (others : List BoundaryTurn),
    EndsCycle o s t → o.turns = .motion :: .stopInput :: .lateHalt :: others → o.lateHaltFirst = false →
    stopInputDue s = true → s.seq.axis = .waiting → s.barrier.ctx = some x → s.seq.exec = some e → e.source = .none →
    x.release = some r → r.q = nextCycle s → r.lateness ≠ 0 → s.cfg.lateHalts = true → s.seq.queue = [] →
    s.seq.outstanding = [] →
      t.seq.axis = .halted ∧ t.haltCtl.latch = true ∧ Reports t .stopInput none none ∧
        t.held = s.held ++ [recordOf e .releasedLate (nextCycle s) 0 s.gen (.release r.r r.lateness)]) ∧
  (∀ (o : EventOrder) (s t : State) (seg : Segment) (rest : List Segment) (tag : Byte) (mask : Mask) (timeout : Nat)
    (c : Settings), EndsCycle o s t → Quiet o s → s.config = some c → settingsValid s.id c = true →
    s.seq.axis = .idle → s.seq.exec = none → s.barrier.ctx = none → s.seq.queue = seg :: rest →
    seg.body = .barrier tag mask timeout → s.held.length + s.seq.outstanding.length < 16 →
    ((∀ m, inMask mask m = true → m ≠ s.id → (s.entry m).presence = .absent ∨
        (((s.entry m).presence = .present ∨ (s.entry m).presence = .stale) ∧ (s.entry m).view.halted = false ∧
          (s.entry m).view.relTag ≠ tag ∧ ((s.entry m).view.barTag = tag → (s.entry m).view.barMask = mask))) →
      t.seq = { s.seq with
        axis := .waiting
        queue := rest
        exec := some { seg := seg, startCycle := nextCycle s, source := .none } } ∧
      t.held = s.held ∧ t.haltCtl = s.haltCtl ∧ t.barrier = { s.barrier with ctx := t.barrier.ctx } ∧
      ∃ y, t.barrier.ctx = some y ∧ y.seq = seg.seq ∧ y.tag = tag ∧ y.mask = mask ∧ y.arrival = nextCycle s ∧
        y.timeout = timeout ∧
        (∀ m, inMask mask m = true → m ≠ s.id → ShowsTag s tag m → y.arrivals.get m = some (s.entry m).view.barArrival) ∧
        (∀ m, ¬ (inMask mask m = true ∧ m ≠ s.id ∧ ShowsTag s tag m) → y.arrivals.get m = none) ∧
        ((∃ m, inMask mask m = true ∧ m ≠ s.id ∧ ¬ ShowsTag s tag m) → y.release = none) ∧
        ((∀ m, inMask mask m = true → m ≠ s.id → ShowsTag s tag m) → y.release.isSome = true) ∧
        ((∀ m, inMask mask m = true → m = s.id) → y.release = some {
          r := nextCycle s + BitVec.ofNat 16 c.releaseLead, q := nextCycle s + BitVec.ofNat 16 c.releaseLead,
          lateness := 0 })) ∧
    (∀ m, inMask mask m = true → m ≠ s.id → (s.entry m).presence = .lost ∨ (s.entry m).presence = .incompatible →
      (∀ j, j < m → inMask mask j = true → j ≠ s.id → (s.entry j).presence = .absent) →
      t.barrier = s.barrier ∧ t.seq.axis = .halted ∧ t.seq.queue = [] ∧ t.haltCtl.latch = true ∧
        Reports t .segmentFault none (some (seg.seq, .memberLost)) ∧
        t.held.getLast? = some { haltedAtStart seg (nextCycle s) s.gen with code := .memberLost }))

/-! ## Starts and ends at a boundary (R26 to R32, R37 to R41, R56, R59, R62) -/

/-- At a quiet boundary an IDLE axis with a free completion entry starts the MOVE_REL or MOVE_ABS at the head of its queue,
when its start checks pass: the segment executes from the cycle that begins, with the source of R37. It halts instead when
no completion entry is free (RESULT_SPACE, R27), and a head that fails its first start check starts and ends at once with
the check's code and 0 steps (R28, R29, R97). The direction + of a segment with no steps is log entry 26, and that the DIR
change of the start follows the boundary as a command of its own tick log entry 32 (both DESIGN CHOICE). -/
def Obligations.TimedSegmentStartsOrFails : Prop :=
  (∀ (o : EventOrder) (s t : State) (seg : Segment) (rest : List Segment) (count : Int) (d : Nat), EndsCycle o s t →
     Quiet o s → o.steps = [] ∨ s.seq.finishing = [] → s.seq.axis = .idle → s.seq.exec = none → s.barrier.ctx = none →
     s.seq.queue = seg :: rest → s.held.length + s.seq.outstanding.length < 16 →
     (seg.body = .moveRel count d ∧ -2147483648 ≤ s.startPosition + count ∧ s.startPosition + count ≤ 2147483647) ∨
       (∃ target, seg.body = .moveAbs target d ∧ count = target.toInt - s.startPosition ∧ s.gen.known = true ∧
         count.natAbs ≤ 65535 ∧ count.natAbs * s.cfg.minStepUs ≤ d * s.cycleUs) →
     t.seq = { s.seq with
       axis := .running
       queue := rest
       exec := some {
         seg := seg
         startCycle := nextCycle s
         source := .timed {
           dir := if count < 0 then .minus else .plus, n := count.natAbs, length := d * s.cycleUs, emitted := 0,
           fallen := 0 } } } ∧
     t.gen = s.gen ∧ t.held = s.held ∧ t.barrier = s.barrier ∧ t.haltCtl = s.haltCtl) ∧
  (∀ (o : EventOrder) (s t : State) (seg : Segment) (rest : List Segment), EndsCycle o s t → Quiet o s →
     s.seq.axis = .idle → s.seq.exec = none → s.barrier.ctx = none → s.seq.queue = seg :: rest →
     (16 ≤ s.held.length + s.seq.outstanding.length →
       t.seq.axis = .halted ∧ t.seq.queue = [] ∧ ∃ r, t.haltCtl.report = some r ∧ r.cause = .resultSpace ∧
         r.discarded = rest.length + 1 ∧ r.range = (s.seq.queue.getLast?).map fun z => (seg.seq, z.seq)) ∧
     (s.held.length + s.seq.outstanding.length < 16 → ∀ code,
       (∃ count d, seg.body = .moveRel count d ∧
           (s.startPosition + count < -2147483648 ∨ 2147483647 < s.startPosition + count) ∧ code = .range) ∨
         (∃ target d, seg.body = .moveAbs target d ∧
           ((s.gen.known = false ∧ code = .positionUnknown) ∨
             (s.gen.known = true ∧ 65535 < (target.toInt - s.startPosition).natAbs ∧ code = .range) ∨
             (s.gen.known = true ∧ (target.toInt - s.startPosition).natAbs ≤ 65535 ∧
               d * s.cycleUs < (target.toInt - s.startPosition).natAbs * s.cfg.minStepUs ∧ code = .rateLimit))) →
       t.seq.axis = .halted ∧ t.seq.queue = [] ∧ t.haltCtl.latch = true ∧
         t.held.getLast? = some {
           seq := seg.seq, kind := seg.body.kind, code := code, label := seg.label, startCycle := nextCycle s,
           endCycle := nextCycle s, steps := 0, position := s.gen.position, known := s.gen.known, part := .none } ∧
         ∃ r, t.haltCtl.report = some r ∧ r.cause = .segmentFault ∧ r.segment = some (seg.seq, code) ∧
           r.discarded = rest.length))

/-- At a quiet boundary with no steps owed, a HOME or PROBE at the head starts and is examined at once: an active HOME
ends HOMED with the home value, an active PROBE ends PROBE_ACTIVE_AT_START and halts, and an inactive input enters
STEPPING with step 1 due (R56, R57, R59, R62). Behind owed steps it starts PENDING, whatever its input (R56). A halt of the
boundary that is taken between the start and that examination ends it HALTED with 0 steps, whatever its input, and discards
the segments behind it (R34, R67); taken after the examination, the halt finds its HOMED or PROBE_ACTIVE_AT_START written.
The order comes with the command (log entry 3), and the last probe level of a PENDING source, and of a HOME, is inactive and
its interval count before step 1 is 0 (log entry 29), both DESIGN CHOICE. -/
def Obligations.UntimedSegmentStarts : Prop :=
  (∀ (o : EventOrder) (s t : State) (seg : Segment) (rest : List Segment) (home : Option Position) (dir : Direction)
    (interval maxSteps : Nat), EndsCycle o s t → Quiet o s → s.seq.axis = .idle → s.seq.exec = none →
    s.barrier.ctx = none → s.seq.queue = seg :: rest → s.held.length + s.seq.outstanding.length < 16 →
    seg.body = (match home with
      | some v => .home dir interval maxSteps v
      | none => .probe dir interval maxSteps) →
    (s.seq.finishing ≠ [] → o.steps = [] →
      t.seq = { s.seq with
        axis := .running
        queue := rest
        exec := some {
          seg := seg
          startCycle := nextCycle s
          source := .untimed {
            home := home, dir := dir, interval := interval, maxSteps := maxSteps, emitted := 0, phase := .pending,
            intervalCount := 0, backlog := false, lastProbe := false } } } ∧
      t.gen = s.gen ∧ t.held = s.held) ∧
    (s.seq.outstanding = [] → o.steps = [] → s.inputActive (if home.isSome then .home else .probe) = false →
      t.seq = { s.seq with
        axis := .running
        queue := rest
        exec := some {
          seg := seg
          startCycle := nextCycle s
          source := .untimed {
            home := home, dir := dir, interval := interval, maxSteps := maxSteps, emitted := 0, phase := .stepping,
            intervalCount := 0, backlog := true, lastProbe := false } } } ∧
      t.gen = s.gen ∧ t.held = s.held) ∧
    (∀ v, s.seq.outstanding = [] → home = some v → s.inputActive .home = true →
      t.seq = { s.seq with queue := rest } ∧ t.gen = { s.gen with position := v, known := true } ∧
        t.held = s.held ++ [{
          seq := seg.seq, kind := .home, code := .homed, label := seg.label, startCycle := nextCycle s,
          endCycle := nextCycle s, steps := 0, position := v, known := true, part := .none }]) ∧
    (s.seq.outstanding = [] → home = none → s.inputActive .probe = true →
      t.seq.axis = .halted ∧ t.gen.position = s.gen.position ∧
        t.held = s.held ++ [{
          seq := seg.seq, kind := .probe, code := .probeActiveAtStart, label := seg.label, startCycle := nextCycle s,
          endCycle := nextCycle s, steps := 0, position := s.gen.position, known := s.gen.known, part := .none }])) ∧
  (∀ (o : EventOrder) (s t : State) (seg : Segment) (rest : List Segment) (home : Option Position) (dir : Direction)
    (interval maxSteps : Nat) (turns : List BoundaryTurn), EndsCycle o s t → stopInputDue s = true →
    s.seq.axis = .idle → s.seq.exec = none → s.barrier.ctx = none → s.seq.outstanding = [] →
    s.seq.queue = seg :: rest → s.held.length < 16 →
    seg.body = (match home with
      | some v => .home dir interval maxSteps v
      | none => .probe dir interval maxSteps) →
    (o.turns = .motion :: .stopInput :: .examination :: turns →
      t.seq.axis = .halted ∧ Reports t .stopInput none none ∧
        t.haltCtl.report.map (fun r => r.discarded) = some rest.length ∧
        t.gen.position = s.gen.position ∧ t.gen.known = s.gen.known ∧
        t.held = s.held ++ [haltedAtStart seg (nextCycle s) s.gen]) ∧
    (o.turns = .motion :: .examination :: .stopInput :: turns →
      (∀ v, home = some v → s.inputActive .home = true →
        t.seq.axis = .halted ∧ Reports t .stopInput none none ∧
          t.haltCtl.report.map (fun r => r.discarded) = some rest.length ∧
          t.gen.position = v ∧ t.gen.known = true ∧
          t.held = s.held ++ [{ haltedAtStart seg (nextCycle s) { s.gen with position := v, known := true } with
            code := .homed }]) ∧
      (home = none → s.inputActive .probe = true →
        t.seq.axis = .halted ∧ t.haltCtl.latch = true ∧
          Reports t .segmentFault none (some (seg.seq, .probeActiveAtStart)) ∧
          t.held = s.held ++ [{ haltedAtStart seg (nextCycle s) s.gen with code := .probeActiveAtStart }])))

/-- At a quiet boundary a timed segment at its end boundary ends DONE when every step is emitted, and becomes a finishing
segment that owes the rest otherwise; the axis becomes IDLE when the queue is empty, and the head, a MOVE_REL whose range
check passes from the position after the owed steps, starts at once (R26, R28, R30, R32, R41). Before its end boundary it
executes on, and a run-out adds no due points. The direction + of a head with no steps is log entry 26, and that the DIR change
of its start follows the boundary as a command of its own tick log entry 32 (both DESIGN CHOICE). -/
def Obligations.TimedSegmentEnds : Prop :=
  ∀ (o : EventOrder) (s t : State) (e : Executing) (src : TimedSource), EndsCycle o s t → Quiet o s →
    s.seq.axis = .running → s.seq.exec = some e → e.source = .timed src → s.barrier.ctx = none →
    s.seq.outstanding = [] →
    (e.startCycle + BitVec.ofNat 16 e.seg.body.cycles = nextCycle s →
      ∀ done left, done = recordOf e .done (nextCycle s) src.n s.gen .none →
        left = Outstanding.finishing
          { seg := e.seg, startCycle := e.startCycle, source := { src with fallen := src.n } } →
      (s.seq.queue = [] →
        t.seq.axis = .idle ∧ t.seq.exec = none ∧ t.gen.position = s.gen.position ∧ t.gen.known = s.gen.known ∧
          (o.steps = [] → t.gen = s.gen) ∧
          (src.emitted = src.n → t.held = s.held ++ [done] ∧ t.seq.outstanding = []) ∧
          (src.emitted ≠ src.n → t.held = s.held ∧ t.seq.outstanding = [left])) ∧
      (∀ seg rest count d, s.seq.queue = seg :: rest → o.steps = [] → s.held.length + 1 < 16 →
        StartsFrom (s.gen.position.toInt + (match src.dir with
          | .plus => ((src.n - src.emitted : Nat) : Int)
          | .minus => -((src.n - src.emitted : Nat) : Int))) seg count d →
        t.gen = s.gen ∧ t.haltCtl = s.haltCtl ∧ t.seq.axis = .running ∧ t.seq.queue = rest ∧
          t.seq.exec = some (timedStart s seg count d (nextCycle s)) ∧
          (src.emitted = src.n → t.held = s.held ++ [done] ∧ t.seq.outstanding = []) ∧
          (src.emitted ≠ src.n → t.held = s.held ∧ t.seq.outstanding = [left]))) ∧
    (e.startCycle + BitVec.ofNat 16 e.seg.body.cycles ≠ nextCycle s → o.steps = [] →
      t.seq.axis = .running ∧ t.held = s.held ∧ t.gen = s.gen ∧
        ∃ j, src.fallen ≤ j ∧ t.seq.exec = some { e with source := .timed { src with fallen := j } } ∧
          (s.timer.raised.runOut = true ∧ s.timer.raised.edge = false → j = src.fallen))

/-- At an accepted edge of a quiet cycle, taken at position p, the due points in the skipped positions p to CYCLE_US − 1 join
the backlog of the executing timed segment, no others do, and nothing else of the sequencer changes: where every due point
before them has fallen due, afterwards a due point has fallen due exactly when it lies before the motion tick at which the
new cycle begins (R5, R38, R40). -/
def Obligations.SkippedDuePointsJoinBacklog : Prop :=
  ∀ (o : EventOrder) (s : State) (e : Executing) (src : TimedSource), Quiet o s → o.steps = [] → edgeDue s = true →
    s.edgeAccepted = true → s.seq.axis = .running → s.barrier.ctx = none → s.seq.exec = some e →
    e.source = .timed src → e.startCycle + BitVec.ofNat 16 e.seg.body.cycles ≠ nextCycle s →
    0 < src.n → src.n ≤ src.length → src.fallen ≤ src.n →
    (∀ k, 1 ≤ k → k ≤ src.fallen →
      (2 * k - 1) * src.length / (2 * src.n) < (nextCycle s - e.startCycle).toNat * s.cycleUs) →
    (src.fallen < src.n → (nextCycle s - e.startCycle).toNat * s.cycleUs ≤
      (2 * (src.fallen + 1) - 1) * src.length / (2 * src.n) + (s.cycleUs - s.edgePosition)) →
    ∃ t j, exec (.syncFallingEdge o) s = .next t ∧
      t.seq = { s.seq with exec := some { e with source := .timed { src with fallen := j } } } ∧
      src.fallen ≤ j ∧ j ≤ src.n ∧ j ≤ src.fallen + (s.cycleUs - s.edgePosition) ∧
      ∀ k, 1 ≤ k → k ≤ src.n →
        (k ≤ j ↔ (2 * k - 1) * src.length / (2 * src.n) < (nextCycle s - e.startCycle).toNat * s.cycleUs)

/-! ## Steps, direction and inputs (R38, R39, R42 to R46, R50, R52, R57 to R66, R91, R94) -/

/-- The next step of an executing timed segment falls due when its due point is reached (R38), and the next one of a
STEPPING source when the interval count has reached the interval (R57). The end of a step pulse, a change of DIR with its
setup timer, and the end of the setup time, change what R43 and R44 name. Each changes nothing else. That DIR_CHANGE acts
in IDLE and WAITING too, where another sentence of R44 has DIR hold its level, is the model's choice (log entry 8), and so is
that a STEP_DUE with no due point reached and a DIR_CHANGE with no change needed change nothing (log entry 1, DESIGN
CHOICE). -/
def Obligations.StepTimersAndDueSteps : Prop :=
  (∀ (s : State) (e : Executing) (src : TimedSource), s.boundaryDue = false → s.seq.exec = some e →
    e.source = .timed src → src.fallen < src.n →
    (2 * (src.fallen + 1) - 1) * src.length / (2 * src.n) ≤
      (s.timer.cycle - e.startCycle).toNat * s.cycleUs + s.timer.t →
    exec .stepDue s = .next { s with seq := { s.seq with
      exec := some { e with source := .timed { src with fallen := src.fallen + 1 } } } }) ∧
  (∀ (s : State) (e : Executing) (src : TimedSource), s.seq.exec = some e → e.source = .timed src →
    src.n ≤ src.fallen ∨ (s.timer.cycle - e.startCycle).toNat * s.cycleUs + s.timer.t <
      (2 * (src.fallen + 1) - 1) * src.length / (2 * src.n) →
    exec .stepDue s = .next s) ∧
  (∀ (s : State) (e : Executing) (u : UntimedSource), s.boundaryDue = false → s.seq.exec = some e →
    e.source = .untimed u → s.seq.finishing = [] → u.phase = .stepping → u.backlog = false → 0 < u.emitted →
    u.emitted < u.maxSteps → u.interval ≤ u.intervalCount →
    exec .untimedStepDue s = .next { s with seq := { s.seq with
      exec := some { e with source := .untimed { u with backlog := true } } } }) ∧
  (∀ s : State, s.gen.pulse = some 0 →
    exec .stepPulseEnd s = .next { s with gen := { s.gen with pulse := none } }) ∧
  (∀ (s : State) (d : Direction), s.boundaryDue = false → s.gen.pulse = none → s.seq.head.direction = some d →
    d.high ≠ s.gen.dirHigh →
    exec .dirChange s = .next { s with gen := { s.gen with
      dirHigh := d.high
      dirSetup := if s.cfg.dirSetupUs = 0 then none else some s.cfg.dirSetupUs } }) ∧
  (∀ s : State, (∀ d, s.seq.head.direction = some d → d.high = s.gen.dirHigh) → exec .dirChange s = .next s) ∧
  (∀ s : State, s.gen.dirSetup = some 0 →
    exec .dirSetupExpiry s = .next { s with gen := { s.gen with dirSetup := none } })

/-- A step of the executing segment that meets the conditions of R42 begins its pulse: STEP for STEP_PULSE_US, the counter
one step on in the direction of DIR, the spacing measure 0, the step counted; at max steps a HOME or PROBE is CLOSING
(R43, R57). A step owed by a finishing segment begins in the same way and is counted for that segment; its last one
completes the segment DONE, with the counter after that step, ahead of the records held back behind it (R39, R41, R113).
A HOME or PROBE that is PENDING behind the owed steps has its first examination at that last step: it ends HOMED or
PROBE_ACTIVE_AT_START when its input is active, and enters STEPPING with step 1 due when it is not (R56, R59, R62). That a
HOME too then holds the last probe level inactive is log entry 29 (DESIGN CHOICE). -/
def Obligations.StepBeginsAndCounts : Prop :=
  (∀ (s : State) (e : Executing), stepPulseBeginDue s = true → s.seq.finishing = [] → s.seq.exec = some e →
     s.inputActive (if s.gen.dirHigh then .limp else .limn) = false →
     (s.gen.dirHigh = true → s.gen.position ≠ 0x7FFFFFFF#32) →
     (s.gen.dirHigh = false → s.gen.position ≠ 0x80000000#32) →
     (∀ u v, e.source = .untimed u → u.home = some v → s.inputActive .home = false) →
     exec .stepPulseBegin s = .next { s with
       gen := { s.gen with
         position := if s.gen.dirHigh then s.gen.position + 1 else s.gen.position - 1
         spacing := some 0
         pulse := some s.cfg.stepPulseUs }
       seq := { s.seq with exec := some { e with source :=
         match e.source with
         | .timed src => .timed { src with emitted := src.emitted + 1 }
         | .untimed u => .untimed { u with
             emitted := u.emitted + 1
             backlog := false
             intervalCount := 0
             phase := if u.maxSteps ≤ u.emitted + 1 then .closing else u.phase }
         | .none => .none } } }) ∧
  (∀ (s : State) (f : Finishing) (rest : List Outstanding), stepPulseBeginDue s = true →
     s.seq.outstanding = .finishing f :: rest → s.inputActive (if s.gen.dirHigh then .limp else .limn) = false →
     (s.gen.dirHigh = true → s.gen.position ≠ 0x7FFFFFFF#32) →
     (s.gen.dirHigh = false → s.gen.position ≠ 0x80000000#32) →
     f.source.emitted + 1 < f.source.n ∨ (∀ e u, s.seq.exec = some e → e.source ≠ .untimed u) →
     ∃ t, exec .stepPulseBegin s = .next t ∧
       t.gen = { s.gen with
         position := if s.gen.dirHigh then s.gen.position + 1 else s.gen.position - 1
         spacing := some 0
         pulse := some s.cfg.stepPulseUs } ∧
       t.seq.exec = s.seq.exec ∧ t.seq.axis = s.seq.axis ∧ t.seq.queue = s.seq.queue ∧ t.timer = s.timer ∧
       t.barrier = s.barrier ∧ t.haltCtl = s.haltCtl ∧
       (f.source.emitted + 1 < f.source.n →
         t.held = s.held ∧ t.seq.outstanding =
           .finishing { f with source := { f.source with emitted := f.source.emitted + 1 } } :: rest) ∧
       (f.source.n ≤ f.source.emitted + 1 →
         t.held.length + t.seq.outstanding.length = s.held.length + s.seq.outstanding.length ∧
         t.held[s.held.length]? = some {
           seq := f.seg.seq, kind := f.seg.body.kind, code := .done, label := f.seg.label,
           startCycle := f.startCycle, endCycle := f.startCycle + BitVec.ofNat 16 f.seg.body.cycles,
           steps := f.source.emitted + 1, position := t.gen.position, known := t.gen.known, part := .none })) ∧
  (∀ (s : State) (f : Finishing) (e : Executing) (u : UntimedSource), stepPulseBeginDue s = true →
     s.seq.outstanding = [.finishing f] → f.source.n ≤ f.source.emitted + 1 → s.seq.exec = some e →
     e.source = .untimed u → u.phase = .pending →
     s.inputActive (if s.gen.dirHigh then .limp else .limn) = false →
     (s.gen.dirHigh = true → s.gen.position ≠ 0x7FFFFFFF#32) →
     (s.gen.dirHigh = false → s.gen.position ≠ 0x80000000#32) →
     ∀ g done,
       g = { s.gen with
         position := if s.gen.dirHigh then s.gen.position + 1 else s.gen.position - 1
         spacing := some 0
         pulse := some s.cfg.stepPulseUs } →
       done = {
         seq := f.seg.seq, kind := f.seg.body.kind, code := .done, label := f.seg.label, startCycle := f.startCycle,
         endCycle := f.startCycle + BitVec.ofNat 16 f.seg.body.cycles, steps := f.source.emitted + 1,
         position := g.position, known := g.known, part := .none } →
     ∃ t, exec .stepPulseBegin s = .next t ∧ t.seq.outstanding = [] ∧
       (s.inputActive (if u.home.isSome then .home else .probe) = false →
         t.seq.axis = .running ∧ t.gen = g ∧ t.held = s.held ++ [done] ∧ t.seq.queue = s.seq.queue ∧
         t.seq.exec = some { e with source := .untimed { u with phase := .stepping, backlog := true, lastProbe := false } }) ∧
       (∀ v, u.home = some v → s.inputActive .home = true →
         t.seq.axis = .idle ∧ t.seq.exec = none ∧ t.seq.queue = s.seq.queue ∧
         t.gen = { g with position := v, known := true } ∧
         t.held = s.held ++
           [done, recordOf e .homed s.timer.cycle u.emitted { g with position := v, known := true } .none]) ∧
       (u.home = none → s.inputActive .probe = true →
         t.seq.axis = .halted ∧ t.seq.exec = none ∧ t.gen.position = g.position ∧
         Reports t .segmentFault none (some (e.seg.seq, .probeActiveAtStart)) ∧
         t.held = s.held ++ [done, recordOf e .probeActiveAtStart s.timer.cycle u.emitted g .none]))

/-- A step toward an active limit, or past either end of the counter, does not begin: the axis halts with SEGMENT_FAULT
for its segment, whose record carries LIMIT, or RANGE when only the range refuses it; the counter stays (R45, R46, R65,
R97). A step owed by a finishing segment is refused in the same way: the fault is that segment's, its record ends at its end
boundary, and the executing segment completes with HALTED (R33, R45). Step 1 of a HOME or PROBE that starts at a boundary may
be refused inside it, ahead of every halt of that boundary: the segment has its own code, and the report its fault (R34,
R67; the order comes with the command, log entry 3). -/
def Obligations.RefusedStepHalts : Prop :=
  (∀ (s : State) (code : Code), stepPulseBeginDue s = true →
    (s.inputActive (if s.gen.dirHigh then .limp else .limn) = true ∧ code = .limit) ∨
      (s.inputActive (if s.gen.dirHigh then .limp else .limn) = false ∧ code = .range ∧
        s.gen.position = (if s.gen.dirHigh then 0x7FFFFFFF#32 else 0x80000000#32)) →
    (∀ e : Executing, s.seq.finishing = [] → s.seq.exec = some e →
      (∀ u v, e.source = .untimed u → u.home = some v → s.inputActive .home = false) →
      ∃ t r, exec .stepPulseBegin s = .next t ∧ t.seq.axis = .halted ∧
        t.gen = { s.gen with dirSetup := none, refused := false } ∧
        t.haltCtl.report = some r ∧ r.cause = .segmentFault ∧ r.segment = some (e.seg.seq, code) ∧
        t.haltCtl.latch = true ∧ t.seq.queue = [] ∧ t.seq.exec = none ∧ t.seq.outstanding = [] ∧
        t.held.getLast? = some (recordOf e code s.timer.cycle e.source.emitted s.gen .none)) ∧
    (∀ (f : Finishing) (rest : List Outstanding), s.seq.outstanding = .finishing f :: rest →
      ∃ t, exec .stepPulseBegin s = .next t ∧ t.seq.axis = .halted ∧
        t.gen = { s.gen with dirSetup := none, refused := false } ∧
        Reports t .segmentFault none (some (f.seg.seq, code)) ∧
        t.haltCtl.latch = true ∧ t.seq.queue = [] ∧ t.seq.exec = none ∧ t.seq.outstanding = [] ∧
        t.held[s.held.length]? = some {
          seq := f.seg.seq, kind := f.seg.body.kind, code := code, label := f.seg.label, startCycle := f.startCycle,
          endCycle := f.startCycle + BitVec.ofNat 16 f.seg.body.cycles, steps := f.source.emitted,
          position := s.gen.position, known := s.gen.known, part := .none } ∧
        ∀ e, s.seq.exec = some e →
          t.held.getLast? = some (recordOf e .halted s.timer.cycle e.source.emitted s.gen .none))) ∧
  (∀ (o : EventOrder) (s t : State) (code : Code) (seg : Segment) (rest : List Segment) (home : Option Position)
    (dir : Direction) (interval maxSteps : Nat) (turns : List BoundaryTurn) (steps : List StepTurn), EndsCycle o s t →
    o.turns = .motion :: .examination :: .stepEvents :: turns → o.steps = .stepPulseBegin :: steps →
    s.seq.axis = .idle → s.seq.exec = none → s.barrier.ctx = none → s.seq.outstanding = [] →
    s.seq.queue = seg :: rest → s.held.length < 16 →
    seg.body = (match home with
      | some v => .home dir interval maxSteps v
      | none => .probe dir interval maxSteps) →
    s.inputActive (if home.isSome then .home else .probe) = false → s.gen.dirHigh = dir.high →
    s.gen.dirSetup = none → s.gen.refused = false → (∀ n, s.gen.spacing = some n → s.cfg.minStepUs ≤ n) →
    anyLevelChange s = false →
    (s.inputActive (if s.gen.dirHigh then .limp else .limn) = true ∧ code = .limit) ∨
      (s.inputActive (if s.gen.dirHigh then .limp else .limn) = false ∧ code = .range ∧
        s.gen.position = (if s.gen.dirHigh then 0x7FFFFFFF#32 else 0x80000000#32)) →
    t.seq.axis = .halted ∧ t.haltCtl.latch = true ∧ t.gen.position = s.gen.position ∧
      Reports t .segmentFault none (some (seg.seq, code)) ∧
      t.haltCtl.report.map (fun r => r.discarded) = some rest.length ∧
      t.held = s.held ++ [{ haltedAtStart seg (nextCycle s) s.gen with code := code }])

/-- HOME found active before a due step ends the segment HOMED without the step: the counter takes the home value, the flag
is set, and the axis is IDLE, whatever the limit (R59, R66). The closing tick makes the final examination: a HOME ends
HOMED, or HOME_FAILED with the flag cleared and a halt; a PROBE ends PROBE_MISS, which halts only under PROBE_MISS_HALTS
(R60, R64, R66). Where a trip falls at the tick of a boundary and is taken first, the segment ends TRIPPED in the cycle that
begins, and a halt from that boundary finds no executing segment and discards the queue (R67). -/
def Obligations.HomeAndProbeEnd : Prop :=
  (∀ (s : State) (e : Executing) (u : UntimedSource) (v : Position), stepPulseBeginDue s = true →
     s.seq.outstanding = [] → s.seq.exec = some e → e.source = .untimed u → u.home = some v →
     s.inputActive .home = true →
     exec .stepPulseBegin s = .next { s with
       gen := { s.gen with position := v, known := true }
       seq := { s.seq with axis := .idle, exec := none, outstanding := [] }
       held := s.held ++
         [recordOf e .homed s.timer.cycle u.emitted { s.gen with position := v, known := true } .none] }) ∧
  (∀ (s : State) (e : Executing) (u : UntimedSource), closingTickDue s = true → s.seq.outstanding = [] →
     s.seq.exec = some e → e.source = .untimed u → s.seq.axis = .running → ∃ t, exec .closingTick s = .next t ∧
       (∀ v, u.home = some v → s.inputActive .home = true →
         t.seq.axis = .idle ∧ t.gen = { s.gen with position := v, known := true } ∧
           t.held = s.held ++
             [recordOf e .homed s.timer.cycle u.emitted { s.gen with position := v, known := true } .none]) ∧
       (∀ v, u.home = some v → s.inputActive .home = false →
         t.seq.axis = .halted ∧ t.gen.position = s.gen.position ∧ t.gen.known = false ∧
           t.held = s.held ++ [recordOf e .homeFailed s.timer.cycle u.emitted { s.gen with known := false } .none] ∧
           ∃ r, t.haltCtl.report = some r ∧ r.cause = .segmentFault ∧ r.segment = some (e.seg.seq, .homeFailed)) ∧
       (u.home = none →
         t.seq.axis = (if s.cfg.probeMissHalts then .halted else .idle) ∧ t.gen.position = s.gen.position ∧
           t.gen.known = s.gen.known ∧ t.held = s.held ++ [recordOf e .probeMiss s.timer.cycle u.emitted s.gen .none]) ∧
       t.seq.exec = none ∧ t.timer = s.timer ∧ t.link = s.link ∧ t.peers = s.peers ∧ t.notes = s.notes) ∧
  (∀ (o : EventOrder) (s t : State) (e : Executing) (u : UntimedSource) (turns : List BoundaryTurn)
     (steps : List StepTurn), EndsCycle o s t → o.turns = .motion :: .stepEvents :: turns → o.steps = .probeChange :: steps →
     s.seq.axis = .running → s.seq.outstanding = [] → s.seq.exec = some e → e.source = .untimed u → u.home = none →
     u.phase ≠ .pending → u.lastProbe = false → s.config.isSome = true → 2 ≤ s.gen.probe.run →
     s.gen.probe.level ≠ s.cfg.probeHigh →
     t.held = s.held ++ [recordOf e .tripped (nextCycle s) u.emitted s.gen (.trip s.gen.position)] ∧
       t.seq.exec = none ∧ t.seq.outstanding = [] ∧ t.gen.position = s.gen.position ∧ t.gen.known = s.gen.known ∧
       ((t.seq.axis = .idle ∧ t.seq.queue = s.seq.queue ∧ t.haltCtl.report = s.haltCtl.report) ∨
         (t.seq.axis = .halted ∧ t.seq.queue = [] ∧
           t.haltCtl.report.map (fun r => r.discarded) = some s.seq.queue.length)) ∧
       (∀ k : Station, inMask s.cfg.stopGroup k = true → (s.entry k).presence = .present ∨ (s.entry k).presence = .stale →
         (t.entry k).presence = .lost → t.seq.axis = .halted ∧ t.haltCtl.latch = true))

/-- A filtered level changes at the second differing sample (R50). A PROBE that becomes active under a stepping or closing
PROBE trips it: it ends TRIPPED with the counter as trip position (R63); a change of PROBE that is no trip is recorded there as
the last probe level, and any other change of level changes no segment. STOPN becomes active at the fourth low sample and
halts an axis that is IDLE, RUNNING or WAITING with STOP_INPUT, without the latch; becoming inactive, it changes its level
alone (R91, R93, R94). That these commands change nothing before the filter's run is complete is log entry 1 (DESIGN
CHOICE). -/
def Obligations.FilteredInputsChange : Prop :=
  (∀ (s : State) (i : AxisInput), (s.gen.filter i).run < 2 → exec (.filteredLevelChange i) s = .next s) ∧
  (∀ (s : State) (i : AxisInput), 2 ≤ (s.gen.filter i).run →
    i ≠ .probe ∨ (∀ e u, s.seq.exec = some e → e.source = .untimed u → u.home = none → u.phase = .pending) →
    ∃ t, exec (.filteredLevelChange i) s = .next t ∧
      t.gen.filter i = { s.gen.filter i with level := !(s.gen.filter i).level, run := 0 } ∧
      (∀ j, j ≠ i → t.gen.filter j = s.gen.filter j) ∧
      t = { s with gen := { s.gen with
        home := t.gen.home, probe := t.gen.probe, limp := t.gen.limp, limn := t.gen.limn } }) ∧
  (∀ (s : State) (e : Executing) (u : UntimedSource), 2 ≤ s.gen.probe.run → s.boundaryDue = false →
    s.seq.exec = some e → e.source = .untimed u → u.home = none → u.phase ≠ .pending → u.lastProbe = false →
    s.config.isSome = true → s.gen.probe.level ≠ s.cfg.probeHigh → s.seq.outstanding = [] →
    exec (.filteredLevelChange .probe) s = .next { s with
      gen := { s.gen with probe := { s.gen.probe with level := s.cfg.probeHigh, run := 0 } }
      seq := { s.seq with axis := .idle, exec := none, outstanding := [] }
      held := s.held ++ [recordOf e .tripped s.timer.cycle u.emitted s.gen (.trip s.gen.position)] }) ∧
  (∀ (s : State) (e : Executing) (u : UntimedSource) (active : Bool), 2 ≤ s.gen.probe.run → s.boundaryDue = false →
    s.seq.exec = some e → e.source = .untimed u → u.home = none → u.phase ≠ .pending → s.config.isSome = true →
    active = decide (s.gen.probe.level ≠ s.cfg.probeHigh) → active = false ∨ u.lastProbe = true →
    exec (.filteredLevelChange .probe) s = .next { s with
      gen := { s.gen with probe := { s.gen.probe with level := !s.gen.probe.level, run := 0 } }
      seq := { s.seq with exec := some { e with source := .untimed { u with lastProbe := active } } } }) ∧
  (∀ s : State, s.haltCtl.stopn.level = true → 4 ≤ s.haltCtl.stopn.run → ∃ t, exec .stopInput s = .next t ∧
    t.haltCtl.stopn = { s.haltCtl.stopn with level := false, run := 0 } ∧ t.haltCtl.latch = s.haltCtl.latch ∧
    t.origin = true ∧ t.gen.position = s.gen.position ∧ t.peers = s.peers ∧ t.notes = s.notes ∧ t.timer = s.timer ∧
    t.link = s.link ∧
    (Haltable s.seq.axis → t.seq.axis = .halted ∧ t.seq.queue = [] ∧ t.seq.exec = none ∧ t.port.haltFlag = true ∧
      t.haltCtl.report.map (fun r => r.cause) = some .stopInput) ∧
    (¬ Haltable s.seq.axis → t = { s with haltCtl := { s.haltCtl with
      stopn := { s.haltCtl.stopn with level := false, run := 0 } } })) ∧
  (∀ s : State, s.haltCtl.stopn.level = false → 4 ≤ s.haltCtl.stopn.run →
    exec .stopnInactive s = .next { s with haltCtl := { s.haltCtl with
      stopn := { s.haltCtl.stopn with level := true, run := 0 } } }) ∧
  (∀ s : State, s.haltCtl.stopn.run < 4 → exec .stopInput s = .next s ∧ exec .stopnInactive s = .next s)

/-- A step pulse begins only while the axis is RUNNING, no less than MIN_STEP_US after the one before began, with DIR
settled and no refusal standing (R42). It begins at STEP_PULSE_BEGIN, or inside a boundary whose order names that event
(log entry 3), where the axis may become RUNNING at the boundary itself. -/
def Obligations.StepPulseBeginsOnlyWhenAllowed : Prop :=
  ∀ (c : Instr) (s t : State), setupLaw s = true → exec c s = .next t → s.gen.pulse = none → t.gen.pulse.isSome = true →
    ((c = .stepPulseBegin ∧ s.seq.axis = .running) ∨
      ∃ o, Bounds c o ∧ .stepPulseBegin ∈ o.steps ∧ (axisLaw s = true → Haltable s.seq.axis)) ∧
    s.gen.refused = false ∧ s.gen.dirSetup = none ∧ (∀ n, s.gen.spacing = some n → s.cfg.minStepUs ≤ n) ∧
    t.gen.spacing = some 0

/-- The position counter changes only by a step of one toward DIR, by SET POSITION, which gives it the value of its four bytes
and sets the known flag, by device reset, which makes it 0 and clears the flag, or by a HOME that ends HOMED, which gives it
the home value and sets the flag; the flag changes only by the last three, and by a HOME_FAILED, which clears it (R52). A step
begins at STEP_PULSE_BEGIN and a HOME_FAILED is found at CLOSING_TICK, or inside a boundary whose order names them, where
each is taken once at most (log entry 3). -/
def Obligations.PositionChangesOnlyByItsRules : Prop :=
  ∀ (c : Instr) (s t : State), exec c s = .next t →
    (t.gen.position ≠ s.gen.position →
      (∃ k, c = .deviceReset k ∧ t.gen.position = 0 ∧ t.gen.known = false) ∨ SetsPosition c s t ∨
        ((c = .stepPulseBegin ∨ c = .closingTick ∨ ∃ o, Bounds c o) ∧ Homed s t) ∨
        ((c = .stepPulseBegin ∨ ∃ o, Bounds c o ∧ .stepPulseBegin ∈ o.steps) ∧
          t.gen.position = (if t.gen.dirHigh then s.gen.position + 1 else s.gen.position - 1))) ∧
    (t.gen.known ≠ s.gen.known →
      (∃ k, c = .deviceReset k ∧ t.gen.position = 0 ∧ t.gen.known = false) ∨ SetsPosition c s t ∨
        ((c = .stepPulseBegin ∨ c = .closingTick ∨ ∃ o, Bounds c o) ∧ Homed s t) ∨
        ((c = .closingTick ∨ ∃ o, Bounds c o ∧ .closingTick ∈ o.steps) ∧ t.gen.known = false ∧
          ∃ r, r ∈ t.held ∧ r.code = .homeFailed ∧ r.known = false ∧ r.endCycle = t.timer.cycle))

/-- HALTED is left only by an accepted CLEAR HALT, by RESTART and by device reset (R25, R93, R105). -/
def Obligations.HaltedIsLeftOnlyByRequest : Prop :=
  ∀ (c : Instr) (s t : State), exec c s = .next t → axisLaw s = true → s.seq.axis = .halted → t.seq.axis ≠ .halted →
    c = .clearHalt ∨ c = .restart ∨ ∃ k, c = .deviceReset k

/-! ## Halts (R33, R93, R95, R99, R100, R105) -/

/-- HALT halts an axis that is IDLE, RUNNING or WAITING at the request: the report, the records of the started segments in
the order they started, the empty queue, the withdrawn barrier, the latch and the HALT flag; link, peers, notes and timer
stay. In HALTED and DISABLED it sets the latch alone; an unconfigured station refuses it (R33, R48, R85, R95, R99,
R100). That the report and the HALTED record of a HALT sent while a boundary of the same tick is due carry the number of the
cycle that is ending is log entry 3 (DESIGN CHOICE). -/
def Obligations.HaltEndsAllWork : Prop :=
  (∀ s : State, s.port.phase = .request → s.config = none →
    exec .halt s = .next { s with port := taken 0x12 [] [0x04] none s.port }) ∧
  (∀ s : State, s.port.phase = .request → s.config.isSome = true → ¬ Haltable s.seq.axis →
    exec .halt s = .next { s with
      haltCtl := { s.haltCtl with latch := true }
      port := taken 0x12 [] [0x01] none s.port }) ∧
  (∀ s : State, s.port.phase = .request → s.config.isSome = true → Haltable s.seq.axis →
    ∃ t records, exec .halt s = .next t ∧
      t = { s with
        seq := { s.seq with axis := .halted, queue := [], exec := none, outstanding := [] }
        gen := { s.gen with dirSetup := none, refused := false }
        barrier := { s.barrier with ctx := none }
        haltCtl := { s.haltCtl with
          latch := true
          report := some {
            cause := .hostHalt, peer := none, segment := none, cycle := s.timer.cycle, position := s.gen.position,
            discarded := s.seq.queue.length
            range := match s.seq.queue.head?, s.seq.queue.getLast? with
              | some a, some z => some (a.seq, z.seq)
              | _, _ => none } }
        held := s.held ++ records
        port := taken 0x12 [] [0x01] none { s.port with haltFlag := true } } ∧
      records.length = s.seq.reserved ∧
      (∀ (i : Nat) (f : Finishing), s.seq.outstanding[i]? = some (.finishing f) →
        records[i]? = some {
          seq := f.seg.seq, kind := f.seg.body.kind, code := .halted, label := f.seg.label,
          startCycle := f.startCycle, endCycle := f.startCycle + BitVec.ofNat 16 f.seg.body.cycles,
          steps := f.source.emitted, position := s.gen.position, known := s.gen.known, part := .none }) ∧
      (∀ (i : Nat) (r : Record), s.seq.outstanding[i]? = some (.heldBack r) → records[i]? = some r) ∧
      (∀ e, s.seq.exec = some e → records[s.seq.outstanding.length]? =
        some (recordOf e .halted s.timer.cycle e.source.emitted s.gen .none)))

/-- CLEAR HALT is answered by the first condition of R105 that holds; an accepted one clears the latch and makes the axis
IDLE, and keeps the report and the HALT flag. -/
def Obligations.ClearHaltAnswers : Prop :=
  ∀ s : State, s.port.phase = .request →
    (s.seq.axis ≠ .halted → exec .clearHalt s = .next { s with port := taken 0x13 [] [0x0A] none s.port }) ∧
    (s.seq.axis = .halted → s.link.state ≠ .active →
      exec .clearHalt s = .next { s with port := taken 0x13 [] [0x0D] none s.port }) ∧
    (s.seq.axis = .halted → s.link.state = .active → s.haltCtl.stopn.level = false →
      exec .clearHalt s = .next { s with port := taken 0x13 [] [0x0B] none s.port }) ∧
    (s.seq.axis = .halted → s.link.state = .active → s.haltCtl.stopn.level = true →
      ((∃ k, inMask s.cfg.stopGroup k = true ∧ (s.entry k).view.origin = true ∧
          ((s.entry k).presence = .present ∨ (s.entry k).presence = .stale)) →
        exec .clearHalt s = .next { s with port := taken 0x13 [] [0x0C] none s.port }) ∧
      ((∀ k, inMask s.cfg.stopGroup k = true → (s.entry k).view.origin = true →
          ¬ ((s.entry k).presence = .present ∨ (s.entry k).presence = .stale)) →
        exec .clearHalt s = .next { s with
          seq := { s.seq with axis := .idle }
          haltCtl := { s.haltCtl with latch := false }
          port := taken 0x13 [] [0x01] none s.port }))

/-! ## The host port (chapter 11) -/

/-- A fall of CSN opens a transaction in REQUEST and presents the port status byte of that moment; a rise ends it and drops
an untaken request and a pending removal; the last response byte makes the removal and enters IGNORE (R116, R149, R162,
R167, R168, R170). That CSN_FALL with CSN low and REMOVAL out of ANSWER change nothing is log entry 1 (DESIGN CHOICE), and
that REMOVAL is the last byte of any answer is log entry 11 (DEDUCED). -/
def Obligations.TransactionOpensAndCloses : Prop :=
  (∀ s : State, s.port.csnHigh = true → ∃ t, exec .csnFall s = .next t ∧
    t = { s with port := { s.port with
      phase := .request, csnHigh := false, byteCount := 0, request := none, params := [], status := t.port.status,
      answer := [], removal := none } } ∧
    (∀ i, i < 6 → t.port.status.getLsbD i = s.flags.getLsbD i) ∧
    t.port.status.getLsbD 6 = s.config.isSome ∧ t.port.status.getLsbD 7 = decide (s.link.state = .active)) ∧
  (∀ s : State, s.port.csnHigh = false →
    exec .csnFall s = .next s ∧
    exec .csnRise s = .next { s with port := { s.port with
      phase := .closed, csnHigh := true, byteCount := 0, request := none, params := [], answer := [],
      removal := none } }) ∧
  (∀ s : State, s.port.phase = .answer → ∃ t, exec .removal s = .next t ∧
    t.port = { s.port with
      phase := .ignore, byteCount := s.port.byteCount + s.port.answer.length, removal := none } ∧
    t.held = (if s.port.removal = some .record then s.held.drop 1 else s.held) ∧
    t.notes = (if s.port.removal = some .note then { s.notes with inbox := s.notes.inbox.drop 1 } else s.notes) ∧
    t.peers = (match s.port.removal with
      | some (.changes m) => { s.peers with changeMap := s.peers.changeMap &&& ~~~m }
      | _ => s.peers) ∧
    t = { s with port := t.port, held := t.held, notes := t.notes, peers := t.peers }) ∧
  (∀ s : State, s.port.phase ≠ .answer → exec .removal s = .next s)

/-- While its last parameter byte is missing, a request changes the port alone: its bytes are held in PARAMETERS, where its
further bytes join them and every other request is ignored; SEND NOTE waits for its payload's bytes too. In ANSWER, in
IGNORE and in a closed port no request acts (R151, R167, R169, R170). That a request comes in pieces is log entry 10, and
that one sent where SDI is ignored changes nothing log entry 1 (DESIGN CHOICE). -/
def Obligations.RequestsWaitForTheirBytes : Prop :=
  (∀ (c : Instr) (s : State) (code : Byte) (bytes : List Byte), paramsOf c = some (code, bytes) →
    s.port.phase = .request → bytes.length < needed code bytes →
    exec c s = .next { s with port := { s.port with
      phase := .parameters, request := some code, params := bytes, byteCount := 1 + bytes.length } }) ∧
  (∀ (c : Instr) (s : State) (code : Byte) (bytes all : List Byte), paramsOf c = some (code, bytes) →
    s.port.phase = .parameters → s.port.request = some code → all = s.port.params ++ bytes →
    all.length < needed code all →
    exec c s = .next { s with port := { s.port with
      phase := .parameters, request := some code, params := all, byteCount := 1 + all.length } }) ∧
  (∀ (c : Instr) (s : State), IsRequest c → s.port.phase = .parameters →
    (∀ code bytes, paramsOf c = some (code, bytes) → s.port.request ≠ some code) → exec c s = .next s) ∧
  (∀ (c : Instr) (s : State), IsRequest c → s.port.phase = .answer ∨ s.port.phase = .ignore ∨ s.port.phase = .closed →
    exec c s = .next s)

/-- An unknown request code is answered UNKNOWN_REQUEST without response bytes and changes nothing outside the port; after
the outcome byte the port is in IGNORE, where it shows 00h and takes no request (R171). That REMOVAL is the completion of
that outcome byte, of an answer that removes nothing, is log entry 11 (DEDUCED). -/
def Obligations.UnknownRequestChangesNothing : Prop :=
  ∀ (s : State) (code : Byte), s.port.phase = .request →
    code ∉ [0x01#8, 0x02, 0x0F, 0x10, 0x11, 0x12, 0x13, 0x14, 0x20, 0x21, 0x22, 0x23, 0x24, 0x25, 0x30, 0x31, 0x32,
      0x33] →
    exec (.unknownRequest code) s = .next { s with port := taken code [] [0x02] none s.port } ∧
    (taken code [] [0x02] none s.port).sdoByte 0 = s.port.status ∧
    (taken code [] [0x02] none s.port).sdoByte 1 = 0x02 ∧
    (∀ i, 2 ≤ i → (taken code [] [0x02] none s.port).sdoByte i = 0) ∧
    ∃ t, exec .removal { s with port := taken code [] [0x02] none s.port } = .next t ∧
      t = { s with port := t.port } ∧ t.port.phase = .ignore ∧
      (∀ i, 2 ≤ i → t.port.sdoByte i = 0) ∧
      ∀ c, IsRequest c → exec c t = .next t

/-- CONFIGURE is answered by the first condition of R172 that holds; the twelve bytes of an accepted one, in the layout of
12.3, become the settings (R173). -/
def Obligations.ConfigureAnswers : Prop :=
  ∀ (s : State) (bytes ps : List Byte), Completes 0x01 12 bytes s.port ps →
    (s.config.isSome = true →
      exec (.configure bytes) s = .next { s with port := taken 0x01 ps [0x05] none s.port }) ∧
    (s.config = none → ∀ c : Settings,
      c = {
        cycleCode := (byteAt ps 0).toNat, stationCount := (byteAt ps 1).toNat, lossLimit := (byteAt ps 2).toNat
        releaseLead := (byteAt ps 3).toNat, minStepUs := (byteAt ps 4).toNat, stepPulseUs := (byteAt ps 5).toNat
        dirSetupUs := (byteAt ps 6).toNat, stopGroup := byteAt ps 7 ++ byteAt ps 8
        homeHigh := (byteAt ps 9).getLsbD 0, probeHigh := (byteAt ps 9).getLsbD 1
        limpHigh := (byteAt ps 9).getLsbD 2, limnHigh := (byteAt ps 9).getLsbD 3
        lateHalts := (byteAt ps 10).getLsbD 0, probeMissHalts := (byteAt ps 10).getLsbD 1
        haltReleasesEn := (byteAt ps 10).getLsbD 2, intEnable := (byteAt ps 11).extractLsb' 0 6 } →
      ((4 ≤ c.cycleCode ∧ c.cycleCode ≤ 64 ∧ 2 ≤ c.stationCount ∧ c.stationCount ≤ 16 ∧ 3 ≤ c.lossLimit ∧
          c.lossLimit ≤ 15 ∧ 1 ≤ c.releaseLead ∧ c.releaseLead ≤ 8 ∧ 2 ≤ c.minStepUs ∧ c.minStepUs ≤ 255 ∧
          1 ≤ c.stepPulseUs ∧ c.stepPulseUs ≤ 15 ∧ c.dirSetupUs ≤ 63 ∧
          (∀ k : Station, inMask c.stopGroup k = true → k ≠ s.id ∧ k.val < c.stationCount) ∧
          s.id.val < c.stationCount ∧ 96 * c.stationCount + 64 ≤ c.cycleCode * 125 ∧
          2 * c.stepPulseUs ≤ c.minStepUs) →
        exec (.configure bytes) s = .next { s with config := some c, port := taken 0x01 ps [0x01] none s.port }) ∧
      (¬ (4 ≤ c.cycleCode ∧ c.cycleCode ≤ 64 ∧ 2 ≤ c.stationCount ∧ c.stationCount ≤ 16 ∧ 3 ≤ c.lossLimit ∧
          c.lossLimit ≤ 15 ∧ 1 ≤ c.releaseLead ∧ c.releaseLead ≤ 8 ∧ 2 ≤ c.minStepUs ∧ c.minStepUs ≤ 255 ∧
          1 ≤ c.stepPulseUs ∧ c.stepPulseUs ≤ 15 ∧ c.dirSetupUs ≤ 63 ∧
          (∀ k : Station, inMask c.stopGroup k = true → k ≠ s.id ∧ k.val < c.stationCount) ∧
          s.id.val < c.stationCount ∧ 96 * c.stationCount + 64 ≤ c.cycleCode * 125 ∧
          2 * c.stepPulseUs ≤ c.minStepUs) →
        exec (.configure bytes) s = .next { s with port := taken 0x01 ps [0x03] none s.port }))

/-- START is refused unconfigured and out of IDLE; accepted, the link enters LISTEN with its counts cleared and the free
count from 0, LINK is latched, and the axis stays; IDLE, once left, returns only at device reset (R121, R174). That the
receiver goes on with what it was doing at the entry to LISTEN is log entry 6 (DEDUCED). -/
def Obligations.StartAnswers : Prop :=
  (∀ s : State, s.port.phase = .request → s.config = none →
    exec .start s = .next { s with port := taken 0x02 [] [0x04] none s.port }) ∧
  (∀ s : State, s.port.phase = .request → s.config.isSome = true → s.link.state ≠ .idle →
    exec .start s = .next { s with port := taken 0x02 [] [0x06] none s.port }) ∧
  (∀ s : State, s.port.phase = .request → s.config.isSome = true → s.link.state = .idle →
    exec .start s = .next { s with
      timer := { s.timer with
        t := 0, earlyRun := 0, earlySeen := false, armed := false, pulse := none, adoption := none, highRun := 0,
        founding := .none, raised := Raised.clear }
      link := { s.link with
        state := .listen, joinCount := 0, request := none, slipRun := 0, slips := .none, collisionRun := 0,
        collision := false, prevEdge := false, candidate := none, profileMismatch := false, tx := none }
      port := taken 0x02 [] [0x01] none { s.port with linkFlag := true } }) ∧
  (∀ (c : Instr) (s t : State), exec c s = .next t → s.link.state ≠ .idle → t.link.state = .idle →
    ∃ k, c = .deviceReset k) ∧
  (∀ (c : Instr) (s t : State), exec c s = .next t → s.link.state = .idle → t.link.state ≠ .idle →
    c = .start ∨ c = .restart)

/-- RESTART is refused unconfigured; accepted, every block makes its change: LISTEN, an empty table, plan, completion
queue and note unit, no halt report and no latch, both latched flags clear; the settings, the position and its flag, DIR,
the filters, the cycle number and the next sequence number stay (R175). That the receiver goes on with what it was doing is
the model's reading (log entry 6, DEDUCED). -/
def Obligations.RestartClearsTheStation : Prop :=
  (∀ s : State, s.port.phase = .request → s.config = none →
    exec .restart s = .next { s with port := taken 0x0F [] [0x04] none s.port }) ∧
  (∀ s : State, s.port.phase = .request → s.config.isSome = true → ∃ t, exec .restart s = .next t ∧
    t.timer = { s.timer with
      t := 0, earlyRun := 0, earlySeen := false, armed := false, pulse := none, adoption := none, highRun := 0,
      founding := .none, raised := Raised.clear } ∧
    t.link = { Link.reset with state := .listen, rx := s.link.rx } ∧
    (∀ k, t.entry k = PeerEntry.blank) ∧ t.peers.changeMap = 0 ∧
    t.seq = { axis := .disabled, queue := [], exec := none, outstanding := [], nextSeq := s.seq.nextSeq } ∧
    t.gen = { s.gen with dirSetup := none, refused := false } ∧
    t.barrier = { ctx := none, histTag := 0, histCycle := 0 } ∧
    t.haltCtl = { s.haltCtl with latch := false, report := none } ∧ t.held = [] ∧
    (∀ i, t.notes.slots.get i = .free) ∧ t.notes.order = [] ∧ t.notes.nextNumber = 1 ∧ t.notes.inbox = [] ∧
    t.port = taken 0x0F [] [0x01] none { s.port with haltFlag := false, linkFlag := false } ∧ t.flags = 0 ∧
    t.intnHigh = true ∧ t.id = s.id ∧ t.config = s.config ∧ t.pins = s.pins ∧ t.pending = s.pending)

/-- QUEUE SEGMENT is answered by the first condition of R18 that holds, on a record read in the layout of 12.3 and checked as
R19 states; an accepted segment joins the queue at the tail with the next sequence number, which then advances (R18, R21).
FLUSH QUEUE empties the queue and answers its length (R24). SET POSITION is refused while the axis moves, waits or owes steps,
and otherwise sets the counter and the flag (R53). None touches anything else. That the port still holds the bytes of a refused
QUEUE SEGMENT, of which R182 keeps none, is log entry 27 (DESIGN CHOICE). -/
def Obligations.PlanRequestsAnswer : Prop :=
  (∀ (s : State) (bytes ps : List Byte), Completes 0x10 16 bytes s.port ps →
     (s.config = none →
       exec (.queueSegment bytes) s = .next { s with port := taken 0x10 ps [0x04, 0, 0] none s.port }) ∧
     (s.config.isSome = true → (∀ b, ¬ RecordGives s.id s.cfg ps b) →
       exec (.queueSegment bytes) s = .next { s with port := taken 0x10 ps [0x03, 0, 0] none s.port }) ∧
     (∀ b, s.config.isSome = true → RecordGives s.id s.cfg ps b →
       ((∃ n d, b = .moveRel n d ∧ d * s.cycleUs < n.natAbs * s.cfg.minStepUs) →
         exec (.queueSegment bytes) s = .next { s with port := taken 0x10 ps [0x07, 0, 0] none s.port }) ∧
       ((∀ n d, b = .moveRel n d → n.natAbs * s.cfg.minStepUs ≤ d * s.cycleUs) →
         (s.seq.axis = .halted →
           exec (.queueSegment bytes) s = .next { s with port := taken 0x10 ps [0x09, 0, 0] none s.port }) ∧
         (s.seq.axis ≠ .halted → 32 ≤ s.seq.queue.length →
           exec (.queueSegment bytes) s = .next { s with port := taken 0x10 ps [0x08, 0, 0] none s.port }) ∧
         (s.seq.axis ≠ .halted → s.seq.queue.length < 32 →
           exec (.queueSegment bytes) s = .next { s with
             seq := { s.seq with
               queue := s.seq.queue ++ [{ seq := s.seq.nextSeq, label := byteAt ps 1 ++ byteAt ps 2, body := b }]
               nextSeq := s.seq.nextSeq + 1 }
             port := taken 0x10 ps
               [0x01, s.seq.nextSeq.extractLsb' 8 8, s.seq.nextSeq.extractLsb' 0 8] none s.port })))) ∧
  (∀ s : State, s.port.phase = .request →
    exec .flushQueue s = .next { s with
      seq := { s.seq with queue := [] }
      port := taken 0x11 [] [0x01, BitVec.ofNat 8 s.seq.queue.length] none s.port }) ∧
  (∀ (s : State) (bytes ps : List Byte), Completes 0x14 4 bytes s.port ps →
    (s.seq.axis = .running ∨ s.seq.axis = .waiting ∨ (s.seq.axis = .idle ∧ s.seq.finishing ≠ []) →
      exec (.setPosition bytes) s = .next { s with port := taken 0x14 ps [0x0E] none s.port }) ∧
    (s.seq.axis = .disabled ∨ s.seq.axis = .halted ∨ (s.seq.axis = .idle ∧ s.seq.finishing = []) →
      exec (.setPosition bytes) s = .next { s with
        gen := { s.gen with
          position := byteAt ps 0 ++ byteAt ps 1 ++ byteAt ps 2 ++ byteAt ps 3
          known := true }
        port := taken 0x14 ps [0x01] none s.port }))

/-- CLEAR EVENTS clears the latched flags its mask names, HALT by bit 1 and LINK by bit 5, ignores its other bits, and is
accepted configured or not; the level flags follow their conditions (R178). -/
def Obligations.ClearEventsClearsLatchedFlags : Prop :=
  ∀ (s : State) (bytes ps : List Byte), Completes 0x25 1 bytes s.port ps → ∃ t,
    exec (.clearEvents bytes) s = .next t ∧
    t = { s with port := taken 0x25 ps [0x01] none { s.port with
      haltFlag := if (byteAt ps 0).getLsbD 1 then false else s.port.haltFlag
      linkFlag := if (byteAt ps 0).getLsbD 5 then false else s.port.linkFlag } } ∧
    t.flags.getLsbD 0 = s.flags.getLsbD 0 ∧ t.flags.getLsbD 2 = s.flags.getLsbD 2 ∧
    t.flags.getLsbD 3 = s.flags.getLsbD 3 ∧ t.flags.getLsbD 4 = s.flags.getLsbD 4 ∧
    t.flags.getLsbD 1 = (s.flags.getLsbD 1 && !(byteAt ps 0).getLsbD 1) ∧
    t.flags.getLsbD 5 = (s.flags.getLsbD 5 && !(byteAt ps 0).getLsbD 5)

/-- READ STATE answers a snapshot in the layout of 12.3 (R176). READ COMPLETION, READ NOTE and READ PEER CHANGES answer their
head item at full length and hold its removal pending, or answer EMPTY (R115, R116, R149, R162, R169). Each changes the
port alone. Outside the port, INTN is low exactly while a flag is set that INT_ENABLE enables, and never in an unconfigured
station (R179), and DREN follows the axis state and stays active through a step pulse (R51). That the bits of the presence
byte which 12.3 does not assign are 0 is log entry 31 (DESIGN CHOICE). -/
def Obligations.ReadsAnswer : Prop :=
  (∀ s : State, s.port.phase = .request → ∃ answer,
     exec .readState s = .next { s with port := taken 0x20 [] answer none s.port } ∧ answer.length = 14 ∧
     byteAt answer 0 = 0x01 ∧ (byteAt answer 1).toNat = s.id.val ∧
     (byteAt answer 2).toNat = (match s.seq.axis with
       | .disabled => 0 | .idle => 1 | .running => 2 | .waiting => 3 | .halted => 4) ∧
     (byteAt answer 3).toNat = (match s.link.state with
       | .idle => 0 | .listen => 1 | .joining => 2 | .active => 3 | .duplicate => 4) ∧
     word32At answer 4 = s.gen.position ∧
     (byteAt answer 8).getLsbD 0 = s.gen.known ∧
     (byteAt answer 8).getLsbD 1 = (!s.haltCtl.stopn.level || s.haltCtl.latch) ∧
     (byteAt answer 8).getLsbD 2 = s.haltCtl.latch ∧ (byteAt answer 8).getLsbD 3 = s.link.profileMismatch ∧
     byteAt answer 9 = BitVec.ofNat 8 s.seq.queue.length ∧ byteAt answer 10 = BitVec.ofNat 8 s.held.length ∧
     word16At answer 11 = s.timer.cycle ∧
     (byteAt answer 13).getLsbD 0 = !s.held.isEmpty ∧ (byteAt answer 13).getLsbD 1 = s.port.haltFlag ∧
     (byteAt answer 13).getLsbD 2 = decide (s.peers.changeMap ≠ 0) ∧
     (byteAt answer 13).getLsbD 3 = !s.notes.inbox.isEmpty ∧ (byteAt answer 13).getLsbD 4 = s.noteDone ∧
     (byteAt answer 13).getLsbD 5 = s.port.linkFlag) ∧
  (∀ s : State, s.port.phase = .request →
     (s.held = [] → exec .readCompletion s = .next { s with
       port := taken 0x21 [] (0x0F :: List.replicate 23 0) none s.port }) ∧
     (∀ r rest, s.held = r :: rest → ∃ answer, exec .readCompletion s = .next { s with
         port := taken 0x21 [] answer (some .record) s.port } ∧ answer.length = 24 ∧ byteAt answer 0 = 0x01 ∧
       word16At answer 1 = r.seq ∧ byteAt answer 3 = r.kind.code ∧ byteAt answer 4 = r.code.byte ∧
       word16At answer 5 = r.label ∧ word16At answer 7 = r.startCycle ∧ word16At answer 9 = r.endCycle ∧
       word24At answer 11 = BitVec.ofNat 24 r.steps ∧ word32At answer 14 = r.position ∧
       (byteAt answer 18).getLsbD 0 = r.known ∧
       (match r.part with
         | .none => byteAt answer 19 = 0 ∧ word32At answer 20 = 0
         | .trip p => byteAt answer 19 = 1 ∧ word32At answer 20 = p
         | .release c l => byteAt answer 19 = 2 ∧ word16At answer 20 = c ∧ word16At answer 22 = l)) ∧
     (s.notes.inbox = [] → exec .readNote s = .next { s with
       port := taken 0x31 [] (0x0F :: List.replicate 13 0) none s.port }) ∧
     (∀ n rest, s.notes.inbox = n :: rest → n.payload.length ≤ 8 → ∃ answer, exec .readNote s = .next { s with
         port := taken 0x31 [] answer (some .note) s.port } ∧ answer.length = 14 ∧ byteAt answer 0 = 0x01 ∧
       (byteAt answer 1).toNat = n.sender.val ∧ byteAt answer 2 = n.number ∧
       (byteAt answer 3).toNat = n.payload.length ∧ word16At answer 4 = n.acceptCycle ∧
       ∀ i, i < 8 → byteAt answer (6 + i) = byteAt n.payload i) ∧
     (s.peers.changeMap = 0 → exec .readPeerChanges s = .next { s with
       port := taken 0x24 [] [0x0F, 0, 0] none s.port }) ∧
     (s.peers.changeMap ≠ 0 → exec .readPeerChanges s = .next { s with
       port := taken 0x24 [] [0x01, s.peers.changeMap.extractLsb' 8 8, s.peers.changeMap.extractLsb' 0 8]
         (some (.changes s.peers.changeMap)) s.port })) ∧
  (∀ s : State,
     (s.intnHigh = false ↔ ∃ c, s.config = some c ∧
       ((c.intEnable.getLsbD 0 = true ∧ s.held ≠ []) ∨ (c.intEnable.getLsbD 1 = true ∧ s.port.haltFlag = true) ∨
         (c.intEnable.getLsbD 2 = true ∧ s.peers.changeMap ≠ 0) ∨
         (c.intEnable.getLsbD 3 = true ∧ s.notes.inbox ≠ []) ∨
         (c.intEnable.getLsbD 4 = true ∧ ∃ i n dests st, s.notes.slots.get i = .done n dests st) ∨
         (c.intEnable.getLsbD 5 = true ∧ s.port.linkFlag = true))) ∧
     (s.dren = true ↔ s.gen.pulse.isSome = true ∨ Haltable s.seq.axis ∨
       (s.seq.axis = .halted ∧ s.cfg.haltReleasesEn = false)))

/-- READ HALT REPORT answers EMPTY with zeros, or the report in the layout of 12.3 with absent fields 0; it changes
nothing, and the report is empty after device reset and after an accepted RESTART (R104). -/
def Obligations.ReadHaltReportAnswers : Prop :=
  (∀ s : State, s.port.phase = .request → s.haltCtl.report = none →
    exec .readHaltReport s = .next { s with port := taken 0x22 [] (0x0F :: List.replicate 16 0) none s.port }) ∧
  (∀ (s : State) (r : HaltReport), s.port.phase = .request → s.haltCtl.report = some r → ∃ answer,
    exec .readHaltReport s = .next { s with port := taken 0x22 [] answer none s.port } ∧ answer.length = 17 ∧
    byteAt answer 0 = 0x01 ∧ byteAt answer 1 = r.cause.byte ∧
    (byteAt answer 2).toNat = (match r.peer with
      | some k => k.val
      | none => 0) ∧
    word16At answer 3 = (match r.segment with
      | some (q, _) => q
      | none => 0) ∧
    byteAt answer 5 = (match r.segment with
      | some (_, code) => code.byte
      | none => 0) ∧
    word16At answer 6 = r.cycle ∧ word32At answer 8 = r.position ∧ byteAt answer 12 = BitVec.ofNat 8 r.discarded ∧
    word16At answer 13 = (match r.range with
      | some (a, _) => a
      | none => 0) ∧
    word16At answer 15 = (match r.range with
      | some (_, z) => z
      | none => 0)) ∧
  (∀ (k : Station) (s t : State), exec (.deviceReset k) s = .next t → t.haltCtl.report = none) ∧
  (∀ s t : State, s.port.phase = .request → s.config.isSome = true → exec .restart s = .next t →
    t.haltCtl.report = none)

/-- READ PEER answers the entry of its station in the layout of 12.3, or BAD_PARAMETER above 15, and changes the port
alone (R148). -/
def Obligations.ReadPeerAnswers : Prop :=
  ∀ (s : State) (bytes ps : List Byte), Completes 0x23 1 bytes s.port ps →
    (16 ≤ (byteAt ps 0).toNat → exec (.readPeer bytes) s = .next { s with
      port := taken 0x23 ps (0x03 :: List.replicate 22 0) none s.port }) ∧
    (∀ k : Station, (byteAt ps 0).toNat = k.val → ∃ answer, exec (.readPeer bytes) s = .next { s with
        port := taken 0x23 ps answer none s.port } ∧ answer.length = 23 ∧ byteAt answer 0 = 0x01 ∧
      byteAt answer 1 = (s.entry k).presence.code ∧ byteAt answer 2 = BitVec.ofNat 8 (s.entry k).missed ∧
      word16At answer 3 = (s.entry k).view.lastCycle ∧ (byteAt answer 5).getLsbD 0 = (s.entry k).view.join ∧
      (byteAt answer 5).getLsbD 1 = (s.entry k).view.halted ∧
      (byteAt answer 5).getLsbD 2 = (s.entry k).view.origin ∧
      (byteAt answer 5).getLsbD 3 = (s.entry k).view.known ∧
      byteAt answer 6 = (s.entry k).view.axis.setWidth 8 ∧ word32At answer 7 = (s.entry k).view.position ∧
      byteAt answer 11 = (s.entry k).view.barTag ∧ word16At answer 12 = (s.entry k).view.barArrival ∧
      word16At answer 14 = (s.entry k).view.barMask ∧ byteAt answer 16 = (s.entry k).view.relTag ∧
      word16At answer 17 = (s.entry k).view.relCycle ∧ (byteAt answer 19).getLsbD 0 = (s.entry k).memory ∧
      (byteAt answer 19).getLsbD 1 = (s.entry k).toggle ∧ (byteAt answer 19).getLsbD 2 = (s.entry k).resync ∧
      (byteAt answer 19).getLsbD 3 = (s.entry k).refuse ∧
      (match (s.entry k).view.note with
        | none => (byteAt answer 19).getLsbD 4 = false ∧ (byteAt answer 19).getLsbD 5 = false ∧
            byteAt answer 20 = 0 ∧ word16At answer 21 = 0
        | some n => (byteAt answer 19).getLsbD 4 = true ∧ (byteAt answer 19).getLsbD 5 = n.toggle ∧
            byteAt answer 20 = n.number ∧ word16At answer 21 = n.pendingMask))

/-- SEND NOTE is answered by the first condition of R151 that holds; an accepted note is QUEUED in the lowest-numbered
FREE slot at the tail of the acceptance order, and the next number goes from 255 to 1. READ NOTE SLOT answers 18 bytes
and changes the port alone: the state, number and destinations, the pending and deferred masks of a SENDING slot, which read
0 in a DONE one, and of both the delivered and failed masks and the three reason masks (R151, R159, R163). -/
def Obligations.SendNoteAndReadSlot : Prop :=
  (∀ (s : State) (bytes ps : List Byte) (len : Nat), Completes 0x30 (if len ≤ 8 then 3 + len else 3) bytes s.port ps →
    (byteAt ps 2).toNat = len →
    (s.config = none →
      exec (.sendNote bytes) s = .next { s with port := taken 0x30 ps [0x04, 0, 0] none s.port }) ∧
    (s.config.isSome = true →
      (8 < len ∨ word16At ps 0 = 0 ∨
        ∃ k : Station, inMask (word16At ps 0) k = true ∧ (k = s.id ∨ s.stationCount ≤ k.val)) →
      exec (.sendNote bytes) s = .next { s with port := taken 0x30 ps [0x03, 0, 0] none s.port }) ∧
    (s.config.isSome = true → len ≤ 8 → word16At ps 0 ≠ 0 →
      (∀ k : Station, inMask (word16At ps 0) k = true → k ≠ s.id ∧ k.val < s.stationCount) →
      ((∀ i, s.notes.slots.get i ≠ .free) →
        exec (.sendNote bytes) s = .next { s with port := taken 0x30 ps [0x10, 0, 0] none s.port }) ∧
      (∀ i, s.notes.slots.get i = .free → (∀ j, j < i → s.notes.slots.get j ≠ .free) →
        exec (.sendNote bytes) s = .next { s with
          notes := { s.notes with
            slots := s.notes.slots.set i.val (.queued s.notes.nextNumber (word16At ps 0) (ps.drop 3))
            order := s.notes.order ++ [i]
            nextNumber := if s.notes.nextNumber = 255 then 1 else s.notes.nextNumber + 1 }
          port := taken 0x30 ps [0x01, BitVec.ofNat 8 i.val, s.notes.nextNumber] none s.port }))) ∧
  (∀ (s : State) (bytes ps : List Byte), Completes 0x32 1 bytes s.port ps →
    (4 ≤ (byteAt ps 0).toNat → exec (.readNoteSlot bytes) s = .next { s with
      port := taken 0x32 ps (0x03 :: List.replicate 18 0) none s.port }) ∧
    (∀ i : Fin 4, (byteAt ps 0).toNat = i.val → ∃ answer, exec (.readNoteSlot bytes) s = .next { s with
        port := taken 0x32 ps answer none s.port } ∧ answer.length = 19 ∧ byteAt answer 0 = 0x01 ∧
      (match s.notes.slots.get i with
        | .free => ∀ j, 1 ≤ j → byteAt answer j = 0
        | .queued n dests _ => byteAt answer 1 = 1 ∧ byteAt answer 2 = n ∧ word16At answer 3 = dests ∧
            ∀ j, 5 ≤ j → byteAt answer j = 0
        | .sending n dests _ _ st => byteAt answer 1 = 2 ∧ byteAt answer 2 = n ∧ word16At answer 3 = dests ∧
            (∀ k : Station,
              inMask (word16At answer 5) k = (st.get k).isPending ∧
              inMask (word16At answer 7) k = decide (st.get k = .deferred)) ∧
            ShowsOutcome answer st
        | .done n dests st => byteAt answer 1 = 3 ∧ byteAt answer 2 = n ∧ word16At answer 3 = dests ∧
            word16At answer 5 = 0 ∧ word16At answer 7 = 0 ∧ ShowsOutcome answer st)))

/-- RELEASE NOTE SLOT: BAD_PARAMETER above 3, NOT_DONE for a slot that is FREE, QUEUED or SENDING, and a DONE slot becomes
FREE (R164). -/
def Obligations.ReleaseNoteSlotAnswers : Prop :=
  ∀ (s : State) (bytes ps : List Byte), Completes 0x33 1 bytes s.port ps →
    (3 < (byteAt ps 0).toNat →
      exec (.releaseNoteSlot bytes) s = .next { s with port := taken 0x33 ps [0x03] none s.port }) ∧
    (∀ i : Fin 4, (byteAt ps 0).toNat = i.val →
      (s.notes.slots.get i = .free ∨ (∃ n m p, s.notes.slots.get i = .queued n m p) ∨
          (∃ n m p c st, s.notes.slots.get i = .sending n m p c st) →
        exec (.releaseNoteSlot bytes) s = .next { s with port := taken 0x33 ps [0x11] none s.port }) ∧
      (∀ n m st, s.notes.slots.get i = .done n m st →
        exec (.releaseNoteSlot bytes) s = .next { s with
          notes := { s.notes with slots := s.notes.slots.set i.val .free }
          port := taken 0x33 ps [0x01] none s.port }))

/-! ## The laws that every step keeps -/

/-- The state right after reset obeys every law. -/
def Obligations.ResetStateIsSafe : Prop := Safe State.reset = true

/-- In HALTED and DISABLED nothing has started and not ended, and in HALTED the queue is empty; RUNNING and WAITING have
their segment and, for WAITING alone, a barrier context; and out of ACTIVE the axis is DISABLED or HALTED, whatever
step is taken (R33, R35, R36, R69, R87). -/
def Obligations.StepKeepsAxisLaws : Prop :=
  ∀ s t : State, axisLaw s = true → linkAxisLaw s = true → step s = .next t → axisLaw t = true ∧ linkAxisLaw t = true

/-- Held records and reservations never exceed 16 (R27), and the motion queue never holds more than 32 segments, with sequence
numbers that are consecutive and end just before the next one (R21, R22), whatever step is taken. -/
def Obligations.StepKeepsQueueLaws : Prop :=
  (∀ s t : State, completionLaw s = true → step s = .next t → completionLaw t = true) ∧
  (∀ s t : State, queueLaw s = true → step s = .next t → queueLaw t = true)

/-- No source emits more steps than have fallen due, or has more fall due than it holds, and a finishing segment owes
steps, whatever step is taken (R37 to R41). -/
def Obligations.StepKeepsSourceLaw : Prop :=
  ∀ s t : State, sourceLaw s = true → step s = .next t → sourceLaw t = true

/-- At most one outgoing slot is SENDING, the acceptance order names exactly the QUEUED slots, and the incoming queue holds
at most 8 notes, whatever step is taken (R152, R161). -/
def Obligations.StepKeepsNoteLaw : Prop :=
  ∀ s t : State, noteLaw s = true → step s = .next t → noteLaw t = true

/-- Entries at or above N are ABSENT, and the change map names peers below N alone, whatever step is taken (R138,
R147). -/
def Obligations.StepKeepsPeerLaw : Prop :=
  ∀ s t : State, peerLaw s = true → step s = .next t → peerLaw t = true

/-- The settings stay ones that CONFIGURE accepts, t stays in the range of its manner of counting, SYNC and LINE are driven
in JOINING and ACTIVE alone, no refusal outlasts its halt, and the DIR setup timer counts from no more than DIR_SETUP_US,
whatever step is taken (R2, R6, R9, R14, R44, R48, R130, R172). -/
def Obligations.StepKeepsTimerAndDriveLaws : Prop :=
  ∀ s t : State, settingsLaw s = true → timerLaw s = true → driveLaw s = true → refusalLaw s = true →
    setupLaw s = true → step s = .next t →
    settingsLaw t = true ∧ timerLaw t = true ∧ driveLaw t = true ∧ refusalLaw t = true ∧ setupLaw t = true
end

