-- ==== Sys2Proof/Laws/State.lean ====
section
/-! SUPPORT. One lemma per field per update of State, so that no proof unfolds a record update. -/

namespace Sys2Proof.Machine

variable (s : State)

/-! ### setConfig -/

@[simp] theorem State.setConfig_id (x : Option Settings) : (s.setConfig x).id = s.id := rfl
@[simp] theorem State.setConfig_config (x : Option Settings) : (s.setConfig x).config = x := rfl
@[simp] theorem State.setConfig_pins (x : Option Settings) : (s.setConfig x).pins = s.pins := rfl
@[simp] theorem State.setConfig_timer (x : Option Settings) : (s.setConfig x).timer = s.timer := rfl
@[simp] theorem State.setConfig_link (x : Option Settings) : (s.setConfig x).link = s.link := rfl
@[simp] theorem State.setConfig_peers (x : Option Settings) : (s.setConfig x).peers = s.peers := rfl
@[simp] theorem State.setConfig_seq (x : Option Settings) : (s.setConfig x).seq = s.seq := rfl
@[simp] theorem State.setConfig_gen (x : Option Settings) : (s.setConfig x).gen = s.gen := rfl
@[simp] theorem State.setConfig_barrier (x : Option Settings) : (s.setConfig x).barrier = s.barrier := rfl
@[simp] theorem State.setConfig_haltCtl (x : Option Settings) : (s.setConfig x).haltCtl = s.haltCtl := rfl
@[simp] theorem State.setConfig_held (x : Option Settings) : (s.setConfig x).held = s.held := rfl
@[simp] theorem State.setConfig_notes (x : Option Settings) : (s.setConfig x).notes = s.notes := rfl
@[simp] theorem State.setConfig_port (x : Option Settings) : (s.setConfig x).port = s.port := rfl
@[simp] theorem State.setConfig_pending (x : Option Settings) : (s.setConfig x).pending = s.pending := rfl

/-! ### setPins -/

@[simp] theorem State.setPins_id (x : PinLevels) : (s.setPins x).id = s.id := rfl
@[simp] theorem State.setPins_config (x : PinLevels) : (s.setPins x).config = s.config := rfl
@[simp] theorem State.setPins_pins (x : PinLevels) : (s.setPins x).pins = x := rfl
@[simp] theorem State.setPins_timer (x : PinLevels) : (s.setPins x).timer = s.timer := rfl
@[simp] theorem State.setPins_link (x : PinLevels) : (s.setPins x).link = s.link := rfl
@[simp] theorem State.setPins_peers (x : PinLevels) : (s.setPins x).peers = s.peers := rfl
@[simp] theorem State.setPins_seq (x : PinLevels) : (s.setPins x).seq = s.seq := rfl
@[simp] theorem State.setPins_gen (x : PinLevels) : (s.setPins x).gen = s.gen := rfl
@[simp] theorem State.setPins_barrier (x : PinLevels) : (s.setPins x).barrier = s.barrier := rfl
@[simp] theorem State.setPins_haltCtl (x : PinLevels) : (s.setPins x).haltCtl = s.haltCtl := rfl
@[simp] theorem State.setPins_held (x : PinLevels) : (s.setPins x).held = s.held := rfl
@[simp] theorem State.setPins_notes (x : PinLevels) : (s.setPins x).notes = s.notes := rfl
@[simp] theorem State.setPins_port (x : PinLevels) : (s.setPins x).port = s.port := rfl
@[simp] theorem State.setPins_pending (x : PinLevels) : (s.setPins x).pending = s.pending := rfl

/-! ### setTimer -/

@[simp] theorem State.setTimer_id (x : Timer) : (s.setTimer x).id = s.id := rfl
@[simp] theorem State.setTimer_config (x : Timer) : (s.setTimer x).config = s.config := rfl
@[simp] theorem State.setTimer_pins (x : Timer) : (s.setTimer x).pins = s.pins := rfl
@[simp] theorem State.setTimer_timer (x : Timer) : (s.setTimer x).timer = x := rfl
@[simp] theorem State.setTimer_link (x : Timer) : (s.setTimer x).link = s.link := rfl
@[simp] theorem State.setTimer_peers (x : Timer) : (s.setTimer x).peers = s.peers := rfl
@[simp] theorem State.setTimer_seq (x : Timer) : (s.setTimer x).seq = s.seq := rfl
@[simp] theorem State.setTimer_gen (x : Timer) : (s.setTimer x).gen = s.gen := rfl
@[simp] theorem State.setTimer_barrier (x : Timer) : (s.setTimer x).barrier = s.barrier := rfl
@[simp] theorem State.setTimer_haltCtl (x : Timer) : (s.setTimer x).haltCtl = s.haltCtl := rfl
@[simp] theorem State.setTimer_held (x : Timer) : (s.setTimer x).held = s.held := rfl
@[simp] theorem State.setTimer_notes (x : Timer) : (s.setTimer x).notes = s.notes := rfl
@[simp] theorem State.setTimer_port (x : Timer) : (s.setTimer x).port = s.port := rfl
@[simp] theorem State.setTimer_pending (x : Timer) : (s.setTimer x).pending = s.pending := rfl

/-! ### setLink -/

@[simp] theorem State.setLink_id (x : Link) : (s.setLink x).id = s.id := rfl
@[simp] theorem State.setLink_config (x : Link) : (s.setLink x).config = s.config := rfl
@[simp] theorem State.setLink_pins (x : Link) : (s.setLink x).pins = s.pins := rfl
@[simp] theorem State.setLink_timer (x : Link) : (s.setLink x).timer = s.timer := rfl
@[simp] theorem State.setLink_link (x : Link) : (s.setLink x).link = x := rfl
@[simp] theorem State.setLink_peers (x : Link) : (s.setLink x).peers = s.peers := rfl
@[simp] theorem State.setLink_seq (x : Link) : (s.setLink x).seq = s.seq := rfl
@[simp] theorem State.setLink_gen (x : Link) : (s.setLink x).gen = s.gen := rfl
@[simp] theorem State.setLink_barrier (x : Link) : (s.setLink x).barrier = s.barrier := rfl
@[simp] theorem State.setLink_haltCtl (x : Link) : (s.setLink x).haltCtl = s.haltCtl := rfl
@[simp] theorem State.setLink_held (x : Link) : (s.setLink x).held = s.held := rfl
@[simp] theorem State.setLink_notes (x : Link) : (s.setLink x).notes = s.notes := rfl
@[simp] theorem State.setLink_port (x : Link) : (s.setLink x).port = s.port := rfl
@[simp] theorem State.setLink_pending (x : Link) : (s.setLink x).pending = s.pending := rfl

/-! ### setPeers -/

@[simp] theorem State.setPeers_id (x : PeerTable) : (s.setPeers x).id = s.id := rfl
@[simp] theorem State.setPeers_config (x : PeerTable) : (s.setPeers x).config = s.config := rfl
@[simp] theorem State.setPeers_pins (x : PeerTable) : (s.setPeers x).pins = s.pins := rfl
@[simp] theorem State.setPeers_timer (x : PeerTable) : (s.setPeers x).timer = s.timer := rfl
@[simp] theorem State.setPeers_link (x : PeerTable) : (s.setPeers x).link = s.link := rfl
@[simp] theorem State.setPeers_peers (x : PeerTable) : (s.setPeers x).peers = x := rfl
@[simp] theorem State.setPeers_seq (x : PeerTable) : (s.setPeers x).seq = s.seq := rfl
@[simp] theorem State.setPeers_gen (x : PeerTable) : (s.setPeers x).gen = s.gen := rfl
@[simp] theorem State.setPeers_barrier (x : PeerTable) : (s.setPeers x).barrier = s.barrier := rfl
@[simp] theorem State.setPeers_haltCtl (x : PeerTable) : (s.setPeers x).haltCtl = s.haltCtl := rfl
@[simp] theorem State.setPeers_held (x : PeerTable) : (s.setPeers x).held = s.held := rfl
@[simp] theorem State.setPeers_notes (x : PeerTable) : (s.setPeers x).notes = s.notes := rfl
@[simp] theorem State.setPeers_port (x : PeerTable) : (s.setPeers x).port = s.port := rfl
@[simp] theorem State.setPeers_pending (x : PeerTable) : (s.setPeers x).pending = s.pending := rfl

/-! ### setSeq -/

@[simp] theorem State.setSeq_id (x : Sequencer) : (s.setSeq x).id = s.id := rfl
@[simp] theorem State.setSeq_config (x : Sequencer) : (s.setSeq x).config = s.config := rfl
@[simp] theorem State.setSeq_pins (x : Sequencer) : (s.setSeq x).pins = s.pins := rfl
@[simp] theorem State.setSeq_timer (x : Sequencer) : (s.setSeq x).timer = s.timer := rfl
@[simp] theorem State.setSeq_link (x : Sequencer) : (s.setSeq x).link = s.link := rfl
@[simp] theorem State.setSeq_peers (x : Sequencer) : (s.setSeq x).peers = s.peers := rfl
@[simp] theorem State.setSeq_seq (x : Sequencer) : (s.setSeq x).seq = x := rfl
@[simp] theorem State.setSeq_gen (x : Sequencer) : (s.setSeq x).gen = s.gen := rfl
@[simp] theorem State.setSeq_barrier (x : Sequencer) : (s.setSeq x).barrier = s.barrier := rfl
@[simp] theorem State.setSeq_haltCtl (x : Sequencer) : (s.setSeq x).haltCtl = s.haltCtl := rfl
@[simp] theorem State.setSeq_held (x : Sequencer) : (s.setSeq x).held = s.held := rfl
@[simp] theorem State.setSeq_notes (x : Sequencer) : (s.setSeq x).notes = s.notes := rfl
@[simp] theorem State.setSeq_port (x : Sequencer) : (s.setSeq x).port = s.port := rfl
@[simp] theorem State.setSeq_pending (x : Sequencer) : (s.setSeq x).pending = s.pending := rfl

/-! ### setGen -/

@[simp] theorem State.setGen_id (x : StepGen) : (s.setGen x).id = s.id := rfl
@[simp] theorem State.setGen_config (x : StepGen) : (s.setGen x).config = s.config := rfl
@[simp] theorem State.setGen_pins (x : StepGen) : (s.setGen x).pins = s.pins := rfl
@[simp] theorem State.setGen_timer (x : StepGen) : (s.setGen x).timer = s.timer := rfl
@[simp] theorem State.setGen_link (x : StepGen) : (s.setGen x).link = s.link := rfl
@[simp] theorem State.setGen_peers (x : StepGen) : (s.setGen x).peers = s.peers := rfl
@[simp] theorem State.setGen_seq (x : StepGen) : (s.setGen x).seq = s.seq := rfl
@[simp] theorem State.setGen_gen (x : StepGen) : (s.setGen x).gen = x := rfl
@[simp] theorem State.setGen_barrier (x : StepGen) : (s.setGen x).barrier = s.barrier := rfl
@[simp] theorem State.setGen_haltCtl (x : StepGen) : (s.setGen x).haltCtl = s.haltCtl := rfl
@[simp] theorem State.setGen_held (x : StepGen) : (s.setGen x).held = s.held := rfl
@[simp] theorem State.setGen_notes (x : StepGen) : (s.setGen x).notes = s.notes := rfl
@[simp] theorem State.setGen_port (x : StepGen) : (s.setGen x).port = s.port := rfl
@[simp] theorem State.setGen_pending (x : StepGen) : (s.setGen x).pending = s.pending := rfl

/-! ### setBarrier -/

@[simp] theorem State.setBarrier_id (x : BarrierUnit) : (s.setBarrier x).id = s.id := rfl
@[simp] theorem State.setBarrier_config (x : BarrierUnit) : (s.setBarrier x).config = s.config := rfl
@[simp] theorem State.setBarrier_pins (x : BarrierUnit) : (s.setBarrier x).pins = s.pins := rfl
@[simp] theorem State.setBarrier_timer (x : BarrierUnit) : (s.setBarrier x).timer = s.timer := rfl
@[simp] theorem State.setBarrier_link (x : BarrierUnit) : (s.setBarrier x).link = s.link := rfl
@[simp] theorem State.setBarrier_peers (x : BarrierUnit) : (s.setBarrier x).peers = s.peers := rfl
@[simp] theorem State.setBarrier_seq (x : BarrierUnit) : (s.setBarrier x).seq = s.seq := rfl
@[simp] theorem State.setBarrier_gen (x : BarrierUnit) : (s.setBarrier x).gen = s.gen := rfl
@[simp] theorem State.setBarrier_barrier (x : BarrierUnit) : (s.setBarrier x).barrier = x := rfl
@[simp] theorem State.setBarrier_haltCtl (x : BarrierUnit) : (s.setBarrier x).haltCtl = s.haltCtl := rfl
@[simp] theorem State.setBarrier_held (x : BarrierUnit) : (s.setBarrier x).held = s.held := rfl
@[simp] theorem State.setBarrier_notes (x : BarrierUnit) : (s.setBarrier x).notes = s.notes := rfl
@[simp] theorem State.setBarrier_port (x : BarrierUnit) : (s.setBarrier x).port = s.port := rfl
@[simp] theorem State.setBarrier_pending (x : BarrierUnit) : (s.setBarrier x).pending = s.pending := rfl

/-! ### setHaltCtl -/

@[simp] theorem State.setHaltCtl_id (x : HaltCtl) : (s.setHaltCtl x).id = s.id := rfl
@[simp] theorem State.setHaltCtl_config (x : HaltCtl) : (s.setHaltCtl x).config = s.config := rfl
@[simp] theorem State.setHaltCtl_pins (x : HaltCtl) : (s.setHaltCtl x).pins = s.pins := rfl
@[simp] theorem State.setHaltCtl_timer (x : HaltCtl) : (s.setHaltCtl x).timer = s.timer := rfl
@[simp] theorem State.setHaltCtl_link (x : HaltCtl) : (s.setHaltCtl x).link = s.link := rfl
@[simp] theorem State.setHaltCtl_peers (x : HaltCtl) : (s.setHaltCtl x).peers = s.peers := rfl
@[simp] theorem State.setHaltCtl_seq (x : HaltCtl) : (s.setHaltCtl x).seq = s.seq := rfl
@[simp] theorem State.setHaltCtl_gen (x : HaltCtl) : (s.setHaltCtl x).gen = s.gen := rfl
@[simp] theorem State.setHaltCtl_barrier (x : HaltCtl) : (s.setHaltCtl x).barrier = s.barrier := rfl
@[simp] theorem State.setHaltCtl_haltCtl (x : HaltCtl) : (s.setHaltCtl x).haltCtl = x := rfl
@[simp] theorem State.setHaltCtl_held (x : HaltCtl) : (s.setHaltCtl x).held = s.held := rfl
@[simp] theorem State.setHaltCtl_notes (x : HaltCtl) : (s.setHaltCtl x).notes = s.notes := rfl
@[simp] theorem State.setHaltCtl_port (x : HaltCtl) : (s.setHaltCtl x).port = s.port := rfl
@[simp] theorem State.setHaltCtl_pending (x : HaltCtl) : (s.setHaltCtl x).pending = s.pending := rfl

/-! ### setHeld -/

@[simp] theorem State.setHeld_id (x : List Record) : (s.setHeld x).id = s.id := rfl
@[simp] theorem State.setHeld_config (x : List Record) : (s.setHeld x).config = s.config := rfl
@[simp] theorem State.setHeld_pins (x : List Record) : (s.setHeld x).pins = s.pins := rfl
@[simp] theorem State.setHeld_timer (x : List Record) : (s.setHeld x).timer = s.timer := rfl
@[simp] theorem State.setHeld_link (x : List Record) : (s.setHeld x).link = s.link := rfl
@[simp] theorem State.setHeld_peers (x : List Record) : (s.setHeld x).peers = s.peers := rfl
@[simp] theorem State.setHeld_seq (x : List Record) : (s.setHeld x).seq = s.seq := rfl
@[simp] theorem State.setHeld_gen (x : List Record) : (s.setHeld x).gen = s.gen := rfl
@[simp] theorem State.setHeld_barrier (x : List Record) : (s.setHeld x).barrier = s.barrier := rfl
@[simp] theorem State.setHeld_haltCtl (x : List Record) : (s.setHeld x).haltCtl = s.haltCtl := rfl
@[simp] theorem State.setHeld_held (x : List Record) : (s.setHeld x).held = x := rfl
@[simp] theorem State.setHeld_notes (x : List Record) : (s.setHeld x).notes = s.notes := rfl
@[simp] theorem State.setHeld_port (x : List Record) : (s.setHeld x).port = s.port := rfl
@[simp] theorem State.setHeld_pending (x : List Record) : (s.setHeld x).pending = s.pending := rfl

/-! ### setNotes -/

@[simp] theorem State.setNotes_id (x : NoteUnit) : (s.setNotes x).id = s.id := rfl
@[simp] theorem State.setNotes_config (x : NoteUnit) : (s.setNotes x).config = s.config := rfl
@[simp] theorem State.setNotes_pins (x : NoteUnit) : (s.setNotes x).pins = s.pins := rfl
@[simp] theorem State.setNotes_timer (x : NoteUnit) : (s.setNotes x).timer = s.timer := rfl
@[simp] theorem State.setNotes_link (x : NoteUnit) : (s.setNotes x).link = s.link := rfl
@[simp] theorem State.setNotes_peers (x : NoteUnit) : (s.setNotes x).peers = s.peers := rfl
@[simp] theorem State.setNotes_seq (x : NoteUnit) : (s.setNotes x).seq = s.seq := rfl
@[simp] theorem State.setNotes_gen (x : NoteUnit) : (s.setNotes x).gen = s.gen := rfl
@[simp] theorem State.setNotes_barrier (x : NoteUnit) : (s.setNotes x).barrier = s.barrier := rfl
@[simp] theorem State.setNotes_haltCtl (x : NoteUnit) : (s.setNotes x).haltCtl = s.haltCtl := rfl
@[simp] theorem State.setNotes_held (x : NoteUnit) : (s.setNotes x).held = s.held := rfl
@[simp] theorem State.setNotes_notes (x : NoteUnit) : (s.setNotes x).notes = x := rfl
@[simp] theorem State.setNotes_port (x : NoteUnit) : (s.setNotes x).port = s.port := rfl
@[simp] theorem State.setNotes_pending (x : NoteUnit) : (s.setNotes x).pending = s.pending := rfl

/-! ### setPort -/

@[simp] theorem State.setPort_id (x : HostPort) : (s.setPort x).id = s.id := rfl
@[simp] theorem State.setPort_config (x : HostPort) : (s.setPort x).config = s.config := rfl
@[simp] theorem State.setPort_pins (x : HostPort) : (s.setPort x).pins = s.pins := rfl
@[simp] theorem State.setPort_timer (x : HostPort) : (s.setPort x).timer = s.timer := rfl
@[simp] theorem State.setPort_link (x : HostPort) : (s.setPort x).link = s.link := rfl
@[simp] theorem State.setPort_peers (x : HostPort) : (s.setPort x).peers = s.peers := rfl
@[simp] theorem State.setPort_seq (x : HostPort) : (s.setPort x).seq = s.seq := rfl
@[simp] theorem State.setPort_gen (x : HostPort) : (s.setPort x).gen = s.gen := rfl
@[simp] theorem State.setPort_barrier (x : HostPort) : (s.setPort x).barrier = s.barrier := rfl
@[simp] theorem State.setPort_haltCtl (x : HostPort) : (s.setPort x).haltCtl = s.haltCtl := rfl
@[simp] theorem State.setPort_held (x : HostPort) : (s.setPort x).held = s.held := rfl
@[simp] theorem State.setPort_notes (x : HostPort) : (s.setPort x).notes = s.notes := rfl
@[simp] theorem State.setPort_port (x : HostPort) : (s.setPort x).port = x := rfl
@[simp] theorem State.setPort_pending (x : HostPort) : (s.setPort x).pending = s.pending := rfl

/-! ### setPending -/

@[simp] theorem State.setPending_id (x : List Instr) : (s.setPending x).id = s.id := rfl
@[simp] theorem State.setPending_config (x : List Instr) : (s.setPending x).config = s.config := rfl
@[simp] theorem State.setPending_pins (x : List Instr) : (s.setPending x).pins = s.pins := rfl
@[simp] theorem State.setPending_timer (x : List Instr) : (s.setPending x).timer = s.timer := rfl
@[simp] theorem State.setPending_link (x : List Instr) : (s.setPending x).link = s.link := rfl
@[simp] theorem State.setPending_peers (x : List Instr) : (s.setPending x).peers = s.peers := rfl
@[simp] theorem State.setPending_seq (x : List Instr) : (s.setPending x).seq = s.seq := rfl
@[simp] theorem State.setPending_gen (x : List Instr) : (s.setPending x).gen = s.gen := rfl
@[simp] theorem State.setPending_barrier (x : List Instr) : (s.setPending x).barrier = s.barrier := rfl
@[simp] theorem State.setPending_haltCtl (x : List Instr) : (s.setPending x).haltCtl = s.haltCtl := rfl
@[simp] theorem State.setPending_held (x : List Instr) : (s.setPending x).held = s.held := rfl
@[simp] theorem State.setPending_notes (x : List Instr) : (s.setPending x).notes = s.notes := rfl
@[simp] theorem State.setPending_port (x : List Instr) : (s.setPending x).port = s.port := rfl
@[simp] theorem State.setPending_pending (x : List Instr) : (s.setPending x).pending = x := rfl

end Sys2Proof.Machine
end

