-- ==== Sys2Proof/Laws/Frames.lean ====
section
/-! SUPPORT. What the shared operations leave alone: the station's number, settings, pins and waiting commands, and for
all but the link's own operations the Cycle Timer and the Link Interface too. -/

namespace Sys2Proof.Machine

/-- The station number, the settings, the pins and the waiting commands are the same. -/
structure SameStation (s t : State) : Prop where
  id : t.id = s.id
  config : t.config = s.config
  pins : t.pins = s.pins
  pending : t.pending = s.pending

/-- The Cycle Timer and the Link Interface are the same too. -/
structure SameClock (s t : State) : Prop where
  station : SameStation s t
  timer : t.timer = s.timer
  link : t.link = s.link

theorem SameStation.refl (s : State) : SameStation s s := ⟨rfl, rfl, rfl, rfl⟩

theorem SameStation.trans {s t u : State} (h : SameStation s t) (k : SameStation t u) : SameStation s u :=
  ⟨k.id.trans h.id, k.config.trans h.config, k.pins.trans h.pins, k.pending.trans h.pending⟩

theorem SameClock.refl (s : State) : SameClock s s := ⟨SameStation.refl s, rfl, rfl⟩

theorem SameClock.trans {s t u : State} (h : SameClock s t) (k : SameClock t u) : SameClock s u :=
  ⟨h.station.trans k.station, k.timer.trans h.timer, k.link.trans h.link⟩

/-- A fold of operations that each keep the clock keeps it. -/
theorem SameClock.foldl {α : Type} (f : State → α → State) (hf : ∀ s a, SameClock s (f s a)) (l : List α) (s : State) :
    SameClock s (l.foldl f s) := by
  induction l generalizing s with
  | nil => exact SameClock.refl s
  | cons a l ih => exact (hf s a).trans (ih _)

/-! ## Field updates -/

theorem setPeers_clock (s : State) (x : PeerTable) : SameClock s (s.setPeers x) := ⟨⟨rfl, rfl, rfl, rfl⟩, rfl, rfl⟩
theorem setSeq_clock (s : State) (x : Sequencer) : SameClock s (s.setSeq x) := ⟨⟨rfl, rfl, rfl, rfl⟩, rfl, rfl⟩
theorem setGen_clock (s : State) (x : StepGen) : SameClock s (s.setGen x) := ⟨⟨rfl, rfl, rfl, rfl⟩, rfl, rfl⟩
theorem setBarrier_clock (s : State) (x : BarrierUnit) : SameClock s (s.setBarrier x) := ⟨⟨rfl, rfl, rfl, rfl⟩, rfl, rfl⟩
theorem setHaltCtl_clock (s : State) (x : HaltCtl) : SameClock s (s.setHaltCtl x) := ⟨⟨rfl, rfl, rfl, rfl⟩, rfl, rfl⟩
theorem setHeld_clock (s : State) (x : List Record) : SameClock s (s.setHeld x) := ⟨⟨rfl, rfl, rfl, rfl⟩, rfl, rfl⟩
theorem setNotes_clock (s : State) (x : NoteUnit) : SameClock s (s.setNotes x) := ⟨⟨rfl, rfl, rfl, rfl⟩, rfl, rfl⟩
theorem setPort_clock (s : State) (x : HostPort) : SameClock s (s.setPort x) := ⟨⟨rfl, rfl, rfl, rfl⟩, rfl, rfl⟩
theorem setTimer_station (s : State) (x : Timer) : SameStation s (s.setTimer x) := ⟨rfl, rfl, rfl, rfl⟩
theorem setLink_station (s : State) (x : Link) : SameStation s (s.setLink x) := ⟨rfl, rfl, rfl, rfl⟩

/-! ## Latches, records, halts -/

theorem latchLink_clock (s : State) : SameClock s (latchLink s) := setPort_clock s _

theorem setChange_clock (k : Station) (s : State) : SameClock s (setChange k s) :=
  (setPeers_clock s _).trans (setPort_clock _ _)

theorem setEntry_clock (k : Station) (e : PeerEntry) (s : State) : SameClock s (setEntry k e s) := setPeers_clock s _

theorem joinRecords_clock (s : State) : SameClock s (joinRecords s) := (setHeld_clock s _).trans (setSeq_clock _ _)

theorem writeExecRecord_clock (r : Record) (s : State) : SameClock s (writeExecRecord r s) :=
  (setSeq_clock s _).trans (joinRecords_clock _)

theorem writeFinishingRecord_clock (r : Record) (s : State) : SameClock s (writeFinishingRecord r s) :=
  (setSeq_clock s _).trans (joinRecords_clock _)

theorem setLatch_clock (s : State) : SameClock s (setLatch s) := setHaltCtl_clock s _

theorem haltTaken_clock (c : Cause) (s : State) : SameClock s (haltTaken c s) :=
  (((((setSeq_clock s _).trans (setGen_clock _ _)).trans (setBarrier_clock _ _)).trans (setHaltCtl_clock _ _)).trans
    (setPort_clock _ _)).trans (joinRecords_clock _)

theorem takeCause_clock (c : Cause) (s : State) : SameClock s (takeCause c s) := by
  unfold takeCause
  split
  · exact haltTaken_clock c s
  · exact haltTaken_clock c s
  · exact haltTaken_clock c s
  · split
    · exact setLatch_clock s
    · exact SameClock.refl s
  · split
    · exact setLatch_clock s
    · exact SameClock.refl s

theorem takeRaised_clock (c : Option Cause) (s : State) : SameClock s (takeRaised c s) := by
  cases c
  · exact SameClock.refl s
  · exact takeCause_clock _ s

theorem enterListen_station (s : State) : SameStation s (enterListen s) := ⟨rfl, rfl, rfl, rfl⟩

/-! ## Barriers -/

theorem setCtx_clock (x : BarrierCtx) (s : State) : SameClock s (setCtx x s) := setBarrier_clock s _

theorem failBarrier_clock (code : Code) (s : State) : SameClock s (failBarrier code s) := by
  unfold failBarrier
  split
  · exact SameClock.refl s
  · exact (setBarrier_clock s _).trans (takeCause_clock _ _)

theorem barrierFrame_clock (m : Station) (v : PeerView) (s : State) : SameClock s (barrierFrame m v s) := by
  unfold barrierFrame
  split
  · exact SameClock.refl s
  · split
    · exact SameClock.refl s
    · split
      · exact failBarrier_clock _ s
      · exact setCtx_clock _ s
      · exact (setCtx_clock _ s).trans (failBarrier_clock _ _)

theorem barrierMemberLost_clock (m : Station) (s : State) : SameClock s (barrierMemberLost m s) := by
  unfold barrierMemberLost
  split
  · exact SameClock.refl s
  · split
    · exact SameClock.refl s
    · exact failBarrier_clock _ s

theorem fillFrom_clock (s : State) (m : Station) : SameClock s (fillFrom s m) := by
  unfold fillFrom
  split
  · exact SameClock.refl s
  · split
    · exact SameClock.refl s
    · split
      · exact failBarrier_clock _ s
      · exact failBarrier_clock _ s
      · exact SameClock.refl s
      · exact barrierFrame_clock _ _ s
      · exact barrierFrame_clock _ _ s

theorem completeAtCreation_clock (s : State) : SameClock s (completeAtCreation s) := by
  unfold completeAtCreation
  split
  · exact SameClock.refl s
  · split
    · exact SameClock.refl s
    · exact setCtx_clock _ s

theorem createBarrier_clock (seq : SeqNo) (tag : Byte) (mask : Mask) (timeout : Nat) (s : State) :
    SameClock s (createBarrier seq tag mask timeout s) :=
  ((setCtx_clock _ s).trans (SameClock.foldl _ fillFrom_clock _ _)).trans (completeAtCreation_clock _)

theorem barrierDeadline_clock (s : State) : SameClock s (barrierDeadline s) := by
  unfold barrierDeadline
  split
  · exact SameClock.refl s
  · split
    · exact failBarrier_clock _ s
    · exact SameClock.refl s

/-! ## Motion -/

theorem setAxis_clock (a : AxisState) (s : State) : SameClock s (setAxis a s) := setSeq_clock s _

theorem setExecSource_clock (e : Executing) (src : Source) (s : State) : SameClock s (setExecSource e src s) :=
  setSeq_clock s _

theorem endUntimed_clock (e : Executing) (code : Code) (part : RecordPart) (s : State) :
    SameClock s (endUntimed e code part s) := by
  unfold endUntimed
  simp only []
  split
  · exact ((writeExecRecord_clock _ s).trans (setAxis_clock _ _)).trans (takeCause_clock _ _)
  · exact (writeExecRecord_clock _ s).trans (setAxis_clock _ _)

theorem endHomed_clock (e : Executing) (v : Position) (s : State) : SameClock s (endHomed e v s) :=
  (setGen_clock s _).trans (endUntimed_clock _ _ _ _)

theorem endHomeFailed_clock (e : Executing) (s : State) : SameClock s (endHomeFailed e s) :=
  (setGen_clock s _).trans (endUntimed_clock _ _ _ _)

theorem examineFirst_clock (e : Executing) (u : UntimedSource) (s : State) : SameClock s (examineFirst e u s) := by
  unfold examineFirst
  split
  · split
    · exact endHomed_clock _ _ s
    · exact setExecSource_clock _ _ s
  · split
    · exact endUntimed_clock _ _ _ s
    · exact setExecSource_clock _ _ s

theorem firstExamination_clock (s : State) : SameClock s (firstExamination s) := by
  unfold firstExamination
  split
  · exact SameClock.refl s
  · split
    · split
      · exact examineFirst_clock _ _ s
      · exact SameClock.refl s
    · exact SameClock.refl s

theorem startWith_clock (seg : Segment) (axis : AxisState) (src : Source) (rest : List Segment) (s : State) :
    SameClock s (startWith seg axis src rest s) := setSeq_clock s _

theorem failStart_clock (seg : Segment) (code : Code) (rest : List Segment) (s : State) :
    SameClock s (failStart seg code rest s) := (startWith_clock _ _ _ _ s).trans (takeCause_clock _ _)

theorem startSegment_clock (seg : Segment) (rest : List Segment) (s : State) :
    SameClock s (startSegment seg rest s) := by
  unfold startSegment
  split
  · split
    · exact startWith_clock _ _ _ _ s
    · exact failStart_clock _ _ _ s
  · split
    · exact failStart_clock _ _ _ s
    · exact startWith_clock _ _ _ _ s
  · exact startWith_clock _ _ _ _ s
  · exact startWith_clock _ _ _ _ s
  · exact (startWith_clock _ _ _ _ s).trans (createBarrier_clock _ _ _ _ _)

theorem startAtBoundary_clock (ended : Bool) (s : State) : SameClock s (startAtBoundary ended s) := by
  unfold startAtBoundary
  split
  · split
    · exact setAxis_clock _ s
    · split
      · exact takeCause_clock _ s
      · exact startSegment_clock _ _ s
  · exact SameClock.refl s

theorem joinSkipped_clock (skipped : Nat) (s : State) : SameClock s (joinSkipped skipped s) := by
  unfold joinSkipped
  split
  · exact SameClock.refl s
  · split
    · exact setExecSource_clock _ _ s
    · exact SameClock.refl s

theorem endTimed_clock (e : Executing) (src : TimedSource) (s : State) : SameClock s (endTimed e src s) := by
  unfold endTimed
  split
  · exact writeExecRecord_clock _ s
  · exact setSeq_clock s _

theorem releaseBarrier_clock (e : Executing) (x : BarrierCtx) (r : Release) (s : State) :
    SameClock s (releaseBarrier e x r s) := (setBarrier_clock s _).trans (writeExecRecord_clock _ _)

theorem sequencerBoundary_clock (late : Bool) (s : State) : SameClock s (sequencerBoundary late s).1 := by
  unfold sequencerBoundary
  split
  · exact startAtBoundary_clock _ s
  · split
    · split
      · exact (endTimed_clock _ _ s).trans (startAtBoundary_clock _ _)
      · exact startAtBoundary_clock _ s
    · exact startAtBoundary_clock _ s
    · split
      · exact startAtBoundary_clock _ s
      · simp only []
        split
        · exact ((releaseBarrier_clock _ _ _ s).trans (takeRaised_clock _ _)).trans (startAtBoundary_clock _ _)
        · exact (releaseBarrier_clock _ _ _ s).trans (startAtBoundary_clock _ _)

theorem motionBoundary_clock (late : Bool) (skipped : Nat) (s : State) :
    SameClock s (motionBoundary late skipped s).1 :=
  (joinSkipped_clock skipped s).trans (sequencerBoundary_clock late _)

theorem beginPulse_clock (s : State) : SameClock s (beginPulse s) := setGen_clock s _

theorem refuseStep_clock (seq : SeqNo) (code : Code) (who : Faulted) (s : State) :
    SameClock s (refuseStep seq code who s) := (setGen_clock s _).trans (takeCause_clock _ _)

theorem countFinishingStep_clock (f : Finishing) (s : State) : SameClock s (countFinishingStep f s) := by
  unfold countFinishingStep
  simp only []
  split
  · exact ((setSeq_clock s _).trans (writeFinishingRecord_clock _ _)).trans (firstExamination_clock _)
  · exact setSeq_clock s _

theorem countExecStep_clock (s : State) : SameClock s (countExecStep s) := by
  unfold countExecStep
  split
  · exact SameClock.refl s
  · split
    · exact SameClock.refl s
    · exact setExecSource_clock _ _ s
    · exact setExecSource_clock _ _ s

theorem stepExecuting_clock (e : Executing) (s : State) : SameClock s (stepExecuting e s) := by
  unfold stepExecuting
  split
  · exact refuseStep_clock _ _ _ s
  · exact (beginPulse_clock s).trans (countExecStep_clock _)

theorem stepFinishing_clock (f : Finishing) (s : State) : SameClock s (stepFinishing f s) := by
  unfold stepFinishing
  split
  · exact refuseStep_clock _ _ _ s
  · exact (beginPulse_clock s).trans (countFinishingStep_clock _ _)

theorem takeStep_clock (s : State) : SameClock s (takeStep s) := by
  unfold takeStep
  split
  · exact stepFinishing_clock _ s
  · split
    · exact SameClock.refl s
    · split
      · split
        · exact endHomed_clock _ _ s
        · exact stepExecuting_clock _ s
      · exact stepExecuting_clock _ s

/-! ## Events of the Step Generator, inputs -/

theorem fallDue_clock (s : State) : SameClock s (fallDue s) := by
  unfold fallDue
  split
  · exact SameClock.refl s
  · split
    · exact setExecSource_clock _ _ s
    · exact SameClock.refl s

theorem fallDueUntimed_clock (s : State) : SameClock s (fallDueUntimed s) := by
  unfold fallDueUntimed
  split
  · exact SameClock.refl s
  · split
    · exact setExecSource_clock _ _ s
    · exact SameClock.refl s

theorem closeSegment_clock (s : State) : SameClock s (closeSegment s) := by
  unfold closeSegment
  split
  · exact SameClock.refl s
  · split
    · split
      · split
        · exact endHomed_clock _ _ s
        · exact endHomeFailed_clock _ s
      · exact endUntimed_clock _ _ _ s
    · exact SameClock.refl s

theorem changeDir_clock (s : State) : SameClock s (changeDir s) := setGen_clock s _

theorem flipInput_clock (i : AxisInput) (s : State) : SameClock s (flipInput i s) := setGen_clock s _

theorem flipStop_clock (s : State) : SameClock s (flipStop s) := setHaltCtl_clock s _

theorem probeChanged_clock (s : State) : SameClock s (probeChanged s) := by
  unfold probeChanged
  split
  · exact SameClock.refl s
  · split
    · split
      · unfold watchProbe
        split
        · exact endUntimed_clock _ _ _ s
        · exact setExecSource_clock _ _ s
      · exact SameClock.refl s
    · exact SameClock.refl s

theorem changeLevel_clock (i : AxisInput) (s : State) : SameClock s (changeLevel i s) := by
  cases i
  · exact flipInput_clock .home s
  · exact (flipInput_clock .probe s).trans (probeChanged_clock _)
  · exact flipInput_clock .limp s
  · exact flipInput_clock .limn s

/-! ## Notes -/

theorem setSlot_clock (i : Fin 4) (x : NoteSlot) (s : State) : SameClock s (setSlot i x s) := setNotes_clock s _

theorem updateEntry_clock (k : Station) (f : PeerEntry → PeerEntry) (s : State) : SameClock s (updateEntry k f s) :=
  setEntry_clock k _ s

theorem putSending_clock (n : SendingNote) (st : Vector Standing 16) (s : State) : SameClock s (putSending n st s) :=
  setSlot_clock _ _ s

/-- A fold that settles one destination after another keeps the clock of its state. -/
theorem settling_clock (f : Settling → Station → Settling) (hf : ∀ x d, SameClock x.2 (f x d).2) (l : List Station)
    (x : Settling) : SameClock x.2 (l.foldl f x).2 := by
  induction l generalizing x with
  | nil => exact SameClock.refl _
  | cons d l ih => exact (hf x d).trans (ih _)

theorem failGone_clock (x : Settling) (d : Station) : SameClock x.2 (failGone x d).2 := by
  unfold failGone
  split
  · simp only []
    split
    · exact updateEntry_clock _ _ _
    · exact SameClock.refl _
  · exact SameClock.refl _

theorem failNoAck_clock (x : Settling) (d : Station) : SameClock x.2 (failNoAck x d).2 := by
  unfold failNoAck
  split
  · exact updateEntry_clock _ _ _
  · exact SameClock.refl _

theorem settleDest_clock (dests : Mask) (x : Settling) (d : Station) : SameClock x.2 (settleDest dests x d).2 := by
  unfold settleDest
  split
  · split
    · exact SameClock.refl _
    · split
      · exact SameClock.refl _
      · dsimp only; exact updateEntry_clock d _ x.2
  · exact SameClock.refl _

theorem noteFailures_clock (s : State) : SameClock s (noteFailures s) := by
  unfold noteFailures
  split
  · exact SameClock.refl s
  · rename_i n _
    simp only []
    refine SameClock.trans ?_ (putSending_clock _ _ _)
    have h := settling_clock failGone failGone_clock stations (n.standing, s)
    split
    · exact h.trans (settling_clock failNoAck failNoAck_clock stations _)
    · exact h

theorem startNote_clock (i : Fin 4) (s : State) : SameClock s (startNote i s) := by
  unfold startNote
  split
  · rename_i number dests payload _
    exact (settling_clock _ (settleDest_clock dests) stations (Vector.replicate 16 .no, s)).trans (putSending_clock _ _ _)
  · exact SameClock.refl s

theorem setOrder_clock (order : List (Fin 4)) (s : State) : SameClock s (setOrder order s) := setNotes_clock s _

theorem startNotes_clock (l : List (Fin 4)) (s : State) : SameClock s (startNotes l s) := by
  induction l generalizing s with
  | nil => exact SameClock.refl s
  | cons i rest ih =>
    unfold startNotes
    simp only []
    have h := (setOrder_clock rest s).trans (startNote_clock i _)
    split
    · exact h
    · exact h.trans (ih _)

theorem noteBoundary_clock (s : State) : SameClock s (noteBoundary s) := by
  unfold noteBoundary
  simp only []
  split
  · exact (noteFailures_clock s).trans (startNotes_clock _ _)
  · exact noteFailures_clock s

theorem noteShown_clock (s : State) : SameClock s (noteShown s) := by
  unfold noteShown
  split
  · exact SameClock.refl s
  · simp only []
    have h : SameClock s (stations.foldl showResync s) := SameClock.foldl _ (fun s d => updateEntry_clock d _ s) _ s
    split
    · exact h
    · exact h.trans (setSlot_clock _ _ _)

theorem senderSteps_clock (d : Station) (f : Frame) (own : Station) (x : Settling) :
    SameClock x.2 (senderSteps d f own x).2 := by
  have h1 : SameClock x.2 (senderJoin d f.view.join x).2 := by
    unfold senderJoin
    split
    · dsimp only; exact updateEntry_clock d _ x.2
    · exact SameClock.refl _
  have h2 : ∀ (b : Bool) (y : Settling), SameClock y.2 (senderDelivery d b y).2 := by
    intro b y
    unfold senderDelivery
    split
    · split
      · exact SameClock.refl _
      · exact SameClock.refl _
    · exact SameClock.refl _
  have h3 : ∀ (b : Bool) (y : Settling), SameClock y.2 (senderResync d b y).2 := by
    intro b y
    unfold senderResync
    simp only []
    split
    · split
      · dsimp only; exact updateEntry_clock d _ y.2
      · dsimp only; exact updateEntry_clock d _ y.2
    · exact SameClock.refl _
  exact h1.trans ((h2 _ _).trans (h3 _ _))

theorem noteSenderFrame_clock (d : Station) (f : Frame) (s : State) : SameClock s (noteSenderFrame d f s) := by
  unfold noteSenderFrame
  split
  · exact senderSteps_clock d f s.id (_, s)
  · rename_i n _
    exact (senderSteps_clock d f s.id (n.standing, s)).trans (putSending_clock _ _ _)

theorem receiveNote_clock (k : Station) (n : FrameNote) (t : Bool) (s : State) : SameClock s (receiveNote k n t s) := by
  unfold receiveNote
  split
  · exact updateEntry_clock _ _ s
  · split
    · exact (setNotes_clock s _).trans (updateEntry_clock _ _ _)
    · exact updateEntry_clock _ _ s

theorem noteReceiverFrame_clock (k : Station) (f : Frame) (s : State) : SameClock s (noteReceiverFrame k f s) := by
  unfold noteReceiverFrame
  simp only []
  split
  · exact (updateEntry_clock _ _ s).trans (updateEntry_clock _ _ _)
  · split
    · exact (updateEntry_clock _ _ s).trans (updateEntry_clock _ _ _)
    · exact (updateEntry_clock _ _ s).trans (receiveNote_clock _ _ _ _)

theorem notesAtListen_clock (s : State) : SameClock s (notesAtListen s) := by
  unfold notesAtListen
  simp only []
  have h : SameClock s (stations.foldl clearNoteBits s) := SameClock.foldl _ (fun s d => updateEntry_clock d _ s) _ s
  split
  · exact h
  · exact h.trans (putSending_clock _ _ _)

/-! ## Peers -/

theorem haltPeerLost_clock (k : Station) (s : State) : SameClock s (haltPeerLost k s) := by
  unfold haltPeerLost
  split
  · exact takeCause_clock _ s
  · exact SameClock.refl s

theorem handOn_clock (b : Bool) (k : Station) (s : State) : SameClock s (handOn b k s) := by
  unfold handOn
  split
  · exact (barrierMemberLost_clock k s).trans (haltPeerLost_clock k _)
  · exact (haltPeerLost_clock k s).trans (barrierMemberLost_clock k _)

theorem recordFrame_clock (k : Station) (v : PeerView) (s : State) : SameClock s (recordFrame k v s) := by
  unfold recordFrame
  simp only []
  split
  · exact (setEntry_clock _ _ s).trans (setChange_clock _ _)
  · exact setEntry_clock _ _ s

theorem profileMismatch_clock (b : Bool) (k : Station) (s : State) : SameClock s (profileMismatch b k s) := by
  unfold profileMismatch
  split
  · exact SameClock.refl s
  · exact ((updateEntry_clock _ _ s).trans (setChange_clock _ _)).trans (handOn_clock _ _ _)

theorem ageEntry_clock (b : Bool) (s : State) (k : Station) : SameClock s (ageEntry b s k) := by
  unfold ageEntry
  simp only []
  split
  · exact SameClock.refl s
  · split
    · split
      · exact setEntry_clock _ _ s
      · split
        · exact setEntry_clock _ _ s
        · exact ((setEntry_clock _ _ s).trans (setChange_clock _ _)).trans (handOn_clock _ _ _)
    · exact setEntry_clock _ _ s

theorem ageing_clock (b : Bool) (s : State) : SameClock s (ageing b s) := by
  unfold ageing
  split
  · exact SameClock.foldl _ (ageEntry_clock b) _ s
  · exact SameClock.refl s

theorem markLost_clock (b : Bool) (s : State) (k : Station) : SameClock s (markLost b s k) := by
  unfold markLost
  simp only []
  split
  · exact SameClock.refl s
  · split
    · exact ((setEntry_clock _ _ s).trans (setChange_clock _ _)).trans (handOn_clock _ _ _)
    · exact setEntry_clock _ _ s

theorem markAllLost_clock (b : Bool) (s : State) : SameClock s (markAllLost b s) :=
  SameClock.foldl _ (markLost_clock b) _ s

theorem writeOwnEntry_clock (bs : List Byte) (s : State) : SameClock s (writeOwnEntry bs s) := updateEntry_clock _ _ s

/-! ## The boundary -/

theorem leaveDisabled_clock (s : State) : SameClock s (leaveDisabled s) := by
  unfold leaveDisabled
  split
  · split
    · exact haltTaken_clock _ s
    · split
      · exact haltTaken_clock _ s
      · exact setAxis_clock _ s
  · exact SameClock.refl s

theorem linkLost_clock (b : Bool) (s : State) : SameClock s (linkLost b s) := by
  unfold linkLost
  split
  · exact takeCause_clock _ s
  · exact SameClock.refl s

/-- What every turn at a boundary leaves alone: the station, and of the timer the cycle number, the divider, t and the
disarmed detector. -/
structure TurnFrame (s t : State) : Prop where
  station : SameStation s t
  cycle : t.timer.cycle = s.timer.cycle
  divider : t.timer.divider = s.timer.divider
  zero : s.timer.t = 0 → t.timer.t = 0
  disarmed : s.timer.armed = false → t.timer.armed = false

theorem TurnFrame.refl (s : State) : TurnFrame s s := ⟨SameStation.refl s, rfl, rfl, id, id⟩

theorem TurnFrame.trans {s t u : State} (h : TurnFrame s t) (k : TurnFrame t u) : TurnFrame s u :=
  ⟨h.station.trans k.station, k.cycle.trans h.cycle, k.divider.trans h.divider, fun z => k.zero (h.zero z),
    fun z => k.disarmed (h.disarmed z)⟩

theorem SameClock.turn {s t : State} (h : SameClock s t) : TurnFrame s t :=
  ⟨h.station, by rw [h.timer], by rw [h.timer], fun z => by rw [h.timer]; exact z, fun z => by rw [h.timer]; exact z⟩

theorem setLink_turn (s : State) (x : Link) : TurnFrame s (s.setLink x) := ⟨setLink_station s x, rfl, rfl, id, id⟩

theorem enterListen_turn (s : State) : TurnFrame s (enterListen s) :=
  ⟨enterListen_station s, rfl, rfl, fun _ => rfl, fun _ => rfl⟩

theorem syncLoss_turn (o : EventOrder) (s : State) : TurnFrame s (syncLoss o s) := by
  unfold syncLoss
  simp only []
  have h : TurnFrame s (notesAtListen (enterListen s)) := (enterListen_turn s).trans (notesAtListen_clock _).turn
  split
  · exact h.trans ((linkLost_clock _ _).turn.trans (markAllLost_clock _ _).turn)
  · exact h.trans ((markAllLost_clock _ _).turn.trans (linkLost_clock _ _).turn)

theorem enterDuplicate_turn (s : State) : TurnFrame s (enterDuplicate s) := by
  unfold enterDuplicate
  refine TurnFrame.trans (t := latchLink _) ?_ (linkLost_clock _ _).turn
  exact ⟨⟨rfl, rfl, rfl, rfl⟩, rfl, rfl, id, id⟩

theorem enterActive_turn (s : State) : TurnFrame s (enterActive s) := by
  unfold enterActive
  refine TurnFrame.trans (t := latchLink _) ?_ (leaveDisabled_clock _).turn
  exact ⟨⟨rfl, rfl, rfl, rfl⟩, rfl, rfl, id, id⟩

theorem joinCountTurn_turn (b : Bool) (s : State) : TurnFrame s (joinCountTurn b s) := by
  unfold joinCountTurn
  split
  · simp only []
    split
    · split
      · exact (setLink_turn s _).trans (enterActive_turn _)
      · exact setLink_turn s _
    · split
      · exact (setLink_turn s _).trans (enterActive_turn _)
      · exact setLink_turn s _
  · exact TurnFrame.refl s

theorem collisionTurn_turn (s : State) : TurnFrame s (collisionTurn s) := by
  unfold collisionTurn
  split
  · split
    · split
      · exact enterDuplicate_turn s
      · exact setLink_turn s _
    · exact setLink_turn s _
  · exact TurnFrame.refl s

theorem slipTurn_turn (s : State) : TurnFrame s (slipTurn s).1 := by
  unfold slipTurn
  split
  · split
    · split
      · exact setLink_turn s _
      · exact setLink_turn s _
    · exact setLink_turn s _
  · exact TurnFrame.refl s

theorem syncLossTurn_turn (o : EventOrder) (b : Bool) (s : State) : TurnFrame s (syncLossTurn o b s) := by
  unfold syncLossTurn
  simp only []
  split
  · exact (slipTurn_turn s).trans (syncLoss_turn o _)
  · exact slipTurn_turn s

theorem linkBoundary_turn (o : EventOrder) (adopted loss : Bool) (s : State) :
    TurnFrame s (linkBoundary o adopted loss s) := by
  have h : ∀ s, TurnFrame s (leaveTurns o loss s) := by
    intro s
    unfold leaveTurns
    split
    · exact (syncLossTurn_turn o loss s).trans (collisionTurn_turn _)
    · exact (collisionTurn_turn s).trans (syncLossTurn_turn o loss _)
  unfold linkBoundary
  split
  · exact (joinCountTurn_turn adopted s).trans (h _)
  · exact (h s).trans (joinCountTurn_turn adopted _)

/-- An operation that is done or not keeps what it keeps when it is done. -/
theorem clock_ite {s t : State} (b : Bool) (h : SameClock s t) : SameClock s (if b then t else s) := by
  cases b
  · exact SameClock.refl s
  · exact h

theorem stepTurn_clock (s : State) (e : StepTurn) : SameClock s (stepTurn s e) := by
  cases e
  · exact clock_ite _ (changeLevel_clock .probe s)
  · exact clock_ite _ (fallDue_clock s)
  · exact clock_ite _ (fallDueUntimed_clock s)
  · exact clock_ite _ (closeSegment_clock s)
  · exact clock_ite _ (changeDir_clock s)
  · exact clock_ite _ (takeStep_clock s)

theorem stepEventsTurn_clock (o : EventOrder) (before : Option Segment) (s : State) :
    SameClock s (stepEventsTurn o before s) :=
  SameClock.foldl _ (fun s e => clock_ite _ (stepTurn_clock s e)) _ s

theorem stopTurn_clock (s : State) : SameClock s (stopTurn s) :=
  clock_ite _ ((flipStop_clock s).trans (takeCause_clock _ _))

theorem haltRequest_clock (s : State) : SameClock s (clockPlain 0x12 takeHalt s) := by
  have h : ∀ s, SameClock s (takeHalt s) := by
    intro s
    unfold takeHalt
    split
    · exact setPort_clock s _
    · exact (takeCause_clock _ s).trans (setPort_clock _ _)
  unfold clockPlain
  split
  · exact (setPort_clock s _).trans (h _)
  all_goals exact SameClock.refl s

theorem takeTurn_turn (o : EventOrder) (e : CycleEnd) (x : Raising) (b : BoundaryTurn) :
    TurnFrame x.1 (takeTurn o e x b).1 := by
  cases b
  · exact linkBoundary_turn o e.adopted e.earlyLoss x.1
  · exact (ageing_clock _ x.1).turn
  · exact (motionBoundary_clock _ _ x.1).turn
  · exact (firstExamination_clock x.1).turn
  · exact (stepEventsTurn_clock o e.executing x.1).turn
  · exact (takeRaised_clock _ x.1).turn
  · exact (stopTurn_clock x.1).turn
  · exact (haltRequest_clock x.1).turn
  · exact (barrierDeadline_clock x.1).turn
  · exact (noteBoundary_clock x.1).turn

/-- The turns of a boundary leave alone what each turn does. -/
theorem turns_turn (o : EventOrder) (e : CycleEnd) (l : List BoundaryTurn) (x : Raising) :
    TurnFrame x.1 (l.foldl (takeTurn o e) x).1 := by
  induction l generalizing x with
  | nil => exact TurnFrame.refl x.1
  | cons b l ih => exact (takeTurn_turn o e x b).trans (ih _)

/-- The boundary's turns act on the station as the timer's own part leaves it. -/
theorem boundary_turn (o : EventOrder) (skipped : Nat) (s : State) :
    TurnFrame (s.setTimer (timerBoundary s.timer)) (boundary o skipped s) :=
  turns_turn o _ _ (s.setTimer (timerBoundary s.timer), none)

end Sys2Proof.Machine
end

