-- ==== Sys2Proof/Laws/Ops.lean ====
section
/-! SUPPORT. One lemma for each shared operation that says what it does: entries, records, halts, requests. -/

namespace Sys2Proof.Machine

/-! ## Peer entries -/

@[simp] theorem setEntry_entry_same (k : Station) (e : PeerEntry) (s : State) : (setEntry k e s).entry k = e := by
  simp only [setEntry, State.entry, State.setPeers_peers, Vector.get_eq_getElem, Vector.getElem_set_self]

theorem setEntry_entry_other {k m : Station} (h : m ≠ k) (e : PeerEntry) (s : State) :
    (setEntry k e s).entry m = s.entry m := by
  have hv : k.val ≠ m.val := fun hh => h (Fin.ext hh.symm)
  simp only [setEntry, State.entry, State.setPeers_peers, Vector.get_eq_getElem]
  exact Vector.getElem_set_ne _ _ hv

/-- Reading an entry after writing one. -/
theorem setEntry_entry (k m : Station) (e : PeerEntry) (s : State) :
    (setEntry k e s).entry m = if m = k then e else s.entry m := by
  by_cases h : m = k
  · subst h; simp
  · simp [setEntry_entry_other h, h]

theorem updateEntry_entry (k m : Station) (f : PeerEntry → PeerEntry) (s : State) :
    (updateEntry k f s).entry m = if m = k then f (s.entry k) else s.entry m := setEntry_entry k m _ s

@[simp] theorem setChange_entry (k m : Station) (s : State) : (setChange k s).entry m = s.entry m := rfl

@[simp] theorem setEntry_changeMap (k : Station) (e : PeerEntry) (s : State) :
    (setEntry k e s).peers.changeMap = s.peers.changeMap := rfl

@[simp] theorem setChange_changeMap (k : Station) (s : State) :
    (setChange k s).peers.changeMap = s.peers.changeMap ||| maskOf k := rfl

/-! ## Completion records (R110, R113) -/

/-- Nothing is lost or made when records join: what drains and what is left are the list. -/
theorem drain_append (l : List Outstanding) : (drain l).1.map Outstanding.heldBack ++ (drain l).2 = l := by
  induction l with
  | nil => rfl
  | cons o l ih =>
    cases o with
    | finishing f => rfl
    | heldBack r => simp [drain, ih]

/-- What is left after draining is empty or begins with a finishing segment. -/
theorem drain_left (l : List Outstanding) : (drain l).2 = [] ∨ ∃ f rest, (drain l).2 = .finishing f :: rest := by
  induction l with
  | nil => exact .inl rfl
  | cons o l ih =>
    cases o with
    | finishing f => exact .inr ⟨f, l, rfl⟩
    | heldBack r => exact ih

theorem drain_length (l : List Outstanding) : (drain l).1.length + (drain l).2.length = l.length := by
  induction l with
  | nil => rfl
  | cons o l ih =>
    cases o with
    | finishing f => simp [drain]
    | heldBack r => simp only [drain, List.length_cons]; omega

@[simp] theorem joinRecords_held (s : State) : (joinRecords s).held = s.held ++ (drain s.seq.outstanding).1 := rfl
@[simp] theorem joinRecords_outstanding (s : State) :
    (joinRecords s).seq.outstanding = (drain s.seq.outstanding).2 := rfl
@[simp] theorem joinRecords_exec (s : State) : (joinRecords s).seq.exec = s.seq.exec := rfl
@[simp] theorem joinRecords_axis (s : State) : (joinRecords s).seq.axis = s.seq.axis := rfl
@[simp] theorem joinRecords_queue (s : State) : (joinRecords s).seq.queue = s.seq.queue := rfl
@[simp] theorem joinRecords_nextSeq (s : State) : (joinRecords s).seq.nextSeq = s.seq.nextSeq := rfl
@[simp] theorem joinRecords_gen (s : State) : (joinRecords s).gen = s.gen := rfl
@[simp] theorem joinRecords_barrier (s : State) : (joinRecords s).barrier = s.barrier := rfl
@[simp] theorem joinRecords_haltCtl (s : State) : (joinRecords s).haltCtl = s.haltCtl := rfl
@[simp] theorem joinRecords_peers (s : State) : (joinRecords s).peers = s.peers := rfl
@[simp] theorem joinRecords_notes (s : State) : (joinRecords s).notes = s.notes := rfl
@[simp] theorem joinRecords_port (s : State) : (joinRecords s).port = s.port := rfl

/-- Joining changes no count of entries (R114). -/
theorem joinRecords_entries (s : State) :
    (joinRecords s).held.length + (joinRecords s).seq.reserved = s.held.length + s.seq.reserved := by
  have h := drain_length s.seq.outstanding
  have hj : (joinRecords s).seq.reserved =
      (drain s.seq.outstanding).2.length + (if s.seq.exec.isSome then 1 else 0) := rfl
  rw [hj, joinRecords_held, List.length_append, Sequencer.reserved]
  omega

/-- Writing the executing segment's record changes no count of entries (R27). -/
theorem writeExecRecord_entries (r : Record) (s : State) (h : s.seq.exec.isSome) :
    (writeExecRecord r s).held.length + (writeExecRecord r s).seq.reserved = s.held.length + s.seq.reserved := by
  unfold writeExecRecord
  rw [joinRecords_entries]
  simp [Sequencer.reserved, h]

@[simp] theorem writeExecRecord_exec (r : Record) (s : State) : (writeExecRecord r s).seq.exec = none := rfl
@[simp] theorem writeExecRecord_axis (r : Record) (s : State) : (writeExecRecord r s).seq.axis = s.seq.axis := rfl
@[simp] theorem writeExecRecord_queue (r : Record) (s : State) : (writeExecRecord r s).seq.queue = s.seq.queue := rfl

/-! ## Halts (R33, R99) -/

theorem drain_completeFinishing (s : State) (code : Code) (l : List Outstanding) (m : List Outstanding) :
    drain (completeFinishing s code l ++ m) =
      ((drain (completeFinishing s code l)).1 ++ (drain m).1, (drain m).2) := by
  induction l generalizing code with
  | nil => simp [completeFinishing, drain]
  | cons o l ih => cases o <;> simp [completeFinishing, drain, ih]

theorem completeFinishing_length (s : State) (code : Code) (l : List Outstanding) :
    (completeFinishing s code l).length = l.length := by
  induction l generalizing code with
  | nil => rfl
  | cons o l ih => cases o <;> simp [completeFinishing, ih]

@[simp] theorem haltTaken_axis (c : Cause) (s : State) : (haltTaken c s).seq.axis = .halted := rfl
@[simp] theorem haltTaken_queue (c : Cause) (s : State) : (haltTaken c s).seq.queue = [] := rfl
@[simp] theorem haltTaken_exec (c : Cause) (s : State) : (haltTaken c s).seq.exec = none := rfl
@[simp] theorem haltTaken_nextSeq (c : Cause) (s : State) : (haltTaken c s).seq.nextSeq = s.seq.nextSeq := rfl
@[simp] theorem haltTaken_gen (c : Cause) (s : State) :
    (haltTaken c s).gen = { s.gen with dirSetup := none, refused := false } := rfl
@[simp] theorem haltTaken_barrier (c : Cause) (s : State) :
    (haltTaken c s).barrier = { s.barrier with ctx := none } := rfl
@[simp] theorem haltTaken_haltCtl (c : Cause) (s : State) :
    (haltTaken c s).haltCtl =
      { s.haltCtl with report := some (haltReportOf c s), latch := s.haltCtl.latch || c.kind.setsLatch } := rfl
@[simp] theorem haltTaken_peers (c : Cause) (s : State) : (haltTaken c s).peers = s.peers := by simp [haltTaken]
@[simp] theorem haltTaken_notes (c : Cause) (s : State) : (haltTaken c s).notes = s.notes := by simp [haltTaken]
@[simp] theorem haltTaken_port (c : Cause) (s : State) : (haltTaken c s).port = { s.port with haltFlag := true } := rfl

/-- Nothing is left outstanding by a halt: every started segment has its record among the held ones (R33). -/
@[simp] theorem haltTaken_outstanding (c : Cause) (s : State) : (haltTaken c s).seq.outstanding = [] := by
  show (drain (completeFinishing s (c.codeFor .firstFinishing) s.seq.outstanding ++ completeExecuting s c)).2 = []
  rw [drain_completeFinishing]
  unfold completeExecuting
  cases s.seq.exec <;> rfl

/-- What a cause does, by the axis state (R93). -/
theorem takeCause_cases (c : Cause) (s : State) :
    (s.seq.axis ≠ .halted ∧ s.seq.axis ≠ .disabled ∧ takeCause c s = haltTaken c s) ∨
      (s.seq.axis = .halted ∧ takeCause c s = if c.kind.setsLatch then setLatch s else s) ∨
        (s.seq.axis = .disabled ∧ takeCause c s = if c.kind = .hostHalt then setLatch s else s) := by
  unfold takeCause
  cases h : s.seq.axis <;> simp

/-- No cause leaves the axis IDLE, RUNNING or WAITING. -/
theorem takeCause_axis (c : Cause) (s : State) :
    (takeCause c s).seq.axis = if s.seq.axis = .disabled then .disabled else .halted := by
  rcases takeCause_cases c s with ⟨_, h2, h3⟩ | ⟨h1, h2⟩ | ⟨h1, h2⟩
  · rw [h3, if_neg h2]; rfl
  · rw [h2]; split <;> simp [setLatch, h1]
  · rw [h2]; split <;> simp [setLatch, h1]

/-- What taking a raised cause does: nothing when none is raised, else what the cause does. -/
@[simp] theorem takeRaised_none (s : State) : takeRaised none s = s := rfl
@[simp] theorem takeRaised_some (c : Cause) (s : State) : takeRaised (some c) s = takeCause c s := rfl

/-- A late release raises its fault exactly under LATE_HALTS (R80). -/
theorem lateFault_eq_some (cfg : Settings) (e : Executing) (r : Release) (c : Cause) :
    lateFault cfg e r = some c ↔
      r.lateness ≠ 0 ∧ cfg.lateHalts = true ∧ c = .segmentFault e.seg.seq .releasedLate .ended := by
  unfold lateFault
  by_cases h : r.lateness ≠ 0 ∧ cfg.lateHalts = true
  · rw [if_pos h, Option.some.injEq]
    exact ⟨fun hc => ⟨h.1, h.2, hc.symm⟩, fun hc => hc.2.2.symm⟩
  · rw [if_neg h]
    exact ⟨nofun, fun hc => absurd ⟨hc.1, hc.2.1⟩ h⟩

/-! ## The receiver (R13, R14, R133) -/

/-- A start begins a frame exactly in the window of a slot, in LISTEN only while t is below CYCLE_US. -/
theorem beginsFrame_iff (s : State) (pos : Nat) : beginsFrame s pos = true ↔
    (24 ≤ pos ∧ (pos - 24) % 96 < 8 ∧ (pos - 24) / 96 < s.stationCount) ∧
      (s.link.state = .listen → pos < s.cycleUs) := by
  unfold beginsFrame slotOfStart
  by_cases h : 24 ≤ pos ∧ (pos - 24) % 96 < 8 ∧ (pos - 24) / 96 < s.stationCount
  · rw [if_pos h]
    by_cases hl : s.link.state = .listen <;> simp [h, hl]
  · rw [if_neg h]
    simp [h]

/-- A frame is taken only while one is received, at the tick of its last stop bit. -/
theorem receivedStart_eq_some (bytes start : Nat) (x : RxState) : receivedStart bytes x = some start ↔
    ∃ elapsed, x = .receiving start elapsed ∧ 2 * bytes ≤ elapsed + 1 ∧ elapsed ≤ 2 * bytes := by
  cases x with
  | receiving p e =>
    simp only [receivedStart]
    by_cases h : 2 * bytes ≤ e + 1 ∧ e ≤ 2 * bytes
    · rw [if_pos h, Option.some.injEq]
      exact ⟨fun hp => ⟨e, by rw [hp], h⟩, fun ⟨_, hx, _⟩ => (RxState.receiving.inj hx).1⟩
    · rw [if_neg h]
      exact ⟨nofun, fun ⟨_, hx, h'⟩ => absurd ((RxState.receiving.inj hx).2 ▸ h') h⟩
  | looking => simp [receivedStart]
  | waiting => simp [receivedStart]

@[simp] theorem takeCause_peers (c : Cause) (s : State) : (takeCause c s).peers = s.peers := by
  rcases takeCause_cases c s with ⟨_, _, h⟩ | ⟨_, h⟩ | ⟨_, h⟩ <;> rw [h]
  · simp
  · split <;> simp [setLatch]
  · split <;> simp [setLatch]

@[simp] theorem takeCause_notes (c : Cause) (s : State) : (takeCause c s).notes = s.notes := by
  rcases takeCause_cases c s with ⟨_, _, h⟩ | ⟨_, h⟩ | ⟨_, h⟩ <;> rw [h]
  · simp
  · split <;> simp [setLatch]
  · split <;> simp [setLatch]

@[simp] theorem takeCause_entry (c : Cause) (s : State) (k : Station) : (takeCause c s).entry k = s.entry k := by
  simp [State.entry]

/-! ## Requests (R167, R169) -/

/-- What clocking a request's bytes does: nothing outside REQUEST and PARAMETERS, waiting while bytes are missing, and
taking the request with the last of them. -/
theorem clockRequest_cases (code : Byte) (needs : List Byte → Nat) (bytes : List Byte)
    (take : List Byte → State → State) (s : State) :
    (assembled code bytes s.port = none ∧ clockRequest code needs bytes take s = s) ∨
      ∃ ps, assembled code bytes s.port = some ps ∧
        ((ps.length < needs ps ∧ clockRequest code needs bytes take s = holdParams code ps s) ∨
          (needs ps ≤ ps.length ∧
            clockRequest code needs bytes take s = take (ps.take (needs ps)) (holdParams code (ps.take (needs ps)) s))) := by
  unfold clockRequest
  cases h : assembled code bytes s.port with
  | none => exact .inl ⟨rfl, rfl⟩
  | some ps =>
    refine .inr ⟨ps, rfl, ?_⟩
    by_cases hl : ps.length < needs ps
    · exact .inl ⟨hl, by simp [hl]⟩
    · exact .inr ⟨by omega, by simp [hl]⟩

/-- A request without parameters is taken in REQUEST and nowhere else. -/
theorem clockPlain_cases (code : Byte) (take : State → State) (s : State) :
    (s.port.phase = .request ∧ clockPlain code take s = take (holdParams code [] s)) ∨
      (s.port.phase ≠ .request ∧ clockPlain code take s = s) := by
  unfold clockPlain
  cases s.port.phase <;> simp

theorem holdParams_clock (code : Byte) (ps : List Byte) (s : State) : SameClock s (holdParams code ps s) :=
  setPort_clock s _

theorem respond_clock (a : Answer) (r : List Byte) (n : Nat) (s : State) : SameClock s (respond a r n s) :=
  setPort_clock s _

/-! ## Inputs (R50, R91) -/

/-- A sample at the filtered level cancels the run; one at the other level lengthens it; neither moves the level. -/
theorem Filter.sample_primed (level : Bool) (f : Filter) (h : f.primed = true) :
    f.sample level = { f with run := if level = f.level then 0 else f.run + 1 } := by
  simp [Filter.sample, h]

/-! ## The turns of a boundary (R7, R67) -/

/-- `firsts` keeps every member of the list. -/
theorem mem_firsts {α : Type} [DecidableEq α] (a : α) (l : List α) : a ∈ firsts l ↔ a ∈ l := by
  induction l with
  | nil => simp [firsts]
  | cons b l ih =>
    by_cases h : a = b
    · simp [firsts, h]
    · simp [firsts, h, ih]

/-- `firsts` keeps each member once. -/
theorem firsts_nodup {α : Type} [DecidableEq α] (l : List α) : (firsts l).Nodup := by
  induction l with
  | nil => simp [firsts]
  | cons b l ih => simpa [firsts] using ih.filter _

/-- A boundary takes each turn at most once. -/
theorem turnsOf_nodup (o : EventOrder) : (turnsOf o).Nodup := firsts_nodup _

/-- A boundary takes every turn but the stops from outside, which it takes where the order names them. -/
theorem mem_turnsOf (o : EventOrder) (b : BoundaryTurn) (h : b ≠ .stopInput) (h' : b ≠ .hostHalt) : b ∈ turnsOf o := by
  refine (mem_firsts b _).mpr (List.mem_append_right _ ?_)
  cases b <;> simp_all

/-- A first examination that is not open leaves the state: nothing executes, the source is not PENDING, or steps are owed
ahead of it (R56). -/
theorem firstExamination_cases (s : State) :
    firstExamination s = s ∨ ∃ e u, s.seq.exec = some e ∧ e.source = .untimed u ∧ u.phase = .pending ∧
      s.seq.finishing = [] ∧ firstExamination s = examineFirst e u s := by
  unfold firstExamination
  split
  · exact .inl rfl
  · rename_i e he
    split
    · rename_i u hu
      split
      · rename_i h
        exact .inr ⟨e, u, he, hu, h.1, h.2, rfl⟩
      · exact .inl rfl
    · exact .inl rfl

/-! ## Cycle numbers (0.6, R77) -/

/-- Where some number is the largest of a list, `largestOf` gives one that is. -/
theorem largestOf_spec (xs : List Cycle) (x : Cycle) (hx : x ∈ xs) (h : isLargest xs x = true) :
    largestOf xs ∈ xs ∧ isLargest xs (largestOf xs) = true := by
  unfold largestOf
  cases hf : xs.find? (isLargest xs) with
  | none => exact absurd h (by simpa using List.find?_eq_none.mp hf x hx)
  | some y => exact ⟨List.mem_of_find?_eq_some hf, List.find?_some hf⟩

/-! ## Every command -/

/-- Every command answers a next state. -/
theorem exec_next (c : Instr) (s : State) : ∃ t, exec c s = .next t := by cases c <;> exact ⟨_, rfl⟩

end Sys2Proof.Machine
end

