-- ==== Sys2Proof/WellFormed.lean ====
section
/-! DEFINITION. When a command is well formed: its operands are ones the outside can give it. The meanings are total and
take an ill-formed command too; this says which commands a sender may send. -/

namespace Sys2Proof

/-- An order names each turn and each event at most once. -/
def EventOrder.wellFormed (o : EventOrder) : Bool := decide o.turns.Nodup && decide o.steps.Nodup

/-- A frame begins at a start bit, at a position the timer can count (R2, R14, R133). -/
def frameWellFormed (start : Nat) (chars : List RxChar) : Bool :=
  decide (start ≤ 24000) &&
    (match chars with
      | [] => false
      | c :: _ => c.startDominant)

/-- The operands of the command are in range: an own frame has at most 41 bytes of 10 bits (R130), a request at most its
parameter bytes (R169), and an unknown request a code that names no request (R171). -/
def Instr.wellFormed : Instr → Bool
  | .deviceReset _ => true
  | .tick _ => true
  | .runOut o => o.wellFormed
  | .stretchedRunOut o => o.wellFormed
  | .syncFallingEdge o => o.wellFormed
  | .edgeDetectorArmed => true
  | .syncPulseEnd => true
  | .founding => true
  | .silence => true
  | .slotStart => true
  | .collision bit => decide (bit < 410)
  | .frameReceived pos chars _ => frameWellFormed pos chars
  | .stepDue => true
  | .untimedStepDue => true
  | .closingTick => true
  | .stepPulseBegin => true
  | .stepPulseEnd => true
  | .dirChange => true
  | .dirSetupExpiry => true
  | .filteredLevelChange _ => true
  | .stopInput => true
  | .stopnInactive => true
  | .csnFall => true
  | .csnRise => true
  | .removal => true
  | .configure ps => decide (ps.length ≤ 12)
  | .start => true
  | .restart => true
  | .halt => true
  | .clearHalt => true
  | .queueSegment ps => decide (ps.length ≤ 16)
  | .flushQueue => true
  | .setPosition ps => decide (ps.length ≤ 4)
  | .clearEvents ps => decide (ps.length ≤ 1)
  | .readState => true
  | .readCompletion => true
  | .readHaltReport => true
  | .readPeer ps => decide (ps.length ≤ 1)
  | .readPeerChanges => true
  | .sendNote ps => decide (ps.length ≤ 11)
  | .readNote => true
  | .readNoteSlot ps => decide (ps.length ≤ 1)
  | .releaseNoteSlot ps => decide (ps.length ≤ 1)
  | .unknownRequest code => decide (code ∉ Machine.requestCodes)
  | .ownFrameEnd => true
  | .lookForStartAgain => true

end Sys2Proof
end

