-- ==== Sys2Proof/Tests/Slice0.lean ====
section
/-! SUPPORT. The model's own tests: ill-formed commands are refused by WellFormed; one step of each command against values
worked out from the manual; and, for every statement with hypotheses, a state and operands that meet them. The frames are
written out byte by byte from 12.2, their CRC computed outside Lean by the recipe of R181. -/

namespace Sys2Proof.Tests

open Sys2Proof.Machine Sys2Proof.Claims

/- Each of these theorems waits for the kernel; elaborated one after another they do not hold a thread each. -/
set_option Elab.async false

/-! ## States and operands -/

/-- The settings of the worked example 5.8, with the step timing of 4.7. -/
def cfg : Settings where
  cycleCode := 8
  stationCount := 3
  lossLimit := 3
  releaseLead := 2
  minStepUs := 30
  stepPulseUs := 5
  dirSetupUs := 20
  stopGroup := 0
  homeHigh := true
  probeHigh := true
  limpHigh := true
  limnHigh := true
  lateHalts := false
  probeMissHalts := true
  haltReleasesEn := false
  intEnable := 0x3F

def low : Filter := { level := false, run := 0, primed := true }

def high : Filter := { level := true, run := 0, primed := true }

/-- Station 0 of three, ACTIVE with an IDLE axis, at position 130 of cycle 100; no axis input is active. -/
def base : State :=
  { State.reset with
    config := some cfg
    timer := { Timer.reset with t := 130, cycle := 100 }
    link := { Link.reset with state := .active }
    seq := { Sequencer.reset with axis := .idle, nextSeq := 20 }
    gen := { StepGen.reset with home := low, probe := low, limp := low, limn := low, known := true }
    haltCtl := { HaltCtl.reset with stopn := high } }

/-- The state after a command, or the state before it where the command stops. -/
def after (c : Instr) (s : State) : State :=
  match exec c s with
  | .next t => t
  | _ => s

/-- The command answers a next state with this property. -/
def gives (c : Instr) (s : State) (p : State → Bool) : Bool :=
  match exec c s with
  | .next t => p t
  | _ => false

def anyOrder : EventOrder where
  turns := []
  steps := []
  joinFirst := false
  syncLossFirst := false
  linkLostFirst := false
  barrierFirst := false
  lateHaltFirst := false

def atTick (t : Nat) (s : State) : State := { s with timer := { s.timer with t := t } }

def inLink (l : LinkState) (s : State) : State := { s with link := { s.link with state := l } }

def inAxis (a : AxisState) (s : State) : State := { s with seq := { s.seq with axis := a } }

def inCycle (c : Cycle) (s : State) : State := { s with timer := { s.timer with cycle := c } }

/-- The own run-out has been raised at the last position of the cycle. -/
def atRunOut (s : State) : State :=
  { s with timer := { s.timer with t := 999, raised := { Raised.clear with runOut := true } } }

/-- A falling edge is taken at position t. -/
def atEdge (t : Nat) (s : State) : State :=
  { s with timer := { s.timer with t := t, raised := { Raised.clear with edge := true } } }

def withEntry (k : Station) (e : PeerEntry) (s : State) : State := setEntry k e s

def withQueue (q : List Segment) (s : State) : State := { s with seq := { s.seq with queue := q } }

def withCtx (x : BarrierCtx) (s : State) : State := { s with barrier := { s.barrier with ctx := some x } }

/-- The segment with sequence number 19 executes from cycle 100. -/
def running (body : SegBody) (src : Source) (s : State) : State :=
  { s with seq := { s.seq with
    axis := .running, exec := some { seg := { seq := 19, label := 0x00AB, body := body }, startCycle := 100, source := src } } }

/-- A transaction is open, and no byte has been clocked. -/
def asking (s : State) : State := { s with port := { s.port with phase := .request, csnHigh := false } }

/-- A frame as the receiver samples it, with every start and stop bit right. -/
def sampled (bs : List Byte) : List RxChar := bs.map fun b => { startDominant := true, data := b, stopRecessive := true }

def present : PeerEntry := { PeerEntry.blank with presence := .present, heard := true }

/-- Station 1, axis IDLE and known, cycle 100. -/
def framePlain : List Byte :=
  [0x6B, 0x01, 0x00, 0x64, 0x08, 0x21, 0x81, 0, 0, 0, 0, 0, 0, 0, 0, 0, 0, 0, 0, 0, 0, 0, 0, 0, 0, 0xA0, 0x8A]

/-- The same in cycle 103 with barrier tag 7, arrival 103, mask 0007h (5.8). -/
def frameArrival : List Byte :=
  [0x6B, 0x01, 0x00, 0x67, 0x08, 0x21, 0x81, 0, 0, 0, 0, 0x07, 0x00, 0x67, 0x00, 0x07, 0, 0, 0, 0, 0, 0, 0, 0, 0, 0xC1,
    0xB5]

/-- The same arrival with mask 0003h. -/
def frameMismatch : List Byte :=
  [0x6B, 0x01, 0x00, 0x67, 0x08, 0x21, 0x81, 0, 0, 0, 0, 0x07, 0x00, 0x67, 0x00, 0x03, 0, 0, 0, 0, 0, 0, 0, 0, 0, 0x6C,
    0x80]

/-- Station 1, HALTED, cycle 103. -/
def frameHalted : List Byte :=
  [0x6B, 0x21, 0x00, 0x67, 0x08, 0x21, 0x84, 0, 0, 0, 0, 0, 0, 0, 0, 0, 0, 0, 0, 0, 0, 0, 0, 0, 0, 0x00, 0x44]

/-- Station 1, HALTED with ORIGIN, cycle 103. -/
def frameOrigin : List Byte :=
  [0x6B, 0x61, 0x00, 0x67, 0x08, 0x21, 0x84, 0, 0, 0, 0, 0, 0, 0, 0, 0, 0, 0, 0, 0, 0, 0, 0, 0, 0, 0x11, 0x29]

/-- Station 1, JOIN, axis DISABLED, cycle 100. -/
def frameJoin : List Byte :=
  [0x6B, 0x11, 0x00, 0x64, 0x08, 0x21, 0x00, 0, 0, 0, 0, 0, 0, 0, 0, 0, 0, 0, 0, 0, 0, 0, 0, 0, 0, 0xAC, 0x0F]

/-- Station 1 with note 9 for station 0, toggle 1, payload ABh, cycle 100. -/
def frameNote : List Byte :=
  [0x6B, 0x81, 0x00, 0x64, 0x08, 0x21, 0x81, 0, 0, 0, 0, 0, 0, 0, 0, 0, 0, 0, 0, 0, 0, 0, 0, 0, 0, 0x09, 0x00, 0x01, 0x00,
    0x01, 0x01, 0xAB, 0x3A, 0x93]

/-- Station 1 in cycle 103, reporting the release of tag 7 in cycle 103. -/
def frameRelease : List Byte :=
  [0x6B, 0x01, 0x00, 0x67, 0x08, 0x21, 0x81, 0, 0, 0, 0, 0, 0, 0, 0, 0, 0x07, 0x00, 0x67, 0, 0, 0, 0, 0, 0, 0x0D, 0x17]

/-- Station 1 in cycle 103, axis IDLE and known. -/
def frameLater : List Byte :=
  [0x6B, 0x01, 0x00, 0x67, 0x08, 0x21, 0x81, 0, 0, 0, 0, 0, 0, 0, 0, 0, 0, 0, 0, 0, 0, 0, 0, 0, 0, 0x16, 0xE2]

/-- Station 1 with cycle code 16. -/
def frameProfile : List Byte :=
  [0x6B, 0x01, 0x00, 0x64, 0x10, 0x21, 0x81, 0, 0, 0, 0, 0, 0, 0, 0, 0, 0, 0, 0, 0, 0, 0, 0, 0, 0, 0xE1, 0x31]

/-- Station 1 with the ack bit for station 0 set, cycle 100. -/
def frameAck : List Byte :=
  [0x6B, 0x01, 0x00, 0x64, 0x08, 0x21, 0x81, 0, 0, 0, 0, 0, 0, 0, 0, 0, 0, 0, 0, 0, 0x01, 0, 0, 0, 0, 0x0A, 0xDB]

/-- The frame arrives in slot 1, whose start window is positions 120 to 127. -/
def hear (bs : List Byte) : Instr := .frameReceived 120 (sampled bs) true

/-- The last stop bit of such a frame falls in this tick, and its start had position 120. -/
def hearing (bs : List Byte) (s : State) : State :=
  { s with link := { s.link with rx := .receiving 120 (2 * bs.length) } }

/-! ## Ill-formed commands -/

theorem test_illformed_order : Instr.wellFormed (.runOut { anyOrder with turns := [.link, .link] }) = false := by decide
theorem test_illformed_steps : Instr.wellFormed (.runOut { anyOrder with steps := [.stepDue, .stepDue] }) = false := by
  decide
theorem test_illformed_stretched :
    Instr.wellFormed (.stretchedRunOut { anyOrder with turns := [.notes, .link, .notes] }) = false := by decide
theorem test_illformed_edge : Instr.wellFormed (.syncFallingEdge { anyOrder with turns := [.peers, .peers] }) = false := by
  decide
theorem test_illformed_collision : Instr.wellFormed (.collision 410) = false := by decide
theorem test_illformed_frame_start : Instr.wellFormed (.frameReceived 24001 (sampled [0x6B]) true) = false := by decide
theorem test_illformed_frame_empty : Instr.wellFormed (.frameReceived 120 [] true) = false := by decide
theorem test_illformed_frame_no_start_bit :
    Instr.wellFormed (.frameReceived 120 [{ startDominant := false, data := 0x6B, stopRecessive := true }] true) = false := by
  decide
theorem test_illformed_configure : Instr.wellFormed (.configure (List.replicate 13 0)) = false := by decide
theorem test_illformed_queueSegment : Instr.wellFormed (.queueSegment (List.replicate 17 0)) = false := by decide
theorem test_illformed_setPosition : Instr.wellFormed (.setPosition (List.replicate 5 0)) = false := by decide
theorem test_illformed_clearEvents : Instr.wellFormed (.clearEvents [0, 0]) = false := by decide
theorem test_illformed_readPeer : Instr.wellFormed (.readPeer [0, 0]) = false := by decide
theorem test_illformed_sendNote : Instr.wellFormed (.sendNote (List.replicate 12 0)) = false := by decide
theorem test_illformed_readNoteSlot : Instr.wellFormed (.readNoteSlot [0, 0]) = false := by decide
theorem test_illformed_releaseNoteSlot : Instr.wellFormed (.releaseNoteSlot [0, 0]) = false := by decide
theorem test_illformed_unknownRequest : Instr.wellFormed (.unknownRequest 0x20) = false := by decide

/-! ## One step of each command -/

/-- R181 on the usual check string: the register ends at 29B1h. -/
theorem test_crc : crc16 [0x31, 0x32, 0x33, 0x34, 0x35, 0x36, 0x37, 0x38, 0x39] = 0x29B1#16 := by decide +kernel

theorem test_deviceReset : gives (.deviceReset 5) base (fun t =>
    decide (t.id = 5 ∧ t.config = none ∧ t.seq.nextSeq = 1 ∧ t.timer.cycle = 0)) = true := by decide +kernel

/-- R1, R2: the tick after position 130 is position 131. -/
theorem test_tick : gives (.tick { pins := PinLevels.reset, lineStart := false }) base (fun t => decide (t.timer.t = 131)) = true := by decide +kernel

/-- R13: position 216 is the slot start of station 2. -/
theorem test_tick_slotStart : gives (.tick { pins := PinLevels.reset, lineStart := false }) (atTick 215 base)
    (fun t => decide (t.timer.raised.slotStart = true)) = true := by decide +kernel

/-- R13: in LISTEN the position 1024 lies in no slot, though it is 24 of the next cycle, and a start there begins no
frame (R14); position 500 lies in no slot, and position 128 is past the start window of slot 1. -/
theorem test_tick_lineStart :
    ([(120, base), (24, inLink .listen base), (500, base), (128, base), (1024, inLink .listen base)].map fun x =>
      (after (.tick { pins := PinLevels.reset, lineStart := true }) (atTick (x.1 - 1) x.2)).link.rx) =
      [.receiving 120 0, .receiving 24 0, .waiting, .waiting, .waiting] := by decide +kernel

/-- R133: the receiver of an ACTIVE station is off in its own slot. -/
theorem test_tick_lineStart_own : gives (.tick { pins := PinLevels.reset, lineStart := true }) (atTick 29 base)
    (fun t => decide (t.link.rx = .looking)) = true := by decide +kernel

/-- R8: the cycle number wraps from 65535 to 0. -/
theorem test_runOut_wraps : gives (.runOut anyOrder) (atRunOut (inCycle 0xFFFF base))
    (fun t => decide (t.timer.cycle = 0 ∧ t.timer.t = 0 ∧ t.timer.pulse = some 8)) = true := by decide +kernel

/-- R30, R41 on segment 20 of the worked example 3.10: 31 steps are out at its end boundary, and step 32 is owed. -/
theorem test_runOut_owes : gives (.runOut anyOrder)
    (atRunOut (running (.moveRel 32 1)
      (.timed { dir := .plus, n := 32, length := 1000, emitted := 31, fallen := 32 }) base))
    (fun t => decide (t.seq.axis = .idle ∧ t.held = [] ∧ t.seq.finishing.map (fun f => f.source.owed) = [1])) = true := by
  decide +kernel

/-- R6: DUPLICATE ends its cycle at position CYCLE_US + 16 and drives no pulse. -/
theorem test_stretchedRunOut : gives (.stretchedRunOut anyOrder)
    { inLink .duplicate base with timer := { base.timer with t := 1015, raised := { Raised.clear with stretched := true } } }
    (fun t => decide (t.timer.cycle = 101 ∧ t.timer.pulse = none)) = true := by decide +kernel

/-- The cut cycle of 1.10: station 1 takes the edge at 995, and cycle 41 begins. -/
theorem test_syncFallingEdge : gives (.syncFallingEdge anyOrder) (atEdge 995 (inCycle 40 base))
    (fun t => decide (t.timer.cycle = 41 ∧ t.timer.t = 0 ∧ t.timer.pulse = none)) = true := by decide +kernel

/-- 1.11: an edge at 912 is early. -/
theorem test_syncFallingEdge_early : gives (.syncFallingEdge anyOrder) (atEdge 912 (inCycle 61 base))
    (fun t => decide (t.timer.cycle = 61 ∧ t.timer.t = 912 ∧ t.timer.earlySeen = true)) = true := by decide +kernel

theorem test_edgeDetectorArmed : gives .edgeDetectorArmed { base with timer := { base.timer with highRun := 4 } }
    (fun t => decide (t.timer.armed = true)) = true := by decide +kernel

theorem test_syncPulseEnd : gives .syncPulseEnd { base with timer := { base.timer with pulse := some 0 } }
    (fun t => !t.drivesSync) = true := by decide +kernel

theorem test_founding : gives .founding
    { inLink .listen base with timer := { base.timer with t := 3000, founding := .due } }
    (fun t => decide (t.link.state = .joining ∧ t.timer.cycle = 0 ∧ t.timer.t = 0 ∧ t.timer.pulse = some 8)) = true := by
  decide +kernel

theorem test_silence : gives .silence
    { inLink .listen base with timer := { base.timer with t := 3000, raised := { Raised.clear with silence := true } } }
    (fun t => decide (t.timer.founding = .requested ∧ t.link.state = .listen)) = true := by decide +kernel

/-- R130: station 0 sends at position 24, and shows the frame in its own entry. -/
theorem test_slotStart : gives .slotStart
    { base with timer := { base.timer with t := 24, raised := { Raised.clear with slotStart := true } } }
    (fun t => decide (t.link.tx.map (fun f => f.bytes.length) = some 27 ∧ (t.entry 0).presence = .present)) = true := by
  decide +kernel

/-- R131: bit 1 of the delimiter 6Bh (its bit 0) is recessive; read back dominant it is a collision. -/
theorem test_collision : gives (.collision 1)
    { base with link := { base.link with tx := some { bytes := framePlain, elapsed := 0 } } }
    (fun t => decide (t.link.collision = true ∧ t.link.tx = none)) = true := by decide +kernel

/-- R131: the start bit is dominant as sent. -/
theorem test_collision_startBit : gives (.collision 0)
    { base with link := { base.link with tx := some { bytes := framePlain, elapsed := 0 } } }
    (fun t => decide (t.link.collision = false ∧ t.link.tx.isSome = true)) = true := by decide +kernel

theorem test_frameReceived : gives (hear framePlain) (hearing framePlain base) (fun t =>
    decide ((t.entry 1).presence = .present ∧ (t.entry 1).view.lastCycle = 100 ∧ (t.entry 1).view.known = true ∧
      t.peers.changeMap = 2)) = true := by decide +kernel

/-- 5.8 at station 0: the last arrival, 103, completes with r = q = 105. -/
theorem test_frameReceived_completes : gives (hear frameArrival)
    (hearing frameArrival (inCycle 103 (inAxis .waiting (withCtx
      { seq := 19, tag := 7, mask := 7, arrival := 100,
        arrivals := (Vector.replicate 16 none).set 2 (some 101), timeout := 20, release := none } base))))
    (fun t => decide (t.barrier.ctx.map (fun x => x.release) = some (some { r := 105, q := 105, lateness := 0 }))) = true := by
  decide +kernel

/-- 3.10: step 6 of segment 20 falls due at position 171. -/
theorem test_stepDue : gives .stepDue
    (atTick 171 (running (.moveRel 32 1) (.timed { dir := .plus, n := 32, length := 1000, emitted := 5, fallen := 5 }) base))
    (fun t => decide (t.seq.head = .timed { dir := .plus, n := 32, length := 1000, emitted := 5, fallen := 6 })) = true := by
  decide +kernel

/-- 3.10: it is not due at position 170. -/
theorem test_stepDue_before : stepDueDue
    (atTick 170 (running (.moveRel 32 1) (.timed { dir := .plus, n := 32, length := 1000, emitted := 5, fallen := 5 })
      base)) = false := by decide +kernel

/-- A HOME toward − at interval 400 (4.7) with its phase, its interval count and its backlog. -/
def homing (phase : UntimedPhase) (emitted count : Nat) (backlog : Bool) : Source :=
  .untimed { home := some 0, dir := .minus, interval := 400, maxSteps := 5000, emitted := emitted, phase := phase,
             intervalCount := count, backlog := backlog, lastProbe := false }

def homeBody : SegBody := .home .minus 400 5000 0

def probeBody : SegBody := .probe .plus 250 3000

/-- A PROBE toward + at interval 250 (4.7). -/
def probing (phase : UntimedPhase) (emitted count : Nat) (backlog : Bool) : Source :=
  .untimed { home := none, dir := .plus, interval := 250, maxSteps := 3000, emitted := emitted, phase := phase,
             intervalCount := count, backlog := backlog, lastProbe := false }

theorem test_untimedStepDue : gives .untimedStepDue (running homeBody (homing .stepping 1 400 false) base)
    (fun t => t.seq.head.hasDueStep) = true := by decide +kernel

/-- 4.7, the variation: PROBE_MISS under PROBE_MISS_HALTS. -/
theorem test_closingTick : gives .closingTick (running probeBody (probing .closing 3000 250 false) base)
    (fun t => decide (t.held.map (fun r => (r.code, r.steps)) = [(.probeMiss, 3000)] ∧ t.seq.axis = .halted ∧
      t.haltCtl.report.map (fun r => r.segment) = some (some (19, .probeMiss)))) = true := by decide +kernel

/-- 4.7: HOME is active before step 787; the counter reads 0 in place of 26, and no step begins. -/
theorem test_stepPulseBegin_home : gives .stepPulseBegin
    { running homeBody (homing .stepping 786 400 true) base with gen := { base.gen with position := 26, home := high } }
    (fun t => decide (t.gen.position = 0 ∧ t.seq.axis = .idle ∧
      t.held.map (fun r => (r.code, r.steps)) = [(.homed, 786)])) = true := by decide +kernel

/-- 3.10: step 32 begins 31 ticks after step 31, and the counter becomes 32. -/
theorem test_stepPulseBegin : gives .stepPulseBegin
    { running (.moveRel 32 1) (.timed { dir := .plus, n := 32, length := 1000, emitted := 31, fallen := 32 }) base with
      gen := { base.gen with position := 31, dirHigh := true, spacing := some 31 } }
    (fun t => decide (t.gen.position = 32 ∧ t.gen.pulse = some 5 ∧ t.gen.spacing = some 0)) = true := by decide +kernel

theorem test_stepPulseEnd : gives .stepPulseEnd { base with gen := { base.gen with pulse := some 0 } }
    (fun t => !t.stepHigh) = true := by decide +kernel

/-- 3.10: DIR goes high for segment 20, and the setup timer runs 20 ticks. -/
theorem test_dirChange : gives .dirChange
    (atTick 0 (running (.moveRel 32 1) (.timed { dir := .plus, n := 32, length := 1000, emitted := 0, fallen := 0 }) base))
    (fun t => decide (t.gen.dirHigh = true ∧ t.gen.dirSetup = some 20)) = true := by decide +kernel

theorem test_dirSetupExpiry : gives .dirSetupExpiry { base with gen := { base.gen with dirSetup := some 0 } }
    (fun t => decide (t.gen.dirSetup = none)) = true := by decide +kernel

/-- 4.7: the probe trips after 12 steps with the counter at 12. -/
theorem test_filteredLevelChange : gives (.filteredLevelChange .probe)
    { running probeBody (probing .stepping 12 228 false) base with
      gen := { base.gen with position := 12, probe := { low with run := 2 } } }
    (fun t => decide (t.held.map (fun r => (r.code, r.steps, r.part)) = [(.tripped, 12, .trip 12)] ∧
      t.seq.axis = .idle)) = true := by decide +kernel

theorem test_stopInput : gives .stopInput { base with haltCtl := { base.haltCtl with stopn := { high with run := 4 } } }
    (fun t => decide (t.seq.axis = .halted ∧ t.haltCtl.latch = false ∧ t.origin = true)) = true := by decide +kernel

theorem test_stopnInactive : gives .stopnInactive { base with haltCtl := { base.haltCtl with stopn := { low with run := 4 } } }
    (fun t => decide (t.origin = false)) = true := by decide +kernel

/-- R168: configured and ACTIVE, no flag set. -/
theorem test_csnFall : gives .csnFall base (fun t => decide (t.port.status = 0xC0#8 ∧ t.port.phase = .request)) = true := by
  decide +kernel

theorem test_csnRise : gives .csnRise (asking base) (fun t => decide (t.port.phase = .closed)) = true := by decide +kernel

theorem test_removal : gives .removal
    { base with
      peers := { base.peers with changeMap := 6 }
      port := { base.port with phase := .answer, answer := [1, 0, 2], removal := some (.changes 2) } }
    (fun t => decide (t.peers.changeMap = 4 ∧ t.port.phase = .ignore)) = true := by decide +kernel

/-- The settings of `cfg` as a CONFIGURE block (12.3). -/
def cfgBlock : List Byte := [8, 3, 3, 2, 30, 5, 20, 0, 0, 0x0F, 0x02, 0x3F]

theorem test_configure : gives (.configure cfgBlock) (asking State.reset)
    (fun t => decide (t.config = some cfg ∧ t.port.answer = [0x01])) = true := by decide +kernel

/-- R172: 96 × 5 + 64 = 544 does not fit the 500 µs of cycle code 4. -/
theorem test_configure_slots : gives (.configure [4, 5, 3, 2, 30, 5, 20, 0, 0, 0x0F, 0x02, 0x3F]) (asking State.reset)
    (fun t => decide (t.config = none ∧ t.port.answer = [0x03])) = true := by decide +kernel

theorem test_start : gives .start (asking { State.reset with config := some cfg })
    (fun t => decide (t.link.state = .listen ∧ t.port.linkFlag = true ∧ t.port.answer = [0x01])) = true := by decide +kernel

theorem test_restart : gives .restart (asking base)
    (fun t => decide (t.link.state = .listen ∧ t.seq.axis = .disabled ∧ t.seq.nextSeq = 20 ∧ t.port.linkFlag = false)) =
      true := by decide +kernel

theorem test_halt : gives .halt (asking base)
    (fun t => decide (t.seq.axis = .halted ∧ t.haltCtl.latch = true ∧ t.port.answer = [0x01])) = true := by decide +kernel

theorem test_clearHalt : gives .clearHalt
    (asking { inAxis .halted base with haltCtl := { base.haltCtl with latch := true } })
    (fun t => decide (t.seq.axis = .idle ∧ t.haltCtl.latch = false ∧ t.port.answer = [0x01])) = true := by decide +kernel

/-- 3.10, segment 20: MOVE_REL of +32 with D = 1 is accepted; of +34 it is refused with RATE, since 34 × 30 > 1000. -/
theorem test_queueSegment : gives (.queueSegment [1, 0, 0, 0, 0, 0, 32, 0, 1, 0, 0, 0, 0, 0, 0, 0]) (asking base)
    (fun t => decide (t.port.answer = [0x01, 0, 20] ∧ t.seq.queue = [{ seq := 20, label := 0, body := .moveRel 32 1 }])) =
      true := by decide +kernel
theorem test_queueSegment_rate : gives (.queueSegment [1, 0, 0, 0, 0, 0, 34, 0, 1, 0, 0, 0, 0, 0, 0, 0]) (asking base)
    (fun t => decide (t.port.answer = [0x07, 0, 0] ∧ t.seq.queue = [])) = true := by decide +kernel

def rel (q : SeqNo) : Segment := { seq := q, label := 0, body := .moveRel 1 1 }

theorem test_flushQueue : gives .flushQueue (asking (withQueue [rel 18, rel 19] base))
    (fun t => decide (t.seq.queue = [] ∧ t.port.answer = [0x01, 2])) = true := by decide +kernel

theorem test_setPosition : gives (.setPosition [0xFF, 0xFF, 0xFF, 0xFE]) (asking base)
    (fun t => decide (t.gen.position.toInt = -2 ∧ t.gen.known = true)) = true := by decide +kernel

theorem test_clearEvents : gives (.clearEvents [0x20]) (asking { base with port := { base.port with haltFlag := true, linkFlag := true } })
    (fun t => decide (t.port.haltFlag = true ∧ t.port.linkFlag = false)) = true := by decide +kernel

/-- 12.3: S 0, axis IDLE, link ACTIVE, position 0 known, cycle 100. -/
theorem test_readState : gives .readState (asking base)
    (fun t => decide (t.port.answer = [0x01, 0, 1, 3, 0, 0, 0, 0, 0x01, 0, 0, 0, 100, 0])) = true := by decide +kernel

/-- The record of segment 50 of 4.7. -/
def homed : Record where
  seq := 50
  kind := .home
  code := .homed
  label := 0x0102
  startCycle := 900
  endCycle := 1214
  steps := 786
  position := 0
  known := true
  part := .none

theorem test_readCompletion : gives .readCompletion (asking { base with held := [homed] })
    (fun t => decide (t.port.answer = [0x01, 0, 50, 3, 2, 1, 2, 0x03, 0x84, 0x04, 0xBE, 0, 0x03, 0x12, 0, 0, 0, 0, 1, 0, 0, 0,
      0, 0] ∧ t.held = [homed] ∧ t.port.removal = some .record)) = true := by decide +kernel

theorem test_readHaltReport : gives .readHaltReport (asking base)
    (fun t => decide (t.port.answer = 0x0F :: List.replicate 16 0)) = true := by decide +kernel

theorem test_readPeer : gives (.readPeer [1]) (asking (withEntry 1 present base))
    (fun t => decide (byteAt t.port.answer 1 = 0x01 ∧ t.port.answer.length = 23)) = true := by decide +kernel

theorem test_readPeerChanges : gives .readPeerChanges (asking { base with peers := { base.peers with changeMap := 6 } })
    (fun t => decide (t.port.answer = [0x01, 0, 6] ∧ t.peers.changeMap = 6)) = true := by decide +kernel

/-- A note of one byte to station 1 is note 1 in slot 0. -/
theorem test_sendNote : gives (.sendNote [0, 2, 1, 0xAB]) (asking base)
    (fun t => decide (t.port.answer = [0x01, 0, 1] ∧ t.notes.order = [0])) = true := by decide +kernel

theorem test_readNote : gives .readNote
    (asking { base with notes := { base.notes with inbox := [{ sender := 1, number := 9, payload := [0xAB], acceptCycle := 100 }] } })
    (fun t => decide (t.port.answer = [0x01, 1, 9, 1, 0, 100, 0xAB, 0, 0, 0, 0, 0, 0, 0])) = true := by decide +kernel

/-- Slot 0 holds note 1 to station 1, accepted. -/
def queued : State :=
  { base with notes := { base.notes with
    slots := base.notes.slots.set 0 (.queued 1 2 [0xAB]), order := [0], nextNumber := 2 } }

theorem test_readNoteSlot : gives (.readNoteSlot [0]) (asking queued)
    (fun t => decide (t.port.answer.take 5 = [0x01, 1, 1, 0, 2])) = true := by decide +kernel

/-- Slot 0 holds note 1 to station 1, SENDING, shown in cycle 99. -/
def sending : State :=
  { base with notes := { base.notes with
    slots := base.notes.slots.set 0
      (.sending 1 2 [0xAB] 99 ((Vector.replicate 16 .no).set 1 (.pending (some 99)))), nextNumber := 2 } }

/-- Slot 0 holds note 1 to station 1, delivered. -/
def delivered : State :=
  { base with notes := { base.notes with
    slots := base.notes.slots.set 0 (.done 1 2 ((Vector.replicate 16 .no).set 1 .delivered)), nextNumber := 2 } }

theorem test_releaseNoteSlot : gives (.releaseNoteSlot [0]) (asking delivered)
    (fun t => decide (t.notes.slots.get 0 = .free ∧ t.port.answer = [0x01])) = true := by decide +kernel

theorem test_unknownRequest : gives (.unknownRequest 0x03) (asking base)
    (fun t => decide (t.port.answer = [0x02] ∧ t.port.phase = .answer)) = true := by decide +kernel

/-- R130: a frame of 27 bytes lasts 54 ticks. -/
theorem test_ownFrameEnd : gives .ownFrameEnd
    { base with link := { base.link with tx := some { bytes := framePlain, elapsed := 54 } } }
    (fun t => !t.drivesLine) = true := by decide +kernel

theorem test_lookForStartAgain : gives .lookForStartAgain { base with link := { base.link with rx := .waiting } }
    (fun t => decide (t.link.rx = .looking)) = true := by decide +kernel

/-! ## States and operands that meet the hypotheses of the statements -/

theorem ends_of_runOut (o : EventOrder) {s : State} (h : runOutDue s = true) : EndsCycle o s (after (.runOut o) s) :=
  .inl ⟨h, rfl⟩

theorem ends_of_stretched (o : EventOrder) {s : State} (h : stretchedRunOutDue s = true) :
    EndsCycle o s (after (.stretchedRunOut o) s) :=
  .inr (.inl ⟨h, rfl⟩)

theorem ends_of_edge (o : EventOrder) {s : State} (h : edgeDue s = true) (h' : s.edgeAccepted = true) :
    EndsCycle o s (after (.syncFallingEdge o) s) :=
  .inr (.inr ⟨h, h', rfl⟩)

/-- The order names no stop from outside, and nothing ends ACTIVE or loses a peer. -/
def calm (o : EventOrder) (s : State) : Bool :=
  decide (s.link.state = .active ∧ s.link.collision = false ∧ (s.timer.earlySeen = true → s.timer.earlyRun + 1 < 3) ∧
    s.link.slips ≠ .allSlips ∧
    (∀ k : Station, k ≠ s.id → k.val < s.stationCount →
      (s.entry k).presence = .present ∨ (s.entry k).presence = .stale → (s.entry k).heard = true) ∧
    BoundaryTurn.stopInput ∉ o.turns ∧ BoundaryTurn.hostHalt ∉ o.turns)

theorem quiet_of {o : EventOrder} {s : State} (h : calm o s = true) : Quiet o s := by
  simp only [calm, decide_eq_true_eq] at h
  exact ⟨h.1, h.2.1, h.2.2.1, h.2.2.2.1, h.2.2.2.2.1, ⟨fun x => absurd x h.2.2.2.2.2.1, fun x => absurd x h.2.2.2.2.2.2⟩⟩

/-- The run-out of this calm state ends the cycle. -/
theorem quiet_end {o : EventOrder} {s : State} (h : (runOutDue s && calm o s) = true) :
    EndsCycle o s (after (.runOut o) s) ∧ Quiet o s := by
  simp only [Bool.and_eq_true] at h
  exact ⟨ends_of_runOut o h.1, quiet_of h.2⟩

/-- The frame is valid, from slot k. -/
def heard (bs : List Byte) (s : State) (k : Station) : Bool :=
  decide (validSlot s.stationCount 120 (sampled bs) = some k)

def fieldsOf (bs : List Byte) (s : State) : Frame := parseFrame s.id ((sampled bs).map RxChar.data)

theorem sampled_at (bs : List Byte) (s : State) : Sampled (sampled bs) (hearing bs s) 120 :=
  ⟨2 * bs.length, rfl, by simp [sampled], by simp [sampled]⟩

theorem hears_of {bs : List Byte} {s : State} {k : Station} (h : heard bs s k = true) :
    Hears 120 (sampled bs) (hearing bs s) k (fieldsOf bs s) :=
  ⟨sampled_at bs s, of_decide_eq_true h, rfl⟩

/-- The link hands the frame to the Peer Table. -/
def recordable (bs : List Byte) (s : State) (k : Station) : Bool :=
  heard bs s k &&
    decide (k ≠ s.id ∧ profileMatches s.cfg (fieldsOf bs s) = true ∧
      (s.link.state = .joining ∨
        ((s.link.state = .active ∨ s.link.state = .duplicate) ∧ (fieldsOf bs s).view.lastCycle = s.timer.cycle)))

theorem records_of {bs : List Byte} {s : State} {k : Station} (h : recordable bs s k = true) :
    Records 120 (sampled bs) (hearing bs s) k (fieldsOf bs s) := by
  simp only [recordable, Bool.and_eq_true, decide_eq_true_eq] at h
  exact ⟨hears_of h.1, h.2.1, h.2.2.1, h.2.2.2⟩

/-! ### The queue and the tick -/

theorem test_meets_StepRunsFrontCommand : { base with pending := [.start] }.pending = .start :: [] := rfl

theorem test_meets_EmptyQueueCountsReferencePeriods :
    (base.pending = [] ∧ ({ base with timer := { base.timer with divider := 14 } } : State).timer.divider < 15) ∧
      15 ≤ ({ base with timer := { base.timer with divider := 15 } } : State).timer.divider ∧
      anyDue (atRunOut base) = true := by decide +kernel

theorem test_meets_ConfigurationIsFrozen :
    (exec .halt (asking base) = .next (after .halt (asking base)) ∧ (asking base).config.isSome = true) ∧
      exec (.configure cfgBlock) (asking State.reset) = .next (after (.configure cfgBlock) (asking State.reset)) ∧
      (asking State.reset).config = none ∧ (after (.configure cfgBlock) (asking State.reset)).config ≠ none :=
  ⟨⟨rfl, rfl⟩, rfl, rfl, by decide +kernel⟩

/-- At each end of each manner of counting no event is due. -/
theorem test_meets_TickCountsByLinkState :
    (∀ l ∈ [LinkState.joining, .active], ∀ t ∈ [0, 998, 999], anyDue (atTick t (inLink l base)) = false) ∧
      (∀ t ∈ [1014, 1015], anyDue (atTick t (inLink .duplicate base)) = false) ∧
      (∀ t ∈ [999, 2999, 3000], anyDue (atTick t (inLink .listen base)) = false) ∧
      anyDue (atTick 0 (inLink .idle base)) = false := by decide +kernel

/-- The receiver takes a start in the window of slot 1 (its first and last positions), past it, past the end of the cycle in
LISTEN, and not at all in the own slot; or it is receiving, or waiting. A founding request of LISTEN is one tick old. -/
theorem test_meets_TickSamplesAndAges :
    anyDue base = false ∧ anyDue State.reset = false ∧
      (∀ t ∈ [119, 126, 127, 29], anyDue (atTick t base) = false ∧ (atTick t base).link.rx = .looking) ∧
      (∀ t ∈ [23, 1023], anyDue (atTick t (inLink .listen base)) = false) ∧
      (anyDue (hearing framePlain base) = false ∧ (hearing framePlain base).link.rx = .receiving 120 54) ∧
      anyDue { base with link := { base.link with rx := .waiting } } = false ∧
      anyDue { inLink .listen base with timer := { base.timer with founding := .requested } } = false := by decide +kernel

/-! ### The boundary and the edges -/

theorem test_meets_RunOutBeginsNextCycle :
    runOutDue (atRunOut base) = true ∧ runOutDue (atRunOut (inLink .joining base)) = true := by decide +kernel

/-- Both ends of the acceptance window, and of the one that DUPLICATE stretches. -/
theorem test_meets_EdgeOrStretchedRunOutBeginsNextCycle :
    stretchedRunOutDue
        { inLink .duplicate base with timer := { base.timer with t := 1015, raised := { Raised.clear with stretched := true } } } =
      true ∧
      (∀ t ∈ [984, 999], edgeDue (atEdge t base) = true ∧ (atEdge t base).edgeAccepted = true) ∧
      ∀ t ∈ [984, 1015], edgeDue (atEdge t (inLink .duplicate base)) = true ∧
        (atEdge t (inLink .duplicate base)).edgeAccepted = true := by decide +kernel

/-- LISTEN with the previous edge present and a candidate. -/
def listening : State :=
  { inLink .listen base with link := { Link.reset with
    state := .listen, prevEdge := true, candidate := some { cycle := 41, join := false } } }

theorem test_meets_OtherEdgesActByLinkState :
    (∀ l ∈ [LinkState.joining, .active, .duplicate], (atEdge 983 (inLink l base)).timer.raised.edge = true ∧
      (atEdge 983 (inLink l base)).edgePosition + 16 < (atEdge 983 (inLink l base)).cycleUs) ∧
      ((atEdge 0 (inLink .idle base)).timer.raised.edge = true ∧ (atEdge 0 (inLink .idle base)).link.state = .idle) ∧
      (∀ t ∈ [984, 1016], (atEdge t listening).timer.raised.edge = true ∧ (atEdge t listening).link.state = .listen ∧
        (atEdge t listening).link.prevEdge = true ∧ (atEdge t listening).timer.founding = .none ∧
        (atEdge t listening).cycleUs ≤ t + 16 ∧ t ≤ (atEdge t listening).cycleUs + 16 ∧
        (atEdge t listening).link.candidate = some { cycle := 41, join := false }) ∧
      (983 + 16 < (atEdge 983 listening).cycleUs ∧ (atEdge 1017 listening).cycleUs + 16 < 1017) := by decide +kernel

/-- The own frame is being sent, and its first two ticks have passed. -/
def transmitting (elapsed : Nat) : State :=
  { base with link := { base.link with tx := some { bytes := framePlain, elapsed := elapsed } } }

theorem test_meets_TimerAndLineEvents :
    (({ base with timer := { base.timer with highRun := 4 } } : State).timer.armed = false) ∧
      ({ base with timer := { base.timer with pulse := some 0 } } : State).timer.pulse = some 0 ∧
      (({ inLink .listen base with timer := { base.timer with raised := { Raised.clear with silence := true } } } :
        State).timer.raised.silence = true) ∧
      (({ inLink .listen base with timer := { base.timer with founding := .due } } : State).timer.founding = .due) ∧
      (sentRecessive framePlain 9 = true ∧ 9 / 5 = (1 : Nat) ∧ (transmitting 1).link.tx = some { bytes := framePlain, elapsed := 1 }) ∧
      sentRecessive framePlain 10 = false ∧
      2 * framePlain.length ≤ 54 := by decide +kernel

/-! ### The own frame and received frames -/

def atSlot (t : Nat) (s : State) : State :=
  { s with timer := { s.timer with t := t, raised := { Raised.clear with slotStart := true } } }

theorem test_meets_SlotStartTransmitsOwnFrame :
    (∀ l ∈ [LinkState.joining, .active], (atSlot 24 (inLink l base)).timer.raised.slotStart = true ∧
      (atSlot 24 (inLink l base)).id.val < (atSlot 24 (inLink l base)).stationCount ∧
      (atSlot 24 (inLink l base)).timer.t = 24 + 96 * (atSlot 24 (inLink l base)).id.val) ∧
      (sending.notes.sendingId = some 0 ∧ sending.link.state = .active) ∧
      (atSlot 120 base).timer.t ≠ 24 + 96 * (atSlot 120 base).id.val ∧
      (atSlot 24 (inLink .duplicate base)).link.state ≠ .active := by decide +kernel

theorem test_meets_OwnFrameIsReceivedWhole :
    sending.config = some cfg ∧ settingsValid sending.id cfg = true ∧ noteLaw sending = true ∧ (7 : Nat) < 8 ∧
      sending.notes.sendingId = some 0 := by decide +kernel

/-- All six checks pass on the bytes written out, heard in slot 1. -/
theorem test_frames_are_valid :
    ∀ bs ∈ [framePlain, frameArrival, frameMismatch, frameHalted, frameOrigin, frameJoin, frameNote, frameRelease, frameLater,
        frameProfile, frameAck],
      heard bs base 1 = true := by decide +kernel

/-- No frame is being received, or its last stop bit has not come; its start lies just before slot 1, in no slot, or fails
a check; it is a slip; and it reaches a DUPLICATE link. -/
theorem test_meets_UnrecordedFrameLeavesNoTrace :
    (¬ Sampled (sampled framePlain) base 120 ∧
      ¬ Sampled (sampled framePlain) { base with link := { base.link with rx := .receiving 120 52 } } 120) ∧
      (Sampled (sampled framePlain) { base with link := { base.link with rx := .receiving 119 53 } } 119 ∧
        ∀ k, k < 3 → 119 < 24 + 96 * k ∨ 31 + 96 * k < 119) ∧
      (Sampled (sampled (framePlain.set 26 0x8B)) (hearing framePlain base) 120 ∧
        validSlot base.stationCount 120 (sampled (framePlain.set 26 0x8B)) = none) ∧
      (Hears 120 (sampled framePlain) (hearing framePlain (inCycle 101 base)) 1 (fieldsOf framePlain (inCycle 101 base)) ∧
        profileMatches cfg (fieldsOf framePlain base) = true ∧ (fieldsOf framePlain base).view.lastCycle ≠ 101) ∧
      Hears 120 (sampled framePlain) (hearing framePlain (inCycle 101 (inLink .duplicate base))) 1
        (fieldsOf framePlain (inCycle 101 (inLink .duplicate base))) := by
  refine ⟨⟨fun h => ?_, fun h => ?_⟩, ⟨⟨53, rfl, by decide, by decide⟩, by omega⟩, ⟨⟨54, rfl, by decide, by decide⟩,
    by decide +kernel⟩, ⟨hears_of (by decide +kernel), by decide +kernel, by decide +kernel⟩, hears_of (by decide +kernel)⟩
  · obtain ⟨_, h, _⟩ := h
    cases h
  · obtain ⟨_, h, h', _⟩ := h
    cases h
    exact absurd h' (by decide)

theorem records_plain : Records 120 (sampled framePlain) (hearing framePlain base) 1 (fieldsOf framePlain base) :=
  records_of (by decide +kernel)

theorem test_meets_CompatibleFrameIsRecorded :
    (Records 120 (sampled framePlain) (hearing framePlain base) 1 (fieldsOf framePlain base) ∧
      Returning (base.entry 1).presence) ∧
      Records 120 (sampled framePlain) (hearing framePlain (withEntry 1 present base)) 1
        (fieldsOf framePlain (withEntry 1 present base)) ∧
      ((withEntry 1 present base).entry 1).presence = .present :=
  ⟨⟨records_plain, .inl (by decide +kernel)⟩, records_of (by decide +kernel), by decide +kernel⟩

/-- The context of 5.8 at station 0: arrivals 100 of the own station and 101 of station 2. -/
def ctx (release : Option Release) : BarrierCtx where
  seq := 19
  tag := 7
  mask := 7
  arrival := 100
  arrivals := (Vector.replicate 16 none).set 2 (some 101)
  timeout := 20
  release := release

/-- Station 0 of 5.8 waits in cycle 103. -/
def waiting (release : Option Release) : State :=
  inCycle 103 (inAxis .waiting (withCtx (ctx release) (running (.barrier 7 7 20) .none base)))

/-- Station 1 is in the stop group. -/
def grouped : State := { base with config := some { cfg with stopGroup := 2 } }

theorem test_meets_ProfileMismatchMakesIncompatible :
    (Hears 120 (sampled frameProfile) (hearing frameProfile base) 1 (fieldsOf frameProfile base) ∧
      profileMatches base.cfg (fieldsOf frameProfile base) = false ∧ (base.entry 1).presence ≠ .incompatible) ∧
      Hears 120 (sampled frameProfile) (hearing frameProfile (withEntry 1 { PeerEntry.blank with presence := .incompatible } base))
        1 (fieldsOf frameProfile base) ∧
      (Hears 120 (sampled frameProfile) (hearing frameProfile grouped) 1 (fieldsOf frameProfile grouped) ∧
        inMask grouped.cfg.stopGroup 1 = true ∧ grouped.barrier.ctx = none ∧ grouped.seq.axis = .idle) ∧
      (∀ c, c = cfg ∨ c = { cfg with stopGroup := 2 } →
        Hears 120 (sampled frameProfile) (hearing frameProfile { waiting none with config := some c }) 1
          (fieldsOf frameProfile base)) ∧
      (waiting none).seq.axis = .waiting ∧ (waiting none).barrier.ctx = some (ctx none) ∧
      inMask (ctx none).mask 1 = true := by
  refine ⟨⟨hears_of (by decide +kernel), by decide +kernel, by decide +kernel⟩, hears_of (by decide +kernel),
    ⟨hears_of (by decide +kernel), by decide +kernel, rfl, rfl⟩, ?_, rfl, rfl, by decide +kernel⟩
  rintro c (rfl | rfl)
  · exact hears_of (s := { waiting none with config := some cfg }) (by decide +kernel)
  · exact hears_of (s := { waiting none with config := some { cfg with stopGroup := 2 } }) (by decide +kernel)

theorem test_meets_FrameNumberIsTakenUp :
    Hears 120 (sampled framePlain) (hearing framePlain listening) 1 (fieldsOf framePlain listening) ∧
      (Records 120 (sampled framePlain) (hearing framePlain (inCycle 99 (inLink .joining base))) 1
          (fieldsOf framePlain (inCycle 99 (inLink .joining base))) ∧
        (fieldsOf framePlain base).view.lastCycle ≠ 99 ∧ (fieldsOf framePlain base).view.join = false) ∧
      Records 120 (sampled framePlain) (hearing framePlain (inLink .joining base)) 1
        (fieldsOf framePlain (inLink .joining base)) ∧
      (fieldsOf framePlain base).view.lastCycle = (inLink .joining base).timer.cycle :=
  ⟨hears_of (by decide +kernel), ⟨records_of (by decide +kernel), by decide +kernel, by decide +kernel⟩,
    records_of (by decide +kernel), by decide +kernel⟩

/-! ### Membership and ageing -/

/-- JOINING with this many boundaries counted, its cycle running out. -/
def joined (n : Nat) : State := atRunOut { base with link := { Link.reset with state := .joining, joinCount := n } }

/-- JOINING with its fourth boundary at hand and a DISABLED axis, this latch and this level of STOPN. -/
def entering (latch : Bool) (stopn : Filter) : State :=
  inAxis .disabled { joined 3 with haltCtl := { base.haltCtl with latch := latch, stopn := stopn } }

theorem test_meets_JoiningCountsToActive :
    (∀ n, n ≤ 3 → EndsCycle anyOrder (joined n) (after (.runOut anyOrder) (joined n))) ∧
      (joined 2).link.joinCount < 3 ∧ 3 ≤ (joined 3).link.joinCount ∧
      (joined 3).link.collision = false ∧ (joined 3).link.slips ≠ .allSlips ∧ (joined 3).timer.earlySeen = false ∧
      (joined 3).timer.adoption = none ∧
      (∀ latch stopn, EndsCycle anyOrder (entering latch stopn) (after (.runOut anyOrder) (entering latch stopn))) ∧
      (∀ latch stopn, Unstopped anyOrder (entering latch stopn)) ∧ (entering true high).seq.axis = .disabled ∧
      (entering true high).seq.exec = none ∧ (entering true high).barrier.ctx = none ∧ AllHeard (entering false high) :=
  ⟨fun _ _ => ends_of_runOut _ rfl, by decide, by decide, rfl, by decide, rfl, rfl, fun _ _ => ends_of_runOut _ rfl,
    fun _ _ => ⟨nofun, nofun⟩, rfl, rfl, rfl, by unfold AllHeard; decide +kernel⟩

/-- R102: a latch set before the first entry to ACTIVE halts the axis there. -/
theorem test_runOut_latch : gives (.runOut anyOrder) (entering true high)
    (fun t => decide (t.link.state = .active ∧ t.seq.axis = .halted ∧
      t.haltCtl.report.map (fun r => r.cause) = some .hostHalt)) = true := by decide +kernel

/-- A collision has been marked in the cycle that runs out, after this many such cycles. -/
def collided (n : Nat) : State := atRunOut { base with link := { base.link with collision := true, collisionRun := n } }

theorem test_meets_ThirdCollisionMakesDuplicate :
    (∀ n, EndsCycle anyOrder (collided n) (after (.runOut anyOrder) (collided n))) ∧
      (collided 2).link.collision = true ∧ (collided 2).link.slips ≠ .allSlips ∧ (collided 2).timer.earlySeen = false ∧
      2 ≤ (collided 2).link.collisionRun ∧ (collided 1).link.collisionRun < 2 ∧ (collided 2).seq.axis ≠ .disabled ∧
      axisLaw (collided 2) = true ∧ EndsCycle anyOrder (atRunOut base) (after (.runOut anyOrder) (atRunOut base)) ∧
      (atRunOut base).link.collision = false ∧ axisLaw (atRunOut base) = true :=
  ⟨fun _ => ends_of_runOut _ rfl, rfl, by decide, rfl, by decide, by decide, by decide, rfl, ends_of_runOut _ rfl, rfl, rfl⟩

/-- The third cycle of early edges runs out (1.11). -/
def earlyThird : State :=
  { base with timer := { base.timer with
    t := 999, earlySeen := true, earlyRun := 2, raised := { Raised.clear with runOut := true } } }

/-- The third cycle of slips runs out. -/
def slipThird : State := atRunOut { base with link := { base.link with slips := .allSlips, slipRun := 2 } }

theorem test_meets_SyncLossReturnsToListen :
    (EndsCycle anyOrder earlyThird (after (.runOut anyOrder) earlyThird) ∧ earlyThird.link.collision = false ∧
        axisLaw earlyThird = true ∧ linkAxisLaw earlyThird = true ∧ earlyThird.timer.earlySeen = true ∧ 2 ≤ earlyThird.timer.earlyRun) ∧
      (EndsCycle anyOrder slipThird (after (.runOut anyOrder) slipThird) ∧ slipThird.link.collision = false ∧
        axisLaw slipThird = true ∧ linkAxisLaw slipThird = true ∧ slipThird.link.slips = .allSlips ∧ 2 ≤ slipThird.link.slipRun) ∧
      noteLaw { earlyThird with notes := sending.notes } = true ∧
      EndsCycle anyOrder { earlyThird with notes := sending.notes }
        (after (.runOut anyOrder) { earlyThird with notes := sending.notes }) :=
  ⟨⟨ends_of_runOut _ rfl, rfl, rfl, rfl, rfl, by decide⟩, ⟨ends_of_runOut _ rfl, rfl, rfl, rfl, rfl, by decide⟩,
    by decide +kernel, ends_of_runOut _ rfl⟩

/-- Station 1 was missed in the cycles before, and is not heard in the one that runs out. -/
def missing (n : Nat) : State :=
  atRunOut (withEntry 1 { PeerEntry.blank with presence := .stale, missed := n } (withEntry 2 present base))

/-- The stretched run-out of DUPLICATE ages too (R143). -/
def stretched (s : State) : State :=
  { inLink .duplicate s with timer := { s.timer with t := 1015, raised := { Raised.clear with stretched := true } } }

theorem test_meets_BoundaryAgesPeers :
    (EndsCycle anyOrder (missing 2) (after (.runOut anyOrder) (missing 2))) ∧
      (after (.runOut anyOrder) (missing 2)).counting = true ∧ ((missing 2).entry 1).heard = false ∧
      ((missing 2).entry 2).heard = true ∧ ((missing 2).entry 1).missed + 1 = (missing 2).cfg.lossLimit ∧
      (1 : Station) ≠ (missing 2).id ∧ (missing 2).stationCount ≤ (3 : Station).val ∧
      EndsCycle anyOrder (stretched (missing 2)) (after (.stretchedRunOut anyOrder) (stretched (missing 2))) ∧
      (after (.stretchedRunOut anyOrder) (stretched (missing 2))).counting = true :=
  ⟨ends_of_runOut _ (by decide +kernel), by decide +kernel, by decide +kernel, by decide +kernel, by decide +kernel,
    by decide +kernel, by decide +kernel, ends_of_stretched _ (by decide +kernel), by decide +kernel⟩

/-! ### Notes -/

def inbox (n : Nat) : List InNote := List.replicate n { sender := 1, number := 1, payload := [], acceptCycle := 0 }

/-- Seven and eight notes wait, and station 1 shows note 9; the memory differs from its toggle, or equals it. -/
theorem test_meets_NoteIsTakenOnce :
    (Records 120 (sampled frameNote) (hearing frameNote { base with notes := { base.notes with inbox := inbox 7 } }) 1
        (fieldsOf frameNote base) ∧
      Records 120 (sampled frameNote) (hearing frameNote { base with notes := { base.notes with inbox := inbox 8 } }) 1
        (fieldsOf frameNote base)) ∧
      (fieldsOf frameNote base).note =
        some { number := 9, pendingMask := 1, toggleMap := 1, payload := [0xAB] } ∧
      inMask 1#16 base.id ≠ (base.entry 1).memory ∧
      Records 120 (sampled frameNote) (hearing frameNote (withEntry 1 { present with memory := true } base)) 1
        (fieldsOf frameNote base) ∧
      ((withEntry 1 { present with memory := true } base).entry 1).memory = true ∧
      Records 120 (sampled framePlain) (hearing framePlain base) 1 (fieldsOf framePlain base) ∧
      (fieldsOf framePlain base).note = none :=
  ⟨⟨records_of (s := { base with notes := { base.notes with inbox := inbox 7 } }) (by decide +kernel),
      records_of (s := { base with notes := { base.notes with inbox := inbox 8 } }) (by decide +kernel)⟩,
    by decide +kernel, by decide +kernel, records_of (s := withEntry 1 { present with memory := true } base) (by decide +kernel),
    by decide +kernel, records_plain, by decide +kernel⟩

/-- Station 1's ack equals the toggle toward it, in the cycle after the one that showed the note; station 1 restarts; its ack
0 counts against the resync shown cycle; a queued note and a sending one at a quiet boundary, 15 and 16 cycles after its
start, its destination present or gone. -/
theorem test_meets_NoteIsDelivered :
    (Records 120 (sampled frameAck) (hearing frameAck (withEntry 1 { present with toggle := true } sending)) 1
        (fieldsOf frameAck (withEntry 1 { present with toggle := true } sending)) ∧
      (withEntry 1 { present with toggle := true } sending).notes.sendingId = some 0 ∧
      later 100 99 = true ∧ inMask (fieldsOf frameAck base).ackMap base.id = true) ∧
      (Records 120 (sampled frameJoin) (hearing frameJoin sending) 1 (fieldsOf frameJoin sending) ∧
        (fieldsOf frameJoin sending).view.join = true ∧ sending.notes.sendingId = some 0) ∧
      (Records 120 (sampled framePlain)
          (hearing framePlain (withEntry 1 { present with resync := true, resyncShown := some 99 } base)) 1
          (fieldsOf framePlain base) ∧ inMask (fieldsOf framePlain base).ackMap base.id = false) ∧
      ((EndsCycle anyOrder (atRunOut queued) (after (.runOut anyOrder) (atRunOut queued)) ∧ Quiet anyOrder (atRunOut queued)) ∧
        noteLaw queued = true ∧ queued.notes.sendingId = none ∧ queued.notes.order = 0 :: []) ∧
      (∀ c ∈ [113#16, 114#16],
        (EndsCycle anyOrder (atRunOut (inCycle c sending)) (after (.runOut anyOrder) (atRunOut (inCycle c sending))) ∧
          Quiet anyOrder (atRunOut (inCycle c sending)))) ∧
      noteLaw sending = true ∧ nextCycle (atRunOut (inCycle 114 sending)) = 99 + 16 ∧
      Returning ((atRunOut sending).entry 1).presence ∧
      ¬ Returning ((atRunOut (withEntry 1 present sending)).entry 1).presence := by
  refine ⟨⟨records_of (by decide +kernel), by decide +kernel, by decide +kernel, by decide +kernel⟩,
    ⟨records_of (by decide +kernel), by decide +kernel, by decide +kernel⟩,
    ⟨records_of (s := withEntry 1 { present with resync := true, resyncShown := some 99 } base) (by decide +kernel),
      by decide +kernel⟩,
    ⟨quiet_end (by decide +kernel), by decide +kernel, by decide +kernel, rfl⟩, ?_, by decide +kernel, by decide +kernel,
    .inl (by decide +kernel), by decide +kernel⟩
  intro c hc
  simp only [List.mem_cons, List.not_mem_nil, or_false] at hc
  obtain rfl | rfl := hc
  · exact quiet_end (by decide +kernel)
  · exact quiet_end (by decide +kernel)

/-! ### The stop group and the barrier -/

/-- Station 1 of the stop group shows ORIGIN and HALTED to an IDLE, a HALTED and a waiting axis. -/
theorem test_meets_GroupHaltFromOrigin :
    (Records 120 (sampled frameOrigin) (hearing frameOrigin (inCycle 103 grouped)) 1 (fieldsOf frameOrigin grouped) ∧
      Records 120 (sampled frameOrigin) (hearing frameOrigin (inCycle 103 (inAxis .halted grouped))) 1
        (fieldsOf frameOrigin grouped)) ∧
      inMask grouped.cfg.stopGroup 1 = true ∧ (fieldsOf frameOrigin grouped).view.origin = true ∧
      grouped.barrier.ctx = none ∧
      Records 120 (sampled frameOrigin) (hearing frameOrigin { waiting none with config := grouped.config }) 1
        (fieldsOf frameOrigin grouped) ∧
      (waiting none).barrier.ctx = some (ctx none) ∧ inMask (ctx none).mask 1 = true ∧
      (fieldsOf frameOrigin grouped).view.halted = true ∧ (fieldsOf frameOrigin grouped).view.barTag ≠ (ctx none).tag ∧
      (fieldsOf frameOrigin grouped).view.relTag ≠ (ctx none).tag :=
  ⟨⟨records_of (by decide +kernel), records_of (s := inCycle 103 (inAxis .halted grouped)) (by decide +kernel)⟩,
    by decide +kernel, by decide +kernel, rfl,
    records_of (s := { waiting none with config := grouped.config }) (by decide +kernel), rfl, by decide +kernel,
    by decide +kernel, by decide +kernel, by decide +kernel⟩

theorem test_meets_BarrierArrivalCompletes :
    (Records 120 (sampled frameArrival) (hearing frameArrival (waiting none)) 1 (fieldsOf frameArrival (waiting none)) ∧
      inMask (waiting none).cfg.stopGroup 1 = false ∧ (waiting none).barrier.ctx = some (ctx none) ∧
      inMask (ctx none).mask 1 = true ∧ (fieldsOf frameArrival base).view.barTag = (ctx none).tag ∧
      (fieldsOf frameArrival base).view.barMask = (ctx none).mask ∧
      (fieldsOf frameArrival base).view.relTag ≠ (ctx none).tag ∧ (fieldsOf frameArrival base).view.halted = false) ∧
      (Records 120 (sampled frameRelease) (hearing frameRelease (waiting none)) 1 (fieldsOf frameRelease (waiting none)) ∧
        (fieldsOf frameRelease base).view.relTag = (ctx none).tag ∧
        later (fieldsOf frameRelease base).view.relCycle (ctx none).arrival = true ∧
        later (fieldsOf frameRelease base).view.relCycle (waiting none).timer.cycle = false) ∧
      Records 120 (sampled frameLater) (hearing frameLater (waiting none)) 1 (fieldsOf frameLater (waiting none)) ∧
      (fieldsOf frameLater base).view.relTag ≠ (ctx none).tag ∧ (fieldsOf frameLater base).view.halted = false :=
  ⟨⟨records_of (by decide +kernel), by decide +kernel, by decide +kernel, by decide +kernel, by decide +kernel,
      by decide +kernel, by decide +kernel, by decide +kernel⟩,
    ⟨records_of (by decide +kernel), by decide +kernel, by decide +kernel, by decide +kernel⟩,
    records_of (by decide +kernel), by decide +kernel, by decide +kernel⟩

theorem test_meets_BarrierFrameFails :
    (Records 120 (sampled frameMismatch) (hearing frameMismatch (waiting none)) 1 (fieldsOf frameMismatch (waiting none)) ∧
      (fieldsOf frameMismatch base).view.barTag = (ctx none).tag ∧
      (fieldsOf frameMismatch base).view.barMask ≠ (ctx none).mask) ∧
      Records 120 (sampled frameHalted) (hearing frameHalted (waiting none)) 1 (fieldsOf frameHalted (waiting none)) ∧
      (fieldsOf frameHalted base).view.barTag ≠ (ctx none).tag ∧
      (fieldsOf frameHalted base).view.relTag ≠ (ctx none).tag ∧ (fieldsOf frameHalted base).view.halted = true ∧
      inMask (waiting none).cfg.stopGroup 1 = false ∧ (waiting none).seq.axis = .waiting :=
  ⟨⟨records_of (by decide +kernel), by decide +kernel, by decide +kernel⟩, records_of (by decide +kernel),
    by decide +kernel, by decide +kernel, by decide +kernel, by decide +kernel, by decide +kernel⟩

/-- A barrier segment with tag 7 waits at the head of the queue, and a MOVE_REL of +1 behind it. -/
def arriving (mask : Mask) (s : State) : State :=
  atRunOut (withQueue [{ seq := 18, label := 0, body := .barrier 7 mask 20 }, { seq := 19, label := 0, body := .moveRel 1 1 }] s)

/-- The late release halts, and STOPN becomes active at the same boundary. -/
def lateStop : State :=
  { atRunOut (waiting (some { r := 103, q := 104, lateness := 1 })) with
    config := some { cfg with lateHalts := true }, haltCtl := { base.haltCtl with stopn := { high with run := 4 } } }

def stopBetween : EventOrder := { anyOrder with turns := [.motion, .stopInput, .lateHalt] }

/-- The boundary that begins 104 finds the barrier INCOMPLETE, releasing or waiting, and in 5.10 past its deadline 120; a
segment waits behind it; a STOP_INPUT falls between a late release and its fault; a BARRIER starts whose members are absent,
arrived, S alone, or LOST. -/
theorem test_meets_BarrierReleasesOrTimesOut :
    (∀ r, EndsCycle anyOrder (atRunOut (waiting r)) (after (.runOut anyOrder) (atRunOut (waiting r)))) ∧
      Quiet anyOrder (atRunOut (waiting none)) ∧
      Quiet anyOrder (atRunOut (waiting (some { r := 103, q := 104, lateness := 1 }))) ∧
      nextCycle (atRunOut (waiting (some { r := 104, q := 104, lateness := 0 }))) = 104 ∧
      nextCycle (atRunOut (waiting (some { r := 103, q := 104, lateness := 1 }))) = 104 ∧
      (20 : Int) ≤ cycleDiff (nextCycle (atRunOut (inCycle 119 (waiting none)))) (ctx none).arrival ∧
      cycleDiff (nextCycle (atRunOut (inCycle 118 (waiting none)))) (ctx none).arrival < 20 ∧
      (waiting none).seq.outstanding = [] ∧ (waiting none).seq.queue = [] ∧
      (EndsCycle anyOrder (atRunOut (withQueue [rel 20] (waiting (some { r := 103, q := 104, lateness := 1 }))))
          (after (.runOut anyOrder) (atRunOut (withQueue [rel 20] (waiting (some { r := 103, q := 104, lateness := 1 }))))) ∧
        Quiet anyOrder (atRunOut (withQueue [rel 20] (waiting (some { r := 103, q := 104, lateness := 1 }))))) ∧
      axisLaw (withQueue [rel 20] (waiting (some { r := 103, q := 104, lateness := 1 }))) = true ∧
      StartsFrom 0 (rel 20) 1 1 ∧
      (EndsCycle stopBetween lateStop (after (.runOut stopBetween) lateStop) ∧ stopInputDue lateStop = true ∧
        lateStop.cfg.lateHalts = true ∧ lateStop.seq.axis = .waiting) ∧
      ((EndsCycle anyOrder (arriving 7 base) (after (.runOut anyOrder) (arriving 7 base)) ∧ Quiet anyOrder (arriving 7 base)) ∧
        settingsValid base.id cfg = true ∧ (base.entry 1).presence = .absent) ∧
      ((EndsCycle anyOrder (arriving 3 (withEntry 1 { present with view := { PeerView.blank with barTag := 7, barMask := 3 } } base))
          (after (.runOut anyOrder)
            (arriving 3 (withEntry 1 { present with view := { PeerView.blank with barTag := 7, barMask := 3 } } base))) ∧
        Quiet anyOrder
          (arriving 3 (withEntry 1 { present with view := { PeerView.blank with barTag := 7, barMask := 3 } } base)))) ∧
      (EndsCycle anyOrder (arriving 1 base) (after (.runOut anyOrder) (arriving 1 base)) ∧ Quiet anyOrder (arriving 1 base)) ∧
      (EndsCycle anyOrder (arriving 7 (withEntry 1 { PeerEntry.blank with presence := .lost } base))
          (after (.runOut anyOrder) (arriving 7 (withEntry 1 { PeerEntry.blank with presence := .lost } base))) ∧
        Quiet anyOrder (arriving 7 (withEntry 1 { PeerEntry.blank with presence := .lost } base))) :=
  ⟨fun _ => ends_of_runOut _ rfl, quiet_of (by decide +kernel), quiet_of (by decide +kernel), by decide +kernel,
    by decide +kernel, by decide +kernel, by decide +kernel, rfl, rfl, quiet_end (by decide +kernel),
    rfl, ⟨rfl, by decide, by decide⟩, ⟨ends_of_runOut _ (by decide +kernel), by decide +kernel, rfl, rfl⟩,
    ⟨quiet_end (by decide +kernel), by decide +kernel, by decide +kernel⟩, quiet_end (by decide +kernel),
    quiet_end (by decide +kernel), quiet_end (by decide +kernel)⟩

/-- R101, R103: STOP_INPUT makes the report, and the late halt after it sets the latch. -/
theorem test_runOut_lateStop : gives (.runOut stopBetween) lateStop
    (fun t => decide (t.haltCtl.report.map (fun r => r.cause) = some .stopInput ∧ t.haltCtl.latch = true ∧
      t.held.map (fun r => r.code) = [.releasedLate])) = true := by decide +kernel

/-! ### Starts and ends at a boundary -/

def starting (body : SegBody) (s : State) : State := atRunOut (withQueue [{ seq := 19, label := 0, body := body }] s)

/-- The base state at its run-out is quiet, whatever waits in its queue, executes or is held. -/
theorem quiet_base (seq : Sequencer) (held : List Record) (gen : StepGen) :
    Quiet anyOrder { atRunOut base with seq := seq, held := held, gen := gen } :=
  have h : Quiet anyOrder (atRunOut base) := quiet_of (by decide +kernel)
  ⟨h.active, h.collision, h.early, h.slips, h.heard, nofun, nofun⟩

def atPosition (p : Position) (known : Bool) (s : State) : State :=
  { s with gen := { s.gen with position := p, known := known } }

/-- The last position that a MOVE_REL of +1 may start from, the first that it may not, a MOVE_ABS at the rate limit (33 steps
of 30 µs in 1000 µs) and past it, one step too many, and an unknown position. -/
theorem test_meets_TimedSegmentStartsOrFails :
    (∀ body p known, EndsCycle anyOrder (starting body (atPosition p known base))
        (after (.runOut anyOrder) (starting body (atPosition p known base))) ∧
      Quiet anyOrder (starting body (atPosition p known base))) ∧
      (atPosition 0x7FFFFFFE true base).startPosition + 1 = 2147483647 ∧
      (atPosition 0x7FFFFFFF true base).startPosition + 1 = 2147483648 ∧
      ((33#32).toInt - base.startPosition).natAbs * base.cfg.minStepUs ≤ 1 * base.cycleUs ∧
      1 * base.cycleUs < ((34#32).toInt - base.startPosition).natAbs * base.cfg.minStepUs ∧
      65535 < ((65536#32).toInt - base.startPosition).natAbs ∧ (atPosition 0 false base).gen.known = false ∧
      16 ≤ (List.replicate 16 homed).length + base.seq.outstanding.length ∧
      (List.replicate 15 homed).length + base.seq.outstanding.length < 16 :=
  ⟨fun _ _ _ => ⟨ends_of_runOut _ rfl, quiet_base _ _ _⟩, by decide +kernel, by decide +kernel, by decide +kernel,
    by decide +kernel, by decide +kernel, rfl, by decide +kernel, by decide +kernel⟩

/-- One step is owed, and the axis is IDLE. -/
def behindSteps : State :=
  { base with
    gen := { base.gen with position := 31, dirHigh := true, spacing := some 30 }
    seq := { base.seq with outstanding := [.finishing {
      seg := { seq := 18, label := 0, body := .moveRel 32 1 }, startCycle := 99,
      source := { dir := .plus, n := 32, length := 1000, emitted := 31, fallen := 32 } }] } }

def withHome (f : Filter) (s : State) : State := { s with gen := { s.gen with home := f, probe := f } }

/-- STOPN becomes active at the tick of the boundary, with the input of the axis at this level. -/
def stopAtStart (body : SegBody) (input : Filter) : State :=
  { starting body (withHome input base) with haltCtl := { base.haltCtl with stopn := { high with run := 4 } } }

/-- The STOP_INPUT is taken between the start and its examination. -/
def stopFirst : EventOrder := { anyOrder with turns := [.motion, .stopInput, .examination] }

def stopSecond : EventOrder := { anyOrder with turns := [.motion, .examination, .stopInput] }

/-- R34, R67: with HOME active, a halt between the start and the examination ends the HOME HALTED; after it, HOMED. -/
theorem test_runOut_stopAtStart :
    gives (.runOut stopFirst) (stopAtStart homeBody high)
      (fun t => decide (t.held.map (fun r => (r.code, r.steps)) = [(.halted, 0)] ∧ t.seq.axis = .halted)) = true ∧
    gives (.runOut stopSecond) (stopAtStart homeBody high)
      (fun t => decide (t.held.map (fun r => r.code) = [.homed] ∧ t.seq.axis = .halted)) = true := by decide +kernel

theorem test_meets_UntimedSegmentStarts :
    (∀ body, EndsCycle anyOrder (starting body base) (after (.runOut anyOrder) (starting body base)) ∧
      EndsCycle anyOrder (starting body (withHome high base)) (after (.runOut anyOrder) (starting body (withHome high base))) ∧
      Quiet anyOrder (starting body base) ∧ Quiet anyOrder (starting body (withHome high base))) ∧
      base.inputActive .home = false ∧ base.inputActive .probe = false ∧
      (withHome high base).inputActive .home = true ∧ (withHome high base).inputActive .probe = true ∧
      base.seq.outstanding = [] ∧ base.held.length < 16 ∧
      ((EndsCycle anyOrder (starting homeBody behindSteps) (after (.runOut anyOrder) (starting homeBody behindSteps)) ∧
          Quiet anyOrder (starting homeBody behindSteps)) ∧
        (starting homeBody behindSteps).seq.finishing ≠ [] ∧ (starting homeBody behindSteps).seq.axis = .idle) ∧
      (∀ o body, EndsCycle o (stopAtStart body low) (after (.runOut o) (stopAtStart body low)) ∧
        EndsCycle o (stopAtStart body high) (after (.runOut o) (stopAtStart body high))) ∧
      (∀ body input, stopInputDue (stopAtStart body input) = true ∧ (stopAtStart body input).seq.axis = .idle ∧
        (stopAtStart body input).barrier.ctx = none) ∧
      (stopAtStart homeBody high).inputActive .home = true ∧ (stopAtStart probeBody high).inputActive .probe = true :=
  ⟨fun _ => ⟨ends_of_runOut _ rfl, ends_of_runOut _ rfl, quiet_base _ _ _, quiet_base _ _ _⟩, by decide +kernel,
    by decide +kernel, by decide +kernel, by decide +kernel, rfl, by decide,
    ⟨quiet_end (by decide +kernel), by decide +kernel, rfl⟩, fun _ _ => ⟨ends_of_runOut _ rfl, ends_of_runOut _ rfl⟩,
    fun _ _ => ⟨rfl, rfl, rfl⟩, by decide +kernel, by decide +kernel⟩

/-- Segment 20 of 3.10 runs with 31 of its 32 steps begun, and D cycles long. -/
def moving (d emitted : Nat) : State :=
  atRunOut (running (.moveRel 32 d) (.timed { dir := .plus, n := 32, length := d * 1000, emitted := emitted, fallen := emitted })
    base)

theorem test_meets_TimedSegmentEnds :
    (EndsCycle anyOrder (moving 1 32) (after (.runOut anyOrder) (moving 1 32)) ∧ Quiet anyOrder (moving 1 32)) ∧
      (EndsCycle anyOrder (moving 1 31) (after (.runOut anyOrder) (moving 1 31)) ∧ Quiet anyOrder (moving 1 31)) ∧
      (EndsCycle anyOrder (moving 2 31) (after (.runOut anyOrder) (moving 2 31)) ∧ Quiet anyOrder (moving 2 31)) ∧
      (100#16) + BitVec.ofNat 16 (SegBody.moveRel 32 1).cycles = nextCycle (moving 1 32) ∧
      (100#16) + BitVec.ofNat 16 (SegBody.moveRel 32 2).cycles ≠ nextCycle (moving 2 31) ∧
      (moving 1 31).seq.queue = [] ∧ (moving 1 31).barrier.ctx = none ∧ (moving 1 31).seq.outstanding = [] ∧
      ((EndsCycle anyOrder (withQueue [rel 20] (moving 1 31)) (after (.runOut anyOrder) (withQueue [rel 20] (moving 1 31))) ∧
          Quiet anyOrder (withQueue [rel 20] (moving 1 31))) ∧
        StartsFrom ((moving 1 31).gen.position.toInt + ((32 - 31 : Nat) : Int)) (rel 20) 1 1) :=
  ⟨⟨ends_of_runOut _ (by decide +kernel), quiet_base _ _ _⟩, ⟨ends_of_runOut _ (by decide +kernel), quiet_base _ _ _⟩,
    ⟨ends_of_runOut _ (by decide +kernel), quiet_base _ _ _⟩, by decide +kernel, by decide +kernel, rfl, rfl, rfl,
    quiet_end (by decide +kernel), rfl, by decide +kernel, by decide +kernel⟩

/-- The first of two cycles of 32 steps is cut at its first accepted position, 984: due points up to 984 have fallen due. -/
def cut : State :=
  atEdge 984 (running (.moveRel 64 2)
    (.timed { dir := .plus, n := 64, length := 2000, emitted := 31, fallen := 31 }) base)

theorem test_meets_SkippedDuePointsJoinBacklog :
    Quiet anyOrder cut ∧ edgeDue cut = true ∧ cut.edgeAccepted = true ∧ cut.seq.axis = .running ∧ cut.barrier.ctx = none ∧
      (100#16) + BitVec.ofNat 16 (SegBody.moveRel 64 2).cycles ≠ nextCycle cut ∧
      (∀ k, k < 32 → 1 ≤ k → (2 * k - 1) * 2000 / (2 * 64) < (nextCycle cut - 100#16).toNat * cut.cycleUs) ∧
      (nextCycle cut - 100#16).toNat * cut.cycleUs ≤ (2 * (31 + 1) - 1) * 2000 / (2 * 64) + (cut.cycleUs - cut.edgePosition) :=
  ⟨quiet_of (by decide +kernel), by decide +kernel, by decide +kernel, rfl, rfl, by decide +kernel, by decide +kernel,
    by decide +kernel⟩

/-! ### Steps, direction and inputs -/

def timed (emitted fallen : Nat) : Source :=
  .timed { dir := .plus, n := 32, length := 1000, emitted := emitted, fallen := fallen }

theorem test_meets_StepTimersAndDueSteps :
    ((atTick 171 (running (.moveRel 32 1) (timed 5 5) base)).boundaryDue = false ∧
        (2 * (5 + 1) - 1) * 1000 / (2 * 32) ≤ ((100#16) - 100#16).toNat * base.cycleUs + 171) ∧
      ((100#16) - 100#16).toNat * base.cycleUs + 170 < (2 * (5 + 1) - 1) * 1000 / (2 * 32) ∧
      ((running homeBody (homing .stepping 1 400 false) base).boundaryDue = false ∧
        (running homeBody (homing .stepping 1 400 false) base).seq.finishing = []) ∧
      (base.gen.pulse = none ∧
        (running (.moveRel 32 1) (timed 0 0) base).seq.head.direction = some .plus ∧ Direction.plus.high ≠ base.gen.dirHigh) ∧
      (base.seq.head.direction = none) := by decide +kernel

/-- Segment 20 with step 32 due. -/
def lastStep : State :=
  { running (.moveRel 32 1) (timed 31 32) base with
    gen := { base.gen with position := 31, dirHigh := true, spacing := some 30 } }

def seg20 : Segment := { seq := 20, label := 0, body := .moveRel 32 1 }

/-- Segment 20 has ended and still owes this many steps, while a timed segment executes behind it. -/
def owing (emitted : Nat) : State :=
  { running (.moveRel 5 1) (.timed { dir := .minus, n := 5, length := 1000, emitted := 0, fallen := 0 }) base with
    gen := { base.gen with position := 31, dirHigh := true, spacing := some 30 }
    seq := { axis := .running, queue := [], nextSeq := 22, exec := some { seg := { seg20 with seq := 21 }, startCycle := 100, source := .timed { dir := .minus, n := 5, length := 1000, emitted := 0, fallen := 0 } },
             outstanding := [.finishing { seg := seg20, startCycle := 99, source := { dir := .plus, n := 32, length := 1000, emitted := emitted, fallen := 32 } }] } }

/-- Segment 20's last step is due, and a HOME or PROBE is PENDING behind it. -/
def pendingBehind (body : SegBody) (src : Source) (input : Filter) : State :=
  withHome input { owing 31 with seq := { (owing 31).seq with
    exec := some { seg := { seq := 21, label := 0, body := body }, startCycle := 100, source := src } } }

theorem test_meets_StepBeginsAndCounts :
    (stepPulseBeginDue lastStep = true ∧ lastStep.seq.finishing = [] ∧ lastStep.inputActive .limp = false ∧
        lastStep.gen.position ≠ 0x7FFFFFFF#32) ∧
      (stepPulseBeginDue (owing 30) = true ∧ stepPulseBeginDue (owing 31) = true ∧ (owing 30).inputActive .limp = false) ∧
      (30 + 1 < (32 : Nat) ∧ (32 : Nat) ≤ 31 + 1) ∧
      (∀ input ∈ [low, high], stepPulseBeginDue (pendingBehind homeBody (homing .pending 0 0 false) input) = true ∧
        stepPulseBeginDue (pendingBehind probeBody (probing .pending 0 0 false) input) = true ∧
        (pendingBehind homeBody (homing .pending 0 0 false) input).inputActive .home = input.level) := by decide +kernel

/-- Station 1 of the stop group becomes LOST at the boundary at which a HOME starts toward an active limit. -/
def limitAtStart : State :=
  withEntry 1 { PeerEntry.blank with presence := .stale, missed := 2 } (starting homeBody
    { base with config := some { cfg with stopGroup := 2 }, gen := { base.gen with limn := high } })

/-- A HOME starts at the end of the counter. -/
def rangeAtStart : State := starting homeBody (atPosition 0x80000000 true base)

/-- The order that takes the refusal of step 1 ahead of the halts of the boundary. -/
def refusalInside : EventOrder :=
  { anyOrder with turns := [.motion, .examination, .stepEvents], steps := [.stepPulseBegin] }

theorem test_meets_RefusedStepHalts :
    (stepPulseBeginDue { lastStep with gen := { lastStep.gen with limp := high } } = true ∧
      ({ lastStep with gen := { lastStep.gen with limp := high } } : State).inputActive .limp = true) ∧
      (stepPulseBeginDue (atPosition 0x7FFFFFFF true lastStep) = true ∧
        (atPosition 0x7FFFFFFF true lastStep).inputActive .limp = false) ∧
      (stepPulseBeginDue { owing 30 with gen := { (owing 30).gen with limp := high } } = true ∧
        stepPulseBeginDue (atPosition 0x7FFFFFFF true (owing 30)) = true) ∧
      (EndsCycle refusalInside limitAtStart (after (.runOut refusalInside) limitAtStart) ∧ limitAtStart.seq.axis = .idle ∧
        limitAtStart.inputActive .home = false ∧ limitAtStart.gen.dirHigh = Direction.minus.high ∧
        anyLevelChange limitAtStart = false ∧ limitAtStart.inputActive .limn = true) ∧
      (EndsCycle refusalInside rangeAtStart (after (.runOut refusalInside) rangeAtStart) ∧
        rangeAtStart.inputActive .limn = false ∧ rangeAtStart.gen.position = 0x80000000) :=
  ⟨by decide +kernel, by decide +kernel, by decide +kernel,
    ⟨ends_of_runOut _ (by decide +kernel), rfl, by decide +kernel, rfl, by decide +kernel, by decide +kernel⟩,
    ends_of_runOut _ (by decide +kernel), by decide +kernel, rfl⟩

/-- R34, R67: the LIMIT end of step 1 before, and after, the PEER_LOST of the boundary at which the HOME starts. -/
theorem test_runOut_limitAtStart :
    gives (.runOut refusalInside) limitAtStart (fun t => decide (t.held.map (fun r => r.code) = [.limit] ∧
      t.haltCtl.report.map (fun r => r.cause) = some .segmentFault ∧ (t.entry 1).presence = .lost)) = true ∧
    gives (.runOut { refusalInside with turns := [.motion, .examination, .peers] }) limitAtStart
      (fun t => decide (t.held.map (fun r => r.code) = [.halted] ∧
        t.haltCtl.report.map (fun r => r.cause) = some .peerLost)) = true := by decide +kernel

/-- 4.7's trip falls at the tick of a boundary at which station 1 of the stop group becomes LOST, with a queue. -/
def tripping : State :=
  withEntry 1 { PeerEntry.blank with presence := .stale, missed := 2 } (atRunOut
    { withQueue [rel 20] (running probeBody (probing .stepping 12 228 false) base) with
      config := some { cfg with stopGroup := 2 }
      gen := { base.gen with position := 12, probe := { low with run := 2 } } })

def tripFirst : EventOrder := { anyOrder with turns := [.motion, .stepEvents], steps := [.probeChange] }

theorem test_meets_HomeAndProbeEnd :
    (stepPulseBeginDue (withHome high (running homeBody (homing .stepping 786 400 true) base)) = true ∧
      (withHome high base).inputActive .home = true) ∧
      closingTickDue (running homeBody (homing .closing 5000 400 false) base) = true ∧
      closingTickDue (withHome high (running homeBody (homing .closing 5000 400 false) base)) = true ∧
      closingTickDue (running probeBody (probing .closing 3000 250 false) base) = true ∧
      (EndsCycle tripFirst tripping (after (.runOut tripFirst) tripping) ∧ tripping.seq.axis = .running ∧
        tripping.gen.probe.level ≠ tripping.cfg.probeHigh ∧ inMask tripping.cfg.stopGroup 1 = true ∧
        (tripping.entry 1).presence = .stale ∧ ((after (.runOut tripFirst) tripping).entry 1).presence = .lost) :=
  ⟨by decide +kernel, by decide +kernel, by decide +kernel, by decide +kernel, ends_of_runOut _ (by decide +kernel), rfl,
    by decide +kernel, by decide +kernel, by decide +kernel, by decide +kernel⟩

/-- R67: the trip taken first ends TRIPPED, and PEER_LOST then halts an IDLE axis; the halt taken first ends it HALTED. -/
theorem test_runOut_trip :
    gives (.runOut tripFirst) tripping (fun t => decide (t.held.map (fun r => (r.code, r.part)) = [(.tripped, .trip 12)] ∧
      t.seq.axis = .halted ∧ t.haltCtl.report.map (fun r => (r.cause, r.discarded)) = some (.peerLost, 1))) = true ∧
    gives (.runOut { tripFirst with turns := [.peers] }) tripping
      (fun t => decide (t.held.map (fun r => r.code) = [.halted])) = true := by decide +kernel

def withProbeRun (n : Nat) (s : State) : State := { s with gen := { s.gen with probe := { low with run := n } } }

def withStopn (f : Filter) (s : State) : State := { s with haltCtl := { s.haltCtl with stopn := f } }

/-- PROBE becomes inactive under a stepping PROBE that has seen it active. -/
def probeLeaving : State :=
  let seen : UntimedSource :=
    { home := none, dir := .plus, interval := 250, maxSteps := 3000, emitted := 12, phase := .stepping,
      intervalCount := 228, backlog := false, lastProbe := true }
  { running probeBody (.untimed seen) base with gen := { base.gen with probe := { high with run := 2 } } }

theorem test_meets_FilteredInputsChange :
    (withProbeRun 1 base).gen.probe.run < 2 ∧ 2 ≤ (withProbeRun 2 base).gen.probe.run ∧
      (withProbeRun 2 (running probeBody (probing .stepping 12 228 false) base)).boundaryDue = false ∧
      (withProbeRun 2 base).gen.probe.level ≠ base.cfg.probeHigh ∧
      ((withStopn { high with run := 4 } base).haltCtl.stopn.level = true ∧ Haltable base.seq.axis) ∧
      (withStopn { low with run := 4 } base).haltCtl.stopn.level = false ∧
      (withStopn { high with run := 3 } base).haltCtl.stopn.run < 4 ∧ ¬ Haltable (inAxis .halted base).seq.axis ∧
      (2 ≤ probeLeaving.gen.probe.run ∧ probeLeaving.boundaryDue = false ∧ probeLeaving.config.isSome = true ∧
        probeLeaving.gen.probe.level = probeLeaving.cfg.probeHigh) :=
  ⟨by decide, by decide, by decide +kernel, by decide, ⟨rfl, .inl rfl⟩, rfl, by decide, by simp [Haltable, inAxis],
    by decide +kernel⟩

/-- R63: active to inactive is no trip and sets the last probe level to inactive. -/
theorem test_filteredLevelChange_probeLeaving : gives (.filteredLevelChange .probe) probeLeaving
    (fun t => decide (t.seq.exec.map Executing.source = some (probing .stepping 12 228 false) ∧
      t.gen.probe.level = false ∧ t.held = [])) = true := by decide +kernel

/-- A segment starts at a run-out behind one owed step. -/
def stepOwed : State := withQueue [rel 20] behindSteps

/-- The order that takes a step inside the boundary. -/
def stepInside : EventOrder := { anyOrder with steps := [.stepPulseBegin] }

theorem test_meets_StepPulseBeginsOnlyWhenAllowed :
    (exec .stepPulseBegin lastStep = .next (after .stepPulseBegin lastStep) ∧ lastStep.gen.pulse = none ∧
      (after .stepPulseBegin lastStep).gen.pulse.isSome = true) ∧
      exec (.runOut stepInside) (atRunOut stepOwed) = .next (after (.runOut stepInside) (atRunOut stepOwed)) ∧
      (atRunOut stepOwed).gen.pulse = none ∧ (after (.runOut stepInside) (atRunOut stepOwed)).gen.pulse.isSome = true ∧
      axisLaw (atRunOut stepOwed) = true ∧ setupLaw lastStep = true ∧ setupLaw (atRunOut stepOwed) = true :=
  ⟨⟨rfl, rfl, by decide +kernel⟩, rfl, rfl, by decide +kernel, by decide +kernel, rfl, rfl⟩

theorem test_meets_PositionChangesOnlyByItsRules :
    (exec .stepPulseBegin lastStep = .next (after .stepPulseBegin lastStep) ∧
      (after .stepPulseBegin lastStep).gen.position ≠ lastStep.gen.position) ∧
      (exec (.runOut stepInside) (atRunOut stepOwed) = .next (after (.runOut stepInside) (atRunOut stepOwed)) ∧
        (after (.runOut stepInside) (atRunOut stepOwed)).gen.position ≠ (atRunOut stepOwed).gen.position) ∧
      exec .closingTick (running homeBody (homing .closing 5000 400 false) base) =
        .next (after .closingTick (running homeBody (homing .closing 5000 400 false) base)) ∧
      (after .closingTick (running homeBody (homing .closing 5000 400 false) base)).gen.known ≠ base.gen.known :=
  ⟨⟨rfl, by decide +kernel⟩, ⟨rfl, by decide +kernel⟩, rfl, by decide +kernel⟩

theorem test_meets_HaltedIsLeftOnlyByRequest :
    axisLaw (asking (inAxis .halted base)) = true ∧
      exec .clearHalt (asking (inAxis .halted base)) = .next (after .clearHalt (asking (inAxis .halted base))) ∧
      (after .clearHalt (asking (inAxis .halted base))).seq.axis ≠ .halted :=
  ⟨by decide +kernel, rfl, by decide +kernel⟩

/-! ### Halts and the host port -/

theorem test_meets_HaltEndsAllWork :
    (asking State.reset).port.phase = .request ∧ (asking State.reset).config = none ∧
      (asking base).config.isSome = true ∧ Haltable (asking base).seq.axis ∧
      ¬ Haltable (asking (inAxis .halted base)).seq.axis ∧ (asking (owing 30)).seq.reserved = 2 :=
  ⟨rfl, rfl, rfl, .inl rfl, by simp [Haltable, asking, inAxis], by decide +kernel⟩

theorem test_meets_ClearHaltAnswers :
    (asking base).port.phase = .request ∧ (asking base).seq.axis ≠ .halted ∧
      (asking (inAxis .halted (inLink .listen base))).link.state ≠ .active ∧
      (asking (inAxis .halted (withStopn low base))).haltCtl.stopn.level = false ∧
      (inMask grouped.cfg.stopGroup 1 = true ∧
        ((withEntry 1 { present with view := { PeerView.blank with origin := true } } grouped).entry 1).view.origin = true ∧
        ((withEntry 1 { present with view := { PeerView.blank with origin := true } } grouped).entry 1).presence = .present) ∧
      ∀ k : Station, inMask base.cfg.stopGroup k = false := by decide +kernel

theorem test_meets_TransactionOpensAndCloses :
    base.port.csnHigh = true ∧ (asking base).port.csnHigh = false ∧
      ({ base with port := taken 0x21 [] [1] (some .record) base.port } : State).port.phase = .answer ∧
      base.port.phase ≠ .answer := by decide

/-- A transaction in PARAMETERS, with these bytes of this request clocked. -/
def clocking (code : Byte) (bytes : List Byte) : State :=
  { base with port := { base.port with phase := .parameters, csnHigh := false, request := some code, params := bytes } }

/-- One byte too few of each request with parameters, in REQUEST and in PARAMETERS; a note of two bytes with one of them;
another request in PARAMETERS; and a closed port. -/
theorem test_meets_RequestsWaitForTheirBytes :
    (∀ x ∈ [(Instr.configure (List.replicate 11 0), 0x01), (.queueSegment (List.replicate 15 0), 0x10),
        (.setPosition (List.replicate 3 0), 0x14), (.readPeer [], 0x23), (.clearEvents [], 0x25), (.sendNote [0, 2], 0x30),
        (.sendNote [0, 2, 2, 0xAB], 0x30), (.readNoteSlot [], 0x32), (.releaseNoteSlot [], 0x33)],
      ∃ bytes, paramsOf x.1 = some (x.2, bytes) ∧ bytes.length < needed x.2 bytes) ∧
      (asking base).port.phase = .request ∧ (clocking 0x30 [0, 2]).port.phase = .parameters ∧
      (clocking 0x30 [0, 2]).port.request = some 0x30 ∧ ([0, 2] ++ [2, 0xAB]).length < needed 0x30 [0, 2, 2, 0xAB] ∧
      (IsRequest .halt ∧ ∀ code bytes, paramsOf .halt = some (code, bytes) → (clocking 0x30 [0, 2]).port.request ≠ some code) ∧
      base.port.phase = .closed := by
  refine ⟨?_, rfl, rfl, rfl, by decide, ⟨trivial, nofun⟩, rfl⟩
  simp only [List.forall_mem_cons, List.not_mem_nil, false_imp_iff, implies_true, and_true]
  refine ⟨⟨_, rfl, ?_⟩, ⟨_, rfl, ?_⟩, ⟨_, rfl, ?_⟩, ⟨_, rfl, ?_⟩, ⟨_, rfl, ?_⟩, ⟨_, rfl, ?_⟩, ⟨_, rfl, ?_⟩, ⟨_, rfl, ?_⟩,
    ⟨_, rfl, ?_⟩⟩ <;> decide

theorem test_meets_UnknownRequestChangesNothing :
    (asking base).port.phase = .request ∧ (0x00 : Byte) ∉ requestCodes ∧ (0x03 : Byte) ∉ requestCodes ∧
      (0x34 : Byte) ∉ requestCodes ∧ (0xFF : Byte) ∉ requestCodes := by decide +kernel

/-- A request with all its bytes in REQUEST, and one whose last byte comes in PARAMETERS. -/
theorem completes_in_request (code : Byte) (n : Nat) (bytes : List Byte) (s : State) (h : n ≤ bytes.length) :
    Completes code n bytes (asking s).port (bytes.take n) :=
  ⟨bytes, .inl ⟨rfl, rfl⟩, h, rfl⟩

theorem completes_in_parameters (code x : Byte) (held : List Byte) (s : State) :
    Completes code (held.length + 1) [x] { s.port with phase := .parameters, request := some code, params := held }
      (held ++ [x]) :=
  ⟨held ++ [x], .inr ⟨rfl, rfl, rfl⟩, by simp, by simp⟩

theorem test_meets_ConfigureAnswers :
    Completes 0x01 12 cfgBlock (asking State.reset).port cfgBlock ∧ State.reset.config = none ∧
      Completes 0x01 12 [0x3F] { State.reset.port with phase := .parameters, request := some 0x01, params := cfgBlock.take 11 }
        (cfgBlock.take 11 ++ [0x3F]) ∧
      parseSettings cfgBlock = cfg ∧ settingsValid 0 cfg = true ∧
      settingsValid 0 { cfg with cycleCode := 3 } = false ∧ (asking base).config.isSome = true :=
  ⟨completes_in_request _ _ _ _ (by decide), rfl, completes_in_parameters 0x01 0x3F (cfgBlock.take 11) State.reset,
    by decide +kernel, by decide +kernel, by decide +kernel, rfl⟩

theorem test_meets_StartAnswers :
    (asking State.reset).config = none ∧ (asking base).link.state ≠ .idle ∧
      (asking { State.reset with config := some cfg }).link.state = .idle ∧
      exec (.deviceReset 0) base = .next (after (.deviceReset 0) base) ∧
      (after (.deviceReset 0) base).link.state = .idle ∧
      exec .start (asking { State.reset with config := some cfg }) =
        .next (after .start (asking { State.reset with config := some cfg })) ∧
      (after .start (asking { State.reset with config := some cfg })).link.state ≠ .idle :=
  ⟨rfl, by decide +kernel, rfl, rfl, by decide +kernel, rfl, by decide +kernel⟩

theorem test_meets_RestartClearsTheStation :
    (asking State.reset).port.phase = .request ∧ (asking State.reset).config = none ∧
      (asking base).config.isSome = true := by decide

def record (body : List Byte) : List Byte := body ++ List.replicate (16 - body.length) 0

/-- A record of a valid MOVE_REL, at the rate limit (33 × 30 ≤ 1000) and past it, one of each other kind, and of no kind; and
a queue with room for one more segment, and with none. -/
theorem test_meets_PlanRequestsAnswer :
    Completes 0x10 16 (record [1, 0, 0, 0, 0, 0, 33, 0, 1]) (asking base).port (record [1, 0, 0, 0, 0, 0, 33, 0, 1]) ∧
      RecordGives base.id base.cfg (record [1, 0, 0, 0, 0, 0, 33, 0, 1]) (.moveRel 33 1) ∧
      RecordGives base.id base.cfg (record [2, 0, 0, 0, 0, 0, 33, 0, 1]) (.moveAbs 33 1) ∧
      RecordGives base.id base.cfg (record [3, 0, 0, 1, 0x01, 0x90, 0, 0x13, 0x88]) (.home .minus 400 5000 0) ∧
      RecordGives base.id base.cfg (record [5, 0, 0, 7, 0, 7, 0, 20]) (.barrier 7 7 20) ∧
      33 * base.cfg.minStepUs ≤ 1 * base.cycleUs ∧ 1 * base.cycleUs < 34 * base.cfg.minStepUs ∧
      (∀ b, ¬ RecordGives base.id base.cfg (record [6]) b) ∧
      (withQueue (List.replicate 31 seg20) base).seq.queue.length < 32 ∧
      32 ≤ (withQueue (List.replicate 32 seg20) base).seq.queue.length ∧
      Completes 0x14 4 [0, 0, 0, 1] (asking base).port [0, 0, 0, 1] ∧ (owing 30).seq.finishing ≠ [] ∧
      base.seq.finishing = [] := by
  refine ⟨completes_in_request _ _ _ _ (by decide), .inl ⟨rfl, 33, 1, rfl, rfl, rfl, ?_⟩, .inr (.inl ⟨rfl, 1, rfl, rfl, ?_⟩),
    .inr (.inr (.inl ⟨.minus, 400, 5000, .inr ⟨rfl, rfl⟩, rfl, rfl, .inl ⟨rfl, rfl⟩, ?_⟩)),
    .inr (.inr (.inr ⟨rfl, 20, rfl, rfl, ?_⟩)), by decide +kernel, by decide +kernel, ?_, by decide, by decide,
    completes_in_request _ _ _ _ (by decide), by decide +kernel, by decide⟩
  · decide
  · decide
  · decide
  · decide +kernel
  · rintro b (⟨h, -⟩ | ⟨h, -⟩ | ⟨_, _, _, -, -, -, ⟨h, -⟩ | ⟨h, -⟩, -⟩ | ⟨h, -⟩) <;> exact absurd h (by decide)

theorem test_meets_ClearEventsClearsLatchedFlags : Completes 0x25 1 [0xFF] (asking base).port [0xFF] :=
  completes_in_request _ _ _ _ (by decide)

theorem test_meets_ReadsAnswer :
    (asking base).port.phase = .request ∧ base.held = [] ∧ ({ base with held := [homed] } : State).held = homed :: [] ∧
      base.notes.inbox = [] ∧ base.peers.changeMap = 0 ∧
      ({ base with peers := { base.peers with changeMap := 0xFFFE } } : State).peers.changeMap ≠ 0 := by decide +kernel

def report : HaltReport where
  cause := .hostHalt
  peer := none
  segment := none
  cycle := 100
  position := 0
  discarded := 0
  range := none

theorem test_meets_ReadHaltReportAnswers :
    (asking base).port.phase = .request ∧ base.haltCtl.report = none ∧
      ({ base with haltCtl := { base.haltCtl with report := some report } } : State).haltCtl.report = some report ∧
      exec .restart (asking base) = .next (after .restart (asking base)) ∧ (asking base).config.isSome = true :=
  ⟨rfl, rfl, rfl, rfl, rfl⟩

theorem test_meets_ReadPeerAnswers :
    (∀ b : Byte, Completes 0x23 1 [b] (asking base).port [b]) ∧ (byteAt [0x0F] 0).toNat = (15 : Station).val ∧
      16 ≤ (byteAt [0x10] 0).toNat :=
  ⟨fun _ => completes_in_request _ _ _ _ (by simp), by decide, by decide⟩

/-- A note of eight bytes to station 1, one of length 9, one without a destination, one to station 0 itself, one to a station
at N; and no free slot. -/
theorem test_meets_SendNoteAndReadSlot :
    Completes 0x30 11 [0, 2, 8, 1, 2, 3, 4, 5, 6, 7, 8] (asking base).port [0, 2, 8, 1, 2, 3, 4, 5, 6, 7, 8] ∧
      Completes 0x30 3 [0, 2, 9] (asking base).port [0, 2, 9] ∧
      (∀ k : Station, inMask (word16At [0, 2, 8] 0) k = true → k ≠ base.id ∧ k.val < base.stationCount) ∧
      word16At [0, 0, 0] 0 = 0 ∧ inMask (word16At [0, 1, 0] 0) base.id = true ∧
      (inMask (word16At [0, 8, 0] 0) 3 = true ∧ base.stationCount ≤ (3 : Station).val) ∧
      (base.notes.slots.get 0 = .free ∧ queued.notes.slots.get 1 = .free ∧ queued.notes.slots.get 0 ≠ .free) ∧
      (∀ i : Fin 4, (Vector.replicate 4 (NoteSlot.queued 1 2 [])).get i ≠ .free) ∧
      Completes 0x32 1 [3] (asking sending).port [3] ∧ sending.notes.sendingId.isSome = true ∧
      delivered.notes.slots.get 0 = .done 1 2 ((Vector.replicate 16 .no).set 1 .delivered) :=
  ⟨completes_in_request _ _ _ _ (by decide), completes_in_request _ _ _ _ (by decide), by decide +kernel, by decide +kernel,
    by decide +kernel, by decide +kernel, by decide +kernel, by decide +kernel, completes_in_request _ _ _ _ (by decide),
    by decide +kernel, by decide +kernel⟩

/-- R163: station 1 failed with GONE while station 2 is pending: the reason is shown, and the failed mask. -/
theorem test_readNoteSlot_sending :
    let st : Vector Standing 16 := ((Vector.replicate 16 .no).set 1 (.failed .gone)).set 2 (.pending none)
    gives (.readNoteSlot [0]) (asking (setSlot 0 (.sending 1 6 [] 100 st) base))
    (fun t => decide (t.port.answer = [1, 2, 1, 0, 6, 0, 4, 0, 0, 0, 0, 0, 2, 0, 2, 0, 0, 0, 0])) = true := by
  decide +kernel

theorem test_meets_ReleaseNoteSlotAnswers :
    (∀ b : Byte, Completes 0x33 1 [b] (asking base).port [b]) ∧ 3 < (byteAt [4] 0).toNat ∧
      (byteAt [3] 0).toNat = (3 : Fin 4).val ∧ base.notes.slots.get 3 = .free ∧
      queued.notes.slots.get 0 = .queued 1 2 [0xAB] ∧
      delivered.notes.slots.get 0 = .done 1 2 ((Vector.replicate 16 .no).set 1 .delivered) :=
  ⟨fun _ => completes_in_request _ _ _ _ (by simp), by decide, by decide, by decide +kernel, by decide +kernel,
    by decide +kernel⟩

/-! ### The laws -/

/-- A run-out from a safe state with a segment running, and a step pulse from another: the laws hold and a step answers. -/
theorem test_meets_StepKeepsLaws :
    Safe { moving 1 31 with pending := [.runOut anyOrder] } = true ∧
      Safe { lastStep with pending := [.stepPulseBegin] } = true ∧
      (∃ t, step { moving 1 31 with pending := [.runOut anyOrder] } = .next t) ∧
      ∃ t, step { lastStep with pending := [.stepPulseBegin] } = .next t :=
  ⟨by decide +kernel, by decide +kernel, ⟨_, rfl⟩, ⟨_, rfl⟩⟩

end Sys2Proof.Tests
end

