-- ==== Sys2Proof/Proofs/NoteSlots.lean ====
section
/-! PROOFS. Taking a request that its bytes complete, and the answers of RELEASE NOTE SLOT (R164, R167, R169). -/

namespace Sys2Proof.Claims

open Sys2Proof.Machine

/-! ## A completed request -/

/-- The bytes that complete a request are the ones the port has assembled, cut at the last parameter. -/
theorem Completes.assembled_eq {code : Byte} {n : Nat} {bytes ps : List Byte} {p : HostPort}
    (h : Completes code n bytes p ps) :
    ∃ all, assembled code bytes p = some all ∧ n ≤ all.length ∧ ps = all.take n := by
  obtain ⟨all, hbytes, hlen, hps⟩ := h
  refine ⟨all, ?_, hlen, hps⟩
  obtain ⟨hphase, hall⟩ | ⟨hphase, hcode, hall⟩ := hbytes
  · simp [assembled, hphase, hall]
  · simp [assembled, hphase, hcode, hall]

/-- A completed request of a fixed number of parameters is taken with them. -/
theorem clockRequest_of_completes {code : Byte} {n : Nat} {bytes ps : List Byte} {s : State}
    (h : Completes code n bytes s.port ps) (take : List Byte → State → State) :
    clockRequest code (fun _ => n) bytes take s = take ps (holdParams code ps s) := by
  obtain ⟨all, hall, hlen, rfl⟩ := h.assembled_eq
  simp [clockRequest, hall, Nat.not_lt.mpr hlen]

/-- An answer to held parameters leaves the port as `taken` says, also after an operation that keeps the port. -/
theorem respond_port_of_holdParams {code : Byte} {ps : List Byte} {s t : State}
    (ht : t.port = (holdParams code ps s).port) (a : Answer) (response : List Byte) (len : Nat) :
    respond a response len t = { t with port := taken code ps (answerBytes a response len) none s.port } := by
  simp only [respond, giveAnswer, State.setPort, ht]
  rfl

/-- A refusal of held parameters changes the port alone. -/
theorem refuse_holdParams (code : Byte) (ps : List Byte) (s : State) (a : Answer) (len : Nat) :
    refuse a len (holdParams code ps s) = { s with port := taken code ps (answerBytes a [] len) none s.port } :=
  respond_port_of_holdParams rfl a [] len

/-! ## RELEASE NOTE SLOT -/

@[simp] theorem setSlot_port (i : Fin 4) (x : NoteSlot) (s : State) : (setSlot i x s).port = s.port := rfl

/-- The slots that are not DONE are the FREE, QUEUED and SENDING ones. -/
theorem isDone_eq_false_iff (x : NoteSlot) : x.isDone = false ↔
    x = .free ∨ (∃ n m p, x = .queued n m p) ∨ ∃ n m p c st, x = .sending n m p c st := by
  cases x <;> simp [NoteSlot.isDone]

theorem takeReleaseNoteSlot_of_no_slot {ps : List Byte} (h : 3 < (byteAt ps 0).toNat) (s : State) :
    takeReleaseNoteSlot ps s = refuse .badParameter 0 s :=
  dif_neg (by omega)

/-- RELEASE NOTE SLOT of slot `i` asks only whether it is DONE. -/
theorem takeReleaseNoteSlot_of_slot {ps : List Byte} {i : Fin 4} (h : (byteAt ps 0).toNat = i.val) (s : State) :
    takeReleaseNoteSlot ps s =
      if (s.notes.slots.get i).isDone then respond .accepted [] 0 (setSlot i .free s) else refuse .notDone 0 s := by
  simp [takeReleaseNoteSlot, h]

theorem execReleaseNoteSlot_of_completes {bytes ps : List Byte} {s : State} (h : Completes 0x33 1 bytes s.port ps) :
    exec (.releaseNoteSlot bytes) s = .next (takeReleaseNoteSlot ps (holdParams 0x33 ps s)) :=
  congrArg Host.Outcome.next (clockRequest_of_completes h takeReleaseNoteSlot)

/-- Settles O53, by the slot number: above 3, or of a slot that is not DONE, or of a DONE one. -/
theorem releaseNoteSlotAnswers : Obligations.ReleaseNoteSlotAnswers := by
  intro s bytes ps hcompletes
  rw [execReleaseNoteSlot_of_completes hcompletes]
  refine ⟨fun habove => ?_, fun i hi => ⟨fun hslot => ?_, fun n m st hslot => ?_⟩⟩
  · rw [takeReleaseNoteSlot_of_no_slot habove, refuse_holdParams]
    rfl
  · have hnot : ((holdParams 0x33 ps s).notes.slots.get i).isDone = false := (isDone_eq_false_iff _).mpr hslot
    rw [takeReleaseNoteSlot_of_slot hi, hnot, if_neg Bool.false_ne_true, refuse_holdParams]
    rfl
  · have hdone : ((holdParams 0x33 ps s).notes.slots.get i).isDone = true := congrArg NoteSlot.isDone hslot
    rw [takeReleaseNoteSlot_of_slot hi, if_pos hdone, respond_port_of_holdParams (setSlot_port i .free _)]
    rfl

end Sys2Proof.Claims
end

