-- ==== Sys2Proof/Proofs/ClearEvents.lean ====
section
/-! PROOFS. The bits of the event flags, and CLEAR EVENTS, which clears the two latched ones (R168, R178). -/

namespace Sys2Proof.Claims

open Sys2Proof.Machine

/-! ## The bits of the event flags -/

/-- Bit `i` of the number that the bits add up to, bit 0 first, is the i-th of them. -/
theorem testBit_foldr_bits (bits : List Bool) (i : Nat) :
    (bits.foldr (fun (b : Bool) n => (if b then 1 else 0) + 2 * n) 0).testBit i = bits.getD i false := by
  induction bits generalizing i with
  | nil => simp
  | cons b bits ih =>
    have hbit (n : Nat) : (if b then 1 else 0) + 2 * n = Nat.bit b n := by cases b <;> simp [Nat.bit, Nat.add_comm]
    rw [List.foldr_cons, hbit]
    cases i with
    | zero => simp
    | succ i => simp [Nat.testBit_bit_succ, ih]

theorem byteOfBits_getLsbD (bits : List Bool) {i : Nat} (hi : i < 8) :
    (byteOfBits bits).getLsbD i = bits.getD i false := by
  rw [byteOfBits, BitVec.getLsbD_ofNat, decide_eq_true hi, Bool.true_and, testBit_foldr_bits]

/-- The six event flags in the order of the port status byte. -/
theorem flags_getLsbD (s : State) {i : Nat} (hi : i < 6) :
    s.flags.getLsbD i = [!s.held.isEmpty, s.port.haltFlag, decide (s.peers.changeMap ≠ 0), !s.notes.inbox.isEmpty,
      s.noteDone, s.port.linkFlag].getD i false := by
  rw [State.flags, BitVec.getLsbD_extractLsb', decide_eq_true hi, Bool.true_and, Nat.zero_add,
    byteOfBits_getLsbD _ (by omega)]

theorem flags_halt (s : State) : s.flags.getLsbD 1 = s.port.haltFlag := flags_getLsbD s (by decide)

theorem flags_link (s : State) : s.flags.getLsbD 5 = s.port.linkFlag := flags_getLsbD s (by decide)

/-- The level flags follow conditions outside the port: what changes the port alone leaves them. -/
theorem flags_level_of_port_change (s : State) (p : HostPort) {i : Nat} (hi : i = 0 ∨ i = 2 ∨ i = 3 ∨ i = 4) :
    ({ s with port := p } : State).flags.getLsbD i = s.flags.getLsbD i := by
  rw [flags_getLsbD _ (by omega), flags_getLsbD _ (by omega)]
  obtain rfl | rfl | rfl | rfl := hi <;> rfl

/-! ## CLEAR EVENTS -/

/-- A latched flag is lost when the mask names it and is kept otherwise. -/
theorem eventsCleared_eq_ite (mask : Byte) (p : HostPort) : eventsCleared mask p = { p with
    haltFlag := if mask.getLsbD 1 then false else p.haltFlag
    linkFlag := if mask.getLsbD 5 then false else p.linkFlag } := by
  have clear (flag named : Bool) : (flag && !named) = if named then false else flag := by cases named <;> simp
  simp [eventsCleared, clear]

/-- CLEAR EVENTS changes the port alone, in every configuration and link state. -/
theorem execClearEvents_of_completes {bytes ps : List Byte} {s : State} (h : Completes 0x25 1 bytes s.port ps) :
    exec (.clearEvents bytes) s =
      .next { s with port := taken 0x25 ps [0x01] none (eventsCleared (byteAt ps 0) s.port) } :=
  congrArg Host.Outcome.next (clockRequest_of_completes h takeClearEvents)

/-- Settles O48: only the two latched flags stand in the port, and the mask is applied to them there. -/
theorem clearEventsClearsLatchedFlags : Obligations.ClearEventsClearsLatchedFlags := by
  intro s bytes ps hcompletes
  refine ⟨_, execClearEvents_of_completes hcompletes, ?_, ?_, ?_, ?_, ?_, ?_, ?_⟩
  · rw [eventsCleared_eq_ite]
  · exact flags_level_of_port_change s _ (by decide)
  · exact flags_level_of_port_change s _ (by decide)
  · exact flags_level_of_port_change s _ (by decide)
  · exact flags_level_of_port_change s _ (by decide)
  · rw [flags_halt, flags_halt]
    rfl
  · rw [flags_link, flags_link]
    rfl

end Sys2Proof.Claims
end

