-- ==== Sys2Proof/Proofs/MotionChanges.lean ====
section
/-! PROOFS. What the Motion Sequencer, the Step Generator, the Barrier Unit and the Halt Controller can do at once, and
that every operation of theirs is a row of such changes. The laws of these blocks are proved of the changes alone. -/

namespace Sys2Proof.Machine

/-! ## The changes -/

/-- The axis is IDLE, RUNNING or WAITING. -/
def AxisState.live : AxisState → Bool
  | .idle | .running | .waiting => true
  | .disabled | .halted => false

/-- A source moves on as one of the same segment. -/
def SourceMoves : Source → Source → Prop
  | .timed a, .timed b => a.counted = true → b.counted = true
  | .untimed u, .untimed v => v.home = u.home
  | _, _ => False

/-- The source is as a segment's start leaves it. -/
def SourceBegins : Source → Prop
  | .timed a => a.counted = true
  | _ => True

/-- The axis state after the end of the executing segment: IDLE, or the one of a station that was stopped already. -/
def AxisAfter (s : State) (a : AxisState) : Prop := a = .idle ∨ (s.seq.axis.live = false ∧ a = s.seq.axis)

/-- The segment leaves the head of the queue with a completion entry reserved for it (R26, R27). -/
structure Heads (s : State) (seg : Segment) (rest : List Segment) : Prop where
  axis : s.seq.axis = .idle
  queue : s.seq.queue = seg :: rest
  free : s.freeEntries ≠ 0

/-- One change that the blocks of motion make in one go. -/
inductive MotionChange (s : State) : State → Prop
  | gen (g : StepGen) (hrefused : g.refused = s.gen.refused)
      (hsetup : g.dirSetup = s.gen.dirSetup ∨ g.dirSetup = none ∨
        (s.cfg.dirSetupUs ≠ 0 ∧ g.dirSetup = some s.cfg.dirSetupUs)) : MotionChange s (s.setGen g)
  | haltCtl (h : HaltCtl) : MotionChange s (s.setHaltCtl h)
  | halted (c : Cause) : MotionChange s (haltTaken c s)
  | withdrawn (h : s.seq.axis.live = false) : MotionChange s (s.setBarrier { s.barrier with ctx := none })
  | context (x y : BarrierCtx) (hx : s.barrier.ctx = some x) (hseq : y.seq = x.seq) : MotionChange s (setCtx y s)
  | source (e : Executing) (src : Source) (he : s.seq.exec = some e) (hsrc : SourceMoves e.source src) :
      MotionChange s (setExecSource e src s)
  | ended (e : Executing) (r : Record) (a : AxisState) (he : s.seq.exec = some e) (hsrc : e.source ≠ .none)
      (ha : AxisAfter s a) : MotionChange s (setAxis a (writeExecRecord r s))
  | finishing (e : Executing) (src : TimedSource) (a : AxisState) (he : s.seq.exec = some e)
      (hsrc : e.source = .timed src) (howes : src.emitted ≠ src.n) (ha : AxisAfter s a) :
      MotionChange s (setAxis a (endTimed e src s))
  | released (e : Executing) (r : Record) (b : BarrierUnit) (a : AxisState) (he : s.seq.exec = some e)
      (hsrc : e.source = .none) (hb : b.ctx = none) (ha : AxisAfter s a) :
      MotionChange s (setAxis a (writeExecRecord r (s.setBarrier b)))
  | started (seg : Segment) (rest : List Segment) (src : Source) (h : Heads s seg rest)
      (hfits : (Executing.mk seg s.timer.cycle src).sourceFits = true) (hbegins : SourceBegins src) :
      MotionChange s (startWith seg .running src rest s)
  | barrierStarted (seg : Segment) (rest : List Segment) (tag : Byte) (mask : Mask) (timeout : Nat) (h : Heads s seg rest)
      (hbody : seg.body = .barrier tag mask timeout) :
      MotionChange s (setCtx (newCtx seg.seq tag mask timeout s.timer.cycle) (startWith seg .waiting .none rest s))
  | startFailed (c : Cause) (seg : Segment) (rest : List Segment) (h : Heads s seg rest) :
      MotionChange s (haltTaken c (startWith seg .running .none rest s))
  | stepCounted (f : Finishing) (fs : List Finishing) (hf : s.seq.finishing = f :: fs)
      (howes : f.source.emitted + 1 < f.source.n) :
      MotionChange s (s.setSeq { s.seq with
        outstanding := setFinishingSource { f.source with emitted := f.source.emitted + 1 } s.seq.outstanding })
  | stepsDone (f : Finishing) (fs : List Finishing) (r : Record) (hf : s.seq.finishing = f :: fs) :
      MotionChange s (writeFinishingRecord r s)

/-- A row of changes of the blocks of motion. -/
abbrev Motion : State → State → Prop := Relation.ReflTransGen MotionChange

theorem MotionChange.motion {s t : State} (h : MotionChange s t) : Motion s t := .single h

/-- What every change keeps, a row of them keeps. -/
theorem rows_keep {R : State → State → Prop} {P : State → Prop} (h : ∀ s t, R s t → P s → P t) {s t : State}
    (hrow : Relation.ReflTransGen R s t) (hs : P s) : P t := by
  induction hrow with
  | refl => exact hs
  | tail _ hstep ih => exact h _ _ hstep ih

/-- A fold of rows is a row. -/
theorem rows_foldl {α : Type} {R : State → State → Prop} (f : State → α → State)
    (hf : ∀ s a, Relation.ReflTransGen R s (f s a)) (l : List α) (s : State) :
    Relation.ReflTransGen R s (l.foldl f s) := by
  induction l generalizing s with
  | nil => exact .refl
  | cons a l ih => exact (hf s a).trans (ih _)

theorem rows_ite {R : State → State → Prop} {s t : State} (b : Bool) (h : b = true → Relation.ReflTransGen R s t) :
    Relation.ReflTransGen R s (if b then t else s) := by
  cases b
  · exact .refl
  · exact h rfl

/-! ## Halts -/

/-- Out of DISABLED and HALTED a cause halts. -/
theorem takeCause_of_live {s : State} (h : s.seq.axis.live = true) (c : Cause) : takeCause c s = haltTaken c s := by
  unfold takeCause
  cases ha : s.seq.axis <;> simp_all [AxisState.live]

theorem takeCause_motion (c : Cause) (s : State) : Motion s (takeCause c s) := by
  rcases takeCause_cases c s with ⟨_, _, h⟩ | ⟨_, h⟩ | ⟨_, h⟩ <;> rw [h]
  · exact (MotionChange.halted c).motion
  · split
    · exact (MotionChange.haltCtl _).motion
    · exact .refl
  · split
    · exact (MotionChange.haltCtl _).motion
    · exact .refl

theorem takeRaised_motion (c : Option Cause) (s : State) : Motion s (takeRaised c s) := by
  cases c
  · exact .refl
  · exact takeCause_motion _ s

/-- The records of the finishing segments read the counter and its flag alone. -/
theorem completeFinishing_congr {s t : State} (hposition : s.gen.position = t.gen.position)
    (hknown : s.gen.known = t.gen.known) (code : Code) (l : List Outstanding) :
    completeFinishing s code l = completeFinishing t code l := by
  induction l generalizing code with
  | nil => rfl
  | cons o l ih => cases o <;> simp [completeFinishing, State.finishingRecord, hposition, hknown, ih]

/-- A halt withdraws the context whether or not it has gone before. -/
theorem haltTaken_withdrawn (c : Cause) (s : State) :
    haltTaken c (s.setBarrier { s.barrier with ctx := none }) = haltTaken c s := by
  unfold haltTaken
  rw [completeFinishing_congr (s := s.setBarrier { s.barrier with ctx := none }) (t := s) rfl rfl]
  rfl

/-- A halt returns `refused` to "no", whatever it was. -/
theorem haltTaken_refused (c : Cause) (b : Bool) (s : State) :
    haltTaken c (s.setGen { s.gen with refused := b }) = haltTaken c s := by
  unfold haltTaken
  rw [completeFinishing_congr (s := s.setGen { s.gen with refused := b }) (t := s) rfl rfl]
  rfl

/-- A halt reads the axis state nowhere. -/
theorem haltTaken_setAxis (c : Cause) (a : AxisState) (s : State) : haltTaken c (setAxis a s) = haltTaken c s := by
  unfold haltTaken
  rw [completeFinishing_congr (s := setAxis a s) (t := s) rfl rfl]
  rfl

/-! ## Barriers -/

/-- A barrier fails: out of DISABLED and HALTED it halts. -/
theorem failBarrier_of_live {s : State} {x : BarrierCtx} (hx : s.barrier.ctx = some x) (h : s.seq.axis.live = true)
    (code : Code) : failBarrier code s = haltTaken (.segmentFault x.seq code .executing) s := by
  simp only [failBarrier, hx]
  rw [takeCause_of_live (s := s.setBarrier { s.barrier with ctx := none }) h, haltTaken_withdrawn]

theorem failBarrier_motion (code : Code) (s : State) : Motion s (failBarrier code s) := by
  cases hx : s.barrier.ctx with
  | none => simp only [failBarrier, hx]; exact .refl
  | some x =>
    cases hl : s.seq.axis.live with
    | true => rw [failBarrier_of_live hx hl]; exact (MotionChange.halted _).motion
    | false =>
      simp only [failBarrier, hx]
      exact (MotionChange.withdrawn hl).motion.trans (takeCause_motion _ _)

/-- What is examined of a frame leaves a context its segment. -/
theorem completeComputed_seq (own : Station) (lead : Nat) (c : Cycle) (x : BarrierCtx) :
    (completeComputed own lead c x).seq = x.seq := by
  unfold completeComputed
  split <;> rfl

/-- The context that an examination leaves, if it leaves one. -/
def MemberFrame.ctx : MemberFrame → Option BarrierCtx
  | .mismatch => none
  | .context x => some x
  | .halted x => some x

theorem examineRest_seq {m : Station} {v : PeerView} {c : Cycle} {x y : BarrierCtx}
    (h : (examineRest m v c x).ctx = some y) : y.seq = x.seq := by
  unfold examineRest at h
  simp only [] at h
  split at h
  · simp only [MemberFrame.ctx, Option.some.injEq] at h; subst h; rfl
  · split at h <;> split at h <;> · simp only [MemberFrame.ctx, Option.some.injEq] at h; subst h; rfl

theorem examine_seq {own : Station} {lead : Nat} {m : Station} {v : PeerView} {c : Cycle} {x y : BarrierCtx}
    (h : (examine own lead m v c x).ctx = some y) : y.seq = x.seq := by
  unfold examine at h
  simp only [] at h
  split at h
  · split at h
    · simp [MemberFrame.ctx] at h
    · split at h
      · simp only [MemberFrame.ctx, Option.some.injEq] at h
        subst h
        exact completeComputed_seq ..
      · exact (examineRest_seq h).trans (completeComputed_seq ..)
  · exact examineRest_seq h

theorem barrierFrame_motion (m : Station) (v : PeerView) (s : State) : Motion s (barrierFrame m v s) := by
  unfold barrierFrame
  split
  · exact .refl
  · rename_i x hx
    split
    · exact .refl
    · split
      · exact failBarrier_motion _ s
      · rename_i y hy
        exact (MotionChange.context x y hx (examine_seq (by rw [hy]; rfl))).motion
      · rename_i y hy
        exact (MotionChange.context x y hx (examine_seq (by rw [hy]; rfl))).motion.trans (failBarrier_motion _ _)

theorem barrierMemberLost_motion (m : Station) (s : State) : Motion s (barrierMemberLost m s) := by
  unfold barrierMemberLost
  split
  · exact .refl
  · split
    · exact .refl
    · exact failBarrier_motion _ s

theorem fillFrom_motion (s : State) (m : Station) : Motion s (fillFrom s m) := by
  unfold fillFrom
  split
  · exact .refl
  · split
    · exact .refl
    · split
      · exact failBarrier_motion _ s
      · exact failBarrier_motion _ s
      · exact .refl
      · exact barrierFrame_motion _ _ s
      · exact barrierFrame_motion _ _ s

theorem completeAtCreation_motion (s : State) : Motion s (completeAtCreation s) := by
  unfold completeAtCreation
  split
  · exact .refl
  · rename_i x hx
    split
    · exact .refl
    · exact (MotionChange.context x _ hx (completeComputed_seq ..)).motion

theorem barrierDeadline_motion (s : State) : Motion s (barrierDeadline s) := by
  unfold barrierDeadline
  split
  · exact .refl
  · split
    · exact failBarrier_motion _ s
    · exact .refl

/-! ## The end of a HOME or PROBE -/

theorem endUntimed_motion {e : Executing} {s : State} (he : s.seq.exec = some e) (hsrc : e.source ≠ .none) (code : Code)
    (part : RecordPart) : Motion s (endUntimed e code part s) := by
  have h := (MotionChange.ended e (s.execRecord e code part) .idle he hsrc (.inl rfl)).motion
  unfold endUntimed
  simp only []
  split
  · exact h.trans (takeCause_motion _ _)
  · exact h

theorem endHomed_motion {e : Executing} {s : State} (he : s.seq.exec = some e) (hsrc : e.source ≠ .none) (v : Position) :
    Motion s (endHomed e v s) :=
  (MotionChange.gen (s := s) { s.gen with position := v, known := true } rfl (.inl rfl)).motion.trans
    (endUntimed_motion (s := s.setGen { s.gen with position := v, known := true }) he hsrc _ _)

theorem endHomeFailed_motion {e : Executing} {s : State} (he : s.seq.exec = some e) (hsrc : e.source ≠ .none) :
    Motion s (endHomeFailed e s) :=
  (MotionChange.gen (s := s) { s.gen with known := false } rfl (.inl rfl)).motion.trans
    (endUntimed_motion (s := s.setGen { s.gen with known := false }) he hsrc _ _)

theorem untimed_ne_none {e : Executing} {u : UntimedSource} (h : e.source = .untimed u) : e.source ≠ .none := by
  rw [h]; exact nofun

/-- A HOME or PROBE source that moves on keeps its home value. -/
theorem setUntimed_motion {e : Executing} {u v : UntimedSource} {s : State} (he : s.seq.exec = some e)
    (hu : e.source = .untimed u) (hv : v.home = u.home) : Motion s (setExecSource e (.untimed v) s) :=
  (MotionChange.source e _ he (by rw [hu]; exact hv)).motion

theorem setTimed_motion {e : Executing} {a b : TimedSource} {s : State} (he : s.seq.exec = some e)
    (ha : e.source = .timed a) (hb : a.counted = true → b.counted = true) : Motion s (setExecSource e (.timed b) s) :=
  (MotionChange.source e _ he (by rw [ha]; exact hb)).motion

theorem examineFirst_motion {e : Executing} {u : UntimedSource} {s : State} (he : s.seq.exec = some e)
    (hu : e.source = .untimed u) : Motion s (examineFirst e u s) := by
  have hstepping : Motion s (setExecSource e (.untimed (enterStepping u)) s) := setUntimed_motion he hu rfl
  unfold examineFirst
  split
  · split
    · exact endHomed_motion he (untimed_ne_none hu) _
    · exact hstepping
  · split
    · exact endUntimed_motion he (untimed_ne_none hu) _ _
    · exact hstepping

theorem firstExamination_motion (s : State) : Motion s (firstExamination s) := by
  rcases firstExamination_cases s with h | ⟨e, u, he, hu, _, _, h⟩
  · rw [h]
  · rw [h]
    exact examineFirst_motion he hu

/-! ## Starts -/

theorem failStart_motion {s : State} {seg : Segment} {rest : List Segment} (h : Heads s seg rest) (code : Code) :
    Motion s (failStart seg code rest s) := by
  unfold failStart
  rw [takeCause_of_live (s := startWith seg .running .none rest s) rfl]
  exact (MotionChange.startFailed _ seg rest h).motion

theorem timedSourceOf_begins (cfg : Settings) (steps : Int) (d : Nat) : SourceBegins (.timed (timedSourceOf cfg steps d)) := by
  simp [SourceBegins, timedSourceOf, TimedSource.counted]

theorem startSegment_motion {s : State} {seg : Segment} {rest : List Segment} (h : Heads s seg rest) :
    Motion s (startSegment seg rest s) := by
  unfold startSegment
  split
  · rename_i hbody
    split
    · exact (MotionChange.started seg rest _ h (by simp [Executing.sourceFits, hbody]) (timedSourceOf_begins ..)).motion
    · exact failStart_motion h _
  · rename_i hbody
    split
    · exact failStart_motion h _
    · exact (MotionChange.started seg rest _ h (by simp [Executing.sourceFits, hbody]) (timedSourceOf_begins ..)).motion
  · rename_i hbody
    exact (MotionChange.started seg rest _ h (by simp [Executing.sourceFits, hbody, untimedSourceOf]) (by trivial)).motion
  · rename_i hbody
    exact (MotionChange.started seg rest _ h (by simp [Executing.sourceFits, hbody, untimedSourceOf]) (by trivial)).motion
  · rename_i tag mask timeout hbody
    exact ((MotionChange.barrierStarted seg rest tag mask timeout h hbody).motion.trans
      (rows_foldl _ fillFrom_motion _ _)).trans (completeAtCreation_motion _)

theorem setAxis_self {s : State} {a : AxisState} (h : s.seq.axis = a) : setAxis a s = s := by
  subst h; rfl

/-- A start that no end precedes is made from IDLE alone. -/
theorem startAtBoundary_motion (s : State) : Motion s (startAtBoundary false s) := by
  unfold startAtBoundary
  split
  · rename_i hstart
    have haxis : s.seq.axis = .idle := by cases ha : s.seq.axis <;> simp_all [mayStart]
    split
    · rw [setAxis_self haxis]
    · rename_i seg rest hq
      split
      · exact takeCause_motion _ s
      · rename_i hfree
        exact startSegment_motion ⟨haxis, hq, hfree⟩
  · exact .refl

/-! ## Ends at a boundary -/

/-- The axis state that the end of the executing segment leaves before the start that it allows. -/
def axisEnded (a : AxisState) : AxisState := if a.live then .idle else a

theorem axisEnded_after (s : State) : AxisAfter s (axisEnded s.seq.axis) := by
  unfold AxisAfter axisEnded
  cases s.seq.axis.live <;> simp

/-- A start at the end of a segment is the start that IDLE makes. -/
theorem startAtBoundary_ended (s : State) :
    startAtBoundary true s = startAtBoundary false (setAxis (axisEnded s.seq.axis) s) := by
  cases hl : s.seq.axis.live with
  | false =>
    have hset : setAxis (axisEnded s.seq.axis) s = s := setAxis_self (by simp [axisEnded, hl])
    rw [hset]
    unfold startAtBoundary
    cases ha : s.seq.axis <;> simp_all [mayStart, AxisState.live]
  | true =>
    have hmay : mayStart true s.seq.axis = true := by cases ha : s.seq.axis <;> simp_all [mayStart, AxisState.live]
    have haxis : axisEnded s.seq.axis = .idle := by simp [axisEnded, hl]
    rw [haxis]
    unfold startAtBoundary
    rw [if_pos hmay, if_pos (show mayStart false (setAxis .idle s).seq.axis = true from rfl)]
    cases hq : s.seq.queue with
    | nil => simp only [setAxis, State.setSeq_seq, hq]; rfl
    | cons seg rest =>
      simp only [setAxis, State.setSeq_seq, hq]
      split
      · rename_i hfree
        rw [takeCause_of_live hl, if_pos (by exact hfree), takeCause_of_live (by rfl), ← hq]
        exact (haltTaken_setAxis _ .idle s).symm
      · rename_i hfree
        rw [if_neg (by exact hfree)]
        unfold startSegment
        split <;> rfl

theorem joinDue_counted (x fuel : Nat) (src : TimedSource) (h : src.counted = true) : (joinDue x fuel src).counted = true := by
  induction fuel generalizing src with
  | zero => exact h
  | succ fuel ih =>
    unfold joinDue
    split
    · rename_i hdue
      refine ih _ ?_
      simp only [TimedSource.counted, decide_eq_true_eq] at h ⊢
      omega
    · exact h

theorem joinSkipped_motion (skipped : Nat) (s : State) : Motion s (joinSkipped skipped s) := by
  unfold joinSkipped
  split
  · exact .refl
  · rename_i e he
    split
    · rename_i src hsrc
      exact setTimed_motion he hsrc (joinDue_counted _ _ _)
    · exact .refl

/-- A timed segment at its end boundary ends, and the head is started. -/
theorem endTimed_start_motion {e : Executing} {src : TimedSource} {s : State} (he : s.seq.exec = some e)
    (hsrc : e.source = .timed src) : Motion s (startAtBoundary true (endTimed e src s)) := by
  rw [startAtBoundary_ended]
  refine Relation.ReflTransGen.trans ?_ (startAtBoundary_motion _)
  by_cases hdone : src.emitted = src.n
  · simp only [endTimed, if_pos hdone]
    exact (MotionChange.ended e _ _ he (by rw [hsrc]; exact nofun) (axisEnded_after s)).motion
  · have haxis : (endTimed e src s).seq.axis = s.seq.axis := by simp [endTimed, hdone]
    rw [haxis]
    exact (MotionChange.finishing e src _ he hsrc hdone (axisEnded_after s)).motion

/-- A release, and what may follow it at its boundary before the start. -/
theorem releaseBarrier_motion {e : Executing} {s : State} (he : s.seq.exec = some e) (hsrc : e.source = .none)
    (x : BarrierCtx) (r : Release) : Motion s (startAtBoundary true (releaseBarrier e x r s)) := by
  rw [startAtBoundary_ended]
  exact (MotionChange.released e _ { ctx := none, histTag := x.tag, histCycle := r.r } _ he hsrc rfl
    (axisEnded_after s)).motion.trans (startAtBoundary_motion _)

/-- A halt taken between a release and the start halts from IDLE too. -/
theorem releaseBarrier_halt_motion {e : Executing} {s : State} (he : s.seq.exec = some e) (hsrc : e.source = .none)
    (x : BarrierCtx) (r : Release) (c : Cause) :
    Motion s (startAtBoundary true (takeCause c (releaseBarrier e x r s))) := by
  have hstart : startAtBoundary true (takeCause c (releaseBarrier e x r s)) = takeCause c (releaseBarrier e x r s) := by
    unfold startAtBoundary
    rw [takeCause_axis]
    split <;> simp_all [mayStart]
  rw [hstart]
  have hreleased : Motion s (setAxis (axisEnded s.seq.axis) (releaseBarrier e x r s)) :=
    (MotionChange.released e _ { ctx := none, histTag := x.tag, histCycle := r.r } _ he hsrc rfl (axisEnded_after s)).motion
  cases hl : s.seq.axis.live with
  | false =>
    rw [show axisEnded s.seq.axis = s.seq.axis by simp [axisEnded, hl],
      setAxis_self (s := releaseBarrier e x r s) (a := s.seq.axis) rfl] at hreleased
    exact hreleased.trans (takeCause_motion c _)
  | true =>
    rw [show axisEnded s.seq.axis = .idle by simp [axisEnded, hl]] at hreleased
    rw [takeCause_of_live (s := releaseBarrier e x r s) hl, ← haltTaken_setAxis c .idle]
    exact hreleased.trans (MotionChange.halted c).motion

theorem sequencerBoundary_motion (late : Bool) (s : State) : Motion s (sequencerBoundary late s).1 := by
  unfold sequencerBoundary
  split
  · exact startAtBoundary_motion s
  · rename_i e he
    split
    · rename_i src hsrc
      split
      · exact endTimed_start_motion he hsrc
      · exact startAtBoundary_motion s
    · exact startAtBoundary_motion s
    · rename_i hsrc
      split
      · exact startAtBoundary_motion s
      · rename_i x r _
        simp only []
        split
        · cases lateFault s.cfg e r with
          | none => exact releaseBarrier_motion he hsrc x r
          | some c => exact releaseBarrier_halt_motion he hsrc x r c
        · exact releaseBarrier_motion he hsrc x r

theorem motionBoundary_motion (late : Bool) (skipped : Nat) (s : State) :
    Motion s (motionBoundary late skipped s).1 :=
  (joinSkipped_motion skipped s).trans (sequencerBoundary_motion late _)

/-! ## Steps -/

theorem beginPulse_motion (s : State) : Motion s (beginPulse s) :=
  (MotionChange.gen (s := s)
    { s.gen with
      position := BitVec.ofInt 32 (steppedPosition s.gen)
      spacing := some 0
      pulse := some s.cfg.stepPulseUs } rfl (.inl rfl)).motion

/-- A refused step of a RUNNING axis halts it. -/
theorem refuseStep_of_live {s : State} (h : s.seq.axis.live = true) (seq : SeqNo) (code : Code) (who : Faulted) :
    refuseStep seq code who s = haltTaken (.segmentFault seq code who) s := by
  unfold refuseStep
  rw [takeCause_of_live (s := s.setGen { s.gen with refused := true }) h, haltTaken_refused]

/-- What conditions 1 to 5 of R42 say. -/
theorem stepConditions_iff (s : State) : stepConditions s = true ↔
    s.seq.axis = .running ∧ s.gen.refused = false ∧ s.seq.head.hasDueStep = true ∧
      (∀ k, s.gen.spacing = some k → s.cfg.minStepUs ≤ k) ∧
      (∃ d, s.seq.head.direction = some d ∧ d.high = s.gen.dirHigh) ∧ s.gen.dirSetup = none := by
  unfold stepConditions
  cases s.gen.spacing <;> cases s.seq.head.direction <;> simp [and_assoc]

theorem replaceFinishing_setFinishingSource (r : Record) (src : TimedSource) (l : List Outstanding) :
    replaceFinishing r (setFinishingSource src l) = replaceFinishing r l := by
  induction l with
  | nil => rfl
  | cons o l ih => cases o <;> simp [setFinishingSource, replaceFinishing, ih]

theorem countFinishingStep_motion {f : Finishing} {fs : List Finishing} {s : State} (hf : s.seq.finishing = f :: fs) :
    Motion s (countFinishingStep f s) := by
  unfold countFinishingStep
  simp only []
  split
  · have hwrite (r : Record) (src : TimedSource) : writeFinishingRecord r
        (s.setSeq { s.seq with outstanding := setFinishingSource src s.seq.outstanding }) = writeFinishingRecord r s := by
      simp only [writeFinishingRecord, State.setSeq_seq, replaceFinishing_setFinishingSource]
      rfl
    rw [hwrite]
    exact (MotionChange.stepsDone f fs _ hf).motion.trans (firstExamination_motion _)
  · rename_i howes
    exact (MotionChange.stepCounted f fs hf (by omega)).motion

theorem stepFinishing_motion {f : Finishing} {fs : List Finishing} {s : State} (hf : s.seq.finishing = f :: fs)
    (hlive : s.seq.axis.live = true) : Motion s (stepFinishing f s) := by
  unfold stepFinishing
  split
  · rw [refuseStep_of_live hlive]
    exact (MotionChange.halted _).motion
  · exact (beginPulse_motion s).trans (countFinishingStep_motion (s := beginPulse s) hf)

theorem countExecStep_motion {s : State} (hfin : s.seq.finishing = []) (hdue : s.seq.head.hasDueStep = true) :
    Motion s (countExecStep s) := by
  unfold countExecStep
  split
  · exact .refl
  · rename_i e he
    split
    · exact .refl
    · rename_i src hsrc
      refine setTimed_motion he hsrc fun hcounted => ?_
      simp only [Sequencer.head, hfin, execHead, he, hsrc] at hdue
      split at hdue
      · have hbacklog : 0 < src.fallen - src.emitted := of_decide_eq_true hdue
        simp only [TimedSource.counted, decide_eq_true_eq] at hcounted ⊢
        omega
      · simp [Head.hasDueStep] at hdue
    · rename_i u hu
      exact setUntimed_motion he hu rfl

theorem stepExecuting_motion {e : Executing} {s : State} (hfin : s.seq.finishing = [])
    (hdue : s.seq.head.hasDueStep = true) (hlive : s.seq.axis.live = true) : Motion s (stepExecuting e s) := by
  unfold stepExecuting
  split
  · rw [refuseStep_of_live hlive]
    exact (MotionChange.halted _).motion
  · exact (beginPulse_motion s).trans (countExecStep_motion (s := beginPulse s) hfin hdue)

theorem homeValue_eq_some {e : Executing} {v : Position} (h : e.homeValue = some v) :
    ∃ u, e.source = .untimed u ∧ u.home = some v := by
  unfold Executing.homeValue at h
  split at h
  · rename_i u hu
    exact ⟨u, hu, h⟩
  · cases h

theorem takeStep_motion {s : State} (h : stepConditions s = true) : Motion s (takeStep s) := by
  obtain ⟨haxis, _, hdue, _⟩ := (stepConditions_iff s).mp h
  have hlive : s.seq.axis.live = true := by rw [haxis]; rfl
  unfold takeStep
  split
  · rename_i f fs hf
    exact stepFinishing_motion hf hlive
  · rename_i hfin
    split
    · exact .refl
    · rename_i e he
      split
      · rename_i v hv
        obtain ⟨u, hu, _⟩ := homeValue_eq_some hv
        split
        · exact endHomed_motion he (untimed_ne_none hu) _
        · exact stepExecuting_motion hfin hdue hlive
      · exact stepExecuting_motion hfin hdue hlive

/-! ## Events of the Step Generator, inputs -/

theorem fallDue_motion {s : State} (h : stepDueNow s = true) : Motion s (fallDue s) := by
  unfold fallDue
  split
  · exact .refl
  · rename_i e he
    split
    · rename_i src hsrc
      refine setTimed_motion he hsrc fun hcounted => ?_
      simp only [stepDueNow, he, hsrc, decide_eq_true_eq] at h
      simp only [TimedSource.counted, decide_eq_true_eq] at hcounted ⊢
      exact ⟨Nat.le_succ_of_le hcounted.1, h.1⟩
    · exact .refl

theorem fallDueUntimed_motion (s : State) : Motion s (fallDueUntimed s) := by
  unfold fallDueUntimed
  split
  · exact .refl
  · rename_i e he
    split
    · rename_i u hu
      exact setUntimed_motion he hu rfl
    · exact .refl

theorem closeSegment_motion (s : State) : Motion s (closeSegment s) := by
  unfold closeSegment
  split
  · exact .refl
  · rename_i e he
    split
    · rename_i u hu
      split
      · split
        · exact endHomed_motion he (untimed_ne_none hu) _
        · exact endHomeFailed_motion he (untimed_ne_none hu)
      · exact endUntimed_motion he (untimed_ne_none hu) _ _
    · exact .refl

theorem changeDir_motion (s : State) : Motion s (changeDir s) := by
  refine (MotionChange.gen (s := s)
    { s.gen with
      dirHigh := !s.gen.dirHigh
      dirSetup := if s.cfg.dirSetupUs = 0 then none else some s.cfg.dirSetupUs } rfl ?_).motion
  by_cases h : s.cfg.dirSetupUs = 0 <;> simp [h]

theorem flipInput_motion (i : AxisInput) (s : State) : Motion s (flipInput i s) :=
  (MotionChange.gen (s := s) (setFilter i (s.gen.filter i).flip s.gen) (by cases i <;> rfl)
    (.inl (by cases i <;> rfl))).motion

theorem flipStop_motion (s : State) : Motion s (flipStop s) :=
  (MotionChange.haltCtl (s := s) { s.haltCtl with stopn := s.haltCtl.stopn.flip }).motion

theorem probeChanged_motion (s : State) : Motion s (probeChanged s) := by
  unfold probeChanged
  split
  · exact .refl
  · rename_i e he
    split
    · rename_i u hu
      split
      · unfold watchProbe
        split
        · exact endUntimed_motion he (untimed_ne_none hu) _ _
        · exact setUntimed_motion he hu rfl
      · exact .refl
    · exact .refl

theorem changeLevel_motion (i : AxisInput) (s : State) : Motion s (changeLevel i s) := by
  cases i
  · exact flipInput_motion .home s
  · exact (flipInput_motion .probe s).trans (probeChanged_motion _)
  · exact flipInput_motion .limp s
  · exact flipInput_motion .limn s

theorem stepConditions_of_due {s : State} (h : stepPulseBeginDue s = true) : stepConditions s = true := by
  simp only [stepPulseBeginDue, Bool.and_eq_true] at h
  exact h.2

theorem stepTurn_motion (s : State) (e : StepTurn) : Motion s (stepTurn s e) := by
  cases e
  · exact rows_ite _ fun _ => changeLevel_motion .probe s
  · refine rows_ite _ fun h => fallDue_motion ?_
    simp only [stepDueDue, Bool.and_eq_true] at h
    exact h.2
  · exact rows_ite _ fun _ => fallDueUntimed_motion s
  · exact rows_ite _ fun _ => closeSegment_motion s
  · exact rows_ite _ fun _ => changeDir_motion s
  · exact rows_ite _ fun h => takeStep_motion (stepConditions_of_due h)

theorem stepEventsTurn_motion (o : EventOrder) (before : Option Segment) (s : State) :
    Motion s (stepEventsTurn o before s) :=
  rows_foldl _ (fun s e => rows_ite _ fun _ => stepTurn_motion s e) _ s

theorem stopTurn_motion (s : State) : Motion s (stopTurn s) :=
  rows_ite _ fun _ => (flipStop_motion s).trans (takeCause_motion _ _)

/-! ## Handing on -/

theorem haltPeerLost_motion (k : Station) (s : State) : Motion s (haltPeerLost k s) := by
  unfold haltPeerLost
  split
  · exact takeCause_motion _ s
  · exact .refl

theorem handOn_motion (b : Bool) (k : Station) (s : State) : Motion s (handOn b k s) := by
  unfold handOn
  split
  · exact (barrierMemberLost_motion k s).trans (haltPeerLost_motion k _)
  · exact (haltPeerLost_motion k s).trans (barrierMemberLost_motion k _)

theorem haltFrame_motion (k : Station) (v : PeerView) (s : State) : Motion s (haltFrame k v s) := by
  unfold haltFrame
  split
  · exact takeCause_motion _ s
  · exact .refl

theorem linkLost_motion (b : Bool) (s : State) : Motion s (linkLost b s) := by
  unfold linkLost
  split
  · exact takeCause_motion _ s
  · exact .refl

end Sys2Proof.Machine
end

