-- ==== Sys2Proof/Proofs/TableChanges.lean ====
section
/-! PROOFS. What the Peer Table and the Note Unit can do at once, and that every operation of theirs is a row of such
changes. -/

namespace Sys2Proof.Machine

/-! ## The note bits of the entries -/

/-- The entries differ in the bits of the Note Unit alone. -/
structure SameShown (a b : PeerEntry) : Prop where
  presence : b.presence = a.presence
  missed : b.missed = a.missed
  view : b.view = a.view
  heard : b.heard = a.heard

theorem SameShown.refl (a : PeerEntry) : SameShown a a := ⟨rfl, rfl, rfl, rfl⟩

theorem SameShown.trans {a b c : PeerEntry} (h : SameShown a b) (k : SameShown b c) : SameShown a c :=
  ⟨k.presence.trans h.presence, k.missed.trans h.missed, k.view.trans h.view, k.heard.trans h.heard⟩

/-- Nothing but note bits of peer entries has changed. -/
structure NoteBits (s t : State) : Prop where
  peersOnly : t = s.setPeers t.peers
  changeMap : t.peers.changeMap = s.peers.changeMap
  entry : ∀ k, SameShown (s.entry k) (t.entry k)

theorem NoteBits.refl (s : State) : NoteBits s s := ⟨rfl, rfl, fun _ => SameShown.refl _⟩

theorem NoteBits.trans {s t u : State} (h : NoteBits s t) (k : NoteBits t u) : NoteBits s u :=
  ⟨by rw [k.peersOnly, h.peersOnly]; rfl, k.changeMap.trans h.changeMap, fun m => (h.entry m).trans (k.entry m)⟩

theorem NoteBits.notes {s t : State} (h : NoteBits s t) : t.notes = s.notes := by rw [h.peersOnly]; rfl

theorem updateEntry_noteBits (k : Station) {f : PeerEntry → PeerEntry} (hf : ∀ e, SameShown e (f e)) (s : State) :
    NoteBits s (updateEntry k f s) := by
  refine ⟨rfl, rfl, fun m => ?_⟩
  rw [updateEntry_entry]
  split
  · rename_i h; subst h; exact hf _
  · exact SameShown.refl _

theorem noteBits_foldl {f : State → Station → State} (hf : ∀ s d, NoteBits s (f s d)) (l : List Station) (s : State) :
    NoteBits s (l.foldl f s) := by
  induction l generalizing s with
  | nil => exact NoteBits.refl s
  | cons d l ih => exact (hf s d).trans (ih _)

/-- A fold that settles one destination after another changes note bits alone. -/
theorem settling_noteBits {f : Settling → Station → Settling} (hf : ∀ x d, NoteBits x.2 (f x d).2) (l : List Station)
    (x : Settling) : NoteBits x.2 (l.foldl f x).2 := by
  induction l generalizing x with
  | nil => exact NoteBits.refl _
  | cons d l ih => exact (hf x d).trans (ih _)

theorem failGone_noteBits (x : Settling) (d : Station) : NoteBits x.2 (failGone x d).2 := by
  unfold failGone
  split
  · dsimp only
    split
    · exact updateEntry_noteBits d (by intro e; exact ⟨rfl, rfl, rfl, rfl⟩) _
    · exact NoteBits.refl _
  · exact NoteBits.refl _

theorem failNoAck_noteBits (x : Settling) (d : Station) : NoteBits x.2 (failNoAck x d).2 := by
  unfold failNoAck
  split
  · exact updateEntry_noteBits d (by intro e; exact ⟨rfl, rfl, rfl, rfl⟩) _
  · exact NoteBits.refl _

theorem settleDest_noteBits (dests : Mask) (x : Settling) (d : Station) : NoteBits x.2 (settleDest dests x d).2 := by
  unfold settleDest
  split
  · split
    · exact NoteBits.refl _
    · split
      · exact NoteBits.refl _
      · dsimp only
        exact updateEntry_noteBits d (by intro e; exact ⟨rfl, rfl, rfl, rfl⟩) x.2
  · exact NoteBits.refl _

theorem senderJoin_noteBits (d : Station) (join : Bool) (x : Settling) : NoteBits x.2 (senderJoin d join x).2 := by
  unfold senderJoin
  split
  · dsimp only
    exact updateEntry_noteBits d (by intro e; exact ⟨rfl, rfl, rfl, rfl⟩) x.2
  · exact NoteBits.refl _

theorem senderDelivery_state (d : Station) (ack : Bool) (x : Settling) : (senderDelivery d ack x).2 = x.2 := by
  unfold senderDelivery
  split
  · split <;> rfl
  · rfl

theorem senderResync_noteBits (d : Station) (ack : Bool) (x : Settling) : NoteBits x.2 (senderResync d ack x).2 := by
  unfold senderResync
  dsimp only
  split
  · split
    · dsimp only
      exact updateEntry_noteBits d (by intro e; exact ⟨rfl, rfl, rfl, rfl⟩) x.2
    · dsimp only
      exact updateEntry_noteBits d (by intro e; exact ⟨rfl, rfl, rfl, rfl⟩) x.2
  · exact NoteBits.refl _

theorem senderSteps_noteBits (d : Station) (f : Frame) (own : Station) (x : Settling) :
    NoteBits x.2 (senderSteps d f own x).2 := by
  have hdelivery := senderDelivery_state d (inMask f.ackMap own) (senderJoin d f.view.join x)
  refine (senderJoin_noteBits d f.view.join x).trans ?_
  rw [← hdelivery]
  exact senderResync_noteBits d _ _

theorem showResync_noteBits (s : State) (d : Station) : NoteBits s (showResync s d) :=
  updateEntry_noteBits d (by intro e; exact ⟨rfl, rfl, rfl, rfl⟩) s

theorem clearNoteBits_noteBits (s : State) (d : Station) : NoteBits s (clearNoteBits s d) :=
  updateEntry_noteBits d (by intro e; exact ⟨rfl, rfl, rfl, rfl⟩) s

theorem setRefuse_noteBits (k : Station) (b : Bool) (s : State) : NoteBits s (setRefuse k b s) :=
  updateEntry_noteBits k (by intro e; exact ⟨rfl, rfl, rfl, rfl⟩) s

theorem receiverClear_shown (f : Frame) (own : Station) (e : PeerEntry) : SameShown e (receiverClear f own e) := by
  unfold receiverClear
  split
  · exact ⟨rfl, rfl, rfl, rfl⟩
  · split <;> exact ⟨rfl, rfl, rfl, rfl⟩

/-! ## The changes -/

/-- What becomes of a note that starts or is on its way: it is SENDING, or DONE. -/
def SlotSettles (number : Byte) (dests : Mask) (payload : List Byte) (x : NoteSlot) : Prop :=
  (∃ c st, x = .sending number dests payload c st) ∨ ∃ st, x = .done number dests st

/-- One change that the Peer Table and the Note Unit make in one go. -/
inductive TableChange (s : State) : State → Prop
  | noteBits (t : State) (h : NoteBits s t) : TableChange s t
  | entry (k : Station) (e : PeerEntry)
      (h : e.presence = (s.entry k).presence ∨ k.val < s.stationCount) : TableChange s (setEntry k e s)
  | change (k : Station) (hown : k ≠ s.id) (hn : k.val < s.stationCount) : TableChange s (setChange k s)
  | slot (i : Fin 4) (number : Byte) (dests : Mask) (payload : List Byte) (c : Cycle) (st : Vector Standing 16)
      (x : NoteSlot) (h : s.notes.slots.get i = .sending number dests payload c st)
      (hx : SlotSettles number dests payload x) : TableChange s (setSlot i x s)
  | noteStarted (i : Fin 4) (rest : List (Fin 4)) (number : Byte) (dests : Mask) (payload : List Byte) (x : NoteSlot)
      (horder : s.notes.order = i :: rest) (hslot : s.notes.slots.get i = .queued number dests payload)
      (hnone : s.notes.sendingId = none) (hx : SlotSettles number dests payload x) :
      TableChange s (setSlot i x (setOrder rest s))
  | noteSkipped (i : Fin 4) (rest : List (Fin 4)) (horder : s.notes.order = i :: rest)
      (hslot : s.notes.isQueued i = false) : TableChange s (setOrder rest s)
  | noteTaken (n : InNote) (h : s.notes.inbox.length < Config.inboxCapacity) :
      TableChange s (s.setNotes { s.notes with inbox := s.notes.inbox ++ [n] })

/-- A row of changes of the tables. -/
abbrev Tables : State → State → Prop := Relation.ReflTransGen TableChange

theorem TableChange.tables {s t : State} (h : TableChange s t) : Tables s t := .single h

theorem NoteBits.tables {s t : State} (h : NoteBits s t) : Tables s t := (TableChange.noteBits t h).tables

theorem updateEntry_tables {k : Station} {f : PeerEntry → PeerEntry} {s : State}
    (h : (f (s.entry k)).presence = (s.entry k).presence ∨ k.val < s.stationCount) : Tables s (updateEntry k f s) :=
  (TableChange.entry k _ h).tables

/-! ## The SENDING note -/

theorem mem_slotIds (i : Fin 4) : i ∈ slotIds := by fin_cases i <;> decide

/-- `sendingId` names a slot that is SENDING. -/
theorem sendingId_eq_some {u : NoteUnit} {i : Fin 4} (h : u.sendingId = some i) : u.isSending i = true :=
  List.find?_some h

theorem sendingId_eq_none {u : NoteUnit} : u.sendingId = none ↔ ∀ i, u.isSending i = false := by
  have hfind : u.sendingId = slotIds.find? u.isSending := rfl
  rw [hfind, List.find?_eq_none]
  exact ⟨fun h i => by simpa using h i (mem_slotIds i), fun h i _ => by simpa using h i⟩

theorem isSending_iff {u : NoteUnit} {i : Fin 4} : u.isSending i = true ↔
    ∃ number dests payload c st, u.slots.get i = .sending number dests payload c st := by
  unfold NoteUnit.isSending
  cases u.slots.get i <;> simp

theorem isQueued_iff {u : NoteUnit} {i : Fin 4} : u.isQueued i = true ↔
    ∃ number dests payload, u.slots.get i = .queued number dests payload := by
  unfold NoteUnit.isQueued
  cases u.slots.get i <;> simp

/-- The note that is SENDING is the one of its slot. -/
theorem sending_eq_some {s : State} {n : SendingNote} (h : s.sending = some n) : s.notes.sendingId = some n.id ∧
    s.notes.slots.get n.id = .sending n.number n.dests n.payload n.startCycle n.standing := by
  unfold State.sending at h
  split at h
  · cases h
  · rename_i i hi
    split at h
    · rename_i hslot
      cases h
      exact ⟨hi, hslot⟩
    · cases h

theorem sending_eq_none {s : State} : s.sending = none ↔ s.notes.sendingId = none := by
  constructor
  · intro h
    unfold State.sending at h
    split at h
    · assumption
    · rename_i i hi
      obtain ⟨number, dests, payload, c, st, hslot⟩ := isSending_iff.mp (sendingId_eq_some hi)
      simp [hslot] at h
  · intro h
    simp [State.sending, h]

theorem putSending_settles (n : SendingNote) (st : Vector Standing 16) : SlotSettles n.number n.dests n.payload
    (if anyOpen st then .sending n.number n.dests n.payload n.startCycle st else .done n.number n.dests st) := by
  split
  · exact .inl ⟨_, _, rfl⟩
  · exact .inr ⟨_, rfl⟩

/-- The SENDING note is put back with other standings, after changes of note bits. -/
theorem putSending_tables {s t : State} {n : SendingNote} (hn : s.sending = some n) (h : NoteBits s t)
    (st : Vector Standing 16) : Tables s (putSending n st t) := by
  refine h.tables.trans (TableChange.slot n.id n.number n.dests n.payload n.startCycle n.standing _ ?_
    (putSending_settles n st)).tables
  rw [h.notes]
  exact (sending_eq_some hn).2

theorem noteFailures_tables (s : State) : Tables s (noteFailures s) := by
  unfold noteFailures
  split
  · exact .refl
  · rename_i n hn
    dsimp only
    refine putSending_tables hn ?_ _
    have hgone : NoteBits s (stations.foldl failGone (n.standing, s)).2 := settling_noteBits failGone_noteBits stations (n.standing, s)
    split
    · exact hgone.trans (settling_noteBits failNoAck_noteBits stations _)
    · exact hgone

theorem startNote_tables {i : Fin 4} {rest : List (Fin 4)} {s : State} (horder : s.notes.order = i :: rest)
    (hnone : s.notes.sendingId = none) : Tables s (startNote i (setOrder rest s)) := by
  unfold startNote
  split
  · rename_i number dests payload hslot
    dsimp only
    have hbits : NoteBits (setOrder rest s)
        (stations.foldl (settleDest dests) (Vector.replicate 16 .no, setOrder rest s)).2 :=
      settling_noteBits (settleDest_noteBits dests) stations (_, setOrder rest s)
    generalize stations.foldl (settleDest dests) (Vector.replicate 16 .no, setOrder rest s) = x at hbits ⊢
    have hput : putSending ⟨i, number, dests, payload, (setOrder rest s).timer.cycle, x.1⟩ x.1 x.2 =
        (putSending ⟨i, number, dests, payload, (setOrder rest s).timer.cycle, x.1⟩ x.1 (setOrder rest s)).setPeers
          x.2.peers := by
      conv_lhs => rw [hbits.peersOnly]
      rfl
    rw [hput]
    exact (TableChange.noteStarted i rest number dests payload _ horder hslot hnone (putSending_settles _ _)).tables.trans
      (NoteBits.tables ⟨rfl, hbits.changeMap, hbits.entry⟩)
  · rename_i hslot
    refine (TableChange.noteSkipped i rest horder ?_).tables
    cases hq : s.notes.isQueued i
    · rfl
    · obtain ⟨number, dests, payload, h⟩ := isQueued_iff.mp hq
      exact absurd h (hslot number dests payload)

theorem startNote_order (i : Fin 4) (s : State) : (startNote i s).notes.order = s.notes.order := by
  unfold startNote
  split
  · rename_i number dests payload _
    dsimp only
    have h := (settling_noteBits (settleDest_noteBits dests) stations (Vector.replicate 16 .no, s)).notes
    simp only [putSending, setSlot, State.setNotes_notes, h]
  · rfl

theorem startNotes_tables {l : List (Fin 4)} {s : State} (horder : s.notes.order = l)
    (hnone : s.notes.sendingId = none) : Tables s (startNotes l s) := by
  induction l generalizing s with
  | nil => exact .refl
  | cons i rest ih =>
    have hstart := startNote_tables horder hnone
    unfold startNotes
    dsimp only
    cases hs : (startNote i (setOrder rest s)).notes.sendingId with
    | some j => exact hstart
    | none => exact hstart.trans (ih (startNote_order i _) hs)

theorem noteBoundary_tables (s : State) : Tables s (noteBoundary s) := by
  unfold noteBoundary
  dsimp only
  split
  · rename_i h
    exact (noteFailures_tables s).trans (startNotes_tables rfl h.2)
  · exact noteFailures_tables s

theorem noteShown_tables (s : State) : Tables s (noteShown s) := by
  unfold noteShown
  split
  · exact .refl
  · dsimp only
    have hbits : NoteBits s (stations.foldl showResync s) := noteBits_foldl showResync_noteBits stations s
    generalize stations.foldl showResync s = t at hbits ⊢
    split
    · exact hbits.tables
    · rename_i n hn
      exact hbits.tables.trans (TableChange.slot n.id n.number n.dests n.payload n.startCycle n.standing _
        (sending_eq_some hn).2 (.inl ⟨_, _, rfl⟩)).tables

theorem noteSenderFrame_tables (d : Station) (f : Frame) (s : State) : Tables s (noteSenderFrame d f s) := by
  unfold noteSenderFrame
  split
  · exact (senderSteps_noteBits d f s.id (Vector.replicate 16 .no, s)).tables
  · rename_i n hn
    exact putSending_tables hn (senderSteps_noteBits d f s.id (n.standing, s)) _

theorem receiveNote_tables (k : Station) (n : FrameNote) (t : Bool) (s : State) : Tables s (receiveNote k n t s) := by
  unfold receiveNote
  split
  · exact (setRefuse_noteBits k _ s).tables
  · split
    · rename_i hroom
      exact (TableChange.noteTaken { sender := k, number := n.number, payload := n.payload, acceptCycle := s.timer.cycle }
        hroom).tables.trans
        (updateEntry_noteBits k (by intro e; exact ⟨rfl, rfl, rfl, rfl⟩) _).tables
    · exact (setRefuse_noteBits k _ s).tables

theorem noteReceiverFrame_tables (k : Station) (f : Frame) (s : State) : Tables s (noteReceiverFrame k f s) := by
  have hclear : Tables s (updateEntry k (receiverClear f s.id) s) :=
    (updateEntry_noteBits k (receiverClear_shown f s.id) s).tables
  unfold noteReceiverFrame
  dsimp only
  split
  · exact hclear.trans (setRefuse_noteBits k _ _).tables
  · split
    · exact hclear.trans (setRefuse_noteBits k _ _).tables
    · exact hclear.trans (receiveNote_tables k _ _ _)

theorem notesAtListen_tables (s : State) : Tables s (notesAtListen s) := by
  unfold notesAtListen
  dsimp only
  have hbits : NoteBits s (stations.foldl clearNoteBits s) := noteBits_foldl clearNoteBits_noteBits stations s
  generalize stations.foldl clearNoteBits s = t at hbits ⊢
  split
  · exact hbits.tables
  · rename_i n hn
    exact hbits.tables.trans (putSending_tables hn (NoteBits.refl t) _)

theorem recordFrame_tables {k : Station} {s : State} (hown : k ≠ s.id) (hn : k.val < s.stationCount) (v : PeerView) :
    Tables s (recordFrame k v s) := by
  have hentry : Tables s (setEntry k (recordedEntry v (s.entry k)) s) := (TableChange.entry k _ (.inr hn)).tables
  unfold recordFrame
  dsimp only
  split
  · exact hentry.trans (TableChange.change (s := setEntry k (recordedEntry v (s.entry k)) s) k hown hn).tables
  · exact hentry

theorem writeOwnEntry_tables {s : State} (hn : s.id.val < s.stationCount) (bytes : List Byte) :
    Tables s (writeOwnEntry bytes s) :=
  updateEntry_tables (.inr hn)

/-! ## Work: the motion and the tables together -/

/-- A change of the motion or of the tables. -/
def WorkChange (s t : State) : Prop := MotionChange s t ∨ TableChange s t

/-- A row of changes of the motion and the tables. -/
abbrev Work : State → State → Prop := Relation.ReflTransGen WorkChange

theorem work_of_motion {s t : State} (h : Motion s t) : Work s t := Relation.ReflTransGen.mono (fun _ _ => Or.inl) _ _ h

theorem work_of_tables {s t : State} (h : Tables s t) : Work s t := Relation.ReflTransGen.mono (fun _ _ => Or.inr) _ _ h

/-- A peer entry below N enters LOST or INCOMPATIBLE, and the transition is handed on. -/
theorem transition_work {k : Station} {s : State} (hown : k ≠ s.id) (hn : k.val < s.stationCount) (e : PeerEntry)
    (b : Bool) : Work s (handOn b k (setChange k (setEntry k e s))) :=
  ((work_of_tables (TableChange.entry k e (.inr hn)).tables).trans
    (work_of_tables (TableChange.change (s := setEntry k e s) k hown hn).tables)).trans (work_of_motion (handOn_motion b k _))

theorem profileMismatch_work {k : Station} {s : State} (hown : k ≠ s.id) (hn : k.val < s.stationCount) (b : Bool) :
    Work s (profileMismatch b k s) := by
  unfold profileMismatch
  split
  · exact .refl
  · exact transition_work hown hn _ b

theorem ageEntry_work (b : Bool) (s : State) (k : Station) : Work s (ageEntry b s k) := by
  unfold ageEntry
  dsimp only
  split
  · exact .refl
  · rename_i h
    obtain ⟨hown, hn⟩ := not_or.mp h
    have hn : k.val < s.stationCount := Nat.lt_of_not_le hn
    split
    · split
      · exact work_of_tables (TableChange.entry k _ (.inr hn)).tables
      · split
        · exact work_of_tables (TableChange.entry k _ (.inr hn)).tables
        · exact transition_work hown hn _ b
    · exact work_of_tables (TableChange.entry k _ (.inr hn)).tables

theorem ageing_work (b : Bool) (s : State) : Work s (ageing b s) :=
  rows_ite _ fun _ => rows_foldl _ (ageEntry_work b) _ s

theorem markLost_work (b : Bool) (s : State) (k : Station) : Work s (markLost b s k) := by
  unfold markLost
  dsimp only
  split
  · exact .refl
  · rename_i h
    obtain ⟨hown, hn⟩ := not_or.mp h
    have hn : k.val < s.stationCount := Nat.lt_of_not_le hn
    split
    · exact transition_work hown hn _ b
    · exact work_of_tables (TableChange.entry k _ (.inr hn)).tables

theorem markAllLost_work (b : Bool) (s : State) : Work s (markAllLost b s) := rows_foldl _ (markLost_work b) _ s

theorem acceptFrame_work {k : Station} {s : State} (hown : k ≠ s.id) (hn : k.val < s.stationCount) (b : Bool)
    (f : Frame) : Work s (acceptFrame b k f s) := by
  unfold acceptFrame
  dsimp only
  refine (Relation.ReflTransGen.trans ?_ (work_of_tables (noteSenderFrame_tables k f _))).trans
    (work_of_tables (noteReceiverFrame_tables k f _))
  refine (work_of_tables (recordFrame_tables hown hn f.view)).trans (work_of_motion ?_)
  split
  · exact (barrierFrame_motion k f.view _).trans (haltFrame_motion k f.view _)
  · exact (haltFrame_motion k f.view _).trans (barrierFrame_motion k f.view _)

end Sys2Proof.Machine
end

