-- ==== Sys2Proof/Proofs/ChangeLaws.lean ====
section
/-! PROOFS. What the changes of the motion and of the tables leave alone, and the laws that they keep. -/

namespace Sys2Proof.Machine

/-! ## Frames -/

/-- What the motion's changes leave alone: the clock, the tables, and of the port all but the HALT flag. -/
structure MotionFrame (s t : State) : Prop where
  clock : SameClock s t
  peers : t.peers = s.peers
  notes : t.notes = s.notes
  port : t.port = { s.port with haltFlag := t.port.haltFlag }
  haltFlag : s.port.haltFlag = true → t.port.haltFlag = true

theorem MotionFrame.refl (s : State) : MotionFrame s s := ⟨SameClock.refl s, rfl, rfl, rfl, id⟩

theorem MotionFrame.trans {s t u : State} (h : MotionFrame s t) (k : MotionFrame t u) : MotionFrame s u :=
  ⟨h.clock.trans k.clock, k.peers.trans h.peers, k.notes.trans h.notes, by rw [k.port, h.port],
    fun hf => k.haltFlag (h.haltFlag hf)⟩

theorem MotionChange.frame {s t : State} (h : MotionChange s t) : MotionFrame s t := by
  cases h with
  | gen g => exact ⟨setGen_clock s g, rfl, rfl, rfl, id⟩
  | haltCtl x => exact ⟨setHaltCtl_clock s x, rfl, rfl, rfl, id⟩
  | halted c =>
    exact ⟨haltTaken_clock c s, haltTaken_peers c s, haltTaken_notes c s, by rw [haltTaken_port], fun _ => by
      rw [haltTaken_port]⟩
  | withdrawn => exact ⟨setBarrier_clock s _, rfl, rfl, rfl, id⟩
  | context x y => exact ⟨setCtx_clock y s, rfl, rfl, rfl, id⟩
  | source e src => exact ⟨setExecSource_clock e src s, rfl, rfl, rfl, id⟩
  | ended e r a => exact ⟨(writeExecRecord_clock r s).trans (setAxis_clock a _), rfl, rfl, rfl, id⟩
  | finishing e src a he hsrc howes =>
    refine ⟨(endTimed_clock e src s).trans (setAxis_clock a _), ?_, ?_, ?_, ?_⟩ <;>
      simp [endTimed, howes, setAxis]
  | released e r b a =>
    exact ⟨((setBarrier_clock s b).trans (writeExecRecord_clock r _)).trans (setAxis_clock a _), rfl, rfl, rfl, id⟩
  | started seg rest src => exact ⟨startWith_clock seg _ src rest s, rfl, rfl, rfl, id⟩
  | barrierStarted seg rest => exact ⟨(startWith_clock seg _ _ rest s).trans (setCtx_clock _ _), rfl, rfl, rfl, id⟩
  | startFailed c seg rest =>
    exact ⟨(startWith_clock seg _ _ rest s).trans (haltTaken_clock c _), haltTaken_peers c _, haltTaken_notes c _, by
      rw [haltTaken_port]; rfl, fun _ => by rw [haltTaken_port]⟩
  | stepCounted f fs => exact ⟨setSeq_clock s _, rfl, rfl, rfl, id⟩
  | stepsDone f fs r => exact ⟨writeFinishingRecord_clock r s, rfl, rfl, rfl, id⟩

/-- What relates each change relates the ends of a row of them. -/
theorem rows_relate {R P : State → State → Prop} (hrefl : ∀ s, P s s) (htrans : ∀ {s t u}, P s t → P t u → P s u)
    (h : ∀ {s t}, R s t → P s t) {s t : State} (hrow : Relation.ReflTransGen R s t) : P s t := by
  induction hrow with
  | refl => exact hrefl s
  | tail _ hstep ih => exact htrans ih (h hstep)

theorem motion_frame {s t : State} (h : Motion s t) : MotionFrame s t :=
  rows_relate MotionFrame.refl MotionFrame.trans MotionChange.frame h

/-- What the tables' changes leave alone: the clock, the motion, and of the port all but the pending removal. -/
structure TableFrame (s t : State) : Prop where
  clock : SameClock s t
  seq : t.seq = s.seq
  gen : t.gen = s.gen
  barrier : t.barrier = s.barrier
  haltCtl : t.haltCtl = s.haltCtl
  held : t.held = s.held
  port : t.port = { s.port with removal := t.port.removal }

theorem TableFrame.refl (s : State) : TableFrame s s := ⟨SameClock.refl s, rfl, rfl, rfl, rfl, rfl, rfl⟩

theorem TableFrame.trans {s t u : State} (h : TableFrame s t) (k : TableFrame t u) : TableFrame s u :=
  ⟨h.clock.trans k.clock, k.seq.trans h.seq, k.gen.trans h.gen, k.barrier.trans h.barrier, k.haltCtl.trans h.haltCtl,
    k.held.trans h.held, by rw [k.port, h.port]⟩

theorem NoteBits.frame {s t : State} (h : NoteBits s t) : TableFrame s t := by
  rw [h.peersOnly]
  exact ⟨setPeers_clock s _, rfl, rfl, rfl, rfl, rfl, rfl⟩

theorem TableChange.frame {s t : State} (h : TableChange s t) : TableFrame s t := by
  cases h with
  | noteBits _ h => exact h.frame
  | entry k e => exact ⟨setEntry_clock k e s, rfl, rfl, rfl, rfl, rfl, rfl⟩
  | change k => exact ⟨setChange_clock k s, rfl, rfl, rfl, rfl, rfl, rfl⟩
  | slot i _ _ _ _ _ x => exact ⟨setSlot_clock i x s, rfl, rfl, rfl, rfl, rfl, rfl⟩
  | noteStarted i rest _ _ _ x =>
    exact ⟨(setOrder_clock rest s).trans (setSlot_clock i x _), rfl, rfl, rfl, rfl, rfl, rfl⟩
  | noteSkipped i rest => exact ⟨setOrder_clock rest s, rfl, rfl, rfl, rfl, rfl, rfl⟩
  | noteTaken n => exact ⟨setNotes_clock s _, rfl, rfl, rfl, rfl, rfl, rfl⟩

theorem tables_frame {s t : State} (h : Tables s t) : TableFrame s t :=
  rows_relate TableFrame.refl TableFrame.trans TableChange.frame h

theorem WorkChange.clock {s t : State} (h : WorkChange s t) : SameClock s t :=
  h.elim (fun h => h.frame.clock) (fun h => h.frame.clock)

theorem work_clock {s t : State} (h : Work s t) : SameClock s t :=
  rows_relate SameClock.refl SameClock.trans WorkChange.clock h

theorem SameClock.cfg {s t : State} (h : SameClock s t) : t.cfg = s.cfg := by
  unfold State.cfg
  rw [h.station.config]

/-! ## The axis -/

/-- The axis law reads the sequencer and the barrier context. -/
theorem axisLaw_congr {s t : State} (hseq : t.seq = s.seq) (hctx : t.barrier.ctx = s.barrier.ctx) :
    axisLaw t = axisLaw s := by
  unfold axisLaw
  rw [hseq, hctx]

/-- A segment executes in RUNNING and WAITING alone, and with a context in WAITING alone. -/
theorem axisLaw_executing {s : State} {e : Executing} (h : axisLaw s = true) (he : s.seq.exec = some e) :
    (s.seq.axis = .running ∧ s.barrier.ctx = none ∧ e.sourceFits = true) ∨
      (s.seq.axis = .waiting ∧ ∃ x, s.barrier.ctx = some x ∧ e.isBarrier = true ∧ x.seq = e.seg.seq) := by
  unfold axisLaw at h
  cases ha : s.seq.axis <;> simp [ha, he] at h
  · exact .inl ⟨rfl, h⟩
  · cases hc : s.barrier.ctx <;> simp [hc] at h
    exact .inr ⟨rfl, _, rfl, h⟩

/-- A context stands in WAITING alone. -/
theorem axisLaw_context {s : State} {x : BarrierCtx} (h : axisLaw s = true) (hx : s.barrier.ctx = some x) :
    s.seq.axis = .waiting ∧ ∃ e, s.seq.exec = some e ∧ e.isBarrier = true ∧ x.seq = e.seg.seq := by
  unfold axisLaw at h
  cases ha : s.seq.axis <;> simp [ha, hx] at h
  cases he : s.seq.exec <;> simp [he] at h
  exact ⟨rfl, _, rfl, h⟩

/-- In IDLE nothing executes and no context stands. -/
theorem axisLaw_idle {s : State} (ha : s.seq.axis = .idle) :
    axisLaw s = true ↔ s.seq.exec = none ∧ s.barrier.ctx = none := by
  simp [axisLaw, ha]

/-- In DISABLED and HALTED nothing has started and not ended. -/
theorem axisLaw_stopped {s : State} (h : axisLaw s = true) (ha : s.seq.axis.live = false) :
    s.seq.exec = none ∧ s.seq.outstanding = [] ∧ s.barrier.ctx = none ∧ (s.seq.axis = .halted → s.seq.queue = []) := by
  unfold axisLaw at h
  cases hx : s.seq.axis <;> simp_all [AxisState.live]

theorem axisLaw_halted {s : State} (ha : s.seq.axis = .halted) :
    axisLaw s = true ↔ s.seq.exec = none ∧ s.seq.outstanding = [] ∧ s.barrier.ctx = none ∧ s.seq.queue = [] := by
  simp [axisLaw, ha, and_assoc]

theorem isBarrier_source {e : Executing} (h : e.isBarrier = true) : e.source = .none := by
  unfold Executing.isBarrier at h
  cases hb : e.seg.body <;> cases hs : e.source <;> simp_all

theorem sourceFits_ne_none {e : Executing} (h : e.sourceFits = true) : e.source ≠ .none := by
  intro hs
  unfold Executing.sourceFits at h
  cases hb : e.seg.body <;> simp_all

theorem sourceFits_moves {e : Executing} {src : Source} (hmoves : SourceMoves e.source src) (h : e.sourceFits = true) :
    ({ e with source := src } : Executing).sourceFits = true := by
  unfold Executing.sourceFits at h ⊢
  cases hb : e.seg.body <;> cases hs : e.source <;> cases src <;> simp_all [SourceMoves]

theorem AxisAfter.idle {s : State} {a : AxisState} (h : AxisAfter s a) (hlive : s.seq.axis.live = true) : a = .idle := by
  obtain h | ⟨h, _⟩ := h
  · exact h
  · rw [h] at hlive; cases hlive

/-- The end of the executing segment leaves the axis IDLE with nothing executing. -/
theorem MotionChange.keeps_axisLaw {s t : State} (h : MotionChange s t) (hs : axisLaw s = true) : axisLaw t = true := by
  cases h with
  | gen | haltCtl => exact hs
  | halted c => exact (axisLaw_halted rfl).mpr ⟨rfl, haltTaken_outstanding c s, rfl, rfl⟩
  | withdrawn hstopped =>
    obtain ⟨_, _, hctx, _⟩ := axisLaw_stopped hs hstopped
    rw [axisLaw_congr (s := s) (t := s.setBarrier { s.barrier with ctx := none }) rfl hctx.symm]
    exact hs
  | context x y hx hseq =>
    obtain ⟨ha, e, he, hbar, hxe⟩ := axisLaw_context hs hx
    simp [axisLaw, setCtx, ha, he, hbar, hseq, hxe]
  | source e src he hmoves =>
    obtain ⟨ha, hctx, hfits⟩ | ⟨_, _, _, hbar, _⟩ := axisLaw_executing hs he
    · simp [axisLaw, setExecSource, ha, hctx, sourceFits_moves hmoves hfits]
    · rw [isBarrier_source hbar] at hmoves
      exact hmoves.elim
  | ended e r a he hsrc hafter =>
    obtain ⟨ha, hctx, _⟩ | ⟨_, _, _, hbar, _⟩ := axisLaw_executing hs he
    · exact (axisLaw_idle (hafter.idle (by rw [ha]; rfl))).mpr ⟨rfl, hctx⟩
    · exact absurd (isBarrier_source hbar) hsrc
  | finishing e src a he hsrc howes hafter =>
    obtain ⟨ha, hctx, _⟩ | ⟨_, _, _, hbar, _⟩ := axisLaw_executing hs he
    · refine (axisLaw_idle (hafter.idle (by rw [ha]; rfl))).mpr ?_
      simp [endTimed, howes, setAxis, hctx]
    · rw [isBarrier_source hbar] at hsrc
      cases hsrc
  | released e r b a he hsrc hb hafter =>
    obtain ⟨_, _, hfits⟩ | ⟨ha, _⟩ := axisLaw_executing hs he
    · exact absurd hsrc (sourceFits_ne_none hfits)
    · exact (axisLaw_idle (hafter.idle (by rw [ha]; rfl))).mpr ⟨rfl, hb⟩
  | started seg rest src hheads hfits =>
    obtain ⟨_, hctx⟩ := (axisLaw_idle hheads.axis).mp hs
    simp [axisLaw, startWith, hctx, hfits]
  | barrierStarted seg rest tag mask timeout hheads hbody =>
    simp [axisLaw, startWith, setCtx, newCtx, Executing.isBarrier, hbody]
  | startFailed c seg rest => exact (axisLaw_halted rfl).mpr ⟨rfl, haltTaken_outstanding c _, rfl, rfl⟩
  | stepCounted f fs hf =>
    cases ha : s.seq.axis.live with
    | true => unfold axisLaw at hs ⊢; cases hx : s.seq.axis <;> simp_all [AxisState.live]
    | false =>
      obtain ⟨_, hnone, _⟩ := axisLaw_stopped hs ha
      simp [Sequencer.finishing, hnone] at hf
  | stepsDone f fs r hf =>
    cases ha : s.seq.axis.live with
    | true =>
      unfold axisLaw at hs ⊢
      cases hx : s.seq.axis <;> simp_all [AxisState.live, writeFinishingRecord, joinRecords]
    | false =>
      obtain ⟨_, hnone, _⟩ := axisLaw_stopped hs ha
      simp [Sequencer.finishing, hnone] at hf

theorem WorkChange.keeps_axisLaw {s t : State} (h : WorkChange s t) (hs : axisLaw s = true) : axisLaw t = true := by
  obtain h | h := h
  · exact h.keeps_axisLaw hs
  · rw [axisLaw_congr h.frame.seq (by rw [h.frame.barrier])]
    exact hs

theorem work_keeps_axisLaw {s t : State} (h : Work s t) (hs : axisLaw s = true) : axisLaw t = true :=
  rows_keep (fun _ _ h => h.keeps_axisLaw) h hs

/-- A stopped axis stays as it is, or halts: no change of the motion leaves DISABLED or HALTED for a live state. -/
theorem MotionChange.keeps_stopped {s t : State} (h : MotionChange s t) (hs : axisLaw s = true)
    (hstop : s.seq.axis.live = false) : t.seq.axis.live = false := by
  obtain ⟨hexec, hout, hctx, _⟩ := axisLaw_stopped hs hstop
  cases h with
  | gen | haltCtl | withdrawn | context | source | stepCounted | stepsDone => exact hstop
  | halted | startFailed => rfl
  | ended e _ _ he => rw [hexec] at he; cases he
  | finishing e _ _ he => rw [hexec] at he; cases he
  | released e _ _ _ he => rw [hexec] at he; cases he
  | started seg rest src hheads => rw [hheads.axis] at hstop; cases hstop
  | barrierStarted seg rest tag mask timeout hheads => rw [hheads.axis] at hstop; cases hstop

theorem work_keeps_stopped {s t : State} (h : Work s t) (hs : axisLaw s = true) (hstop : s.seq.axis.live = false) :
    axisLaw t = true ∧ t.seq.axis.live = false :=
  rows_keep (P := fun s => axisLaw s = true ∧ s.seq.axis.live = false) (fun s t h hP => by
    refine ⟨h.keeps_axisLaw hP.1, ?_⟩
    obtain h | h := h
    · exact h.keeps_stopped hP.1 hP.2
    · rw [h.frame.seq]
      exact hP.2) h ⟨hs, hstop⟩

/-- HALTED stays HALTED under the changes of the motion. -/
theorem MotionChange.keeps_halted {s t : State} (h : MotionChange s t) (hs : axisLaw s = true)
    (hstop : s.seq.axis = .halted) : t.seq.axis = .halted := by
  obtain ⟨hexec, hout, hctx, _⟩ := axisLaw_stopped hs (by rw [hstop]; rfl)
  cases h with
  | gen | haltCtl | withdrawn | context | source | stepCounted | stepsDone => exact hstop
  | halted | startFailed => rfl
  | ended e _ _ he => rw [hexec] at he; cases he
  | finishing e _ _ he => rw [hexec] at he; cases he
  | released e _ _ _ he => rw [hexec] at he; cases he
  | started seg rest src hheads => rw [hheads.axis] at hstop; cases hstop
  | barrierStarted seg rest tag mask timeout hheads => rw [hheads.axis] at hstop; cases hstop

theorem work_keeps_halted {s t : State} (h : Work s t) (hs : axisLaw s = true) (hstop : s.seq.axis = .halted) :
    axisLaw t = true ∧ t.seq.axis = .halted :=
  rows_keep (P := fun s => axisLaw s = true ∧ s.seq.axis = .halted) (fun s t h hP => by
    refine ⟨h.keeps_axisLaw hP.1, ?_⟩
    obtain h | h := h
    · exact h.keeps_halted hP.1 hP.2
    · rw [h.frame.seq]
      exact hP.2) h ⟨hs, hstop⟩

/-! ## Completion entries and the queue -/

theorem haltTaken_entries (c : Cause) (s : State) :
    (haltTaken c s).held.length + (haltTaken c s).seq.reserved = s.held.length + s.seq.reserved := by
  unfold haltTaken
  rw [joinRecords_entries]
  cases he : s.seq.exec <;> simp [Sequencer.reserved, completeExecuting, he, completeFinishing_length]

theorem replaceFinishing_length (r : Record) (l : List Outstanding) : (replaceFinishing r l).length = l.length := by
  induction l with
  | nil => rfl
  | cons o l ih => cases o <;> simp [replaceFinishing, ih]

theorem setFinishingSource_length (src : TimedSource) (l : List Outstanding) :
    (setFinishingSource src l).length = l.length := by
  induction l with
  | nil => rfl
  | cons o l ih => cases o <;> simp [setFinishingSource, ih]

/-- The reserved entries are counted from the outstanding segments and the executing one. -/
theorem reserved_congr {q r : Sequencer} (hlength : r.outstanding.length = q.outstanding.length) (hexec : r.exec = q.exec) :
    r.reserved = q.reserved := by
  unfold Sequencer.reserved
  rw [hlength, hexec]

theorem completionLaw_iff (s : State) : completionLaw s = true ↔ s.held.length + s.seq.reserved ≤ 16 := by
  simp [completionLaw]

/-- A start takes at most the entry that was free. -/
theorem Heads.entries {s : State} {seg : Segment} {rest : List Segment} (h : Heads s seg rest) (src : Source)
    (a : AxisState) :
    (startWith seg a src rest s).held.length + (startWith seg a src rest s).seq.reserved ≤ 16 := by
  have hfree := h.free
  simp only [State.freeEntries, Sequencer.reserved, Config.completionCapacity] at hfree
  simp only [startWith, State.setSeq_held, State.setSeq_seq, Sequencer.reserved, Option.isSome_some, if_true]
  omega

theorem MotionChange.keeps_completionLaw {s t : State} (h : MotionChange s t) (hs : completionLaw s = true) :
    completionLaw t = true := by
  rw [completionLaw_iff] at hs ⊢
  cases h with
  | gen | haltCtl | withdrawn | context => exact hs
  | halted c => rw [haltTaken_entries]; exact hs
  | source e src he =>
    simpa [setExecSource, Sequencer.reserved, he] using hs
  | ended e r a he =>
    have h := writeExecRecord_entries r s (by rw [he]; rfl)
    exact le_of_eq_of_le h hs
  | finishing e src a he hsrc howes =>
    simpa [setAxis, endTimed, howes, Sequencer.reserved, he] using hs
  | released e r b a he =>
    have h := writeExecRecord_entries r (s.setBarrier b) (by exact (by rw [he]; rfl : s.seq.exec.isSome = true))
    exact le_of_eq_of_le h hs
  | started seg rest src hheads => exact hheads.entries src _
  | barrierStarted seg rest tag mask timeout hheads => exact hheads.entries .none _
  | startFailed c seg rest hheads =>
    rw [haltTaken_entries]
    exact hheads.entries .none _
  | stepCounted f fs =>
    exact le_of_eq_of_le (congrArg (s.held.length + ·)
      (reserved_congr (q := s.seq) (setFinishingSource_length _ s.seq.outstanding) rfl)) hs
  | stepsDone f fs r =>
    unfold writeFinishingRecord
    rw [joinRecords_entries]
    exact le_of_eq_of_le (congrArg (s.held.length + ·)
      (reserved_congr (q := s.seq) (replaceFinishing_length r s.seq.outstanding) rfl)) hs

/-- The queue after a change of the motion: as it was, empty, or without its head. -/
theorem MotionChange.queue {s t : State} (h : MotionChange s t) : t.seq.nextSeq = s.seq.nextSeq ∧
    (t.seq.queue = s.seq.queue ∨ t.seq.queue = [] ∨ ∃ seg, s.seq.queue = seg :: t.seq.queue) := by
  cases h with
  | gen | haltCtl | withdrawn | context | source | ended | released | stepCounted | stepsDone =>
    exact ⟨rfl, .inl rfl⟩
  | finishing e src a he hsrc howes => simp [setAxis, endTimed, howes]
  | halted | startFailed => exact ⟨rfl, .inr (.inl rfl)⟩
  | started seg rest src hheads => exact ⟨rfl, .inr (.inr ⟨seg, hheads.queue⟩)⟩
  | barrierStarted seg rest tag mask timeout hheads => exact ⟨rfl, .inr (.inr ⟨seg, hheads.queue⟩)⟩

theorem queueLaw_iff (s : State) : queueLaw s = true ↔
    s.seq.queue.length ≤ 32 ∧ numbered s.seq.nextSeq s.seq.queue = true := by
  simp [queueLaw]

theorem MotionChange.keeps_queueLaw {s t : State} (h : MotionChange s t) (hs : queueLaw s = true) :
    queueLaw t = true := by
  rw [queueLaw_iff] at hs ⊢
  obtain ⟨hnext, hq | hq | ⟨seg, hq⟩⟩ := h.queue
  · rw [hnext, hq]
    exact hs
  · rw [hq]
    exact ⟨Nat.zero_le _, rfl⟩
  · rw [hq, List.length_cons, numbered, Bool.and_eq_true] at hs
    rw [hnext]
    exact ⟨by omega, hs.2.2⟩

/-! ## Step sources -/

/-- The finishing segments among the outstanding ones. -/
def finishingOf : List Outstanding → List Finishing
  | [] => []
  | .finishing f :: rest => f :: finishingOf rest
  | .heldBack _ :: rest => finishingOf rest

theorem finishing_eq (q : Sequencer) : q.finishing = finishingOf q.outstanding := by
  unfold Sequencer.finishing
  induction q.outstanding with
  | nil => rfl
  | cons o l ih => cases o <;> simp [finishingOf, ih]

theorem finishingOf_append (l m : List Outstanding) : finishingOf (l ++ m) = finishingOf l ++ finishingOf m := by
  induction l with
  | nil => rfl
  | cons o l ih => cases o <;> simp [finishingOf, ih]

theorem finishingOf_drain (l : List Outstanding) : finishingOf (drain l).2 = finishingOf l := by
  induction l with
  | nil => rfl
  | cons o l ih => cases o <;> simp [drain, finishingOf, ih]

theorem finishingOf_replaceFinishing (r : Record) (l : List Outstanding) :
    finishingOf (replaceFinishing r l) = (finishingOf l).tail := by
  induction l with
  | nil => rfl
  | cons o l ih => cases o <;> simp [replaceFinishing, finishingOf, ih]

theorem finishingOf_setFinishingSource {src : TimedSource} {f : Finishing} {fs : List Finishing} {l : List Outstanding}
    (h : finishingOf l = f :: fs) : finishingOf (setFinishingSource src l) = { f with source := src } :: fs := by
  induction l with
  | nil => cases h
  | cons o l ih =>
    cases o with
    | finishing g =>
      simp only [finishingOf, List.cons.injEq] at h
      simp [setFinishingSource, finishingOf, h]
    | heldBack r => exact ih h

/-- The source law reads the finishing list and the executing segment. -/
theorem sourceLaw_iff (s : State) : sourceLaw s = true ↔
    (∀ f ∈ finishingOf s.seq.outstanding, f.owing = true) ∧
      (∀ e src, s.seq.exec = some e → e.source = .timed src → src.counted = true) := by
  unfold sourceLaw
  rw [finishing_eq, Bool.and_eq_true, List.all_eq_true]
  cases he : s.seq.exec with
  | none => simp
  | some e =>
    have hone : (∀ e' src, some e = some e' → e'.source = .timed src → src.counted = true) ↔
        ∀ src, e.source = .timed src → src.counted = true :=
      ⟨fun h src => h e src rfl, fun h e' src he' => by cases he'; exact h src⟩
    rw [hone]
    dsimp only
    cases hs : e.source <;> simp

theorem MotionChange.keeps_sourceLaw {s t : State} (h : MotionChange s t) (hs : sourceLaw s = true) :
    sourceLaw t = true := by
  rw [sourceLaw_iff] at hs ⊢
  obtain ⟨hfin, hexec⟩ := hs
  cases h with
  | gen | haltCtl | withdrawn | context => exact ⟨hfin, hexec⟩
  | halted c => exact ⟨by simp [finishingOf], nofun⟩
  | source e src he hmoves =>
    refine ⟨hfin, fun e' src' he' hsrc' => ?_⟩
    cases he'
    change src = .timed src' at hsrc'
    subst hsrc'
    cases hs : e.source with
    | none => rw [hs] at hmoves; exact hmoves.elim
    | untimed u => rw [hs] at hmoves; exact hmoves.elim
    | timed a => rw [hs] at hmoves; exact hmoves (hexec e a he hs)
  | ended e r a he => exact ⟨by simpa [setAxis, writeExecRecord, finishingOf_drain, finishingOf_append, finishingOf] using hfin, nofun⟩
  | finishing e src a he hsrc howes =>
    have hcounted := hexec e src he hsrc
    have hrest : ({ src with fallen := src.n } : TimedSource).emitted < src.n := by
      simp only [TimedSource.counted, decide_eq_true_eq] at hcounted
      show src.emitted < src.n
      omega
    refine ⟨fun f hf => ?_, fun e' src' he' => ?_⟩
    · simp only [setAxis, endTimed, howes, if_false, State.setSeq_seq, finishingOf_append, List.mem_append] at hf
      obtain hf | hf := hf
      · exact hfin f hf
      · simp only [finishingOf, List.mem_singleton] at hf
        subst hf
        simpa [Finishing.owing] using hrest
    · simp [setAxis, endTimed, howes] at he'
  | released e r b a he =>
    exact ⟨by simpa [setAxis, writeExecRecord, finishingOf_drain, finishingOf_append, finishingOf] using hfin, nofun⟩
  | started seg rest src hheads hfits hbegins =>
    refine ⟨hfin, fun e' src' he' hsrc' => ?_⟩
    cases he'
    change src = .timed src' at hsrc'
    subst hsrc'
    exact hbegins
  | barrierStarted seg rest =>
    refine ⟨hfin, fun e' src' he' hsrc' => ?_⟩
    cases he'
    cases hsrc'
  | startFailed c seg rest => exact ⟨by simp [finishingOf], nofun⟩
  | stepCounted f fs hf howes =>
    rw [finishing_eq] at hf
    refine ⟨fun g hg => ?_, hexec⟩
    simp only [State.setSeq_seq, finishingOf_setFinishingSource hf, List.mem_cons] at hg
    obtain hg | hg := hg
    · have hf' := hfin f (by rw [hf]; exact List.mem_cons_self)
      subst hg
      simp only [Finishing.owing, decide_eq_true_eq] at hf' ⊢
      omega
    · exact hfin g (by rw [hf]; exact List.mem_cons_of_mem _ hg)
  | stepsDone f fs r =>
    refine ⟨fun g hg => ?_, hexec⟩
    simp only [writeFinishingRecord, joinRecords_outstanding, State.setSeq_seq, finishingOf_drain,
      finishingOf_replaceFinishing] at hg
    exact hfin g (List.mem_of_mem_tail hg)

/-! ## Refusal and DIR setup -/

theorem MotionChange.keeps_refusalLaw {s t : State} (h : MotionChange s t) (hs : refusalLaw s = true) :
    refusalLaw t = true := by
  cases h with
  | gen g hrefused => simpa [refusalLaw, hrefused] using hs
  | haltCtl | withdrawn | context | source | ended | released | started | barrierStarted | stepCounted | stepsDone =>
    exact hs
  | finishing e src a he hsrc howes => simpa [refusalLaw, setAxis, endTimed, howes] using hs
  | halted | startFailed => rfl

/-- The setup law reads the timer and DIR_SETUP_US. -/
theorem setupLaw_iff (s : State) : setupLaw s = true ↔
    ∀ n, s.gen.dirSetup = some n → 0 < s.cfg.dirSetupUs ∧ n ≤ s.cfg.dirSetupUs := by
  unfold setupLaw
  cases s.gen.dirSetup <;> simp

theorem MotionChange.keeps_setupLaw {s t : State} (h : MotionChange s t) (hs : setupLaw s = true) :
    setupLaw t = true := by
  rw [setupLaw_iff] at hs ⊢
  cases h with
  | gen g hrefused hsetup =>
    intro n hn
    change g.dirSetup = some n at hn
    obtain hg | hg | ⟨hne, hg⟩ := hsetup
    · exact hs n (by rw [← hg]; exact hn)
    · rw [hg] at hn; cases hn
    · rw [hg] at hn
      cases hn
      exact ⟨Nat.pos_of_ne_zero hne, le_rfl⟩
  | haltCtl | withdrawn | context | source | ended | released | started | barrierStarted | stepCounted | stepsDone =>
    exact hs
  | finishing e src a he hsrc howes =>
    have hgen : (setAxis a (endTimed e src s)).gen = s.gen := by simp [setAxis, endTimed, howes]
    have hcfg : (setAxis a (endTimed e src s)).cfg = s.cfg := by simp [setAxis, endTimed, howes, State.cfg]
    rw [hgen, hcfg]
    exact hs
  | halted | startFailed => exact nofun

/-! ## Notes -/

/-- The parts of the note law. -/
theorem noteLaw_iff (s : State) : noteLaw s = true ↔
    (∀ i j, s.notes.isSending i = true → s.notes.isSending j = true → i = j) ∧ s.notes.order.Nodup ∧
      (∀ i, i ∈ s.notes.order ↔ s.notes.isQueued i = true) ∧ (∀ i, (s.notes.slots.get i).payloadFits = true) ∧
      s.notes.inbox.length ≤ 8 := by
  have hone : (slotIds.filter s.notes.isSending).length ≤ 1 ↔
      ∀ i j, s.notes.isSending i = true → s.notes.isSending j = true → i = j := by
    have hnodup : (slotIds.filter s.notes.isSending).Nodup := List.Nodup.filter _ (by decide)
    constructor
    · intro h i j hi hj
      have hi' : i ∈ slotIds.filter s.notes.isSending := List.mem_filter.mpr ⟨mem_slotIds i, hi⟩
      have hj' : j ∈ slotIds.filter s.notes.isSending := List.mem_filter.mpr ⟨mem_slotIds j, hj⟩
      match hl : slotIds.filter s.notes.isSending with
      | [] => rw [hl] at hi'; cases hi'
      | [a] => rw [hl, List.mem_singleton] at hi' hj'; rw [hi', hj']
      | a :: b :: l => rw [hl] at h; simp at h
    · intro h
      match hl : slotIds.filter s.notes.isSending with
      | [] => exact Nat.zero_le _
      | [a] => exact le_rfl
      | a :: b :: l =>
        have ha : a ∈ slotIds.filter s.notes.isSending := by rw [hl]; simp
        have hb : b ∈ slotIds.filter s.notes.isSending := by rw [hl]; simp
        have hab := h a b (List.mem_filter.mp ha).2 (List.mem_filter.mp hb).2
        rw [hl, hab] at hnodup
        simp at hnodup
  have hall (p : Fin 4 → Bool) : slotIds.all p = true ↔ ∀ i, p i = true := by
    rw [List.all_eq_true]
    exact ⟨fun h i => h i (mem_slotIds i), fun h i _ => h i⟩
  unfold noteLaw
  simp only [Bool.and_eq_true, hall, decide_eq_true_eq, beq_iff_eq, hone, and_assoc]
  have hiff (i : Fin 4) : (decide (i ∈ s.notes.order) = s.notes.isQueued i) ↔
      (i ∈ s.notes.order ↔ s.notes.isQueued i = true) := by
    cases s.notes.isQueued i <;> simp
  simp only [hiff]

theorem setSlot_get (i j : Fin 4) (x : NoteSlot) (s : State) :
    (setSlot i x s).notes.slots.get j = if j = i then x else s.notes.slots.get j := by
  simp only [setSlot, State.setNotes_notes, Vector.get_eq_getElem]
  by_cases h : j = i
  · subst h; simp
  · rw [if_neg h]
    exact Vector.getElem_set_ne _ _ fun hv => h (Fin.ext hv.symm)

theorem setSlot_isSending (i j : Fin 4) (x : NoteSlot) (s : State) : (setSlot i x s).notes.isSending j = true ↔
    if j = i then ∃ n d p c st, x = .sending n d p c st else s.notes.isSending j = true := by
  rw [isSending_iff, setSlot_get]
  split
  · rfl
  · rw [isSending_iff]

theorem setSlot_isQueued (i j : Fin 4) (x : NoteSlot) (s : State) : (setSlot i x s).notes.isQueued j = true ↔
    if j = i then ∃ n d p, x = .queued n d p else s.notes.isQueued j = true := by
  rw [isQueued_iff, setSlot_get]
  split
  · rfl
  · rw [isQueued_iff]

theorem SlotSettles.not_queued {number : Byte} {dests : Mask} {payload : List Byte} {x : NoteSlot}
    (h : SlotSettles number dests payload x) : ¬ ∃ n d p, x = .queued n d p := by
  obtain ⟨c, st, rfl⟩ | ⟨st, rfl⟩ := h <;> simp

theorem SlotSettles.fits {number : Byte} {dests : Mask} {payload : List Byte} {x : NoteSlot}
    (h : SlotSettles number dests payload x) (hp : payload.length ≤ 8) : x.payloadFits = true := by
  obtain ⟨c, st, rfl⟩ | ⟨st, rfl⟩ := h <;> simp [NoteSlot.payloadFits, hp]

theorem noteLaw_congr {s t : State} (h : t.notes = s.notes) : noteLaw t = noteLaw s := by
  unfold noteLaw
  rw [h]

theorem TableChange.keeps_noteLaw {s t : State} (h : TableChange s t) (hs : noteLaw s = true) : noteLaw t = true := by
  cases h with
  | noteBits t h => rw [noteLaw_congr h.notes]; exact hs
  | entry | change => exact hs
  | slot i number dests payload c st x hslot hx =>
    rw [noteLaw_iff] at hs ⊢
    obtain ⟨hone, hnodup, horder, hfits, hinbox⟩ := hs
    have hi : s.notes.isSending i = true := isSending_iff.mpr ⟨_, _, _, _, _, hslot⟩
    refine ⟨fun a b ha hb => ?_, hnodup, fun a => ?_, fun a => ?_, hinbox⟩
    · rw [setSlot_isSending] at ha hb
      have hsend (k : Fin 4) (hk : if k = i then ∃ n d p c st, x = .sending n d p c st else s.notes.isSending k = true) :
          k = i := by
        by_cases h : k = i
        · exact h
        · rw [if_neg h] at hk
          exact hone k i hk hi
      rw [hsend a ha, hsend b hb]
    · rw [setSlot_isQueued]
      by_cases h : a = i
      · subst h
        rw [if_pos rfl]
        have hnot : ¬ s.notes.isQueued a = true := by simp [NoteUnit.isQueued, hslot]
        exact iff_of_false (fun hmem => hnot ((horder a).mp hmem)) hx.not_queued
      · rw [if_neg h]
        exact horder a
    · rw [setSlot_get]
      split
      · have hpay := hfits i
        rw [hslot, NoteSlot.payloadFits, decide_eq_true_eq] at hpay
        exact hx.fits hpay
      · exact hfits a
  | noteStarted i rest number dests payload x horder' hslot hnone hx =>
    rw [noteLaw_iff] at hs ⊢
    obtain ⟨hone, hnodup, horder, hfits, hinbox⟩ := hs
    rw [sendingId_eq_none] at hnone
    rw [horder', List.nodup_cons] at hnodup
    refine ⟨fun a b ha hb => ?_, hnodup.2, fun a => ?_, fun a => ?_, hinbox⟩
    · rw [setSlot_isSending] at ha hb
      have hsend (k : Fin 4) (hk : if k = i then ∃ n d p c st, x = .sending n d p c st
          else (setOrder rest s).notes.isSending k = true) : k = i := by
        by_cases h : k = i
        · exact h
        · rw [if_neg h] at hk
          exact absurd hk (by rw [show (setOrder rest s).notes.isSending k = s.notes.isSending k from rfl, hnone k]; simp)
      rw [hsend a ha, hsend b hb]
    · rw [setSlot_isQueued]
      show a ∈ rest ↔ _
      by_cases h : a = i
      · subst h
        rw [if_pos rfl]
        exact iff_of_false hnodup.1 hx.not_queued
      · rw [if_neg h]
        have ha := horder a
        rw [horder', List.mem_cons] at ha
        exact ⟨fun hmem => ha.mp (.inr hmem), fun hq => (ha.mpr hq).resolve_left h⟩
    · rw [setSlot_get]
      split
      · have hpay := hfits i
        rw [hslot, NoteSlot.payloadFits, decide_eq_true_eq] at hpay
        exact hx.fits hpay
      · exact hfits a
  | noteSkipped i rest horder' hslot =>
    rw [noteLaw_iff] at hs
    obtain ⟨_, _, horder, _⟩ := hs
    have hi := (horder i).mp (by rw [horder']; exact List.mem_cons_self)
    rw [hslot] at hi
    cases hi
  | noteTaken n hroom =>
    rw [noteLaw_iff] at hs ⊢
    obtain ⟨hone, hnodup, horder, hfits, hinbox⟩ := hs
    refine ⟨hone, hnodup, horder, hfits, ?_⟩
    simp only [State.setNotes_notes, List.length_append, List.length_singleton]
    exact hroom

/-! ## Peers -/

theorem mem_stations (k : Station) : k ∈ stations := by fin_cases k <;> decide

/-- The parts of the peer law. -/
theorem peerLaw_iff (s : State) : peerLaw s = true ↔
    ∀ k : Station, (s.stationCount ≤ k.val → (s.entry k).presence = .absent) ∧
      (inMask s.peers.changeMap k = true → k.val < s.stationCount ∧ k ≠ s.id) := by
  unfold peerLaw
  rw [List.all_eq_true]
  have hone (k : Station) : ((decide (k.val < s.stationCount) || decide ((s.entry k).presence = .absent)) &&
      ((decide (k.val < s.stationCount) && decide (k ≠ s.id)) || !inMask s.peers.changeMap k)) = true ↔
      (s.stationCount ≤ k.val → (s.entry k).presence = .absent) ∧
        (inMask s.peers.changeMap k = true → k.val < s.stationCount ∧ k ≠ s.id) := by
    simp only [Bool.and_eq_true, Bool.or_eq_true, decide_eq_true_eq, Bool.not_eq_true']
    refine and_congr ?_ ?_
    · rw [← Nat.not_lt, ← or_iff_not_imp_left]
    · cases inMask s.peers.changeMap k <;> simp
  exact ⟨fun h k => (hone k).mp (h k (mem_stations k)), fun h k _ => (hone k).mpr (h k)⟩

theorem inMask_maskOf (k m : Station) : inMask (maskOf k) m = decide (m = k) := by
  unfold inMask maskOf
  rw [BitVec.getLsbD_shiftLeft]
  have hm := m.isLt
  have hk := k.isLt
  by_cases h : m = k
  · subst h; simp
  · have hv : m.val ≠ k.val := fun hv => h (Fin.ext hv)
    rw [decide_eq_false h]
    by_cases hlt : m.val < k.val
    · simp [hlt]
    · have : m.val - k.val ≠ 0 := by omega
      simp [BitVec.getLsbD_one, this]

theorem inMask_or (a b : Mask) (k : Station) : inMask (a ||| b) k = (inMask a k || inMask b k) := by
  simp [inMask]

theorem SameStation.stationCount {s t : State} (h : SameStation s t) : t.stationCount = s.stationCount := by
  unfold State.stationCount State.cfg
  rw [h.config]

/-- The peer law reads the settings, the number, the presences and the change map. -/
theorem peerLaw_congr {s t : State} (hid : t.id = s.id) (hcount : t.stationCount = s.stationCount)
    (hentry : ∀ k, (t.entry k).presence = (s.entry k).presence) (hmap : t.peers.changeMap = s.peers.changeMap)
    (hs : peerLaw s = true) : peerLaw t = true := by
  rw [peerLaw_iff] at hs ⊢
  intro k
  rw [hid, hcount, hentry, hmap]
  exact hs k

theorem TableChange.keeps_peerLaw {s t : State} (h : TableChange s t) (hs : peerLaw s = true) : peerLaw t = true := by
  have hstation := h.frame.clock.station
  cases h with
  | noteBits t h =>
    exact peerLaw_congr hstation.id hstation.stationCount (fun k => (h.entry k).presence) h.changeMap hs
  | entry k e he =>
    rw [peerLaw_iff] at hs ⊢
    intro m
    rw [hstation.stationCount, hstation.id]
    refine ⟨fun hm => ?_, (hs m).2⟩
    rw [setEntry_entry]
    split
    · rename_i hmk
      subst hmk
      obtain he | he := he
      · rw [he]; exact (hs m).1 hm
      · omega
    · exact (hs m).1 hm
  | change k hown hn =>
    rw [peerLaw_iff] at hs ⊢
    intro m
    rw [hstation.stationCount, hstation.id]
    refine ⟨(hs m).1, fun hm => ?_⟩
    rw [setChange_changeMap, inMask_or, inMask_maskOf, Bool.or_eq_true, decide_eq_true_eq] at hm
    obtain hm | rfl := hm
    · exact (hs m).2 hm
    · exact ⟨hn, hown⟩
  | slot | noteStarted | noteSkipped | noteTaken => exact hs

/-! ## Work keeps the laws -/

theorem WorkChange.keeps_noteLaw {s t : State} (h : WorkChange s t) (hs : noteLaw s = true) : noteLaw t = true := by
  obtain h | h := h
  · rw [noteLaw_congr h.frame.notes]
    exact hs
  · exact h.keeps_noteLaw hs

theorem WorkChange.keeps_peerLaw {s t : State} (h : WorkChange s t) (hs : peerLaw s = true) : peerLaw t = true := by
  obtain h | h := h
  · exact peerLaw_congr h.frame.clock.station.id h.frame.clock.station.stationCount
      (fun k => by rw [State.entry, h.frame.peers]; rfl) (by rw [h.frame.peers]) hs
  · exact h.keeps_peerLaw hs

theorem WorkChange.keeps_completionLaw {s t : State} (h : WorkChange s t) (hs : completionLaw s = true) :
    completionLaw t = true := by
  obtain h | h := h
  · exact h.keeps_completionLaw hs
  · unfold completionLaw at hs ⊢
    rw [h.frame.held, h.frame.seq]
    exact hs

theorem WorkChange.keeps_queueLaw {s t : State} (h : WorkChange s t) (hs : queueLaw s = true) : queueLaw t = true := by
  obtain h | h := h
  · exact h.keeps_queueLaw hs
  · unfold queueLaw at hs ⊢
    rw [h.frame.seq]
    exact hs

theorem WorkChange.keeps_sourceLaw {s t : State} (h : WorkChange s t) (hs : sourceLaw s = true) :
    sourceLaw t = true := by
  obtain h | h := h
  · exact h.keeps_sourceLaw hs
  · unfold sourceLaw at hs ⊢
    rw [h.frame.seq]
    exact hs

theorem WorkChange.keeps_refusalLaw {s t : State} (h : WorkChange s t) (hs : refusalLaw s = true) :
    refusalLaw t = true := by
  obtain h | h := h
  · exact h.keeps_refusalLaw hs
  · unfold refusalLaw at hs ⊢
    rw [h.frame.gen]
    exact hs

theorem WorkChange.keeps_setupLaw {s t : State} (h : WorkChange s t) (hs : setupLaw s = true) : setupLaw t = true := by
  obtain h | h := h
  · exact h.keeps_setupLaw hs
  · unfold setupLaw at hs ⊢
    rw [h.frame.gen, h.frame.clock.cfg]
    exact hs

end Sys2Proof.Machine
end

