-- ==== Sys2Proof/Proofs/EveryCommand.lean ====
section
/-! PROOFS. Every command is a row of changes: of the motion and the tables, of the timer, the link and the port, and the
few that requests, a tick and a device reset make. A law that each change keeps, every step keeps. -/

namespace Sys2Proof.Machine

/-! ## The link's turn at a boundary -/

/-- The link leaves JOINING or ACTIVE: the lines are released, and what the station then does stops the axis. -/
structure LinkLeaves (s : State) (x : Link) (y : Timer) (p : HostPort) (t : State) : Prop where
  counting : s.link.state = .joining ∨ s.link.state = .active
  state : x.state = .listen ∨ x.state = .duplicate
  tx : x.tx = none
  pulse : y.pulse = none
  zero : y.t = s.timer.t ∨ y.t = 0
  work : Work (((s.setLink x).setTimer y).setPort p) t
  stopped : axisLaw s = true → linkAxisLaw s = true → t.seq.axis.live = false

/-- One change that the Link Interface's turn makes in one go. -/
inductive LinkChange (s : State) : State → Prop
  | work (t : State) (h : WorkChange s t) : LinkChange s t
  | counts (x : Link) (hstate : x.state = s.link.state) (htx : x.tx = s.link.tx) : LinkChange s (s.setLink x)
  | latched : LinkChange s (latchLink s)
  | leaves (x : Link) (y : Timer) (p : HostPort) (t : State) (h : LinkLeaves s x y p t) : LinkChange s t
  | activates (h : s.link.state = .joining) : LinkChange s (s.setLink { s.link with state := .active })
  | leavesDisabled (h : s.seq.axis = .disabled) (hactive : s.link.state = .active) : LinkChange s (setAxis .idle s)

/-- A row of changes of the link's turn. -/
abbrev LinkTurn : State → State → Prop := Relation.ReflTransGen LinkChange

theorem LinkChange.turn {s t : State} (h : LinkChange s t) : LinkTurn s t := .single h

theorem Work.linkTurn {s t : State} (h : Work s t) : LinkTurn s t :=
  Relation.ReflTransGen.mono (fun _ t h => LinkChange.work t h) _ _ h

theorem leaveDisabled_linkTurn {s : State} (hactive : s.link.state = .active) : LinkTurn s (leaveDisabled s) := by
  unfold leaveDisabled
  split
  · rename_i h
    split
    · exact (work_of_motion (MotionChange.halted _).motion).linkTurn
    · split
      · exact (work_of_motion (MotionChange.halted _).motion).linkTurn
      · exact (LinkChange.leavesDisabled h hactive).turn
  · exact .refl

theorem enterActive_linkTurn {s : State} (h : s.link.state = .joining) : LinkTurn s (enterActive s) :=
  ((LinkChange.activates h).turn.trans LinkChange.latched.turn).trans
    (leaveDisabled_linkTurn (s := latchLink (s.setLink { s.link with state := .active })) rfl)

theorem joinCountTurn_linkTurn (adopted : Bool) (s : State) : LinkTurn s (joinCountTurn adopted s) := by
  unfold joinCountTurn
  split
  · rename_i h
    dsimp only
    have hcount (n : Nat) : LinkTurn s (s.setLink { s.link with joinCount := n, request := none }) :=
      (LinkChange.counts { s.link with joinCount := n, request := none } rfl rfl).turn
    generalize (if adopted then 0 else s.link.joinCount + 1) = n
    split
    · exact (hcount n).trans (enterActive_linkTurn (s := s.setLink _) h)
    · exact hcount n
  · exact .refl

/-- After a cause that halts a live axis the axis is stopped. -/
theorem takeCause_stopped (c : Cause) (s : State) : (takeCause c s).seq.axis.live = false := by
  unfold takeCause
  split
  · rfl
  · rfl
  · rfl
  · rename_i h
    split <;> exact congrArg AxisState.live h
  · rename_i h
    split <;> exact congrArg AxisState.live h

/-- Out of ACTIVE the axis is stopped, and a link that was ACTIVE stops it by LINK_LOST. -/
theorem linkLost_stopped {s t : State} (hseq : t.seq = s.seq) (hlaw : linkAxisLaw s = true) :
    (linkLost (decide (s.link.state = .active)) t).seq.axis.live = false := by
  unfold linkLost
  split
  · exact takeCause_stopped _ _
  · rename_i h
    have hnot : ¬ s.link.state = .active := fun ha => h (decide_eq_true ha)
    have hstop := (of_decide_eq_true hlaw).resolve_left hnot
    rw [hseq]
    obtain ha | ha := hstop <;> rw [ha] <;> rfl

theorem enterDuplicate_linkTurn {s : State} (h : s.link.state = .joining ∨ s.link.state = .active) :
    LinkTurn s (enterDuplicate s) :=
  (LinkChange.leaves { s.link with state := .duplicate, collisionRun := 0, collision := false, request := none, tx := none }
    { s.timer with pulse := none, adoption := none } { s.port with linkFlag := true } _
    { counting := h
      state := .inr rfl
      tx := rfl
      pulse := rfl
      zero := .inl rfl
      work := work_of_motion (linkLost_motion _ _)
      stopped := fun _ hlaw => linkLost_stopped (s := s) rfl hlaw }).turn

theorem collisionTurn_linkTurn (s : State) : LinkTurn s (collisionTurn s) := by
  unfold collisionTurn
  split
  · rename_i h
    split
    · split
      · exact enterDuplicate_linkTurn h
      · exact (LinkChange.counts { s.link with collisionRun := s.link.collisionRun + 1, collision := false } rfl rfl).turn
    · exact (LinkChange.counts { s.link with collisionRun := 0 } rfl rfl).turn
  · exact .refl

/-- Sync loss ends with the axis stopped, in either order of its parts. -/
theorem syncLoss_stopped {s : State} (o : EventOrder) (haxis : axisLaw s = true) (hlaw : linkAxisLaw s = true) :
    (syncLoss o s).seq.axis.live = false := by
  have hnotes := tables_frame (notesAtListen_tables (enterListen s))
  have hseq : (notesAtListen (enterListen s)).seq = s.seq := hnotes.seq
  have hlisten : axisLaw (notesAtListen (enterListen s)) = true := by
    rw [axisLaw_congr hseq (by rw [hnotes.barrier]; rfl)]
    exact haxis
  unfold syncLoss
  dsimp only
  split
  · exact (work_keeps_stopped (markAllLost_work _ _) (work_keeps_axisLaw (work_of_motion (linkLost_motion _ _)) hlisten)
      (linkLost_stopped hseq hlaw)).2
  · unfold linkLost
    split
    · rw [takeCause_stopped]
    · rename_i h
      have hnot : ¬ s.link.state = .active := fun ha => h (decide_eq_true ha)
      refine (work_keeps_stopped (markAllLost_work _ _) hlisten ?_).2
      have hlost := linkLost_stopped hseq hlaw
      rwa [decide_eq_false hnot] at hlost

theorem syncLoss_linkTurn {s : State} (h : s.link.state = .joining ∨ s.link.state = .active) (o : EventOrder) :
    LinkTurn s (syncLoss o s) := by
  have hwork : Work (enterListen s) (syncLoss o s) := by
    have hnotes := work_of_tables (notesAtListen_tables (enterListen s))
    unfold syncLoss
    dsimp only
    split
    · exact (hnotes.trans (work_of_motion (linkLost_motion _ _))).trans (markAllLost_work _ _)
    · exact (hnotes.trans (markAllLost_work _ _)).trans (work_of_motion (linkLost_motion _ _))
  exact (LinkChange.leaves (listenLink s.link) (listenTimer s.timer) { s.port with linkFlag := true } _
    { counting := h
      state := .inl rfl
      tx := rfl
      pulse := rfl
      zero := .inr rfl
      work := hwork
      stopped := syncLoss_stopped o }).turn

theorem slipTurn_linkTurn (s : State) : LinkTurn s (slipTurn s).1 := by
  have hcount (n : Nat) : LinkTurn s (s.setLink { s.link with slipRun := n, slips := .none }) :=
    (LinkChange.counts { s.link with slipRun := n, slips := .none } rfl rfl).turn
  unfold slipTurn
  split
  · split
    · split <;> exact hcount _
    · exact hcount _
  · exact .refl

theorem syncLossTurn_linkTurn (o : EventOrder) (loss : Bool) (s : State) : LinkTurn s (syncLossTurn o loss s) := by
  unfold syncLossTurn
  dsimp only
  split
  · rename_i h
    exact (slipTurn_linkTurn s).trans (syncLoss_linkTurn h.2 o)
  · exact slipTurn_linkTurn s

theorem leaveTurns_linkTurn (o : EventOrder) (loss : Bool) (s : State) : LinkTurn s (leaveTurns o loss s) := by
  unfold leaveTurns
  split
  · exact (syncLossTurn_linkTurn o loss s).trans (collisionTurn_linkTurn _)
  · exact (collisionTurn_linkTurn s).trans (syncLossTurn_linkTurn o loss _)

theorem linkBoundary_linkTurn (o : EventOrder) (adopted loss : Bool) (s : State) :
    LinkTurn s (linkBoundary o adopted loss s) := by
  unfold linkBoundary
  split
  · exact (joinCountTurn_linkTurn adopted s).trans (leaveTurns_linkTurn o loss _)
  · exact (leaveTurns_linkTurn o loss s).trans (joinCountTurn_linkTurn adopted _)

/-! ## The changes of all commands -/

/-- One change that this command makes in one go. -/
inductive Change (cmd : Instr) (s : State) : State → Prop
  | work (t : State) (h : WorkChange s t) : Change cmd s t
  | timer (x : Timer) (ht : x.t = s.timer.t ∨ x.t = 0)
      (hpulse : x.pulse = s.timer.pulse ∨ x.pulse = none ∨ s.link.state = .joining ∨ s.link.state = .active) :
      Change cmd s (s.setTimer x)
  | link (x : Link) (hstate : x.state = s.link.state)
      (htx : x.tx = s.link.tx ∨ x.tx = none ∨ s.link.state = .joining ∨ s.link.state = .active) :
      Change cmd s (s.setLink x)
  | enters (x : Link) (hstate : (s.link.state = .idle ∧ s.config.isSome = true ∧ cmd = .start) ∨ s.link.state = .listen)
      (ht : s.timer.t = 0) (hx : x.state = .listen ∨ x.state = .joining) (htx : x.tx = s.link.tx ∨ x.tx = none) :
      Change cmd s (s.setLink x)
  | activates (h : s.link.state = .joining) : Change cmd s (s.setLink { s.link with state := .active })
  | leaves (x : Link) (y : Timer) (p : HostPort) (t : State) (h : LinkLeaves s x y p t) : Change cmd s t
  | port (x : HostPort) : Change cmd s (s.setPort x)
  | leavesDisabled (h : s.seq.axis = .disabled) (hactive : s.link.state = .active) : Change cmd s (setAxis .idle s)
  | ticked (pins : PinLevels) (lineStart : Bool) : Change cmd s (tickAll pins lineStart s)
  | recordRemoved : Change cmd s (s.setHeld (s.held.drop 1))
  | noteRemoved : Change cmd s (s.setNotes { s.notes with inbox := s.notes.inbox.drop 1 })
  | changesRemoved (m : Mask) : Change cmd s (s.setPeers { s.peers with changeMap := s.peers.changeMap &&& ~~~m })
  | configured (c : Settings) (hnone : s.config = none) (hvalid : settingsValid s.id c = true)
      (hcmd : ∃ ps, cmd = .configure ps) :
      Change cmd s (s.setConfig (some c))
  | restarted (hconfig : s.config.isSome = true) (hcmd : cmd = .restart) : Change cmd s (restartAll s)
  | cleared (h : s.seq.axis = .halted) (hactive : s.link.state = .active) (hcmd : cmd = .clearHalt) :
      Change cmd s (haltCleared s)
  | appended (label : BitVec 16) (body : SegBody) (h : s.seq.queue.length < 32) (haxis : s.seq.axis ≠ .halted) :
      Change cmd s (appendSegment label body s)
  | flushed : Change cmd s (s.setSeq { s.seq with queue := [] })
  | placed (i : Fin 4) (dests : Mask) (payload : List Byte) (hfree : s.notes.slots.get i = .free)
      (hlength : payload.length ≤ 8) : Change cmd s (placeNote i dests payload s)
  | slotReleased (i : Fin 4) (hdone : (s.notes.slots.get i).isDone = true) : Change cmd s (setSlot i .free s)
  | reset (k : Station) (hcmd : cmd = .deviceReset k) :
      Change cmd s { State.reset with
        id := k, pins := s.pins, port := { HostPort.reset with csnHigh := s.port.csnHigh }, pending := s.pending }

/-- A row of changes. -/
abbrev Changes (cmd : Instr) : State → State → Prop := Relation.ReflTransGen (Change cmd)

variable {cmd : Instr}

theorem Change.changes {s t : State} (h : Change cmd s t) : Changes cmd s t := .single h

/-- A change of the timer that leaves t and the pulse. -/
theorem timer_changes {s : State} {x : Timer} (ht : x.t = s.timer.t) (hpulse : x.pulse = s.timer.pulse) :
    Changes cmd s (s.setTimer x) :=
  (Change.timer x (.inl ht) (.inl hpulse)).changes

/-- A change of the timer that leaves t and ends the pulse. -/
theorem pulseEnds_changes {s : State} {x : Timer} (ht : x.t = s.timer.t) (hpulse : x.pulse = none) :
    Changes cmd s (s.setTimer x) :=
  (Change.timer x (.inl ht) (.inr (.inl hpulse))).changes

/-- A change of the link that leaves its state and the own frame. -/
theorem link_changes {s : State} {x : Link} (hstate : x.state = s.link.state) (htx : x.tx = s.link.tx) :
    Changes cmd s (s.setLink x) :=
  (Change.link x hstate (.inl htx)).changes

/-- A change of the link that leaves its state and ends the own frame. -/
theorem frameEnds_changes {s : State} {x : Link} (hstate : x.state = s.link.state) (htx : x.tx = none) :
    Changes cmd s (s.setLink x) :=
  (Change.link x hstate (.inr (.inl htx))).changes

theorem Work.changes {s t : State} (h : Work s t) : Changes cmd s t :=
  Relation.ReflTransGen.mono (fun _ t h => Change.work t h) _ _ h

theorem Motion.changes {s t : State} (h : Motion s t) : Changes cmd s t := (work_of_motion h).changes

theorem Tables.changes {s t : State} (h : Tables s t) : Changes cmd s t := (work_of_tables h).changes

theorem LinkTurn.changes {s t : State} (h : LinkTurn s t) : Changes cmd s t := by
  induction h with
  | refl => exact .refl
  | tail _ hstep ih =>
    refine ih.trans ?_
    cases hstep with
    | work _ hwork => exact (Change.work _ hwork).changes
    | counts x hstate htx => exact (Change.link x hstate (.inl htx)).changes
    | latched => exact (Change.port _).changes
    | leaves x y p _ h => exact (Change.leaves x y p _ h).changes
    | activates h => exact (Change.activates h).changes
    | leavesDisabled h hactive => exact (Change.leavesDisabled h hactive).changes

/-! ## Requests -/

theorem respond_changes (a : Answer) (r : List Byte) (n : Nat) (s : State) : Changes cmd s (respond a r n s) :=
  (Change.port _).changes

theorem clockRequest_changes {take : List Byte → State → State} (htake : ∀ ps s, Changes cmd s (take ps s)) (code : Byte)
    (needs : List Byte → Nat) (bytes : List Byte) (s : State) : Changes cmd s (clockRequest code needs bytes take s) := by
  rcases clockRequest_cases code needs bytes take s with ⟨_, h⟩ | ⟨ps, _, ⟨_, h⟩ | ⟨_, h⟩⟩
  · rw [h]
  · rw [h]
    exact (Change.port _).changes
  · rw [h]
    exact (Change.port _).changes.trans (htake _ _)

theorem clockPlain_changes {take : State → State} (htake : ∀ s, Changes cmd s (take s)) (code : Byte) (s : State) :
    Changes cmd s (clockPlain code take s) := by
  rcases clockPlain_cases code take s with ⟨_, h⟩ | ⟨_, h⟩
  · rw [h]
    exact (Change.port _).changes.trans (htake _)
  · rw [h]

theorem takeConfigure_changes (hcmd : ∃ bytes, cmd = .configure bytes) (ps : List Byte) (s : State) :
    Changes cmd s (takeConfigure ps s) := by
  unfold takeConfigure
  split
  · exact respond_changes ..
  · rename_i hconfig
    split
    · rename_i hvalid
      have hnone : s.config = none := by cases h : s.config <;> simp_all
      exact (Change.configured _ hnone hvalid hcmd).changes.trans (respond_changes ..)
    · exact respond_changes ..

theorem enterListen_changes (hcmd : cmd = .start) {s : State} (hidle : s.link.state = .idle)
    (hconfig : s.config.isSome = true) :
    Changes cmd s (enterListen s) :=
  ((Change.timer (listenTimer s.timer) (.inr rfl) (.inr (.inl rfl))).changes.trans
    (Change.enters (s := s.setTimer (listenTimer s.timer)) (listenLink s.link) (.inl ⟨hidle, hconfig, hcmd⟩) rfl
      (.inl rfl)
      (.inr rfl)).changes).trans (Change.port _).changes

theorem isSome_of_not_isNone {α : Type} {x : Option α} (h : ¬ x.isNone = true) : x.isSome = true := by
  cases x
  · exact absurd rfl h
  · rfl

theorem takeStart_changes (hcmd : cmd = .start) (s : State) : Changes cmd s (takeStart s) := by
  unfold takeStart
  split
  · exact respond_changes ..
  · rename_i hconfig
    split
    · exact respond_changes ..
    · rename_i hidle
      exact (enterListen_changes hcmd (Decidable.not_not.mp hidle) (isSome_of_not_isNone hconfig)).trans (respond_changes ..)

theorem takeRestart_changes (hcmd : cmd = .restart) (s : State) : Changes cmd s (takeRestart s) := by
  unfold takeRestart
  split
  · exact respond_changes ..
  · rename_i hconfig
    exact (Change.restarted (isSome_of_not_isNone hconfig) hcmd).changes.trans (respond_changes ..)

theorem takeHalt_changes (s : State) : Changes cmd s (takeHalt s) := by
  unfold takeHalt
  split
  · exact respond_changes ..
  · exact (takeCause_motion _ s).changes.trans (respond_changes ..)

theorem clearHaltRefusal_eq_none {s : State} : clearHaltRefusal s = none ↔
    s.seq.axis = .halted ∧ s.link.state = .active ∧ s.stopActive = false ∧ groupOrigin s = false := by
  unfold clearHaltRefusal
  by_cases haxis : s.seq.axis = .halted <;> by_cases hlink : s.link.state = .active <;> simp [haxis, hlink]
  cases s.stopActive <;> cases groupOrigin s <;> simp

theorem takeClearHalt_changes (hcmd : cmd = .clearHalt) (s : State) : Changes cmd s (takeClearHalt s) := by
  unfold takeClearHalt
  split
  · exact respond_changes ..
  · rename_i h
    obtain ⟨haxis, hactive, _⟩ := clearHaltRefusal_eq_none.mp h
    exact (Change.cleared haxis hactive hcmd).changes.trans (respond_changes ..)

theorem takeQueueSegment_changes (ps : List Byte) (s : State) : Changes cmd s (takeQueueSegment ps s) := by
  unfold takeQueueSegment
  split
  · exact respond_changes ..
  · split
    · exact respond_changes ..
    · split
      · exact respond_changes ..
      · split
        · exact respond_changes ..
        · rename_i haxis
          split
          · exact respond_changes ..
          · rename_i hroom
            exact (Change.appended _ _ (Nat.lt_of_not_le hroom) haxis).changes.trans (respond_changes ..)

theorem takeSetPosition_changes (ps : List Byte) (s : State) : Changes cmd s (takeSetPosition ps s) := by
  unfold takeSetPosition
  split
  · exact respond_changes ..
  · exact (MotionChange.gen (s := s) { s.gen with position := word32At ps 0, known := true } rfl
      (.inl rfl)).motion.changes.trans (respond_changes ..)

theorem freeId_eq_some {u : NoteUnit} {i : Fin 4} (h : u.freeId = some i) : u.slots.get i = .free := by
  simpa using List.find?_some h

theorem takeSendNote_changes (ps : List Byte) (s : State) : Changes cmd s (takeSendNote ps s) := by
  unfold takeSendNote
  split
  · exact respond_changes ..
  · split
    · rename_i hvalid
      split
      · exact respond_changes ..
      · rename_i i hi
        have hlength : ((ps.drop 3).take (byteAt ps 2).toNat).length ≤ 8 := by
          simp only [noteValid, Bool.and_eq_true, decide_eq_true_eq] at hvalid
          obtain ⟨⟨⟨hshort, _⟩, _⟩, _⟩ := hvalid
          exact (List.length_take_le _ _).trans hshort
        exact (Change.placed i _ _ (freeId_eq_some hi) hlength).changes.trans (respond_changes ..)
    · exact respond_changes ..

theorem takeReleaseNoteSlot_changes (ps : List Byte) (s : State) : Changes cmd s (takeReleaseNoteSlot ps s) := by
  unfold takeReleaseNoteSlot
  split
  · split
    · rename_i hdone
      exact (Change.slotReleased _ hdone).changes.trans (respond_changes ..)
    · exact respond_changes ..
  · exact respond_changes ..

/-- The reads answer from the state and change the port alone. -/
theorem reads_changes (s : State) : Changes cmd s (takeReadState s) ∧ Changes cmd s (takeReadCompletion s) ∧
    Changes cmd s (takeReadHaltReport s) ∧ Changes cmd s (takeReadPeerChanges s) ∧ Changes cmd s (takeReadNote s) := by
  refine ⟨respond_changes .., ?_, ?_, ?_, ?_⟩
  · unfold takeReadCompletion
    split
    · exact respond_changes ..
    · exact (Change.port _).changes
  · unfold takeReadHaltReport
    split
    · exact respond_changes ..
    · exact respond_changes ..
  · unfold takeReadPeerChanges
    split
    · exact respond_changes ..
    · exact (Change.port _).changes
  · unfold takeReadNote
    split
    · exact respond_changes ..
    · exact (Change.port _).changes

theorem readsOf_changes (ps : List Byte) (s : State) :
    Changes cmd s (takeReadPeer ps s) ∧ Changes cmd s (takeReadNoteSlot ps s) := by
  constructor
  · unfold takeReadPeer
    split <;> exact respond_changes ..
  · unfold takeReadNoteSlot
    split <;> exact respond_changes ..

/-! ## The boundary -/

theorem haltRequest_changes (s : State) : Changes cmd s (clockPlain 0x12 takeHalt s) :=
  clockPlain_changes takeHalt_changes _ s

theorem takeTurn_changes (o : EventOrder) (e : CycleEnd) (x : Raising) (b : BoundaryTurn) :
    Changes cmd x.1 (takeTurn o e x b).1 := by
  cases b
  · exact (linkBoundary_linkTurn o e.adopted e.earlyLoss x.1).changes
  · exact (ageing_work _ x.1).changes
  · exact (motionBoundary_motion _ _ x.1).changes
  · exact (firstExamination_motion x.1).changes
  · exact (stepEventsTurn_motion o e.executing x.1).changes
  · exact (takeRaised_motion _ x.1).changes
  · exact (stopTurn_motion x.1).changes
  · exact haltRequest_changes x.1
  · exact (barrierDeadline_motion x.1).changes
  · exact (noteBoundary_tables x.1).changes

theorem turns_changes (o : EventOrder) (e : CycleEnd) (l : List BoundaryTurn) (x : Raising) :
    Changes cmd x.1 (l.foldl (takeTurn o e) x).1 := by
  induction l generalizing x with
  | nil => exact .refl
  | cons b l ih => exact (takeTurn_changes o e x b).trans (ih _)

theorem boundary_changes (o : EventOrder) (skipped : Nat) (s : State) : Changes cmd s (boundary o skipped s) :=
  (Change.timer (timerBoundary s.timer) (.inr rfl) (.inl rfl)).changes.trans (turns_changes o _ _ (s.setTimer (timerBoundary s.timer), none))

/-! ## Events of the timer, the line and the link -/

theorem takeEdge_changes (o : EventOrder) (s : State) : Changes cmd s (takeEdge o s) := by
  have hcounting : Changes cmd s (if s.edgeAccepted then boundary o s.skippedCount s else earlyEdge s) := by
    split
    · exact boundary_changes o _ s
    · exact timer_changes rfl rfl
  unfold takeEdge
  split
  · exact timer_changes rfl rfl
  · rename_i hlisten
    unfold listenEdge
    split
    · rename_i c _
      let x : Timer := { listenEdgeTimer s.timer with cycle := c.cycle + 1, earlyRun := 0 }
      exact ((Change.timer x (.inr rfl) (.inl rfl)).changes.trans
        (Change.enters (s := s.setTimer x) { s.link with state := .joining, joinCount := 0 } (.inr hlisten) rfl (.inr rfl)
          (.inl rfl)).changes).trans (Change.port _).changes
    · exact (Change.timer (listenEdgeTimer s.timer) (.inr rfl) (.inl rfl)).changes.trans
        (Change.link (s := s.setTimer (listenEdgeTimer s.timer)) { s.link with prevEdge := true, candidate := none } rfl
          (.inl rfl)).changes
  all_goals exact hcounting

/-- The founding: t is 0, the link enters JOINING, and only then the pulse begins. -/
theorem found_changes {s : State} (h : s.link.state = .listen) : Changes cmd s (found s) := by
  let x : Timer := { s.timer with t := 0 }
  let y : Link := { s.link with state := .joining, joinCount := 0 }
  let z : Timer := { s.timer with
    t := 0, cycle := 0, earlyRun := 0, armed := false, highRun := 0, pulse := some 8, founding := .none
    raised := Raised.clear }
  have hzero : Changes cmd s (s.setTimer x) := (Change.timer x (.inr rfl) (.inl rfl)).changes
  have henters : Changes cmd (s.setTimer x) ((s.setTimer x).setLink y) :=
    (Change.enters (s := s.setTimer x) y (.inr h) rfl (.inr rfl) (.inl rfl)).changes
  have hpulse : Changes cmd ((s.setTimer x).setLink y) (((s.setTimer x).setLink y).setTimer z) :=
    (Change.timer (s := (s.setTimer x).setLink y) z (.inr rfl) (.inr (.inr (.inl rfl)))).changes
  exact ((hzero.trans henters).trans hpulse).trans (Change.port _).changes

theorem slotBeginning_eq_some {n pos k : Nat} (h : slotBeginning n pos = some k) : k < n ∧ pos = 24 + 96 * k := by
  unfold slotBeginning at h
  split at h
  · cases h
    rename_i h
    obtain ⟨hlow, hmod, hlt⟩ := h
    exact ⟨hlt, by omega⟩
  · cases h

theorem ownSlotStart_count {s : State} (h : ownSlotStart s = true) : s.id.val < s.stationCount := by
  simp only [ownSlotStart, Bool.and_eq_true, decide_eq_true_eq] at h
  exact (slotBeginning_eq_some h.1).1

theorem slotStart_changes (s : State) : Changes cmd s (slotStart s) := by
  unfold slotStart
  dsimp only
  have htimer : Changes cmd s (s.setTimer { s.timer with raised := { s.timer.raised with slotStart := false } }) :=
    timer_changes rfl rfl
  split
  · rename_i hown
    let u : State := s.setTimer { s.timer with raised := { s.timer.raised with slotStart := false } }
    have hclock : SameClock u (writeOwnEntry u.ownFrame (noteShown u)) := (noteShown_clock u).trans (writeOwnEntry_clock _ _)
    have hcounting : s.link.state = .joining ∨ s.link.state = .active := by
      simp only [ownSlotStart, Bool.and_eq_true, decide_eq_true_eq] at hown
      exact hown.2
    refine (htimer.trans (noteShown_tables u).changes).trans ((writeOwnEntry_tables (s := noteShown u) ?_ _).changes.trans
      (Change.link _ (by rw [hclock.link]) (.inr (.inr (by rw [hclock.link]; exact hcounting)))).changes)
    rw [(noteShown_clock u).station.stationCount, (noteShown_clock u).station.id]
    exact ownSlotStart_count hown
  · exact htimer

theorem validSlot_eq_some {n start : Nat} {chars : List RxChar} {k : Station} (h : validSlot n start chars = some k) :
    k.val < n := by
  unfold validSlot at h
  dsimp only at h
  split at h
  · cases h
  · rename_i j hj
    split at h
    · split at h
      · cases h
        unfold slotOfStart at hj
        split at hj
        · rename_i hwindow
          cases hj
          exact hwindow.2.2
        · cases hj
      · cases h
    · cases h

theorem adoptionRule_changes (f : Frame) (s : State) : Changes cmd s (adoptionRule f s) := by
  unfold adoptionRule
  split
  · exact (link_changes (x := { s.link with request := some { cycle := f.view.lastCycle, join := f.view.join } }) rfl
      rfl).trans (timer_changes rfl rfl)
  · exact .refl

theorem adoptionRule_station (f : Frame) (s : State) : SameStation s (adoptionRule f s) := by
  unfold adoptionRule
  split
  · exact ⟨rfl, rfl, rfl, rfl⟩
  · exact SameStation.refl s

theorem handleFrame_changes {k : Station} {s : State} (hown : k ≠ s.id) (hn : k.val < s.stationCount) (b : Bool)
    (f : Frame) : Changes cmd s (handleFrame b k f s) := by
  unfold handleFrame
  split
  · split
    · have hstation := adoptionRule_station f s
      exact (adoptionRule_changes f s).trans
        (acceptFrame_work (by rw [hstation.id]; exact hown) (by rw [hstation.stationCount]; exact hn) b f).changes
    · split
      · exact (link_changes (x := { s.link with slips := .agreed }) rfl rfl).trans
          (acceptFrame_work (s := noteAgreed s) hown hn b f).changes
      · exact link_changes rfl rfl
    · split
      · exact (acceptFrame_work hown hn b f).changes
      · exact .refl
    · exact .refl
    · exact .refl
  · exact (profileMismatch_work hown hn b).changes

theorem validFrame_changes {k : Station} {s : State} (hn : k.val < s.stationCount) (b : Bool) (f : Frame) :
    Changes cmd s (validFrame b k f s) := by
  have hcounting : Changes cmd s (if k = s.id then s else handleFrame b k f s) := by
    split
    · exact .refl
    · rename_i hown
      exact handleFrame_changes hown hn b f
  unfold validFrame
  split
  · exact .refl
  · split
    · unfold candidateRule
      split
      · split
        · exact link_changes rfl rfl
        · exact .refl
      · exact link_changes rfl rfl
    · exact .refl
  all_goals exact hcounting

theorem receiveFrame_changes (b : Bool) (start : Nat) (chars : List RxChar) (s : State) :
    Changes cmd s (receiveFrame b start chars s) := by
  unfold receiveFrame
  dsimp only
  have hwait : Changes cmd s (s.setLink { s.link with rx := .waiting }) := link_changes rfl rfl
  split
  · exact hwait
  · rename_i k hk
    exact hwait.trans (validFrame_changes (s := s.setLink { s.link with rx := .waiting }) (validSlot_eq_some hk) b _)

theorem completeAnswer_changes (s : State) : Changes cmd s (completeAnswer s) := by
  unfold completeAnswer
  refine Relation.ReflTransGen.trans ?_ (Change.port _).changes
  unfold removeItem
  split
  · exact .refl
  · exact Change.recordRemoved.changes
  · exact Change.noteRemoved.changes
  · exact (Change.changesRemoved _).changes

/-! ## Every command -/

/-- What a command answers is reached by a row of changes. -/
def Result.Reaches (cmd : Instr) (s : State) (r : Result) : Prop := ∃ t, r = .next t ∧ Changes cmd s t

theorem reaches {s t : State} (h : Changes cmd s t) : Result.Reaches cmd s (.next t) := ⟨t, rfl, h⟩

theorem reaches_ite {s t : State} {c : Prop} [Decidable c] (h : c → Changes cmd s t) :
    Result.Reaches cmd s (.next (if c then t else s)) := by
  split
  · exact reaches (h ‹_›)
  · exact reaches .refl

theorem exec_reaches (cmd : Instr) (s : State) : Result.Reaches cmd s (exec cmd s) := by
  cases cmd with
  | deviceReset straps => exact reaches (Change.reset straps rfl).changes
  | tick input =>
    show Result.Reaches _ s (.next (if anyDue s then s else tickAll input.pins input.lineStart s))
    split
    · exact reaches .refl
    · exact reaches (Change.ticked _ _).changes
  | runOut order =>
    refine reaches_ite fun h => ?_
    simp only [runOutDue, Bool.and_eq_true, decide_eq_true_eq] at h
    obtain ⟨_, hcounting⟩ := h
    exact (Change.timer { s.timer with pulse := some 8 } (.inl rfl) (.inr (.inr hcounting))).changes.trans
      (boundary_changes order 0 _)
  | stretchedRunOut order => exact reaches_ite fun _ => boundary_changes order 0 s
  | syncFallingEdge order => exact reaches_ite fun _ => takeEdge_changes order s
  | edgeDetectorArmed => exact reaches_ite fun _ => timer_changes rfl rfl
  | syncPulseEnd => exact reaches_ite fun _ => pulseEnds_changes rfl rfl
  | founding =>
    refine reaches_ite fun h => found_changes ?_
    simp only [foundingDue, decide_eq_true_eq] at h
    exact h.2
  | silence => exact reaches_ite fun _ => timer_changes rfl rfl
  | slotStart => exact reaches_ite fun _ => slotStart_changes s
  | collision bit => exact reaches_ite fun _ => frameEnds_changes rfl rfl
  | frameReceived start chars barrierFirst => exact reaches_ite fun _ => receiveFrame_changes barrierFirst start chars s
  | stepDue =>
    refine reaches_ite fun h => (fallDue_motion ?_).changes
    simp only [stepDueDue, Bool.and_eq_true] at h
    exact h.2
  | untimedStepDue => exact reaches_ite fun _ => (fallDueUntimed_motion s).changes
  | closingTick => exact reaches_ite fun _ => (closeSegment_motion s).changes
  | stepPulseBegin => exact reaches_ite fun h => (takeStep_motion (stepConditions_of_due h)).changes
  | stepPulseEnd =>
    exact reaches_ite fun _ => (MotionChange.gen (s := s) { s.gen with pulse := none } rfl (.inl rfl)).motion.changes
  | dirChange => exact reaches_ite fun _ => (changeDir_motion s).changes
  | dirSetupExpiry =>
    exact reaches_ite fun _ =>
      (MotionChange.gen (s := s) { s.gen with dirSetup := none } rfl (.inr (.inl rfl))).motion.changes
  | filteredLevelChange input => exact reaches_ite fun _ => (changeLevel_motion input s).changes
  | stopInput => exact reaches_ite fun _ => Motion.changes ((flipStop_motion s).trans (takeCause_motion _ _))
  | stopnInactive => exact reaches_ite fun _ => (flipStop_motion s).changes
  | csnFall => exact reaches_ite fun _ => (Change.port _).changes
  | csnRise =>
    show Result.Reaches _ s (.next (if s.port.csnHigh then s else endTransaction s))
    split
    · exact reaches .refl
    · exact reaches (Change.port _).changes
  | removal => exact reaches_ite fun _ => completeAnswer_changes s
  | configure params => exact reaches (clockRequest_changes (takeConfigure_changes ⟨params, rfl⟩) _ _ params s)
  | start => exact reaches (clockPlain_changes (takeStart_changes rfl) _ s)
  | restart => exact reaches (clockPlain_changes (takeRestart_changes rfl) _ s)
  | halt => exact reaches (haltRequest_changes s)
  | clearHalt => exact reaches (clockPlain_changes (takeClearHalt_changes rfl) _ s)
  | queueSegment params => exact reaches (clockRequest_changes takeQueueSegment_changes _ _ params s)
  | flushQueue => exact reaches (clockPlain_changes (fun _ => Change.flushed.changes.trans (respond_changes ..)) _ s)
  | setPosition params => exact reaches (clockRequest_changes takeSetPosition_changes _ _ params s)
  | clearEvents params =>
    exact reaches (clockRequest_changes (fun _ _ => (Change.port _).changes.trans (respond_changes ..)) _ _ params s)
  | readState => exact reaches (clockPlain_changes (fun s => (reads_changes s).1) _ s)
  | readCompletion => exact reaches (clockPlain_changes (fun s => (reads_changes s).2.1) _ s)
  | readHaltReport => exact reaches (clockPlain_changes (fun s => (reads_changes s).2.2.1) _ s)
  | readPeer params => exact reaches (clockRequest_changes (fun ps s => (readsOf_changes ps s).1) _ _ params s)
  | readPeerChanges => exact reaches (clockPlain_changes (fun s => (reads_changes s).2.2.2.1) _ s)
  | sendNote params => exact reaches (clockRequest_changes takeSendNote_changes _ _ params s)
  | readNote => exact reaches (clockPlain_changes (fun s => (reads_changes s).2.2.2.2) _ s)
  | readNoteSlot params => exact reaches (clockRequest_changes (fun ps s => (readsOf_changes ps s).2) _ _ params s)
  | releaseNoteSlot params => exact reaches (clockRequest_changes takeReleaseNoteSlot_changes _ _ params s)
  | unknownRequest code =>
    show Result.Reaches _ s (.next (if code ∈ requestCodes then s else clockPlain code answerUnknown s))
    split
    · exact reaches .refl
    · exact reaches (clockPlain_changes (fun _ => respond_changes ..) _ s)
  | ownFrameEnd => exact reaches_ite fun _ => frameEnds_changes rfl rfl
  | lookForStartAgain => exact reaches (link_changes rfl rfl)

/-- Every command is a row of changes. -/
theorem exec_changes {s t : State} (h : exec cmd s = .next t) : Changes cmd s t := by
  obtain ⟨u, hu, hchanges⟩ := exec_reaches cmd s
  rw [hu] at h
  cases h
  exact hchanges

/-- What each change of a command keeps, the command keeps. -/
theorem exec_keeps {P : State → Prop} (h : ∀ s t, Change cmd s t → P s → P t) {s t : State} (hs : P s)
    (hexec : exec cmd s = .next t) : P t :=
  rows_keep h (exec_changes hexec) hs

/-- A law that does not read the waiting commands, and that each change of every command keeps, each step keeps. -/
theorem step_keeps {P : State → Prop} (h : ∀ cmd s t, Change cmd s t → P s → P t)
    (hpending : ∀ s x, P s → P (s.setPending x)) {s t : State} (hs : P s) (hstep : step s = .next t) : P t := by
  unfold step at hstep
  split at hstep
  · unfold referencePeriod at hstep
    split at hstep
    · cases hstep
      exact h (.tick ⟨s.pins, false⟩) _ _ (.timer _ (.inl rfl) (.inl rfl)) hs
    · exact exec_keeps (h (.tick ⟨s.pins, false⟩)) hs hstep
  · exact exec_keeps (h _) (hpending s _ hs) hstep

end Sys2Proof.Machine
end

