-- ==== Sys2Proof/Proofs/StepLaws.lean ====
section
/-! PROOFS. Every change keeps the laws of the completion entries, the queue, the step sources, the notes and the peers, and
so every step keeps them (O56 to O59). -/

namespace Sys2Proof.Machine

/-! ## Completion entries -/

theorem reserved_tickSeq (q : Sequencer) : (tickSeq q).reserved = q.reserved := by
  cases he : q.exec <;> simp [tickSeq, Sequencer.reserved, he]

theorem Change.keeps_completionLaw {cmd : Instr} {s t : State} (h : Change cmd s t) (hs : completionLaw s = true) :
    completionLaw t = true := by
  cases h with
  | work _ h => exact h.keeps_completionLaw hs
  | leaves x y p t h => exact rows_keep (fun _ _ h => h.keeps_completionLaw) h.work hs
  | ticked pins lineStart =>
    unfold completionLaw at hs ⊢
    rw [show (tickAll pins lineStart s).seq.reserved = s.seq.reserved from reserved_tickSeq s.seq]
    exact hs
  | recordRemoved =>
    rw [completionLaw_iff] at hs ⊢
    simp only [State.setHeld_held, State.setHeld_seq, List.length_drop]
    omega
  | restarted => rfl
  | reset => rfl
  | timer | link | enters | activates | port | leavesDisabled | noteRemoved | changesRemoved | configured |
    cleared | appended | flushed | placed | slotReleased => exact hs

/-! ## The queue -/

/-- A segment with the next number, put at the tail, keeps the numbering. -/
theorem numbered_append {next : SeqNo} {queue : List Segment} {seg : Segment} (hseg : seg.seq = next)
    (h : numbered next queue = true) : numbered (next + 1) (queue ++ [seg]) = true := by
  induction queue with
  | nil =>
    simp [numbered, hseg]
  | cons head rest ih =>
    rw [numbered, Bool.and_eq_true, decide_eq_true_eq] at h
    rw [List.cons_append, numbered, Bool.and_eq_true, decide_eq_true_eq]
    refine ⟨?_, ih h.2⟩
    rw [h.1, List.length_append, List.length_singleton, BitVec.ofNat_add (rest.length + 1) 1]
    bv_omega

theorem Change.keeps_queueLaw {cmd : Instr} {s t : State} (h : Change cmd s t) (hs : queueLaw s = true) : queueLaw t = true := by
  cases h with
  | work _ h => exact h.keeps_queueLaw hs
  | leaves x y p t h => exact rows_keep (fun _ _ h => h.keeps_queueLaw) h.work hs
  | restarted => rfl
  | reset => rfl
  | flushed => rfl
  | appended label body hroom =>
    rw [queueLaw_iff] at hs ⊢
    refine ⟨?_, numbered_append rfl hs.2⟩
    simpa [appendSegment] using hroom
  | timer | link | enters | activates | port | leavesDisabled | ticked | recordRemoved | noteRemoved |
    changesRemoved | configured | cleared | placed | slotReleased => exact hs

/-! ## Step sources -/

/-- A tick counts the interval of an untimed source, and leaves a timed one alone. -/
theorem tickSource_eq_timed {x : Source} {src : TimedSource} : tickSource x = .timed src ↔ x = .timed src := by
  cases x <;> simp [tickSource]

theorem Change.keeps_sourceLaw {cmd : Instr} {s t : State} (h : Change cmd s t) (hs : sourceLaw s = true) : sourceLaw t = true := by
  cases h with
  | work _ h => exact h.keeps_sourceLaw hs
  | leaves x y p t h => exact rows_keep (fun _ _ h => h.keeps_sourceLaw) h.work hs
  | ticked pins lineStart =>
    rw [sourceLaw_iff] at hs ⊢
    obtain ⟨hfin, hexec⟩ := hs
    refine ⟨hfin, fun e src he hsrc => ?_⟩
    obtain ⟨e', he', rfl⟩ := Option.map_eq_some_iff.mp (he : s.seq.exec.map _ = some e)
    exact hexec e' src he' (tickSource_eq_timed.mp hsrc)
  | restarted => rfl
  | reset => rfl
  | timer | link | enters | activates | port | leavesDisabled | recordRemoved | noteRemoved | changesRemoved
    | configured | cleared | appended | flushed | placed | slotReleased => exact hs

/-! ## Notes -/

/-- A QUEUED slot at the tail of the order, or a slot freed, keeps the law of the other slots. -/
theorem noteLaw_placed {s : State} {i : Fin 4} {dests : Mask} {payload : List Byte} (hfree : s.notes.slots.get i = .free)
    (hlength : payload.length ≤ 8) (hs : noteLaw s = true) : noteLaw (placeNote i dests payload s) = true := by
  rw [noteLaw_iff] at hs ⊢
  obtain ⟨hone, hnodup, horder, hfits, hinbox⟩ := hs
  let x : NoteSlot := .queued s.notes.nextNumber dests payload
  have hget (j : Fin 4) : (placeNote i dests payload s).notes.slots.get j = if j = i then x else s.notes.slots.get j :=
    setSlot_get i j x s
  have hsending (j : Fin 4) (hj : (placeNote i dests payload s).notes.isSending j = true) :
      s.notes.isSending j = true := by
    obtain ⟨_, _, _, _, _, hslot⟩ := isSending_iff.mp hj
    rw [hget] at hslot
    split at hslot
    · simp [x] at hslot
    · exact isSending_iff.mpr ⟨_, _, _, _, _, hslot⟩
  have hout : i ∉ s.notes.order := fun hi => by
    obtain ⟨_, _, _, hslot⟩ := isQueued_iff.mp ((horder i).mp hi)
    rw [hfree] at hslot
    cases hslot
  refine ⟨fun a b ha hb => hone a b (hsending a ha) (hsending b hb), ?_, fun a => ?_, fun a => ?_, hinbox⟩
  · exact List.nodup_append.mpr ⟨hnodup, List.nodup_singleton i, fun a ha b hb hab =>
      hout (by rw [← List.mem_singleton.mp hb, ← hab]; exact ha)⟩
  · rw [isQueued_iff, hget]
    change a ∈ s.notes.order ++ [i] ↔ _
    rw [List.mem_append, List.mem_singleton]
    by_cases ha : a = i
    · simp [ha, x]
    · simp [ha, horder a, isQueued_iff]
  · rw [hget]
    split
    · simpa [x, NoteSlot.payloadFits] using hlength
    · exact hfits a

theorem noteLaw_released {s : State} {i : Fin 4} (hdone : (s.notes.slots.get i).isDone = true)
    (hs : noteLaw s = true) : noteLaw (setSlot i .free s) = true := by
  rw [noteLaw_iff] at hs ⊢
  obtain ⟨hone, hnodup, horder, hfits, hinbox⟩ := hs
  have hnot : s.notes.isQueued i = false := by
    cases hslot : s.notes.slots.get i <;> simp_all [NoteSlot.isDone, NoteUnit.isQueued]
  have hsending (j : Fin 4) (hj : (setSlot i .free s).notes.isSending j = true) : s.notes.isSending j = true := by
    rw [setSlot_isSending] at hj
    split at hj
    · obtain ⟨_, _, _, _, _, h⟩ := hj
      cases h
    · exact hj
  refine ⟨fun a b ha hb => hone a b (hsending a ha) (hsending b hb), hnodup, fun a => ?_, fun a => ?_, hinbox⟩
  · rw [setSlot_isQueued]
    split
    · rename_i ha
      subst ha
      exact iff_of_false (fun hmem => by rw [(horder a).mp hmem] at hnot; cases hnot) (by simp)
    · exact horder a
  · rw [setSlot_get]
    split
    · rfl
    · exact hfits a

theorem Change.keeps_noteLaw {cmd : Instr} {s t : State} (h : Change cmd s t) (hs : noteLaw s = true) : noteLaw t = true := by
  cases h with
  | work _ h => exact h.keeps_noteLaw hs
  | leaves x y p t h => exact rows_keep (fun _ _ h => h.keeps_noteLaw) h.work hs
  | placed i dests payload hfree hlength => exact noteLaw_placed hfree hlength hs
  | slotReleased i hdone => exact noteLaw_released hdone hs
  | noteRemoved =>
    rw [noteLaw_iff] at hs ⊢
    obtain ⟨hone, hnodup, horder, hfits, hinbox⟩ := hs
    refine ⟨hone, hnodup, horder, hfits, ?_⟩
    simp only [State.setNotes_notes, List.length_drop]
    omega
  | restarted => rw [noteLaw_congr (s := State.reset) (t := restartAll s) rfl]; decide +kernel
  | reset k =>
    refine (noteLaw_congr (s := State.reset) ?_).trans (by decide +kernel)
    rfl
  | timer | link | enters | activates | port | leavesDisabled | ticked | recordRemoved | changesRemoved |
    configured | cleared | appended | flushed => exact hs

/-! ## Peers -/

/-- A table with no entry in use and an empty map obeys the peer law. -/
theorem peerLaw_of_reset {s : State} (h : s.peers = PeerTable.reset) : peerLaw s = true := by
  rw [peerLaw_iff]
  intro k
  refine ⟨fun _ => ?_, fun hmap => ?_⟩
  · rw [State.entry, h]
    simp [PeerTable.reset, PeerEntry.blank, Vector.get_eq_getElem]
  · rw [h] at hmap
    simp [PeerTable.reset, inMask] at hmap

theorem stationCount_of_unconfigured {s : State} (h : s.config = none) : s.stationCount = 0 := by
  simp [State.stationCount, State.cfg, h, Settings.unconfigured]

/-- Before CONFIGURE no entry is in use and the map is empty, and CONFIGURE leaves that. -/
theorem peerLaw_configured {s : State} (c : Settings) (hnone : s.config = none) (hs : peerLaw s = true) :
    peerLaw (s.setConfig (some c)) = true := by
  rw [peerLaw_iff] at hs ⊢
  intro k
  have hk := hs k
  rw [stationCount_of_unconfigured hnone] at hk
  exact ⟨fun _ => hk.1 (Nat.zero_le _), fun hmap => absurd (hk.2 hmap).1 (Nat.not_lt_zero _)⟩

theorem inMask_and_not {m r : Mask} {k : Station} (h : inMask (m &&& ~~~r) k = true) : inMask m k = true := by
  simp only [inMask, BitVec.getLsbD_and, Bool.and_eq_true] at h
  exact h.1

theorem Change.keeps_peerLaw {cmd : Instr} {s t : State} (h : Change cmd s t) (hs : peerLaw s = true) : peerLaw t = true := by
  cases h with
  | work _ h => exact h.keeps_peerLaw hs
  | leaves x y p t h => exact rows_keep (fun _ _ h => h.keeps_peerLaw) h.work hs
  | changesRemoved m =>
    rw [peerLaw_iff] at hs ⊢
    exact fun k => ⟨(hs k).1, fun hmap => (hs k).2 (inMask_and_not hmap)⟩
  | configured c hnone hvalid => exact peerLaw_configured c hnone hs
  | restarted => exact peerLaw_of_reset rfl
  | reset => exact peerLaw_of_reset rfl
  | timer | link | enters | activates | port | leavesDisabled | ticked | recordRemoved | noteRemoved |
    cleared | appended | flushed | placed | slotReleased => exact hs

end Sys2Proof.Machine

namespace Sys2Proof.Claims

open Sys2Proof.Machine

/-- Settles O56: each change keeps the count of completion entries, and the queue's length and numbering. -/
theorem stepKeepsQueueLaws : Obligations.StepKeepsQueueLaws :=
  ⟨fun _ _ hs hstep => step_keeps (P := fun s => completionLaw s = true) (fun _ _ _ h => h.keeps_completionLaw) (fun _ _ => id) hs hstep,
    fun _ _ hs hstep => step_keeps (P := fun s => queueLaw s = true) (fun _ _ _ h => h.keeps_queueLaw) (fun _ _ => id) hs hstep⟩

/-- Settles O57: each change keeps the counts of the finishing segments and of the executing one. -/
theorem stepKeepsSourceLaw : Obligations.StepKeepsSourceLaw := fun _ _ hs hstep =>
  step_keeps (P := fun s => sourceLaw s = true) (fun _ _ _ h => h.keeps_sourceLaw) (fun _ _ => id) hs hstep

/-- Settles O58: each change keeps the one SENDING slot, the order of the QUEUED ones, and the room of the inbox. -/
theorem stepKeepsNoteLaw : Obligations.StepKeepsNoteLaw := fun _ _ hs hstep =>
  step_keeps (P := fun s => noteLaw s = true) (fun _ _ _ h => h.keeps_noteLaw) (fun _ _ => id) hs hstep

/-- Settles O59: each change keeps the unused entries ABSENT and the map within the peers. -/
theorem stepKeepsPeerLaw : Obligations.StepKeepsPeerLaw := fun _ _ hs hstep =>
  step_keeps (P := fun s => peerLaw s = true) (fun _ _ _ h => h.keeps_peerLaw) (fun _ _ => id) hs hstep

end Sys2Proof.Claims
end

