-- ==== Sys2Proof/Proofs/AxisAndClockLaws.lean ====
section
/-! PROOFS. Every change keeps the axis laws (O55), and the laws of the settings, the timer, the lines, the refusal and the
DIR setup timer (O60). -/

namespace Sys2Proof.Machine

/-! ## The axis -/

/-- Out of ACTIVE the axis is stopped. -/
theorem linkAxisLaw_iff (s : State) : linkAxisLaw s = true ↔ s.link.state = .active ∨ s.seq.axis.live = false := by
  unfold linkAxisLaw
  rw [decide_eq_true_eq]
  refine or_congr Iff.rfl ?_
  cases s.seq.axis <;> simp [AxisState.live]

/-- The axis law asks of the queue only that it is empty in HALTED. -/
theorem axisLaw_setQueue {s t : State} (haxis : t.seq.axis = s.seq.axis) (hexec : t.seq.exec = s.seq.exec)
    (hout : t.seq.outstanding = s.seq.outstanding) (hctx : t.barrier.ctx = s.barrier.ctx)
    (hqueue : s.seq.axis = .halted → t.seq.queue = []) (hs : axisLaw s = true) : axisLaw t = true := by
  unfold axisLaw at hs ⊢
  rw [haxis, hexec, hout, hctx]
  cases ha : s.seq.axis <;> simp_all

/-- A tick keeps the kind of a step source. -/
theorem sourceFits_tickSource (e : Executing) :
    ({ e with source := tickSource e.source } : Executing).sourceFits = e.sourceFits := by
  have hhome (u : UntimedSource) : (if u.emitted = 0 then u
      else { u with intervalCount := min 65535 (u.intervalCount + 1) }).home = u.home := by split <;> rfl
  unfold Executing.sourceFits
  cases he : e.source with
  | none => rfl
  | timed src => rfl
  | untimed u => cases hb : e.seg.body <;> simp [tickSource, hhome]

theorem isBarrier_tickSource (e : Executing) :
    ({ e with source := tickSource e.source } : Executing).isBarrier = e.isBarrier := by
  unfold Executing.isBarrier
  cases he : e.source <;> cases hb : e.seg.body <;> rfl

theorem axisLaw_tickAll (pins : PinLevels) (lineStart : Bool) (s : State) :
    axisLaw (tickAll pins lineStart s) = axisLaw s := by
  unfold axisLaw tickAll tickSeq
  cases s.seq.axis <;> cases s.seq.exec <;> cases s.barrier.ctx <;> simp [sourceFits_tickSource, isBarrier_tickSource]

/-- The axis that leaves DISABLED or HALTED for IDLE has nothing to execute. -/
theorem axisLaw_becomesIdle {s t : State} (hs : axisLaw s = true) (hstop : s.seq.axis.live = false)
    (haxis : t.seq.axis = .idle) (hexec : t.seq.exec = s.seq.exec) (hctx : t.barrier.ctx = s.barrier.ctx) :
    axisLaw t = true := by
  obtain ⟨hnone, _, hfree, _⟩ := axisLaw_stopped hs hstop
  exact (axisLaw_idle haxis).mpr ⟨hexec.trans hnone, hctx.trans hfree⟩

theorem Change.keeps_axisLaw {cmd : Instr} {s t : State} (h : Change cmd s t) (hs : axisLaw s = true) : axisLaw t = true := by
  cases h with
  | work _ h => exact h.keeps_axisLaw hs
  | leaves x y p t h => exact rows_keep (fun _ _ h => h.keeps_axisLaw) h.work hs
  | leavesDisabled h => exact axisLaw_becomesIdle hs (by rw [h]; rfl) rfl rfl rfl
  | cleared h => exact axisLaw_becomesIdle hs (by rw [h]; rfl) rfl rfl rfl
  | ticked pins lineStart => rw [axisLaw_tickAll]; exact hs
  | restarted => rfl
  | reset => rfl
  | appended label body hroom haxis =>
    exact axisLaw_setQueue (s := s) (t := appendSegment label body s) rfl rfl rfl rfl (fun h => absurd h haxis) hs
  | flushed =>
    exact axisLaw_setQueue (s := s) (t := s.setSeq { s.seq with queue := [] }) rfl rfl rfl rfl (fun _ => rfl) hs
  | timer | link | enters | activates | port | recordRemoved | noteRemoved | changesRemoved | configured |
    placed | slotReleased => exact hs

/-- Out of ACTIVE the axis stays stopped, and a link that leaves ACTIVE stops it. -/
theorem Change.keeps_linkAxisLaw {cmd : Instr} {s t : State} (h : Change cmd s t) (hs : axisLaw s = true) (hlink : linkAxisLaw s = true) :
    linkAxisLaw t = true := by
  have hcases := (linkAxisLaw_iff s).mp hlink
  rw [linkAxisLaw_iff]
  cases h with
  | work _ h =>
    obtain hactive | hstop := hcases
    · exact .inl (by rw [h.clock.link]; exact hactive)
    · exact .inr (work_keeps_stopped (.single h) hs hstop).2
  | link x hstate => exact hcases.imp_left fun hactive => hstate.trans hactive
  | enters x hstate =>
    refine .inr (hcases.resolve_left fun hactive => ?_)
    obtain ⟨hidle, _⟩ | hlisten := hstate
    · rw [hidle] at hactive; cases hactive
    · rw [hlisten] at hactive; cases hactive
  | activates => exact .inl rfl
  | leaves x y p t h => exact .inr (h.stopped hs hlink)
  | leavesDisabled h hactive => exact .inl hactive
  | cleared h hactive => exact .inl hactive
  | restarted => exact .inr rfl
  | reset => exact .inr rfl
  | timer | port | ticked | recordRemoved | noteRemoved | changesRemoved | configured | appended | flushed |
    placed | slotReleased => exact hcases

/-! ## The settings, the timer and the lines -/

theorem settingsLaw_iff (s : State) : settingsLaw s = true ↔
    (s.config = none → s.link.state = .idle) ∧ ∀ c, s.config = some c → settingsValid s.id c = true := by
  unfold settingsLaw
  cases s.config <;> simp

theorem driveLaw_iff (s : State) : driveLaw s = true ↔
    (s.link.tx = none ∧ s.timer.pulse = none) ∨ s.link.state = .joining ∨ s.link.state = .active := by
  unfold driveLaw State.drivesLine State.drivesSync
  cases s.link.tx <;> cases s.timer.pulse <;> simp

theorem settingsValid_cycleCode {own : Station} {c : Settings} (h : settingsValid own c = true) : 4 ≤ c.cycleCode := by
  simp only [settingsValid, Bool.and_eq_true, decide_eq_true_eq] at h
  exact h.1.1.1.1

/-- Once the link has left IDLE, a cycle has a length. -/
theorem cycleUs_pos {s : State} (h : settingsLaw s = true) (hidle : s.link.state ≠ .idle) : 0 < s.cycleUs := by
  rw [settingsLaw_iff] at h
  obtain ⟨hnone, hvalid⟩ := h
  unfold State.cycleUs State.cfg
  cases hc : s.config with
  | none => exact absurd (hnone hc) hidle
  | some c =>
    have hcode := settingsValid_cycleCode (hvalid c hc)
    exact Nat.mul_pos (Nat.lt_of_lt_of_le (by decide) hcode) (by decide)

/-- Position 0 is in the range of every manner of counting. -/
theorem timerLaw_of_zero {s : State} (hsettings : settingsLaw s = true) (ht : s.timer.t = 0) : timerLaw s = true := by
  unfold timerLaw
  cases hstate : s.link.state with
  | idle | listen => simp [ht]
  | joining | active | duplicate =>
    have hpos := cycleUs_pos hsettings (by rw [hstate]; exact nofun)
    simp only [ht, decide_eq_true_eq]
    omega

/-- The laws of the settings, the timer and the lines. -/
structure ClockLaws (s : State) : Prop where
  settings : settingsLaw s = true
  timer : timerLaw s = true
  drive : driveLaw s = true

/-- These laws read the number, the settings, the timer and the link. -/
theorem ClockLaws.congr {s t : State} (h : ClockLaws s) (hid : t.id = s.id) (hconfig : t.config = s.config)
    (htimer : t.timer = s.timer) (hlink : t.link = s.link) : ClockLaws t := by
  have hcycle : t.cycleUs = s.cycleUs := by unfold State.cycleUs State.cfg; rw [hconfig]
  refine ⟨?_, ?_, ?_⟩
  · unfold settingsLaw
    rw [hconfig, hlink, hid]
    exact h.settings
  · unfold timerLaw
    rw [hlink, htimer, hcycle]
    exact h.timer
  · unfold driveLaw State.drivesLine State.drivesSync
    rw [hlink, htimer]
    exact h.drive

theorem ClockLaws.of_work {s t : State} (hwork : Work s t) (h : ClockLaws s) : ClockLaws t :=
  have hclock := work_clock hwork
  h.congr hclock.station.id hclock.station.config hclock.timer hclock.link

theorem ClockLaws.setTimer {s : State} {x : Timer} (h : ClockLaws s) (ht : x.t = s.timer.t ∨ x.t = 0)
    (hpulse : x.pulse = s.timer.pulse ∨ x.pulse = none ∨ s.link.state = .joining ∨ s.link.state = .active) :
    ClockLaws (s.setTimer x) := by
  refine ⟨h.settings, ?_, ?_⟩
  · obtain ht | ht := ht
    · have hsame : timerLaw (s.setTimer x) = timerLaw s := by
        unfold timerLaw
        rw [State.setTimer_timer, ht]
        rfl
      rw [hsame]
      exact h.timer
    · exact timerLaw_of_zero h.settings ht
  · have hdrive := (driveLaw_iff s).mp h.drive
    rw [driveLaw_iff]
    obtain hpulse | hpulse | hpulse := hpulse
    · exact hdrive.imp_left fun ⟨htx, hp⟩ => ⟨htx, hpulse.trans hp⟩
    · exact hdrive.imp_left fun ⟨htx, _⟩ => ⟨htx, hpulse⟩
    · exact .inr hpulse

theorem ClockLaws.setLink {s : State} {x : Link} (h : ClockLaws s) (hstate : x.state = s.link.state)
    (htx : x.tx = s.link.tx ∨ x.tx = none ∨ s.link.state = .joining ∨ s.link.state = .active) :
    ClockLaws (s.setLink x) := by
  refine ⟨?_, ?_, ?_⟩
  · have hsettings := (settingsLaw_iff s).mp h.settings
    rw [settingsLaw_iff]
    exact ⟨fun hnone => hstate.trans (hsettings.1 hnone), hsettings.2⟩
  · have hsame : timerLaw (s.setLink x) = timerLaw s := by
      unfold timerLaw
      rw [State.setLink_link, hstate]
      rfl
    rw [hsame]
    exact h.timer
  · have hdrive := (driveLaw_iff s).mp h.drive
    rw [driveLaw_iff]
    change (x.tx = none ∧ s.timer.pulse = none) ∨ x.state = .joining ∨ x.state = .active
    rw [hstate]
    obtain htx | htx | htx := htx
    · exact hdrive.imp_left fun ⟨hnone, hp⟩ => ⟨htx.trans hnone, hp⟩
    · exact hdrive.imp_left fun ⟨_, hp⟩ => ⟨htx, hp⟩
    · exact .inr htx

/-- A link out of IDLE is configured. -/
theorem settingsLaw_of_configured {s t : State} (hid : t.id = s.id) (hsame : t.config = s.config)
    (h : settingsLaw s = true) (hconfig : s.config.isSome = true ∨ s.link.state ≠ .idle) : settingsLaw t = true := by
  rw [settingsLaw_iff] at h ⊢
  rw [hid, hsame]
  refine ⟨fun hnone => ?_, h.2⟩
  obtain hc | hc := hconfig
  · rw [hnone] at hc; cases hc
  · exact absurd (h.1 hnone) hc

/-- The link enters LISTEN or JOINING at position 0, and drives nothing yet. -/
theorem ClockLaws.enters {s : State} {x : Link} (h : ClockLaws s)
    (hstate : (s.link.state = .idle ∧ s.config.isSome = true) ∨ s.link.state = .listen) (ht : s.timer.t = 0)
    (htx : x.tx = s.link.tx ∨ x.tx = none) : ClockLaws (s.setLink x) := by
  have hsettings : settingsLaw (s.setLink x) = true := by
    refine settingsLaw_of_configured (s := s) rfl rfl h.settings ?_
    obtain ⟨_, hconfig⟩ | hlisten := hstate
    · exact .inl hconfig
    · exact .inr (by rw [hlisten]; exact nofun)
  refine ⟨hsettings, timerLaw_of_zero hsettings ht, ?_⟩
  have hquiet : s.link.tx = none ∧ s.timer.pulse = none := by
    obtain hquiet | hdrives := (driveLaw_iff s).mp h.drive
    · exact hquiet
    · obtain ⟨hidle, _⟩ | hlisten := hstate
      · rw [hidle] at hdrives; simp at hdrives
      · rw [hlisten] at hdrives; simp at hdrives
  rw [driveLaw_iff]
  refine .inl ⟨?_, hquiet.2⟩
  obtain htx | htx := htx
  · exact htx.trans hquiet.1
  · exact htx

theorem ClockLaws.activates {s : State} (h : ClockLaws s) (hjoining : s.link.state = .joining) :
    ClockLaws (s.setLink { s.link with state := .active }) := by
  refine ⟨settingsLaw_of_configured (s := s) rfl rfl h.settings (.inr (by rw [hjoining]; exact nofun)), ?_, ?_⟩
  · have ht := h.timer
    unfold timerLaw at ht
    rw [hjoining] at ht
    exact ht
  · rw [driveLaw_iff]
    exact .inr (.inr rfl)

theorem ClockLaws.leaves {s t : State} {x : Link} {y : Timer} {p : HostPort} (h : ClockLaws s)
    (hleaves : LinkLeaves s x y p t) : ClockLaws t := by
  have hidle : s.link.state ≠ .idle := by
    obtain hstate | hstate := hleaves.counting <;> rw [hstate] <;> exact nofun
  have hrange : s.timer.t < s.cycleUs := by
    have ht := h.timer
    unfold timerLaw at ht
    obtain hstate | hstate := hleaves.counting <;> rw [hstate] at ht <;> exact of_decide_eq_true ht
  refine ClockLaws.of_work hleaves.work
    ⟨settingsLaw_of_configured (s := s) rfl rfl h.settings (.inr hidle), ?_, ?_⟩
  · have hy : y.t < s.cycleUs := by
      obtain hzero | hzero := hleaves.zero <;> rw [hzero]
      · exact hrange
      · exact cycleUs_pos h.settings hidle
    unfold timerLaw
    change (match x.state with
      | .idle => decide (y.t = 0)
      | .listen => decide (y.t ≤ 3 * s.cycleUs)
      | .joining | .active => decide (y.t < s.cycleUs)
      | .duplicate => decide (y.t < s.cycleUs + 16)) = true
    obtain hstate | hstate := hleaves.state <;> rw [hstate] <;> simp only [decide_eq_true_eq] <;> omega
  · rw [driveLaw_iff]
    exact .inl ⟨hleaves.tx, hleaves.pulse⟩

/-- The count of a tick stays in the range of its manner of counting. -/
theorem timerLaw_tickAll (pins : PinLevels) (lineStart : Bool) {s : State} (h : timerLaw s = true) :
    timerLaw (tickAll pins lineStart s) = true := by
  have hcycle : (tickAll pins lineStart s).cycleUs = s.cycleUs := rfl
  have hstate : (tickAll pins lineStart s).link.state = s.link.state := rfl
  have htick : (tickAll pins lineStart s).timer = tickTimer s pins := rfl
  unfold timerLaw at h ⊢
  rw [hstate, hcycle, htick]
  unfold tickTimer advanceCount sampleSync
  cases hs : s.link.state <;> rw [hs] at h <;> simp only [decide_eq_true_eq] at h ⊢
  · exact h
  all_goals split <;> simp only [reachPosition] <;> omega

theorem advanceCount_pulse (state : LinkState) (cycleUs n : Nat) (x : Timer) :
    (advanceCount state cycleUs n x).pulse = x.pulse := by
  unfold advanceCount
  cases state <;> dsimp only
  all_goals split <;> rfl

theorem ClockLaws.ticked {s : State} (h : ClockLaws s) (pins : PinLevels) (lineStart : Bool) :
    ClockLaws (tickAll pins lineStart s) := by
  refine ⟨h.settings, timerLaw_tickAll pins lineStart h.timer, ?_⟩
  have hpulse : (tickTimer s pins).pulse = countDown s.timer.pulse := advanceCount_pulse ..
  have hdrive := (driveLaw_iff s).mp h.drive
  rw [driveLaw_iff]
  refine hdrive.imp_left fun ⟨htx, hp⟩ => ⟨?_, ?_⟩
  · change s.link.tx.map _ = none
    rw [htx]
    rfl
  · change (tickTimer s pins).pulse = none
    rw [hpulse, hp]
    rfl

theorem ClockLaws.configured {s : State} {c : Settings} (h : ClockLaws s) (hnone : s.config = none)
    (hvalid : settingsValid s.id c = true) : ClockLaws (s.setConfig (some c)) := by
  have hidle := ((settingsLaw_iff s).mp h.settings).1 hnone
  refine ⟨hvalid, ?_, h.drive⟩
  have ht := h.timer
  unfold timerLaw at ht ⊢
  rw [hidle] at ht
  rw [State.setConfig_link, hidle]
  exact ht

theorem ClockLaws.restarted {s : State} (h : ClockLaws s) (hconfig : s.config.isSome = true) :
    ClockLaws (restartAll s) := by
  refine ⟨?_, ?_, rfl⟩
  · exact settingsLaw_of_configured (s := s) rfl rfl h.settings (.inl hconfig)
  · exact timerLaw_of_zero (settingsLaw_of_configured (s := s) rfl rfl h.settings (.inl hconfig)) rfl

theorem ClockLaws.of_reset (k : Station) (s : State) : ClockLaws { State.reset with
    id := k, pins := s.pins, port := { HostPort.reset with csnHigh := s.port.csnHigh }, pending := s.pending } :=
  ⟨rfl, rfl, rfl⟩

theorem Change.keeps_clockLaws {cmd : Instr} {s t : State} (h : Change cmd s t) (hs : ClockLaws s) : ClockLaws t := by
  cases h with
  | work _ h => exact hs.of_work (.single h)
  | timer x ht hpulse => exact hs.setTimer ht hpulse
  | link x hstate htx => exact hs.setLink hstate htx
  | enters x hstate ht hx htx => exact hs.enters (hstate.imp_left fun ⟨hidle, hconfig, _⟩ => ⟨hidle, hconfig⟩) ht htx
  | activates h => exact hs.activates h
  | leaves x y p t h => exact hs.leaves h
  | ticked pins lineStart => exact hs.ticked pins lineStart
  | configured c hnone hvalid => exact hs.configured hnone hvalid
  | restarted hconfig => exact hs.restarted hconfig
  | reset k => exact ClockLaws.of_reset k s
  | port | leavesDisabled | recordRemoved | noteRemoved | changesRemoved | cleared | appended | flushed |
    placed | slotReleased => exact hs.congr rfl rfl rfl rfl

/-! ## Refusal and DIR setup -/

theorem Change.keeps_refusalLaw {cmd : Instr} {s t : State} (h : Change cmd s t) (hs : refusalLaw s = true) : refusalLaw t = true := by
  cases h with
  | work _ h => exact h.keeps_refusalLaw hs
  | leaves x y p t h => exact rows_keep (fun _ _ h => h.keeps_refusalLaw) h.work hs
  | restarted => rfl
  | reset => rfl
  | timer | link | enters | activates | port | leavesDisabled | ticked | recordRemoved | noteRemoved |
    changesRemoved | configured | cleared | appended | flushed | placed | slotReleased => exact hs

theorem Change.keeps_setupLaw {cmd : Instr} {s t : State} (h : Change cmd s t) (hs : setupLaw s = true) : setupLaw t = true := by
  cases h with
  | work _ h => exact h.keeps_setupLaw hs
  | leaves x y p t h => exact rows_keep (fun _ _ h => h.keeps_setupLaw) h.work hs
  | ticked pins lineStart =>
    rw [setupLaw_iff] at hs ⊢
    intro n hn
    change countDown s.gen.dirSetup = some n at hn
    cases hsetup : s.gen.dirSetup with
    | none => rw [hsetup] at hn; cases hn
    | some m =>
      rw [hsetup] at hn
      cases hn
      obtain ⟨hpos, hle⟩ := hs m hsetup
      exact ⟨hpos, (Nat.sub_le m 1).trans hle⟩
  | configured c hnone hvalid =>
    have hsetup : s.gen.dirSetup = none := by
      cases h : s.gen.dirSetup with
      | none => rfl
      | some n =>
        have hpos := ((setupLaw_iff s).mp hs n h).1
        simp [State.cfg, hnone, Settings.unconfigured] at hpos
    rw [setupLaw_iff]
    intro n hn
    rw [State.setConfig_gen, hsetup] at hn
    cases hn
  | restarted => rfl
  | reset => rfl
  | timer | link | enters | activates | port | leavesDisabled | recordRemoved | noteRemoved |
    changesRemoved | cleared | appended | flushed | placed | slotReleased => exact hs

end Sys2Proof.Machine

namespace Sys2Proof.Claims

open Sys2Proof.Machine

/-- Settles O55: each change keeps both axis laws together. -/
theorem stepKeepsAxisLaws : Obligations.StepKeepsAxisLaws := fun _ _ haxis hlink hstep =>
  step_keeps (P := fun s => axisLaw s = true ∧ linkAxisLaw s = true)
    (fun _ _ _ h hs => ⟨h.keeps_axisLaw hs.1, h.keeps_linkAxisLaw hs.1 hs.2⟩) (fun _ _ => id) ⟨haxis, hlink⟩ hstep

/-- Settles O60: the settings, the timer and the lines are kept together, the refusal and the setup timer on their own. -/
theorem stepKeepsTimerAndDriveLaws : Obligations.StepKeepsTimerAndDriveLaws := by
  intro s t hsettings htimer hdrive hrefusal hsetup hstep
  obtain ⟨hsettings', htimer', hdrive'⟩ := step_keeps (P := ClockLaws) (fun _ _ _ h => h.keeps_clockLaws)
    (fun _ _ hs => hs.congr rfl rfl rfl rfl) ⟨hsettings, htimer, hdrive⟩ hstep
  exact ⟨hsettings', htimer', hdrive',
    step_keeps (P := fun s => refusalLaw s = true) (fun _ _ _ h => h.keeps_refusalLaw) (fun _ _ => id) hrefusal hstep,
    step_keeps (P := fun s => setupLaw s = true) (fun _ _ _ h => h.keeps_setupLaw) (fun _ _ => id) hsetup hstep⟩

end Sys2Proof.Claims
end

