-- ==== Sys2Proof/Proofs/Commands.lean ====
section
/-! PROOFS. The front of the queue and the reference period (O1, O2), device reset (O4, O54), what changes the station number,
the settings and the link state (O3), how HALTED is left (O38), and the events of the timer and of the line (O9, O10). -/

namespace Sys2Proof.Machine

/-! ## The station number, the settings and the waiting commands -/

/-- A command keeps the waiting ones, and, but for device reset and the one CONFIGURE, the number and the settings. -/
def KeepsStation (cmd : Instr) (s t : State) : Prop :=
  t.pending = s.pending ∧
    ((∃ k, cmd = .deviceReset k ∧ t.config = none) ∨
      t.id = s.id ∧ (t.config = s.config ∨
        s.config = none ∧ ∃ ps c, cmd = .configure ps ∧ t.config = some c ∧ settingsValid s.id c = true))

theorem KeepsStation.refl (cmd : Instr) (s : State) : KeepsStation cmd s s := ⟨rfl, .inr ⟨rfl, .inl rfl⟩⟩

theorem KeepsStation.of_clock {cmd : Instr} {s t : State} (h : SameClock s t) : KeepsStation cmd s t :=
  ⟨h.station.pending, .inr ⟨h.station.id, .inl h.station.config⟩⟩

theorem KeepsStation.trans {cmd : Instr} {s t u : State} (h : KeepsStation cmd s t) (k : KeepsStation cmd t u) :
    KeepsStation cmd s u := by
  obtain ⟨hpending, hst⟩ := h
  obtain ⟨kpending, ktu⟩ := k
  refine ⟨kpending.trans hpending, ?_⟩
  obtain hreset | ⟨kid, kconfig⟩ := ktu
  · exact .inl hreset
  · obtain ⟨j, hcmd, hnone⟩ | ⟨hid, hconfig⟩ := hst
    · obtain kconfig | ⟨_, ps, c, kcmd, _⟩ := kconfig
      · exact .inl ⟨j, hcmd, kconfig.trans hnone⟩
      · rw [hcmd] at kcmd; cases kcmd
    · refine .inr ⟨kid.trans hid, ?_⟩
      obtain kconfig | ⟨knone, ps, c, kcmd, ksome, kvalid⟩ := kconfig
      · rw [kconfig]
        exact hconfig
      · obtain hconfig | ⟨_, _, _, _, hsome, _⟩ := hconfig
        · exact .inr ⟨hconfig ▸ knone, ps, c, kcmd, ksome, hid ▸ kvalid⟩
        · rw [hsome] at knone; cases knone

theorem Change.keepsStation {cmd : Instr} {s t : State} (h : Change cmd s t) : KeepsStation cmd s t := by
  cases h with
  | work _ h => exact .of_clock h.clock
  | leaves x y p t h =>
    have hstation := (work_clock h.work).station
    exact ⟨hstation.pending, .inr ⟨hstation.id, .inl hstation.config⟩⟩
  | configured c hnone hvalid hcmd =>
    obtain ⟨ps, hcmd⟩ := hcmd
    exact ⟨rfl, .inr ⟨rfl, .inr ⟨hnone, ps, c, hcmd, rfl, hvalid⟩⟩⟩
  | reset k hcmd => exact ⟨rfl, .inl ⟨k, hcmd, rfl⟩⟩
  | timer | link | enters | activates | port | leavesDisabled | ticked | recordRemoved | noteRemoved | changesRemoved |
    restarted | cleared | appended | flushed | placed | slotReleased => exact KeepsStation.refl cmd s

theorem exec_keepsStation {cmd : Instr} {s t : State} (h : exec cmd s = .next t) : KeepsStation cmd s t :=
  rows_relate (KeepsStation.refl cmd) KeepsStation.trans Change.keepsStation (exec_changes h)

/-! ## The link state -/

/-- IDLE, once left, comes back by device reset alone. -/
theorem Change.keeps_linkStarted {cmd : Instr} {s t : State} (h : Change cmd s t) (hcmd : ∀ k, cmd ≠ .deviceReset k)
    (hs : s.link.state ≠ .idle) : t.link.state ≠ .idle := by
  cases h with
  | work _ h => rw [h.clock.link]; exact hs
  | link x hstate => exact fun hx => hs (hstate.symm.trans hx)
  | enters x hstate ht hx =>
    change x.state ≠ .idle
    obtain hx | hx := hx <;> rw [hx] <;> exact nofun
  | activates => exact nofun
  | leaves x y p t h =>
    rw [(work_clock h.work).link]
    change x.state ≠ .idle
    obtain hx | hx := h.state <;> rw [hx] <;> exact nofun
  | restarted => exact nofun
  | reset k h => exact absurd h (hcmd k)
  | timer | port | leavesDisabled | ticked | recordRemoved | noteRemoved | changesRemoved | configured | cleared |
    appended | flushed | placed | slotReleased => exact hs

/-- IDLE is left by START and RESTART alone. -/
theorem Change.keeps_linkIdle {cmd : Instr} {s t : State} (h : Change cmd s t) (hstart : cmd ≠ .start)
    (hrestart : cmd ≠ .restart) (hs : s.link.state = .idle) : t.link.state = .idle := by
  cases h with
  | work _ h => rw [h.clock.link]; exact hs
  | link x hstate => exact hstate.trans hs
  | enters x hstate =>
    obtain ⟨_, _, hcmd⟩ | hlisten := hstate
    · exact absurd hcmd hstart
    · rw [hs] at hlisten; cases hlisten
  | activates h => rw [hs] at h; cases h
  | leaves x y p t h => obtain h | h := h.counting <;> rw [hs] at h <;> cases h
  | restarted hconfig hcmd => exact absurd hcmd hrestart
  | reset => rfl
  | timer | port | leavesDisabled | ticked | recordRemoved | noteRemoved | changesRemoved | configured | cleared |
    appended | flushed | placed | slotReleased => exact hs

/-! ## HALTED -/

/-- HALTED is left by CLEAR HALT, RESTART and device reset alone. -/
theorem Change.keeps_halted {cmd : Instr} {s t : State} (h : Change cmd s t) (hclear : cmd ≠ .clearHalt)
    (hrestart : cmd ≠ .restart) (hreset : ∀ k, cmd ≠ .deviceReset k) (hs : axisLaw s = true ∧ s.seq.axis = .halted) :
    axisLaw t = true ∧ t.seq.axis = .halted := by
  refine ⟨h.keeps_axisLaw hs.1, ?_⟩
  cases h with
  | work _ h => exact (work_keeps_halted (.single h) hs.1 hs.2).2
  | leaves x y p t h => exact (work_keeps_halted h.work hs.1 hs.2).2
  | leavesDisabled h => rw [hs.2] at h; cases h
  | cleared h hactive hcmd => exact absurd hcmd hclear
  | restarted hconfig hcmd => exact absurd hcmd hrestart
  | reset k hcmd => exact absurd hcmd (hreset k)
  | timer | link | enters | activates | port | ticked | recordRemoved | noteRemoved | changesRemoved | configured |
    appended | flushed | placed | slotReleased => exact hs.2

/-! ## Edges -/

theorem edgeDue_of_not_accepted {s : State} (hedge : s.timer.raised.edge = true) (h : s.edgeAccepted = false) :
    edgeDue s = true := by
  simp [edgeDue, hedge, h]

theorem edgeAccepted_of_not_counting {s : State} (h : s.link.state = .idle ∨ s.link.state = .listen) :
    s.edgeAccepted = false := by
  obtain h | h := h <;> simp [State.edgeAccepted, State.counting, h]

theorem edgeAccepted_of_early {s : State} (h : s.edgePosition + 16 < s.cycleUs) : s.edgeAccepted = false := by
  simp [State.edgeAccepted, h]

/-- An edge that does not end the cycle is taken by the link state. -/
theorem exec_edge_of_not_accepted (o : EventOrder) {s : State} (hedge : s.timer.raised.edge = true)
    (h : s.edgeAccepted = false) : exec (.syncFallingEdge o) s = .next (takeEdge o s) := by
  show Host.Outcome.next (if edgeDue s then takeEdge o s else s) = _
  rw [if_pos (edgeDue_of_not_accepted hedge h)]

theorem takeEdge_early (o : EventOrder) {s : State}
    (hstate : s.link.state = .joining ∨ s.link.state = .active ∨ s.link.state = .duplicate)
    (h : s.edgeAccepted = false) : takeEdge o s = earlyEdge s := by
  unfold takeEdge
  obtain hstate | hstate | hstate := hstate <;> simp [hstate, h]

theorem takeEdge_idle (o : EventOrder) {s : State} (hstate : s.link.state = .idle) : takeEdge o s = idleEdge s := by
  simp [takeEdge, hstate]

theorem takeEdge_listen (o : EventOrder) {s : State} (hstate : s.link.state = .listen) : takeEdge o s = listenEdge s := by
  simp [takeEdge, hstate]

/-- An edge of LISTEN confirms under the four conditions of R122, and only then. -/
theorem confirmation_eq_some_iff {s : State} {c : CycleOffer} : confirmation s = some c ↔
    s.link.prevEdge = true ∧ s.timer.founding = .none ∧ s.cycleUs ≤ s.timer.t + 16 ∧ s.timer.t ≤ s.cycleUs + 16 ∧
      s.link.candidate = some c := by
  unfold confirmation
  split
  · rename_i h
    obtain ⟨hprev, hfounding, hlow, hhigh⟩ := h
    simp [hprev, hfounding, hlow, hhigh]
  · rename_i h
    exact iff_of_false nofun fun ⟨hprev, hfounding, hlow, hhigh, _⟩ => h ⟨hprev, hfounding, hlow, hhigh⟩

theorem listenEdge_of_confirmation {s : State} {c : CycleOffer} (h : confirmation s = some c) :
    listenEdge s = confirm c s := by
  simp [listenEdge, h]

theorem listenEdge_of_no_confirmation {s : State} (h : ∀ c, confirmation s ≠ some c) : listenEdge s = observeEdge s := by
  unfold listenEdge
  split
  · rename_i c hc
    exact absurd hc (h c)
  · rfl

end Sys2Proof.Machine

namespace Sys2Proof.Claims

open Sys2Proof.Machine

/-- Settles O1: `step` takes the front command off the queue and runs it. -/
theorem stepRunsFrontCommand : Obligations.StepRunsFrontCommand := by
  intro c rest s h
  unfold step
  rw [h]
  rfl

theorem step_of_empty {s : State} (h : s.pending = []) : step s = referencePeriod s := by
  unfold step
  rw [h]

/-- Settles O2, by the divider, and by the test of the tick for a due event. -/
theorem emptyQueueCountsReferencePeriods : Obligations.EmptyQueueCountsReferencePeriods := by
  refine ⟨fun s hempty hlow => ?_, fun s hempty hhigh => ?_, fun pins lineStart s hdue => ?_⟩
  · rw [step_of_empty hempty, referencePeriod, if_pos hlow]
    rfl
  · rw [step_of_empty hempty, referencePeriod, if_neg (Nat.not_lt.mpr hhigh)]
    rfl
  · show Host.Outcome.next (if anyDue s then s else tickAll pins lineStart s) = _
    rw [if_pos hdue]

/-- Settles O3: every change of a command keeps the number, the settings and the queue, but for the two that name them. -/
theorem configurationIsFrozen : Obligations.ConfigurationIsFrozen := by
  intro c s t hexec
  obtain ⟨hpending, hstation⟩ := exec_keepsStation hexec
  refine ⟨hpending, fun hreset => ?_, fun hnone hsome => ?_⟩
  · obtain ⟨k, hc, _⟩ | ⟨hid, hconfig⟩ := hstation
    · exact absurd hc (hreset k)
    · refine ⟨hid, fun hconfigured => ?_⟩
      obtain hsame | ⟨hnone, _⟩ := hconfig
      · exact hsame
      · rw [hnone] at hconfigured; cases hconfigured
  · obtain ⟨k, _, hreset⟩ | ⟨_, hsame | ⟨_, ps, x, hc, hx, hvalid⟩⟩ := hstation
    · exact absurd hreset hsome
    · exact absurd (hsame.trans hnone) hsome
    · exact ⟨ps, x, hc, hx, hvalid⟩

theorem flags_reset (k : Station) (p : PinLevels) (csnHigh : Bool) (pending : List Instr) :
    ({ State.reset with
      id := k, pins := p, port := { HostPort.reset with csnHigh := csnHigh }, pending := pending } : State).flags = 0 :=
  Eq.trans (b := State.reset.flags) rfl (by decide +kernel)

theorem intnHigh_reset (k : Station) (p : PinLevels) (csnHigh : Bool) (pending : List Instr) :
    ({ State.reset with
      id := k, pins := p, port := { HostPort.reset with csnHigh := csnHigh }
      pending := pending } : State).intnHigh = true :=
  Eq.trans (b := State.reset.intnHigh) rfl (by decide +kernel)

/-- Settles O4: the values stand in the reset state of each block. -/
theorem deviceResetGivesResetValues : Obligations.DeviceResetGivesResetValues := by
  intro k s
  have hentry (m : Station) : (Vector.replicate 16 PeerEntry.blank).get m = PeerEntry.blank := by
    simp [Vector.get_eq_getElem]
  have hslot (i : Fin 4) : (Vector.replicate 4 NoteSlot.free).get i = NoteSlot.free := by
    simp [Vector.get_eq_getElem]
  have hfilter (i : AxisInput) : (StepGen.reset.filter i).primed = false := by cases i <;> rfl
  exact ⟨_, rfl, rfl, rfl, rfl, rfl, ⟨rfl, rfl, rfl, rfl, rfl, rfl, rfl, rfl⟩,
    ⟨rfl, rfl, rfl, rfl, rfl, rfl, rfl, rfl, rfl, rfl, rfl⟩, ⟨hentry, rfl⟩, ⟨rfl, rfl, rfl, rfl, rfl, rfl⟩,
    ⟨rfl, rfl, rfl, rfl, rfl, rfl, rfl, rfl, rfl, hfilter⟩, ⟨rfl, rfl, rfl⟩, ⟨rfl, rfl, rfl, rfl, rfl⟩, rfl,
    ⟨hslot, rfl, rfl, rfl⟩, ⟨rfl, rfl, rfl, flags_reset _ _ _ _, intnHigh_reset _ _ _ _⟩⟩

/-- Settles O54, by evaluating the laws on the one reset state. -/
theorem resetStateIsSafe : Obligations.ResetStateIsSafe := by
  show Safe State.reset = true
  decide +kernel

/-- Settles O38: but for the three commands, every change keeps HALTED, in which nothing executes. -/
theorem haltedIsLeftOnlyByRequest : Obligations.HaltedIsLeftOnlyByRequest := by
  intro c s t hexec hlaw hhalted hleft
  by_contra hnone
  simp only [not_or, not_exists] at hnone
  obtain ⟨hclear, hrestart, hreset⟩ := hnone
  exact hleft (exec_keeps (P := fun s => axisLaw s = true ∧ s.seq.axis = .halted)
    (fun _ _ h => h.keeps_halted hclear hrestart hreset) ⟨hlaw, hhalted⟩ hexec).2

/-- Settles O9, by the link state at the edge; in LISTEN by the conditions of a confirmation. -/
theorem otherEdgesActByLinkState : Obligations.OtherEdgesActByLinkState := by
  refine ⟨fun o s hedge hstate hearly => ?_, fun o s hedge hstate => ?_,
    fun o s c hedge hstate hprev hfounding hlow hhigh hcandidate => ?_, fun o s hedge hstate hnot => ?_⟩
  · have hno := edgeAccepted_of_early hearly
    rw [exec_edge_of_not_accepted o hedge hno, takeEdge_early o hstate hno]
    rfl
  · rw [exec_edge_of_not_accepted o hedge (edgeAccepted_of_not_counting (.inl hstate)), takeEdge_idle o hstate]
    rfl
  · rw [exec_edge_of_not_accepted o hedge (edgeAccepted_of_not_counting (.inr hstate)), takeEdge_listen o hstate,
      listenEdge_of_confirmation (confirmation_eq_some_iff.mpr ⟨hprev, hfounding, hlow, hhigh, hcandidate⟩)]
    rfl
  · rw [exec_edge_of_not_accepted o hedge (edgeAccepted_of_not_counting (.inr hstate)), takeEdge_listen o hstate,
      listenEdge_of_no_confirmation fun c hc => ?_]
    · rfl
    · obtain ⟨hprev, hfounding, hlow, hhigh, hcandidate⟩ := confirmation_eq_some_iff.mp hc
      obtain h | h | h | h | h := hnot
      · rw [h] at hprev; cases hprev
      · exact h hfounding
      · omega
      · omega
      · rw [h] at hcandidate; cases hcandidate

/-- Settles O10: the condition of each event holds, and its meaning writes the fields named. -/
theorem timerAndLineEvents : Obligations.TimerAndLineEvents := by
  refine ⟨fun s harmed hrun => ?_, fun s hpulse => ?_, fun s hsilence hlisten => ?_, fun s hfounding hlisten => ?_,
    fun bit s f htx hsent hbit => ?_, fun bit s f htx hsent => ?_, fun s f htx hend => ?_, fun s => rfl⟩
  · exact congrArg Host.Outcome.next (if_pos (by simp [edgeDetectorArmedDue, harmed, hrun]))
  · exact congrArg Host.Outcome.next (if_pos (decide_eq_true hpulse))
  · exact congrArg Host.Outcome.next (if_pos (by simp [silenceDue, hsilence, hlisten]))
  · exact congrArg Host.Outcome.next (if_pos (decide_eq_true ⟨hfounding, hlisten⟩))
  · exact congrArg Host.Outcome.next (if_pos (by simp [collisionAt, htx, hsent, hbit]))
  · exact congrArg Host.Outcome.next (if_neg (by simp [collisionAt, htx, hsent]))
  · exact congrArg Host.Outcome.next (if_pos (by simp [ownFrameEndDue, htx, hend]))

end Sys2Proof.Claims
end

