-- ==== Sys2Proof/Proofs/Halts.lean ====
section
/-! PROOFS. What a halt leaves: the records it writes, in the order the segments started, and every field it changes; with
them HALT (O39) and CLEAR HALT (O40). -/

namespace Sys2Proof.Machine

/-! ## The records of a halt -/

/-- The records with which the outstanding segments complete at a halt, the first finishing one with this code. -/
def completedRecords (s : State) : Code → List Outstanding → List Record
  | _, [] => []
  | code, .finishing f :: rest => s.finishingRecord f code :: completedRecords s .halted rest
  | code, .heldBack r :: rest => r :: completedRecords s code rest

/-- The record with which the executing segment completes at a halt. -/
def executingRecords (s : State) (c : Cause) : List Record :=
  match s.seq.exec with
  | none => []
  | some e => [s.execRecord e (c.codeFor .executing) .none]

/-- The records that a halt of this cause writes. -/
def haltRecords (c : Cause) (s : State) : List Record :=
  completedRecords s (c.codeFor .firstFinishing) s.seq.outstanding ++ executingRecords s c

theorem completeFinishing_eq_map (s : State) (code : Code) (l : List Outstanding) :
    completeFinishing s code l = (completedRecords s code l).map .heldBack := by
  induction l generalizing code with
  | nil => rfl
  | cons o l ih => cases o <;> simp [completeFinishing, completedRecords, ih]

theorem completeExecuting_eq_map (s : State) (c : Cause) :
    completeExecuting s c = (executingRecords s c).map .heldBack := by
  unfold completeExecuting executingRecords
  cases s.seq.exec <;> rfl

theorem drain_heldBack (l : List Record) : drain (l.map .heldBack) = (l, []) := by
  induction l with
  | nil => rfl
  | cons r l ih => simp [drain, ih]

/-- The halt as one update of every field that it changes (R99). -/
theorem haltTaken_eq (c : Cause) (s : State) : haltTaken c s = { s with
    seq := { s.seq with axis := .halted, queue := [], exec := none, outstanding := [] }
    gen := { s.gen with dirSetup := none, refused := false }
    barrier := { s.barrier with ctx := none }
    haltCtl := { s.haltCtl with report := some (haltReportOf c s), latch := s.haltCtl.latch || c.kind.setsLatch }
    held := s.held ++ haltRecords c s
    port := { s.port with haltFlag := true } } := by
  have hall : completeFinishing s (c.codeFor .firstFinishing) s.seq.outstanding ++ completeExecuting s c =
      (haltRecords c s).map .heldBack := by
    rw [completeFinishing_eq_map, completeExecuting_eq_map, haltRecords, List.map_append]
  unfold haltTaken
  rw [hall]
  unfold joinRecords
  simp only [State.setSeq, State.setGen, State.setBarrier, State.setHaltCtl, State.setPort, State.setHeld, drain_heldBack]

@[simp] theorem haltTaken_held (c : Cause) (s : State) : (haltTaken c s).held = s.held ++ haltRecords c s := by
  rw [haltTaken_eq]

theorem completedRecords_length (s : State) (code : Code) (l : List Outstanding) :
    (completedRecords s code l).length = l.length := by
  induction l generalizing code with
  | nil => rfl
  | cons o l ih => cases o <;> simp [completedRecords, ih]

theorem haltRecords_length (c : Cause) (s : State) : (haltRecords c s).length = s.seq.reserved := by
  unfold haltRecords executingRecords Sequencer.reserved
  rw [List.length_append, completedRecords_length]
  cases s.seq.exec <;> rfl

/-- A finishing segment completes in its place, and with HALTED when the halt is not its fault. -/
theorem completedRecords_finishing (s : State) {l : List Outstanding} {i : Nat} {f : Finishing}
    (h : l[i]? = some (.finishing f)) : (completedRecords s .halted l)[i]? = some (s.finishingRecord f .halted) := by
  induction l generalizing i with
  | nil => simp at h
  | cons o l ih =>
    cases i with
    | zero =>
      rw [List.getElem?_cons_zero, Option.some.injEq] at h
      subst h
      rfl
    | succ i =>
      rw [List.getElem?_cons_succ] at h
      cases o <;> exact ih h

/-- A record held back stays in its place. -/
theorem completedRecords_heldBack (s : State) (code : Code) {l : List Outstanding} {i : Nat} {r : Record}
    (h : l[i]? = some (.heldBack r)) : (completedRecords s code l)[i]? = some r := by
  induction l generalizing i code with
  | nil => simp at h
  | cons o l ih =>
    cases i with
    | zero =>
      rw [List.getElem?_cons_zero, Option.some.injEq] at h
      subst h
      rfl
    | succ i =>
      rw [List.getElem?_cons_succ] at h
      cases o <;> exact ih _ h

/-- The records of the outstanding segments come first. -/
theorem haltRecords_outstanding {c : Cause} {s : State} {i : Nat} {r : Record}
    (h : (completedRecords s (c.codeFor .firstFinishing) s.seq.outstanding)[i]? = some r) :
    (haltRecords c s)[i]? = some r := by
  rw [haltRecords, List.getElem?_append_left, h]
  exact (List.getElem?_eq_some_iff.mp h).1

/-- The record of the executing segment follows them. -/
theorem haltRecords_executing {c : Cause} {s : State} {e : Executing} (he : s.seq.exec = some e) :
    (haltRecords c s)[s.seq.outstanding.length]? = some (s.execRecord e (c.codeFor .executing) .none) := by
  rw [haltRecords, List.getElem?_append_right (by rw [completedRecords_length]), completedRecords_length, Nat.sub_self,
    executingRecords, he]
  rfl

theorem haltRecords_getLast {c : Cause} {s : State} {e : Executing} (he : s.seq.exec = some e) :
    (haltRecords c s).getLast? = some (s.execRecord e (c.codeFor .executing) .none) := by
  simp [haltRecords, executingRecords, he]

/-- A cause in HALTED or DISABLED. -/
theorem takeCause_hostHalt_stopped {s : State} (h : s.seq.axis.live = false) :
    takeCause (.plain .hostHalt) s = setLatch s := by
  unfold takeCause
  cases ha : s.seq.axis <;> simp_all [AxisState.live, Cause.plain, HaltCause.setsLatch]

/-! ## Requests without parameters -/

/-- A request without parameters is taken in REQUEST. -/
theorem clockPlain_of_request {s : State} (h : s.port.phase = .request) (code : Byte) (take : State → State) :
    clockPlain code take s = take (holdParams code [] s) := by
  unfold clockPlain
  rw [h]

/-- In every other state of the port it changes nothing. -/
theorem clockPlain_of_not_request {s : State} (h : s.port.phase ≠ .request) (code : Byte) (take : State → State) :
    clockPlain code take s = s := by
  obtain ⟨hrequest, _⟩ | ⟨_, hsame⟩ := clockPlain_cases code take s
  · exact absurd hrequest h
  · exact hsame

/-- A station of the stop group, on the link, showed ORIGIN (R105). -/
theorem groupOrigin_iff (s : State) : groupOrigin s = true ↔
    ∃ k, inMask s.cfg.stopGroup k = true ∧ (s.entry k).view.origin = true ∧
      ((s.entry k).presence = .present ∨ (s.entry k).presence = .stale) := by
  have honLink (p : Presence) : onLink p = true ↔ p = .present ∨ p = .stale := by cases p <;> simp [onLink]
  unfold groupOrigin
  rw [List.any_eq_true]
  simp only [Bool.and_eq_true, honLink]
  constructor
  · rintro ⟨k, _, ⟨hgroup, hpresence⟩, horigin⟩
    exact ⟨k, hgroup, horigin, hpresence⟩
  · rintro ⟨k, hgroup, horigin, hpresence⟩
    exact ⟨k, mem_stations k, ⟨hgroup, hpresence⟩, horigin⟩

end Sys2Proof.Machine

namespace Sys2Proof.Claims

open Sys2Proof.Machine

theorem haltable_iff (a : AxisState) : Haltable a ↔ a.live = true := by
  cases a <;> simp [Haltable, AxisState.live]

/-- HALT in REQUEST is taken at once. -/
theorem exec_halt {s : State} (h : s.port.phase = .request) :
    exec .halt s = .next (takeHalt (holdParams 0x12 [] s)) :=
  congrArg Host.Outcome.next (clockPlain_of_request h _ _)

/-- Settles O39, by the configuration and by whether the axis can halt; the halt itself is `haltTaken_eq`. -/
theorem haltEndsAllWork : Obligations.HaltEndsAllWork := by
  refine ⟨fun s hrequest hnone => ?_, fun s hrequest hconfig hstopped => ?_, fun s hrequest hconfig hlive => ?_⟩
  · have htake : takeHalt (holdParams 0x12 [] s) = refuse .notConfigured 0 (holdParams 0x12 [] s) :=
      if_pos (Option.isNone_iff_eq_none.mpr hnone)
    rw [exec_halt hrequest, htake, refuse_holdParams]
    rfl
  all_goals
    have htake : takeHalt (holdParams 0x12 [] s) =
        respond .accepted [] 0 (takeCause (.plain .hostHalt) (holdParams 0x12 [] s)) :=
      if_neg (by rw [Option.isSome_iff_ne_none] at hconfig; exact fun h => hconfig (Option.isNone_iff_eq_none.mp h))
  · rw [haltable_iff, Bool.not_eq_true] at hstopped
    rw [exec_halt hrequest, htake, takeCause_hostHalt_stopped (s := holdParams 0x12 [] s) hstopped,
      respond_port_of_holdParams (s := s) (t := setLatch (holdParams 0x12 [] s)) rfl]
    rfl
  · rw [haltable_iff] at hlive
    rw [exec_halt hrequest, htake, takeCause_of_live (s := holdParams 0x12 [] s) hlive, haltTaken_eq]
    refine ⟨_, haltRecords (.plain .hostHalt) (holdParams 0x12 [] s), rfl, ?_, haltRecords_length _ _,
      fun i f hi => haltRecords_outstanding (completedRecords_finishing _ hi),
      fun i r hi => haltRecords_outstanding (completedRecords_heldBack _ _ hi), fun e he => haltRecords_executing he⟩
    have hlatch : (s.haltCtl.latch || HaltCause.hostHalt.setsLatch) = true := Bool.or_true _
    simp only [respond, giveAnswer, State.setPort, holdParams, taken, haltReportOf, Cause.plain, hlatch, queueRange]
    rfl

theorem exec_clearHalt {s : State} (h : s.port.phase = .request) :
    exec .clearHalt s = .next (takeClearHalt (holdParams 0x13 [] s)) :=
  congrArg Host.Outcome.next (clockPlain_of_request h _ _)

/-- CLEAR HALT that a condition of R105 refuses. -/
theorem exec_clearHalt_refused {s : State} {a : Answer} (hrequest : s.port.phase = .request)
    (h : clearHaltRefusal s = some a) :
    exec .clearHalt s = .next { s with port := taken 0x13 [] (answerBytes a [] 0) none s.port } := by
  have hheld : clearHaltRefusal (holdParams 0x13 [] s) = some a := h
  rw [exec_clearHalt hrequest, takeClearHalt, hheld]
  exact congrArg Host.Outcome.next (refuse_holdParams 0x13 [] s a 0)

/-- Settles O40: the conditions of R105 in their order, and none of them. -/
theorem clearHaltAnswers : Obligations.ClearHaltAnswers := by
  intro s hrequest
  refine ⟨fun haxis => exec_clearHalt_refused (a := .notHalted) hrequest (if_pos haxis), fun haxis hlink => ?_,
    fun haxis hlink hstop => ?_, fun haxis hlink hstop => ⟨fun horigin => ?_, fun hnone => ?_⟩⟩
  · exact exec_clearHalt_refused (a := .linkNotActive) hrequest (by simp [clearHaltRefusal, haxis, hlink])
  · exact exec_clearHalt_refused (a := .stopActive) hrequest
      (by simp [clearHaltRefusal, haxis, hlink, State.stopActive, hstop])
  · have hgroup := (groupOrigin_iff s).mpr horigin
    exact exec_clearHalt_refused (a := .groupOrigin) hrequest
      (by simp [clearHaltRefusal, haxis, hlink, State.stopActive, hstop, hgroup])
  · have hgroup : groupOrigin s = false := by
      rw [← Bool.not_eq_true, groupOrigin_iff]
      exact fun ⟨k, hmember, horigin, hpresence⟩ => hnone k hmember horigin hpresence
    have hheld : clearHaltRefusal (holdParams 0x13 [] s) = none :=
      clearHaltRefusal_eq_none (s := s).mpr ⟨haxis, hlink, by simp [State.stopActive, hstop], hgroup⟩
    rw [exec_clearHalt hrequest, takeClearHalt, hheld]
    exact congrArg Host.Outcome.next
      (respond_port_of_holdParams (s := s) (t := haltCleared (holdParams 0x13 [] s)) rfl .accepted [] 0)

end Sys2Proof.Claims
end

