-- ==== Sys2Proof/Proofs/Layouts.lean ====
section
/-! PROOFS. Fields of a byte block read back as they were written, masks built from a condition, and the checks of CONFIGURE and
of the segment record in the terms of the block (R19, R172, 12.3). -/

namespace Sys2Proof.Machine

/-! ## Fields -/

theorem join_bytes16 (w : BitVec 16) : w.extractLsb' 8 8 ++ w.extractLsb' 0 8 = w := by
  apply BitVec.eq_of_getLsbD_eq
  intro i hi
  rw [BitVec.getLsbD_append]
  split
  · simp [*]
  · rename_i h
    simp only [BitVec.getLsbD_extractLsb']
    rw [decide_eq_true (by omega : i - 8 < 8), Bool.true_and, show 8 + (i - 8) = i by omega]

theorem join_bytes32 (w : BitVec 32) :
    (w.extractLsb' 24 8 ++ w.extractLsb' 16 8) ++ (w.extractLsb' 8 8 ++ w.extractLsb' 0 8) = w := by
  apply BitVec.eq_of_getLsbD_eq
  intro i hi
  simp only [BitVec.getLsbD_append, BitVec.getLsbD_extractLsb']
  split
  · split
    · simp [*]
    · rw [decide_eq_true (by omega : i - 8 < 8), Bool.true_and, show 8 + (i - 8) = i by omega]
  · split
    · rw [decide_eq_true (by omega : i - 16 < 8), Bool.true_and, show 16 + (i - 16) = i by omega]
    · rw [decide_eq_true (by omega : i - 16 - 8 < 8), Bool.true_and, show 24 + (i - 16 - 8) = i by omega]

/-- Three bytes hold a number modulo 2^24. -/
theorem join_bytes24 (n : Nat) :
    (BitVec.ofNat 8 (n / 65536) ++ BitVec.ofNat 8 (n / 256)) ++ BitVec.ofNat 8 n = BitVec.ofNat 24 n := by
  have hhigh (i : Nat) : (n / 65536).testBit i = n.testBit (16 + i) := by
    rw [show 65536 = 2 ^ 16 from rfl, Nat.testBit_div_two_pow, Nat.add_comm]
  have hmiddle (i : Nat) : (n / 256).testBit i = n.testBit (8 + i) := by
    rw [show 256 = 2 ^ 8 from rfl, Nat.testBit_div_two_pow, Nat.add_comm]
  apply BitVec.eq_of_getLsbD_eq
  intro i hi
  simp only [BitVec.getLsbD_append, BitVec.getLsbD_ofNat, decide_eq_true hi, hhigh, hmiddle]
  split
  · simp [*]
  · split
    · rw [decide_eq_true (by omega : i - 8 < 8), show 8 + (i - 8) = i by omega]
    · rw [decide_eq_true (by omega : i - 8 - 8 < 8), show 16 + (i - 8 - 8) = i by omega]

theorem toNat_ofNat_station (k : Station) : (BitVec.ofNat 8 k.val).toNat = k.val := by
  have := k.isLt
  rw [BitVec.toNat_ofNat]
  omega

/-! ## Masks -/

theorem inMask_foldl (p : Station → Bool) (l : List Station) (m : Mask) (k : Station) :
    inMask (l.foldl (fun m j => if p j then m ||| maskOf j else m) m) k = (inMask m k || (decide (k ∈ l) && p k)) := by
  induction l generalizing m with
  | nil => simp
  | cons j l ih =>
    rw [List.foldl_cons, ih]
    by_cases hkj : k = j
    · subst hkj
      cases hp : p k <;> simp [inMask_or, inMask_maskOf]
    · cases p j <;> simp [inMask_or, inMask_maskOf, hkj]

theorem inMask_maskWhere (p : Station → Bool) (k : Station) : inMask (maskWhere p) k = p k := by
  rw [maskWhere, inMask_foldl, decide_eq_true (mem_stations k)]
  simp [inMask]

/-- No bit at or above n is set exactly when every station of the mask lies below n. -/
theorem hasBitFrom_eq_false_iff (m : Mask) (n : Nat) :
    hasBitFrom m n = false ↔ ∀ k : Station, inMask m k = true → k.val < n := by
  unfold hasBitFrom
  rw [← Bool.not_eq_true, List.any_eq_true]
  constructor
  · intro h k hk
    by_contra hn
    exact h ⟨k, mem_stations k, by simp [hk, Nat.not_lt.mp hn]⟩
  · rintro h ⟨k, _, hk⟩
    rw [Bool.and_eq_true, decide_eq_true_eq] at hk
    exact absurd (h k hk.2) (Nat.not_lt.mpr hk.1)

/-! ## The settings and the segment record -/

/-- The conditions of R172, on the fields. -/
theorem settingsValid_iff (own : Station) (c : Settings) : settingsValid own c = true ↔
    4 ≤ c.cycleCode ∧ c.cycleCode ≤ 64 ∧ 2 ≤ c.stationCount ∧ c.stationCount ≤ 16 ∧ 3 ≤ c.lossLimit ∧
      c.lossLimit ≤ 15 ∧ 1 ≤ c.releaseLead ∧ c.releaseLead ≤ 8 ∧ 2 ≤ c.minStepUs ∧ c.minStepUs ≤ 255 ∧
      1 ≤ c.stepPulseUs ∧ c.stepPulseUs ≤ 15 ∧ c.dirSetupUs ≤ 63 ∧
      (∀ k : Station, inMask c.stopGroup k = true → k ≠ own ∧ k.val < c.stationCount) ∧
      own.val < c.stationCount ∧ 96 * c.stationCount + 64 ≤ c.cycleCode * 125 ∧
      2 * c.stepPulseUs ≤ c.minStepUs := by
  have hgroup : (inMask c.stopGroup own = false ∧ hasBitFrom c.stopGroup c.stationCount = false) ↔
      ∀ k : Station, inMask c.stopGroup k = true → k ≠ own ∧ k.val < c.stationCount := by
    rw [hasBitFrom_eq_false_iff]
    constructor
    · rintro ⟨hown, hbelow⟩ k hk
      exact ⟨fun hko => (by rw [hko, hown] at hk; cases hk), hbelow k hk⟩
    · intro h
      exact ⟨Bool.not_eq_true _ ▸ fun hown => (h own hown).1 rfl, fun k hk => (h k hk).2⟩
  unfold settingsValid
  simp only [Bool.and_eq_true, decide_eq_true_eq, Bool.not_eq_true']
  rw [← hgroup]
  tauto

theorem validBody_eq_some (s : State) (ps : List Byte) (b : SegBody) :
    validBody s ps = some b ↔ parseBody ps = some b ∧ bodyValid s.id s.cfg b = true := by
  unfold validBody
  cases parseBody ps with
  | none => simp
  | some x =>
    dsimp only
    split
    · rename_i hvalid
      rw [Option.some.injEq]
      exact ⟨fun h => ⟨h, h ▸ hvalid⟩, fun h => h.1⟩
    · rename_i hvalid
      rw [Option.some.injEq]
      exact iff_of_false nofun fun ⟨h, hb⟩ => hvalid (h ▸ hb)

theorem parseDirection_eq_some (b : Byte) (dir : Direction) :
    parseDirection b = some dir ↔ (b = 0x00 ∧ dir = .plus) ∨ (b = 0x01 ∧ dir = .minus) := by
  unfold parseDirection
  split
  · rename_i h0
    subst h0
    cases dir <;> simp
  · rename_i h0
    split
    · rename_i h1
      subst h1
      cases dir <;> simp
    · rename_i h1
      exact iff_of_false nofun fun h => h.elim (fun h => h0 h.1) (fun h => h1 h.1)

/-- The record's kind code selects the fields that are read (12.3). -/
theorem parseBody_of_kind {ps : List Byte} {kind : Byte} (h : byteAt ps 0 = kind) : parseBody ps =
    if kind = 0x01 then some (.moveRel (word32At ps 3).toInt (word16At ps 7).toNat)
    else if kind = 0x02 then some (.moveAbs (word32At ps 3) (word16At ps 7).toNat)
    else if kind = 0x03 then (parseDirection (byteAt ps 3)).map fun dir =>
      .home dir (word16At ps 4).toNat (word24At ps 6).toNat (word32At ps 9)
    else if kind = 0x04 then (parseDirection (byteAt ps 3)).map fun dir =>
      .probe dir (word16At ps 4).toNat (word24At ps 6).toNat
    else if kind = 0x05 then some (.barrier (byteAt ps 3) (word16At ps 4) (word16At ps 6).toNat)
    else none := by
  have hcode (n : Nat) (hn : n < 256) : (kind.toNat = n) = (kind = BitVec.ofNat 8 n) := by
    rw [eq_iff_iff]
    constructor
    · exact fun h => BitVec.eq_of_toNat_eq (by rw [h, BitVec.toNat_ofNat, Nat.mod_eq_of_lt hn])
    · exact fun h => by rw [h, BitVec.toNat_ofNat, Nat.mod_eq_of_lt hn]
  unfold parseBody
  simp only [h, hcode _ (by decide : 1 < 256), hcode _ (by decide : 2 < 256), hcode _ (by decide : 3 < 256),
    hcode _ (by decide : 4 < 256), hcode _ (by decide : 5 < 256)]
  rfl

end Sys2Proof.Machine

namespace Sys2Proof.Claims

open Sys2Proof.Machine

theorem join_halves (a b c d : Byte) : ((a ++ b) ++ (c ++ d) : BitVec 32) = (((a ++ b) ++ c) ++ d : BitVec 32) := by
  apply BitVec.eq_of_getLsbD_eq
  intro i hi
  simp only [BitVec.getLsbD_append]
  by_cases h8 : i < 8
  · rw [if_pos (by omega), if_pos h8, if_pos h8]
  · by_cases h16 : i < 16
    · rw [if_pos h16, if_neg h8, if_neg h8, if_pos (by omega)]
    · rw [if_neg h16, if_neg h8, if_neg (show ¬ i - 8 < 8 by omega), Nat.sub_sub i 8 8]

theorem word32At_eq (ps : List Byte) (i : Nat) :
    word32At ps i = byteAt ps i ++ byteAt ps (i + 1) ++ byteAt ps (i + 2) ++ byteAt ps (i + 3) :=
  join_halves ..

/-- A record is valid under R19 with these fields exactly when it gives them. -/
theorem validBody_iff_gives (s : State) (ps : List Byte) (b : SegBody) :
    validBody s ps = some b ↔ RecordGives s.id s.cfg ps b := by
  rw [validBody_eq_some]
  unfold RecordGives
  constructor
  · rintro ⟨hparse, hvalid⟩
    rw [parseBody_of_kind rfl] at hparse
    split at hparse
    · rename_i hkind
      cases hparse
      exact .inl ⟨hkind, _, _, by rw [word32At_eq], rfl, rfl, of_decide_eq_true hvalid⟩
    split at hparse
    · rename_i hkind
      cases hparse
      exact .inr (.inl ⟨hkind, _, rfl, by rw [word32At_eq]; rfl, of_decide_eq_true hvalid⟩)
    split at hparse
    · rename_i hkind
      obtain ⟨dir, hdir, rfl⟩ := Option.map_eq_some_iff.mp hparse
      exact .inr (.inr (.inl ⟨dir, _, _, (parseDirection_eq_some _ _).mp hdir, rfl, rfl,
        .inl ⟨hkind, by rw [word32At_eq]; rfl⟩, of_decide_eq_true hvalid⟩))
    split at hparse
    · rename_i hkind
      obtain ⟨dir, hdir, rfl⟩ := Option.map_eq_some_iff.mp hparse
      exact .inr (.inr (.inl ⟨dir, _, _, (parseDirection_eq_some _ _).mp hdir, rfl, rfl, .inr ⟨hkind, rfl⟩,
        of_decide_eq_true hvalid⟩))
    split at hparse
    · rename_i hkind
      cases hparse
      simp only [bodyValid, Bool.and_eq_true, decide_eq_true_eq, Bool.not_eq_true', hasBitFrom_eq_false_iff] at hvalid
      obtain ⟨⟨⟨htag, htimeout⟩, hown⟩, hbelow⟩ := hvalid
      exact .inr (.inr (.inr ⟨hkind, _, rfl, rfl, htag, htimeout, hown, hbelow⟩))
    · cases hparse
  · rintro (⟨hkind, n, d, rfl, rfl, rfl, hvalid⟩ | ⟨hkind, d, rfl, rfl, hvalid⟩ |
      ⟨dir, interval, maxSteps, hdir, rfl, rfl, ⟨hkind, rfl⟩ | ⟨hkind, rfl⟩, hvalid⟩ |
      ⟨hkind, timeout, rfl, rfl, htag, htimeout, hown, hbelow⟩)
    all_goals rw [parseBody_of_kind hkind]
    · exact ⟨by simp [word32At_eq, word16At], decide_eq_true hvalid⟩
    · exact ⟨by simp [word32At_eq, word16At], decide_eq_true hvalid⟩
    · rw [(parseDirection_eq_some _ _).mpr hdir]
      exact ⟨by simp [word32At_eq, word16At, word24At], decide_eq_true hvalid⟩
    · rw [(parseDirection_eq_some _ _).mpr hdir]
      exact ⟨by simp [word16At, word24At], decide_eq_true hvalid⟩
    · refine ⟨by simp [word16At], ?_⟩
      simp only [bodyValid, Bool.and_eq_true, decide_eq_true_eq, Bool.not_eq_true', hasBitFrom_eq_false_iff]
      exact ⟨⟨⟨htag, htimeout⟩, hown⟩, hbelow⟩

end Sys2Proof.Claims
end

