-- ==== Sys2Proof/Proofs/Requests.lean ====
section
/-! PROOFS. How the port takes requests: transactions (O41), the bytes a request waits for (O42), the unknown request (O43),
CONFIGURE (O44), START (O45), RESTART (O46), and the requests of the plan (O47). -/

namespace Sys2Proof.Machine

/-! ## Bits of the status byte -/

theorem statusByte_getLsbD (s : State) {i : Nat} (hi : i < 8) : s.statusByte.getLsbD i =
    [s.flags.getLsbD 0, s.flags.getLsbD 1, s.flags.getLsbD 2, s.flags.getLsbD 3, s.flags.getLsbD 4, s.flags.getLsbD 5,
      s.config.isSome, decide (s.link.state = .active)].getD i false :=
  Claims.byteOfBits_getLsbD _ hi

theorem statusByte_flags (s : State) {i : Nat} (hi : i < 6) : s.statusByte.getLsbD i = s.flags.getLsbD i := by
  rw [statusByte_getLsbD s (by omega)]
  interval_cases i <;> rfl

theorem byteAt_of_length_le {bs : List Byte} {i : Nat} (h : bs.length ≤ i) : byteAt bs i = 0 :=
  List.getD_eq_default _ _ h

end Sys2Proof.Machine

namespace Sys2Proof.Claims

open Sys2Proof.Machine

/-- Settles O41: the fields each edge of CSN writes, and the removal by what is pending. -/
theorem transactionOpensAndCloses : Obligations.TransactionOpensAndCloses := by
  refine ⟨fun s hhigh => ?_, fun s hlow => ⟨?_, ?_⟩, fun s hanswer => ?_, fun s hnot => ?_⟩
  · refine ⟨beginTransaction s, congrArg Host.Outcome.next (if_pos hhigh), rfl, fun i hi => statusByte_flags s hi,
      statusByte_getLsbD s (by decide), statusByte_getLsbD s (by decide)⟩
  · exact congrArg Host.Outcome.next (if_neg (by rw [hlow]; exact Bool.false_ne_true))
  · exact congrArg Host.Outcome.next (if_neg (by rw [hlow]; exact Bool.false_ne_true))
  · refine ⟨completeAnswer s, congrArg Host.Outcome.next (if_pos hanswer), ?_⟩
    unfold completeAnswer
    cases hremoval : s.port.removal with
    | none => exact ⟨rfl, rfl, rfl, rfl, rfl⟩
    | some r => cases r <;> exact ⟨rfl, rfl, rfl, rfl, rfl⟩
  · exact congrArg Host.Outcome.next (if_neg hnot)

/-! ## Requests that wait, and requests that are ignored -/

theorem sendNoteNeeds_eq (bs : List Byte) : sendNoteNeeds bs = needed 0x30 bs := by
  have hcode : needed 0x30 bs = if 3 ≤ bs.length ∧ (byteAt bs 2).toNat ≤ 8 then 3 + (byteAt bs 2).toNat else 3 := rfl
  rw [hcode]
  unfold sendNoteNeeds
  by_cases hlength : bs.length < 3
  · rw [if_pos hlength, if_neg (by omega)]
  · by_cases hshort : (byteAt bs 2).toNat ≤ 8
    · rw [if_neg hlength, if_pos hshort, if_pos ⟨by omega, hshort⟩]
    · rw [if_neg hlength, if_neg hshort, if_neg (by omega)]

/-- A request with parameters is clocked with its code, and needs the bytes that R169 and R151 name. -/
theorem exec_of_params {c : Instr} {code : Byte} {bytes : List Byte} (h : paramsOf c = some (code, bytes)) :
    ∃ take, ∀ s, exec c s = .next (clockRequest code (needed code) bytes take s) := by
  cases c <;> simp only [paramsOf, Option.some.injEq, Prod.mk.injEq, reduceCtorEq] at h <;> obtain ⟨rfl, rfl⟩ := h
  case configure => exact ⟨takeConfigure, fun _ => rfl⟩
  case queueSegment => exact ⟨takeQueueSegment, fun _ => rfl⟩
  case setPosition => exact ⟨takeSetPosition, fun _ => rfl⟩
  case clearEvents => exact ⟨takeClearEvents, fun _ => rfl⟩
  case readPeer => exact ⟨takeReadPeer, fun _ => rfl⟩
  case readNoteSlot => exact ⟨takeReadNoteSlot, fun _ => rfl⟩
  case releaseNoteSlot => exact ⟨takeReleaseNoteSlot, fun _ => rfl⟩
  case sendNote =>
    refine ⟨takeSendNote, fun s => ?_⟩
    rw [← funext sendNoteNeeds_eq]
    rfl

/-- A request without parameters acts in REQUEST alone. -/
theorem exec_of_no_params {c : Instr} (hrequest : IsRequest c) (h : paramsOf c = none) {s : State}
    (hphase : s.port.phase ≠ .request) : exec c s = .next s := by
  cases c <;> simp only [paramsOf, reduceCtorEq] at h <;> try exact hrequest.elim
  case unknownRequest code =>
    show Host.Outcome.next (if code ∈ requestCodes then s else clockPlain code answerUnknown s) = .next s
    rw [clockPlain_of_not_request hphase, ite_self]
  all_goals exact congrArg Host.Outcome.next (clockPlain_of_not_request hphase _ _)

/-- Bytes that the port does not assemble change nothing. -/
theorem clockRequest_of_not_assembled {code : Byte} {bytes : List Byte} {s : State}
    (h : assembled code bytes s.port = none) (needs : List Byte → Nat) (take : List Byte → State → State) :
    clockRequest code needs bytes take s = s := by
  rw [clockRequest, h]

/-- Too few bytes are held. -/
theorem clockRequest_of_short {code : Byte} {bytes all : List Byte} {needs : List Byte → Nat} {s : State}
    (h : assembled code bytes s.port = some all) (hshort : all.length < needs all)
    (take : List Byte → State → State) : clockRequest code needs bytes take s = holdParams code all s := by
  rw [clockRequest, h]
  exact if_pos hshort

/-- No request acts where its bytes are not assembled. -/
theorem exec_request_ignored {c : Instr} {s : State} (hrequest : IsRequest c) (hphase : s.port.phase ≠ .request)
    (hnot : ∀ code bytes, paramsOf c = some (code, bytes) → assembled code bytes s.port = none) :
    exec c s = .next s := by
  cases hparams : paramsOf c with
  | none => exact exec_of_no_params hrequest hparams hphase
  | some p =>
    obtain ⟨take, htake⟩ := exec_of_params (code := p.1) (bytes := p.2) hparams
    rw [htake, clockRequest_of_not_assembled (hnot p.1 p.2 hparams)]

theorem exec_request_closed {c : Instr} {s : State} (hrequest : IsRequest c)
    (h : s.port.phase = .answer ∨ s.port.phase = .ignore ∨ s.port.phase = .closed) : exec c s = .next s := by
  refine exec_request_ignored hrequest ?_ fun code bytes _ => ?_
  · obtain h | h | h := h <;> rw [h] <;> exact nofun
  · unfold assembled
    obtain h | h | h := h <;> rw [h]

/-- Settles O42, by the state of the port: what it assembles is too short, or it assembles nothing. -/
theorem requestsWaitForTheirBytes : Obligations.RequestsWaitForTheirBytes := by
  refine ⟨fun c s code bytes hparams hphase hshort => ?_, fun c s code bytes all hparams hphase hcode hall hshort => ?_,
    fun c s hrequest hphase hother => ?_, fun c s hrequest hphase => exec_request_closed hrequest hphase⟩
  · obtain ⟨take, htake⟩ := exec_of_params hparams
    rw [htake, clockRequest_of_short (by simp [assembled, hphase]) hshort]
    rfl
  · subst hall
    obtain ⟨take, htake⟩ := exec_of_params hparams
    rw [htake, clockRequest_of_short (by simp [assembled, hphase, hcode]) hshort]
    rfl
  · refine exec_request_ignored hrequest (by rw [hphase]; exact nofun) fun code bytes hparams => ?_
    simp [assembled, hphase, hother code bytes hparams]

/-- Settles O43: the answer is the outcome byte alone, and REMOVAL after it removes nothing. -/
theorem unknownRequestChangesNothing : Obligations.UnknownRequestChangesNothing := by
  intro s code hrequest hcode
  have hexec : exec (.unknownRequest code) s = .next { s with port := taken code [] [0x02] none s.port } := by
    show Host.Outcome.next (if code ∈ requestCodes then s else clockPlain code answerUnknown s) = _
    rw [if_neg (by exact hcode), clockPlain_of_request hrequest]
    exact congrArg Host.Outcome.next (refuse_holdParams code [] s .unknownRequest 0)
  have hzero (p : HostPort) (hparams : p.params = []) (hanswer : p.answer = [0x02]) (i : Nat) (hi : 2 ≤ i) :
      p.sdoByte i = 0 := by
    rw [HostPort.sdoByte, if_neg (by omega), hparams, hanswer, if_neg (by simp; omega)]
    exact byteAt_of_length_le (by simp; omega)
  refine ⟨hexec, rfl, rfl, hzero _ rfl rfl, completeAnswer { s with port := taken code [] [0x02] none s.port }, rfl, rfl,
    rfl, hzero _ rfl rfl, fun c hc => exec_request_closed hc (.inr (.inl rfl))⟩

/-! ## CONFIGURE, START and RESTART -/

theorem exec_configure_of_completes {bytes ps : List Byte} {s : State} (h : Completes 0x01 12 bytes s.port ps) :
    exec (.configure bytes) s = .next (takeConfigure ps (holdParams 0x01 ps s)) :=
  congrArg Host.Outcome.next (clockRequest_of_completes h takeConfigure)

/-- Settles O44: the settings of the block are accepted exactly under the conditions of R172. -/
theorem configureAnswers : Obligations.ConfigureAnswers := by
  intro s bytes ps hcompletes
  rw [exec_configure_of_completes hcompletes]
  refine ⟨fun hconfig => ?_, fun hnone c hc => ?_⟩
  · rw [takeConfigure, if_pos (by exact hconfig), refuse_holdParams]
    rfl
  · have hunset : ¬ (holdParams 0x01 ps s).config.isSome = true := by
      show ¬ s.config.isSome = true
      rw [hnone]
      exact Bool.false_ne_true
    have hparse : parseSettings ps = c := hc.symm
    rw [← settingsValid_iff]
    refine ⟨fun hvalid => ?_, fun hinvalid => ?_⟩
    · rw [takeConfigure, if_neg hunset, hparse, if_pos (by exact hvalid),
        respond_port_of_holdParams (s := s) (t := (holdParams 0x01 ps s).setConfig (some c)) rfl]
      rfl
    · rw [takeConfigure, if_neg hunset, hparse, if_neg (by exact hinvalid), refuse_holdParams]
      rfl

theorem isNone_holdParams (code : Byte) (ps : List Byte) {s : State} (h : s.config.isSome = true) :
    ¬ (holdParams code ps s).config.isNone = true := by
  show ¬ s.config.isNone = true
  cases hc : s.config with
  | none => rw [hc] at h; cases h
  | some c => exact Bool.false_ne_true

/-- Settles O45: START by its two conditions, and the link state over every command by its changes. -/
theorem startAnswers : Obligations.StartAnswers := by
  have hexec {s : State} (h : s.port.phase = .request) : exec .start s = .next (takeStart (holdParams 0x02 [] s)) :=
    congrArg Host.Outcome.next (clockPlain_of_request h _ _)
  refine ⟨fun s hrequest hnone => ?_, fun s hrequest hconfig hstarted => ?_, fun s hrequest hconfig hidle => ?_,
    fun c s t hexec hstarted hidle => ?_, fun c s t hexec hidle hleft => ?_⟩
  · rw [hexec hrequest, takeStart, if_pos (by exact Option.isNone_iff_eq_none.mpr hnone), refuse_holdParams]
    rfl
  · rw [hexec hrequest, takeStart, if_neg (isNone_holdParams _ _ hconfig), if_pos (by exact hstarted), refuse_holdParams]
    rfl
  · rw [hexec hrequest, takeStart, if_neg (isNone_holdParams _ _ hconfig), if_neg (by exact not_not.mpr hidle)]
    rfl
  · by_contra hnot
    exact exec_keeps (P := fun s => s.link.state ≠ .idle)
      (fun _ _ h => h.keeps_linkStarted fun k hk => hnot ⟨k, hk⟩) hstarted hexec hidle
  · by_contra hnot
    obtain ⟨hstart, hrestart⟩ := not_or.mp hnot
    exact hleft (exec_keeps (P := fun s => s.link.state = .idle) (fun _ _ h => h.keeps_linkIdle hstart hrestart) hidle
      hexec)

theorem exec_restart {s : State} (hrequest : s.port.phase = .request) (hconfig : s.config.isSome = true) :
    exec .restart s = .next (respond .accepted [] 0 (restartAll (holdParams 0x0F [] s))) :=
  (congrArg Host.Outcome.next (clockPlain_of_request hrequest _ _)).trans
    (congrArg Host.Outcome.next (if_neg (isNone_holdParams 0x0F [] hconfig)))

/-- No flag is set after RESTART. -/
theorem flags_restart (s : State) : (respond .accepted [] 0 (restartAll s)).flags = 0 :=
  Eq.trans (b := State.reset.flags) rfl (by decide +kernel)

/-- Settles O46: every field is the one that `restartAll` writes. -/
theorem restartClearsTheStation : Obligations.RestartClearsTheStation := by
  refine ⟨fun s hrequest hnone => ?_, fun s hrequest hconfig => ?_⟩
  · have hexec : exec .restart s = .next (takeRestart (holdParams 0x0F [] s)) :=
      congrArg Host.Outcome.next (clockPlain_of_request hrequest _ _)
    rw [hexec, takeRestart, if_pos (by exact Option.isNone_iff_eq_none.mpr hnone), refuse_holdParams]
    rfl
  · have hentry (k : Station) : (Vector.replicate 16 PeerEntry.blank).get k = PeerEntry.blank := by
      simp [Vector.get_eq_getElem]
    have hslot (i : Fin 4) : (Vector.replicate 4 NoteSlot.free).get i = NoteSlot.free := by
      simp [Vector.get_eq_getElem]
    have hintn : (respond .accepted [] 0 (restartAll (holdParams 0x0F [] s))).intnHigh = true := by
      rw [State.intnHigh, flags_restart]
      simp
    exact ⟨_, exec_restart hrequest hconfig, rfl, rfl, hentry, rfl, rfl, rfl, rfl, rfl, rfl, hslot, rfl, rfl, rfl, rfl,
      flags_restart _, hintn, rfl, rfl, rfl, rfl⟩

/-! ## The requests of the plan -/

theorem exec_queueSegment_of_completes {bytes ps : List Byte} {s : State} (h : Completes 0x10 16 bytes s.port ps) :
    exec (.queueSegment bytes) s = .next (takeQueueSegment ps (holdParams 0x10 ps s)) :=
  congrArg Host.Outcome.next (clockRequest_of_completes h takeQueueSegment)

theorem exec_setPosition_of_completes {bytes ps : List Byte} {s : State} (h : Completes 0x14 4 bytes s.port ps) :
    exec (.setPosition bytes) s = .next (takeSetPosition ps (holdParams 0x14 ps s)) :=
  congrArg Host.Outcome.next (clockRequest_of_completes h takeSetPosition)

/-- The rate check of QUEUE SEGMENT refuses a MOVE_REL with more steps than the rate allows, and no other segment. -/
theorem queueRateFails_iff (s : State) (b : SegBody) : queueRateFails s.cfg b = true ↔
    ∃ n d, b = .moveRel n d ∧ d * s.cycleUs < n.natAbs * s.cfg.minStepUs := by
  cases b <;> simp [queueRateFails, rateTooHigh, State.cycleUs]

/-- SET POSITION waits for an axis that does not move and owes nothing. -/
theorem positionBusy_iff (q : Sequencer) : positionBusy q = true ↔
    q.axis = .running ∨ q.axis = .waiting ∨ (q.axis = .idle ∧ q.finishing ≠ []) := by
  unfold positionBusy
  cases q.axis <;> simp

/-- QUEUE SEGMENT in a configured station, on a valid record. -/
theorem takeQueueSegment_of_body {s : State} {ps : List Byte} {b : SegBody} (hconfig : s.config.isSome = true)
    (hbody : validBody s ps = some b) : takeQueueSegment ps s =
      if queueRateFails s.cfg b then refuse .rate 2 s
      else if s.seq.axis = .halted then refuse .halted 2 s
      else if Config.queueCapacity ≤ s.seq.queue.length then refuse .queueFull 2 s
      else respond .accepted (bytes16 s.seq.nextSeq) 2 (appendSegment (word16At ps 1) b s) := by
  unfold takeQueueSegment
  rw [if_neg (by cases hc : s.config <;> simp_all), hbody]

/-- A QUEUE SEGMENT that is refused changes the port alone. -/
theorem exec_queueSegment_refused {s : State} {bytes ps : List Byte} {a : Answer}
    (hcompletes : Completes 0x10 16 bytes s.port ps)
    (h : takeQueueSegment ps (holdParams 0x10 ps s) = refuse a 2 (holdParams 0x10 ps s)) :
    exec (.queueSegment bytes) s = .next { s with port := taken 0x10 ps (answerBytes a [] 2) none s.port } := by
  rw [exec_queueSegment_of_completes hcompletes, h, refuse_holdParams]

/-- Settles O47: QUEUE SEGMENT by the conditions of R18, FLUSH QUEUE, and SET POSITION by R53. -/
theorem planRequestsAnswer : Obligations.PlanRequestsAnswer := by
  refine ⟨fun s bytes ps hcompletes => ⟨fun hnone => ?_, fun hconfig hno => ?_, fun b hconfig hgives => ?_⟩,
    fun s hrequest => ?_, fun s bytes ps hcompletes => ?_⟩
  · exact exec_queueSegment_refused (a := .notConfigured) hcompletes
      (if_pos (by exact Option.isNone_iff_eq_none.mpr hnone))
  · have hinvalid : validBody (holdParams 0x10 ps s) ps = none :=
      Option.eq_none_iff_forall_ne_some.mpr fun b hb => hno b ((validBody_iff_gives _ ps b).mp hb)
    refine exec_queueSegment_refused (a := .badParameter) hcompletes ?_
    rw [takeQueueSegment, if_neg (isNone_holdParams _ _ hconfig), hinvalid]
  · have htake := takeQueueSegment_of_body (s := holdParams 0x10 ps s) hconfig ((validBody_iff_gives _ ps b).mpr hgives)
    refine ⟨fun hrate => ?_, fun hrate => ?_⟩
    · exact exec_queueSegment_refused (a := .rate) hcompletes
        (htake.trans (if_pos ((queueRateFails_iff s b).mpr hrate)))
    · have hpass : ¬ queueRateFails s.cfg b = true := fun hfails =>
        let ⟨n, d, hb, hlt⟩ := (queueRateFails_iff s b).mp hfails
        absurd (hrate n d hb) (Nat.not_le.mpr hlt)
      rw [if_neg (by exact hpass)] at htake
      refine ⟨fun hhalted => ?_, fun hlive hfull => ?_, fun hlive hroom => ?_⟩
      · exact exec_queueSegment_refused (a := .halted) hcompletes (htake.trans (if_pos (by exact hhalted)))
      · rw [if_neg (by exact hlive)] at htake
        exact exec_queueSegment_refused (a := .queueFull) hcompletes (htake.trans (if_pos (by exact hfull)))
      · rw [if_neg (by exact hlive), if_neg (by exact Nat.not_le.mpr hroom)] at htake
        rw [exec_queueSegment_of_completes hcompletes, htake,
          respond_port_of_holdParams (s := s) (t := appendSegment (word16At ps 1) b (holdParams 0x10 ps s)) rfl]
        rfl
  · exact congrArg Host.Outcome.next (clockPlain_of_request hrequest _ _)
  · rw [exec_setPosition_of_completes hcompletes]
    refine ⟨fun hbusy => ?_, fun hfree => ?_⟩
    · rw [takeSetPosition, if_pos (by exact (positionBusy_iff s.seq).mpr hbusy), refuse_holdParams]
      rfl
    · have hnot : ¬ positionBusy s.seq = true := by
        rw [positionBusy_iff]
        rintro (h | h | ⟨h, howes⟩) <;> obtain hf | hf | ⟨hf, hnone⟩ := hfree <;> simp_all
      rw [takeSetPosition, if_neg (by exact hnot),
        respond_port_of_holdParams (s := s)
          (t := (holdParams 0x14 ps s).setGen { (holdParams 0x14 ps s).gen with
            position := word32At ps 0, known := true }) rfl, word32At_eq]
      rfl

end Sys2Proof.Claims
end

