-- ==== Sys2Proof/Proofs/Reads.lean ====
section
/-! PROOFS. The answers of the reads, in the layouts of 12.3 (O49 to O51), and SEND NOTE with READ NOTE SLOT (O52). -/

namespace Sys2Proof.Claims

open Sys2Proof.Machine

/-! ## Taking a read -/

/-- A read that answers from the state, and removes nothing, changes the port alone. -/
theorem respond_holdParams (code : Byte) (ps : List Byte) (s : State) (a : Answer) (response : List Byte) (len : Nat) :
    respond a response len (holdParams code ps s) =
      { s with port := taken code ps (answerBytes a response len) none s.port } :=
  respond_port_of_holdParams rfl a response len

theorem exec_readState {s : State} (h : s.port.phase = .request) : exec .readState s = .next { s with
    port := taken 0x20 [] (answerBytes .accepted (readStateBytes s) 13) none s.port } :=
  (congrArg Host.Outcome.next (clockPlain_of_request h _ _)).trans
    (congrArg Host.Outcome.next (respond_holdParams 0x20 [] s .accepted (readStateBytes s) 13))

theorem toNat_setWidth_axis (a : AxisState) : (a.code.setWidth 8).toNat = (match a with
    | .disabled => 0 | .idle => 1 | .running => 2 | .waiting => 3 | .halted => 4) := by
  cases a <;> rfl

theorem toNat_linkCode (x : LinkState) : x.code.toNat = (match x with
    | .idle => 0 | .listen => 1 | .joining => 2 | .active => 3 | .duplicate => 4) := by
  cases x <;> rfl

theorem flags_setWidth (s : State) {i : Nat} (hi : i < 6) : (s.flags.setWidth 8).getLsbD i =
    [!s.held.isEmpty, s.port.haltFlag, decide (s.peers.changeMap ≠ 0), !s.notes.inbox.isEmpty, s.noteDone,
      s.port.linkFlag].getD i false := by
  rw [BitVec.getLsbD_setWidth, decide_eq_true (by omega), Bool.true_and, flags_getLsbD s hi]

/-- The fields of READ STATE. -/
theorem readState_answers {s : State} (h : s.port.phase = .request) : ∃ answer,
    exec .readState s = .next { s with port := taken 0x20 [] answer none s.port } ∧ answer.length = 14 ∧
    byteAt answer 0 = 0x01 ∧ (byteAt answer 1).toNat = s.id.val ∧
    (byteAt answer 2).toNat = (match s.seq.axis with
      | .disabled => 0 | .idle => 1 | .running => 2 | .waiting => 3 | .halted => 4) ∧
    (byteAt answer 3).toNat = (match s.link.state with
      | .idle => 0 | .listen => 1 | .joining => 2 | .active => 3 | .duplicate => 4) ∧
    word32At answer 4 = s.gen.position ∧
    byteAt answer 8 = byteOfBits [s.gen.known, s.origin, s.haltCtl.latch, s.link.profileMismatch] ∧
    byteAt answer 9 = BitVec.ofNat 8 s.seq.queue.length ∧ byteAt answer 10 = BitVec.ofNat 8 s.held.length ∧
    word16At answer 11 = s.timer.cycle ∧ byteAt answer 13 = s.flags.setWidth 8 :=
  ⟨_, exec_readState h, rfl, rfl, toNat_ofNat_station s.id, toNat_setWidth_axis _, toNat_linkCode _, join_bytes32 _, rfl,
    rfl, rfl, join_bytes16 _, rfl⟩

/-! ## READ COMPLETION, READ NOTE and READ PEER CHANGES -/

theorem exec_readCompletion {s : State} (h : s.port.phase = .request) :
    exec .readCompletion s = .next (takeReadCompletion (holdParams 0x21 [] s)) :=
  congrArg Host.Outcome.next (clockPlain_of_request h _ _)

theorem exec_readNote {s : State} (h : s.port.phase = .request) :
    exec .readNote s = .next (takeReadNote (holdParams 0x31 [] s)) :=
  congrArg Host.Outcome.next (clockPlain_of_request h _ _)

theorem exec_readPeerChanges {s : State} (h : s.port.phase = .request) :
    exec .readPeerChanges s = .next (takeReadPeerChanges (holdParams 0x24 [] s)) :=
  congrArg Host.Outcome.next (clockPlain_of_request h _ _)

theorem exec_readCompletion_record {s : State} {r : Record} {rest : List Record} (h : s.port.phase = .request)
    (hheld : s.held = r :: rest) : exec .readCompletion s = .next { s with
      port := taken 0x21 [] (answerBytes .accepted r.bytes 23) (some .record) s.port } := by
  have hhead : (holdParams 0x21 [] s).held = r :: rest := hheld
  rw [exec_readCompletion h, takeReadCompletion, hhead]
  rfl

theorem zero_word32 : ((0 : Byte) ++ (0 : Byte)) ++ ((0 : Byte) ++ (0 : Byte)) = (0 : BitVec 32) := by decide

/-- The bytes of a completion record (12.3). -/
theorem record_bytes_layout (r : Record) (answer : List Byte) (h : answer = answerBytes .accepted r.bytes 23) :
    answer.length = 24 ∧ byteAt answer 0 = 0x01 ∧
       word16At answer 1 = r.seq ∧ byteAt answer 3 = r.kind.code ∧ byteAt answer 4 = r.code.byte ∧
       word16At answer 5 = r.label ∧ word16At answer 7 = r.startCycle ∧ word16At answer 9 = r.endCycle ∧
       word24At answer 11 = BitVec.ofNat 24 r.steps ∧ word32At answer 14 = r.position ∧
       (byteAt answer 18).getLsbD 0 = r.known ∧
       (match r.part with
         | .none => byteAt answer 19 = 0 ∧ word32At answer 20 = 0
         | .trip p => byteAt answer 19 = 1 ∧ word32At answer 20 = p
         | .release c l => byteAt answer 19 = 2 ∧ word16At answer 20 = c ∧ word16At answer 22 = l) := by
  subst h
  refine ⟨?_, rfl, join_bytes16 _, rfl, rfl, join_bytes16 _, join_bytes16 _, join_bytes16 _, join_bytes24 _,
    join_bytes32 _, byteOfBits_getLsbD [r.known] (by decide), ?_⟩
  · cases hp : r.part <;> simp [answerBytes, Record.bytes, RecordPart.bytes, hp, bytes16, bytes24, bytes32]
  · unfold Record.bytes
    cases r.part with
    | none => exact ⟨rfl, zero_word32⟩
    | trip p => exact ⟨rfl, join_bytes32 _⟩
    | release c l => exact ⟨rfl, join_bytes16 _, join_bytes16 _⟩

theorem exec_readNote_note {s : State} {n : InNote} {rest : List InNote} (h : s.port.phase = .request)
    (hinbox : s.notes.inbox = n :: rest) : exec .readNote s = .next { s with
      port := taken 0x31 [] (answerBytes .accepted n.bytes 13) (some .note) s.port } := by
  have hhead : (holdParams 0x31 [] s).notes.inbox = n :: rest := hinbox
  rw [exec_readNote h, takeReadNote, hhead]
  rfl

/-- The payload of an incoming note, filled with 00h to 8 bytes. -/
theorem byteAt_payload (payload : List Byte) {i : Nat} (hi : i < 8) :
    byteAt ((payload ++ List.replicate 8 0).take 8) i = byteAt payload i := by
  unfold byteAt
  rw [List.getD_eq_getElem?_getD, List.getD_eq_getElem?_getD, List.getElem?_take_of_lt hi, List.getElem?_append]
  split
  · rfl
  · rename_i h
    rw [List.getElem?_eq_none (Nat.not_lt.mp h), List.getElem?_replicate]
    split <;> rfl

/-- The bytes of an incoming note (R162). -/
theorem note_bytes_layout (n : InNote) (hlength : n.payload.length ≤ 8) (answer : List Byte)
    (h : answer = answerBytes .accepted n.bytes 13) :
    answer.length = 14 ∧ byteAt answer 0 = 0x01 ∧
       (byteAt answer 1).toNat = n.sender.val ∧ byteAt answer 2 = n.number ∧
       (byteAt answer 3).toNat = n.payload.length ∧ word16At answer 4 = n.acceptCycle ∧
       ∀ i, i < 8 → byteAt answer (6 + i) = byteAt n.payload i := by
  have hbytes : answer = [0x01, BitVec.ofNat 8 n.sender.val, n.number, BitVec.ofNat 8 n.payload.length,
      n.acceptCycle.extractLsb' 8 8, n.acceptCycle.extractLsb' 0 8] ++ (n.payload ++ List.replicate 8 0).take 8 := h
  rw [hbytes]
  refine ⟨by simp, rfl, toNat_ofNat_station n.sender, rfl, ?_, join_bytes16 _, fun i hi => ?_⟩
  · show (BitVec.ofNat 8 n.payload.length).toNat = _
    rw [BitVec.toNat_ofNat]
    omega
  · rw [← byteAt_payload n.payload hi]
    unfold byteAt
    rw [List.getD_append_right _ _ _ _ (by simp)]
    exact congrArg (List.getD _ · 0) (by simp)

/-! ## INTN and DREN -/

theorem intnHigh_eq_false_iff (s : State) : s.intnHigh = false ↔
    ∃ i, i < 6 ∧ s.flags.getLsbD i = true ∧ s.cfg.intEnable.getLsbD i = true := by
  rw [State.intnHigh, decide_eq_false_iff_not]
  constructor
  · intro h
    by_contra hnone
    refine h (BitVec.eq_of_getLsbD_eq fun i hi => ?_)
    rw [BitVec.getLsbD_and, show (0 : BitVec 6).getLsbD i = false from BitVec.getLsbD_zero, Bool.and_eq_false_iff]
    by_contra hboth
    rw [not_or, Bool.not_eq_false, Bool.not_eq_false] at hboth
    exact hnone ⟨i, hi, hboth⟩
  · rintro ⟨i, hi, hflag, henable⟩ h
    have hbit := congrArg (BitVec.getLsbD · i) h
    simp [hflag, henable] at hbit

theorem noteDone_iff (s : State) : s.noteDone = true ↔ ∃ i n dests st, s.notes.slots.get i = .done n dests st := by
  have hdone (x : NoteSlot) : x.isDone = true ↔ ∃ n dests st, x = .done n dests st := by
    cases x <;> simp [NoteSlot.isDone]
  unfold State.noteDone
  rw [List.any_eq_true]
  exact ⟨fun ⟨i, _, h⟩ => ⟨i, (hdone _).mp h⟩, fun ⟨i, h⟩ => ⟨i, mem_slotIds i, (hdone _).mpr h⟩⟩

/-- A statement about one of the six flags. -/
theorem exists_flag_iff (p : Nat → Prop) : (∃ i, i < 6 ∧ p i) ↔ p 0 ∨ p 1 ∨ p 2 ∨ p 3 ∨ p 4 ∨ p 5 := by
  constructor
  · rintro ⟨i, hi, h⟩
    interval_cases i <;> simp [h]
  · rintro (h | h | h | h | h | h) <;> exact ⟨_, by decide, h⟩

theorem intn_low_iff (s : State) : s.intnHigh = false ↔ ∃ c, s.config = some c ∧
    ((c.intEnable.getLsbD 0 = true ∧ s.held ≠ []) ∨ (c.intEnable.getLsbD 1 = true ∧ s.port.haltFlag = true) ∨
      (c.intEnable.getLsbD 2 = true ∧ s.peers.changeMap ≠ 0) ∨
      (c.intEnable.getLsbD 3 = true ∧ s.notes.inbox ≠ []) ∨
      (c.intEnable.getLsbD 4 = true ∧ ∃ i n dests st, s.notes.slots.get i = .done n dests st) ∨
      (c.intEnable.getLsbD 5 = true ∧ s.port.linkFlag = true)) := by
  rw [intnHigh_eq_false_iff]
  cases hc : s.config with
  | none =>
    have hnone : s.cfg.intEnable = 0 := by simp [State.cfg, hc, Settings.unconfigured]
    simp [hnone]
  | some c =>
    have hcfg : s.cfg = c := by simp [State.cfg, hc]
    rw [exists_flag_iff, hcfg]
    simp only [flags_getLsbD s (by decide : 0 < 6), flags_getLsbD s (by decide : 1 < 6),
      flags_getLsbD s (by decide : 2 < 6), flags_getLsbD s (by decide : 3 < 6), flags_getLsbD s (by decide : 4 < 6),
      flags_getLsbD s (by decide : 5 < 6), ← noteDone_iff]
    simp [and_comm]

theorem dren_iff (s : State) : s.dren = true ↔ s.gen.pulse.isSome = true ∨ Haltable s.seq.axis ∨
    (s.seq.axis = .halted ∧ s.cfg.haltReleasesEn = false) := by
  unfold State.dren State.drenByAxis State.stepHigh
  cases s.seq.axis <;> simp [Haltable, or_comm]

/-- Settles O49: each read by its one taking, the bytes by their layout, and the two outputs. -/
theorem readsAnswer : Obligations.ReadsAnswer := by
  refine ⟨fun s h => ?_, fun s h => ⟨fun hempty => ?_, fun r rest hheld => ?_, fun hempty => ?_,
    fun n rest hinbox hlength => ?_, fun hzero => ?_, fun hmap => ?_⟩, fun s => ⟨intn_low_iff s, dren_iff s⟩⟩
  · obtain ⟨answer, hexec, hlength, h0, h1, h2, h3, h4, h8, h9, h10, h11, h13⟩ := readState_answers h
    refine ⟨answer, hexec, hlength, h0, h1, h2, h3, h4, ?_⟩
    rw [h8, h13]
    exact ⟨byteOfBits_getLsbD _ (by decide), byteOfBits_getLsbD _ (by decide), byteOfBits_getLsbD _ (by decide),
      byteOfBits_getLsbD _ (by decide), h9, h10, h11, flags_setWidth s (by decide), flags_setWidth s (by decide),
      flags_setWidth s (by decide), flags_setWidth s (by decide), flags_setWidth s (by decide),
      flags_setWidth s (by decide)⟩
  · have hnone : (holdParams 0x21 [] s).held = [] := hempty
    rw [exec_readCompletion h, takeReadCompletion, hnone]
    exact congrArg Host.Outcome.next (refuse_holdParams 0x21 [] s .empty 23)
  · exact ⟨_, exec_readCompletion_record h hheld, record_bytes_layout r _ rfl⟩
  · have hnone : (holdParams 0x31 [] s).notes.inbox = [] := hempty
    rw [exec_readNote h, takeReadNote, hnone]
    exact congrArg Host.Outcome.next (refuse_holdParams 0x31 [] s .empty 13)
  · exact ⟨_, exec_readNote_note h hinbox, note_bytes_layout n hlength _ rfl⟩
  · rw [exec_readPeerChanges h, takeReadPeerChanges, if_pos (by exact hzero)]
    exact congrArg Host.Outcome.next (refuse_holdParams 0x24 [] s .empty 2)
  · rw [exec_readPeerChanges h, takeReadPeerChanges, if_neg (by exact hmap)]
    rfl

/-! ## READ HALT REPORT -/

theorem exec_readHaltReport {s : State} (h : s.port.phase = .request) :
    exec .readHaltReport s = .next (takeReadHaltReport (holdParams 0x22 [] s)) :=
  congrArg Host.Outcome.next (clockPlain_of_request h _ _)

theorem exec_readHaltReport_report {s : State} {r : HaltReport} (h : s.port.phase = .request)
    (hreport : s.haltCtl.report = some r) : exec .readHaltReport s = .next { s with
      port := taken 0x22 [] (answerBytes .accepted r.bytes 16) none s.port } := by
  have hsome : (holdParams 0x22 [] s).haltCtl.report = some r := hreport
  rw [exec_readHaltReport h, takeReadHaltReport, hsome]
  exact congrArg Host.Outcome.next (respond_holdParams 0x22 [] s .accepted r.bytes 16)

/-- The report's bytes with 0 for each absent field. -/
theorem haltReport_bytes_eq (r : HaltReport) : r.bytes =
    [r.cause.byte, BitVec.ofNat 8 ((r.peer.map Fin.val).getD 0)] ++ bytes16 ((r.segment.map Prod.fst).getD 0) ++
      [(r.segment.map fun x => x.2.byte).getD 0] ++ bytes16 r.cycle ++ bytes32 r.position ++
      [BitVec.ofNat 8 r.discarded] ++ bytes16 ((r.range.map Prod.fst).getD 0) ++
      bytes16 ((r.range.map Prod.snd).getD 0) := by
  obtain ⟨cause, peer, segment, cycle, position, discarded, range⟩ := r
  cases segment <;> cases range <;> simp [HaltReport.bytes, bytes16]

/-- Settles O50: the report's bytes by which of its fields are present. -/
theorem readHaltReportAnswers : Obligations.ReadHaltReportAnswers := by
  refine ⟨fun s h hnone => ?_, fun s r h hreport => ⟨_, exec_readHaltReport_report h hreport, ?_⟩, fun k s t hexec => ?_,
    fun s t h hconfig hexec => ?_⟩
  · have hempty : (holdParams 0x22 [] s).haltCtl.report = none := hnone
    rw [exec_readHaltReport h, takeReadHaltReport, hempty]
    exact congrArg Host.Outcome.next (refuse_holdParams 0x22 [] s .empty 16)
  · have hpeer : (BitVec.ofNat 8 ((r.peer.map Fin.val).getD 0)).toNat = (r.peer.map Fin.val).getD 0 := by
      cases r.peer
      · rfl
      · exact toNat_ofNat_station _
    rw [answerBytes, if_pos rfl, haltReport_bytes_eq]
    refine ⟨rfl, rfl, rfl, hpeer.trans ?_, (join_bytes16 _).trans ?_, ?_, join_bytes16 _, join_bytes32 _, rfl,
      (join_bytes16 _).trans ?_, (join_bytes16 _).trans ?_⟩
    · cases r.peer <;> rfl
    · cases r.segment <;> rfl
    · cases r.segment <;> rfl
    · cases r.range <;> rfl
    · cases r.range <;> rfl
  · cases hexec
    rfl
  · rw [exec_restart h hconfig] at hexec
    cases hexec
    rfl

/-! ## READ PEER -/

theorem exec_readPeer_of_completes {bytes ps : List Byte} {s : State} (h : Completes 0x23 1 bytes s.port ps) :
    exec (.readPeer bytes) s = .next (takeReadPeer ps (holdParams 0x23 ps s)) :=
  congrArg Host.Outcome.next (clockRequest_of_completes h takeReadPeer)

theorem takeReadPeer_of_station {ps : List Byte} {k : Station} (h : (byteAt ps 0).toNat = k.val) (s : State) :
    takeReadPeer ps s = respond .accepted (s.entry k).bytes 22 s := by
  simp [takeReadPeer, h]

/-- The answer of READ PEER, byte by byte, with 0 for the fields of a note that is not shown. -/
theorem peerEntry_answer_eq (e : PeerEntry) : answerBytes .accepted e.bytes 22 =
    [0x01, e.presence.code, BitVec.ofNat 8 e.missed, e.view.lastCycle.extractLsb' 8 8, e.view.lastCycle.extractLsb' 0 8,
      byteOfBits [e.view.join, e.view.halted, e.view.origin, e.view.known], e.view.axis.setWidth 8,
      e.view.position.extractLsb' 24 8, e.view.position.extractLsb' 16 8, e.view.position.extractLsb' 8 8,
      e.view.position.extractLsb' 0 8, e.view.barTag, e.view.barArrival.extractLsb' 8 8,
      e.view.barArrival.extractLsb' 0 8, e.view.barMask.extractLsb' 8 8, e.view.barMask.extractLsb' 0 8,
      e.view.relTag, e.view.relCycle.extractLsb' 8 8, e.view.relCycle.extractLsb' 0 8,
      byteOfBits [e.memory, e.toggle, e.resync, e.refuse, e.view.note.isSome,
        (e.view.note.map NoteShown.toggle).getD false], (e.view.note.map NoteShown.number).getD 0,
      ((e.view.note.map NoteShown.pendingMask).getD 0).extractLsb' 8 8,
      ((e.view.note.map NoteShown.pendingMask).getD 0).extractLsb' 0 8] := by
  have hnone : byteOfBits [e.memory, e.toggle, e.resync, e.refuse] =
      byteOfBits [e.memory, e.toggle, e.resync, e.refuse, false, false] := rfl
  unfold PeerEntry.bytes
  cases hn : e.view.note with
  | none => simp [answerBytes, Answer.byte, hn, hnone, bytes16, bytes32]
  | some n => simp [answerBytes, Answer.byte, hn, bytes16, bytes32]

/-- The fields of the note shown, where there is one. -/
theorem noteShown_fields {note : Option NoteShown} {bits number : Byte} {mask : Mask} :
    bits.getLsbD 4 = note.isSome → bits.getLsbD 5 = (note.map NoteShown.toggle).getD false →
    number = (note.map NoteShown.number).getD 0 → mask = (note.map NoteShown.pendingMask).getD 0 →
    (match note with
      | none => bits.getLsbD 4 = false ∧ bits.getLsbD 5 = false ∧ number = 0 ∧ mask = 0
      | some n => bits.getLsbD 4 = true ∧ bits.getLsbD 5 = n.toggle ∧ number = n.number ∧ mask = n.pendingMask) := by
  cases note <;> exact fun hshown htoggle hnumber hmask => ⟨hshown, htoggle, hnumber, hmask⟩

/-- Settles O51: an entry's bytes, with and without a note shown. -/
theorem readPeerAnswers : Obligations.ReadPeerAnswers := by
  intro s bytes ps hcompletes
  rw [exec_readPeer_of_completes hcompletes]
  refine ⟨fun habove => ?_, fun k hk => ⟨answerBytes .accepted (s.entry k).bytes 22, ?_, ?_⟩⟩
  · rw [takeReadPeer, dif_neg (by omega), refuse_holdParams]
    rfl
  · rw [takeReadPeer_of_station hk]
    exact congrArg Host.Outcome.next (respond_holdParams 0x23 ps s .accepted (s.entry k).bytes 22)
  · generalize s.entry k = e
    have hview {i : Nat} (hi : i < 8) :=
      byteOfBits_getLsbD [e.view.join, e.view.halted, e.view.origin, e.view.known] hi
    have hbits {i : Nat} (hi : i < 8) := byteOfBits_getLsbD [e.memory, e.toggle, e.resync, e.refuse,
      e.view.note.isSome, (e.view.note.map NoteShown.toggle).getD false] hi
    rw [peerEntry_answer_eq]
    exact ⟨rfl, rfl, rfl, rfl, join_bytes16 _, hview (by decide), hview (by decide), hview (by decide),
      hview (by decide), rfl, join_bytes32 _, rfl, join_bytes16 _, join_bytes16 _, rfl, join_bytes16 _,
      hbits (by decide), hbits (by decide), hbits (by decide), hbits (by decide),
      noteShown_fields (hbits (by decide)) (hbits (by decide)) rfl
        (join_bytes16 ((e.view.note.map NoteShown.pendingMask).getD 0))⟩

end Sys2Proof.Claims
end

