-- ==== Sys2Proof/Proofs/SendNote.lean ====
section
/-! PROOFS. SEND NOTE by the conditions of R151, and READ NOTE SLOT in the layout of 12.3 (O52). -/

namespace Sys2Proof.Claims

open Sys2Proof.Machine

/-! ## SEND NOTE -/

/-- A completed SEND NOTE is taken with its parameters: its payload's length is one of them. -/
theorem exec_sendNote_of_completes {bytes ps : List Byte} {s : State} {len : Nat}
    (h : Completes 0x30 (if len ≤ 8 then 3 + len else 3) bytes s.port ps) (hlen : (byteAt ps 2).toNat = len) :
    exec (.sendNote bytes) s = .next (takeSendNote ps (holdParams 0x30 ps s)) ∧
      ps.length = if len ≤ 8 then 3 + len else 3 := by
  obtain ⟨all, hall, hlength, rfl⟩ := h.assembled_eq
  have hthree : 3 ≤ if len ≤ 8 then 3 + len else 3 := by split <;> omega
  have hbyte : byteAt (all.take (if len ≤ 8 then 3 + len else 3)) 2 = byteAt all 2 := by
    unfold byteAt
    rw [List.getD_eq_getElem?_getD, List.getD_eq_getElem?_getD, List.getElem?_take_of_lt (by omega)]
  have hneeds : sendNoteNeeds all = if len ≤ 8 then 3 + len else 3 := by
    rw [hbyte] at hlen
    rw [sendNoteNeeds, if_neg (by omega), hlen]
  refine ⟨?_, by rw [List.length_take, Nat.min_eq_left hlength]⟩
  show Host.Outcome.next (clockRequest 0x30 sendNoteNeeds bytes takeSendNote s) = _
  rw [clockRequest, hall]
  dsimp only
  rw [hneeds, if_neg (Nat.not_lt.mpr hlength)]

/-- The conditions of R151 on the parameters, in the terms of the mask. -/
theorem noteValid_iff (s : State) (ps : List Byte) : noteValid s ps = true ↔
    (byteAt ps 2).toNat ≤ 8 ∧ word16At ps 0 ≠ 0 ∧
      ∀ k : Station, inMask (word16At ps 0) k = true → k ≠ s.id ∧ k.val < s.stationCount := by
  unfold noteValid
  simp only [Bool.and_eq_true, decide_eq_true_eq, Bool.not_eq_true', hasBitFrom_eq_false_iff, and_assoc]
  refine and_congr Iff.rfl (and_congr Iff.rfl ?_)
  constructor
  · rintro ⟨hown, hbelow⟩ k hk
    exact ⟨fun hko => (by rw [hko, hown] at hk; cases hk), hbelow k hk⟩
  · intro h
    exact ⟨Bool.not_eq_true _ ▸ fun hown => (h s.id hown).1 rfl, fun k hk => (h k hk).2⟩

theorem freeId_eq_none_of {u : NoteUnit} (h : ∀ i, u.slots.get i ≠ .free) : u.freeId = none := by
  unfold NoteUnit.freeId
  rw [List.find?_eq_none]
  exact fun i _ => by simpa using h i

/-- The lowest-numbered FREE slot. -/
theorem freeId_eq_some_of {u : NoteUnit} {i : Fin 4} (hi : u.slots.get i = .free)
    (hbelow : ∀ j, j < i → u.slots.get j ≠ .free) : u.freeId = some i := by
  unfold NoteUnit.freeId slotIds
  fin_cases i
  · simp_all
  · have h0 := hbelow 0 (by decide)
    simp_all
  · have h0 := hbelow 0 (by decide)
    have h1 := hbelow 1 (by decide)
    simp_all
  · have h0 := hbelow 0 (by decide)
    have h1 := hbelow 1 (by decide)
    have h2 := hbelow 2 (by decide)
    simp_all

/-! ## READ NOTE SLOT -/

theorem exec_readNoteSlot_of_completes {bytes ps : List Byte} {s : State} (h : Completes 0x32 1 bytes s.port ps) :
    exec (.readNoteSlot bytes) s = .next (takeReadNoteSlot ps (holdParams 0x32 ps s)) :=
  congrArg Host.Outcome.next (clockRequest_of_completes h takeReadNoteSlot)

theorem takeReadNoteSlot_of_slot {ps : List Byte} {i : Fin 4} (h : (byteAt ps 0).toNat = i.val) (s : State) :
    takeReadNoteSlot ps s = respond .accepted (s.notes.slots.get i).bytes 18 s := by
  simp [takeReadNoteSlot, h]

/-- Two bytes of a mask of standings show which stations stand so. -/
theorem inMask_standingMask (st : Vector Standing 16) (p : Standing → Bool) (k : Station) :
    inMask ((standingMask st p).extractLsb' 8 8 ++ (standingMask st p).extractLsb' 0 8) k = p (st.get k) := by
  rw [join_bytes16, standingMask, inMask_maskWhere]

theorem zero_word16 : (0 : Byte) ++ (0 : Byte) = (0 : BitVec 16) := by decide

/-- The five masks of an outcome, at bytes 8 to 17 of the response. -/
theorem showsOutcome_of_layout {answer head : List Byte} {st : Vector Standing 16} (hlength : head.length = 9)
    (h : answer = head ++ outcomeBytes st) : ShowsOutcome answer st := by
  obtain ⟨a, b, c, d, e, f, g, i, j, rfl⟩ : ∃ a b c d e f g i j, head = [a, b, c, d, e, f, g, i, j] := by
    match head, hlength with
    | [a, b, c, d, e, f, g, i, j], _ => exact ⟨a, b, c, d, e, f, g, i, j, rfl⟩
  subst h
  intro k
  exact ⟨inMask_standingMask st _ k, inMask_standingMask st _ k, inMask_standingMask st _ k, inMask_standingMask st _ k,
    inMask_standingMask st _ k⟩

theorem byteAt_replicate_zero (n i : Nat) : byteAt (List.replicate n 0) i = 0 := by
  unfold byteAt
  rw [List.getD_eq_getElem?_getD, List.getElem?_replicate]
  split <;> rfl

/-- The bytes of a slot (R163), by its state. -/
theorem noteSlot_layout (x : NoteSlot) (answer : List Byte) : answer = answerBytes .accepted x.bytes 18 →
    answer.length = 19 ∧ byteAt answer 0 = 0x01 ∧
      (match x with
        | .free => ∀ j, 1 ≤ j → byteAt answer j = 0
        | .queued n dests _ => byteAt answer 1 = 1 ∧ byteAt answer 2 = n ∧ word16At answer 3 = dests ∧
            ∀ j, 5 ≤ j → byteAt answer j = 0
        | .sending n dests _ _ st => byteAt answer 1 = 2 ∧ byteAt answer 2 = n ∧ word16At answer 3 = dests ∧
            (∀ k : Station,
              inMask (word16At answer 5) k = (st.get k).isPending ∧
              inMask (word16At answer 7) k = decide (st.get k = .deferred)) ∧
            ShowsOutcome answer st
        | .done n dests st => byteAt answer 1 = 3 ∧ byteAt answer 2 = n ∧ word16At answer 3 = dests ∧
            word16At answer 5 = 0 ∧ word16At answer 7 = 0 ∧ ShowsOutcome answer st) := by
  rintro rfl
  refine ⟨by cases x <;> rfl, rfl, ?_⟩
  cases x with
  | free =>
    intro j hj
    obtain ⟨j, rfl⟩ : ∃ i, j = i + 1 := ⟨j - 1, by omega⟩
    exact byteAt_replicate_zero 18 j
  | queued n dests p =>
    refine ⟨rfl, rfl, join_bytes16 dests, fun j hj => ?_⟩
    obtain ⟨j, rfl⟩ : ∃ i, j = i + 5 := ⟨j - 5, by omega⟩
    exact byteAt_replicate_zero 14 j
  | sending n dests p c st =>
    exact ⟨rfl, rfl, join_bytes16 dests, fun k => ⟨inMask_standingMask st _ k, inMask_standingMask st _ k⟩,
      showsOutcome_of_layout (head := [0x01, 0x02, n] ++ bytes16 dests ++
        bytes16 (standingMask st Standing.isPending) ++ bytes16 (standingMask st (· == .deferred))) rfl rfl⟩
  | done n dests st =>
    exact ⟨rfl, rfl, join_bytes16 dests, zero_word16, zero_word16,
      showsOutcome_of_layout (head := [0x01, 0x03, n] ++ bytes16 dests ++ [0, 0, 0, 0]) rfl rfl⟩

/-- Settles O52: SEND NOTE by its conditions in order, READ NOTE SLOT by the slot number and the slot's state. -/
theorem sendNoteAndReadSlot : Obligations.SendNoteAndReadSlot := by
  refine ⟨fun s bytes ps len hcompletes hlen => ?_, fun s bytes ps hcompletes => ?_⟩
  · obtain ⟨hexec, hlength⟩ := exec_sendNote_of_completes hcompletes hlen
    rw [hexec]
    refine ⟨fun hnone => ?_, fun hconfig hbad => ?_, fun hconfig hshort hdests hmask => ?_⟩
    · rw [takeSendNote, if_pos (by exact Option.isNone_iff_eq_none.mpr hnone), refuse_holdParams]
      rfl
    · have hinvalid : ¬ noteValid s ps = true := fun hvalid => by
        obtain ⟨hshort, hdests, hmask⟩ := (noteValid_iff s ps).mp hvalid
        obtain hlong | hzero | ⟨k, hk, hown | habove⟩ := hbad
        · omega
        · exact hdests hzero
        · exact (hmask k hk).1 hown
        · exact Nat.not_le.mpr (hmask k hk).2 habove
      rw [takeSendNote, if_neg (isNone_holdParams _ _ hconfig), if_neg (by exact hinvalid), refuse_holdParams]
      rfl
    · have hvalid : noteValid s ps = true := (noteValid_iff s ps).mpr ⟨by omega, hdests, hmask⟩
      rw [takeSendNote, if_neg (isNone_holdParams _ _ hconfig), if_pos (by exact hvalid)]
      refine ⟨fun hfull => ?_, fun i hi hbelow => ?_⟩
      · have hno : (holdParams 0x30 ps s).notes.freeId = none := freeId_eq_none_of hfull
        rw [hno]
        exact congrArg Host.Outcome.next (refuse_holdParams 0x30 ps s .noSlot 2)
      · have hfree : (holdParams 0x30 ps s).notes.freeId = some i := freeId_eq_some_of hi hbelow
        have hpayload : (ps.drop 3).take (byteAt ps 2).toNat = ps.drop 3 :=
          List.take_of_length_le (by rw [List.length_drop, hlength, if_pos hshort, hlen]; omega)
        rw [hfree, hpayload]
        exact congrArg Host.Outcome.next (respond_port_of_holdParams (s := s)
          (t := placeNote i (word16At ps 0) (ps.drop 3) (holdParams 0x30 ps s)) rfl .accepted
          [BitVec.ofNat 8 i.val, s.notes.nextNumber] 2)
  · rw [exec_readNoteSlot_of_completes hcompletes]
    refine ⟨fun habove => ?_, fun i hi => ⟨answerBytes .accepted (s.notes.slots.get i).bytes 18, ?_,
      noteSlot_layout _ _ rfl⟩⟩
    · rw [takeReadNoteSlot, dif_neg (by omega), refuse_holdParams]
      rfl
    · rw [takeReadNoteSlot_of_slot hi]
      exact congrArg Host.Outcome.next (respond_holdParams 0x32 ps s .accepted _ 18)

end Sys2Proof.Claims
end

