-- ==== Sys2Proof/Proofs/Tick.lean ====
section
/-! PROOFS. The tick: the count by link state and what it raises (O5), and the samples, the timers and the receiver (O6). -/

namespace Sys2Proof.Machine

/-! ## Slots -/

theorem slotBeginning_isSome (n pos : Nat) :
    (slotBeginning n pos).isSome = true ↔ ∃ k, k < n ∧ pos = 24 + 96 * k := by
  constructor
  · intro h
    obtain ⟨k, hk⟩ := Option.isSome_iff_exists.mp h
    exact ⟨k, slotBeginning_eq_some hk⟩
  · rintro ⟨k, hk, rfl⟩
    rw [slotBeginning, if_pos (by omega)]
    rfl

theorem slotBeginning_of_own {n k : Nat} (hk : k < n) : slotBeginning n (24 + 96 * k) = some k := by
  rw [slotBeginning, if_pos (by omega)]
  exact congrArg some (by omega)

theorem inSlot_iff (k : Station) (pos : Nat) :
    inSlot k pos = true ↔ 24 + 96 * k.val ≤ pos ∧ pos ≤ 119 + 96 * k.val := by
  rw [inSlot, decide_eq_true_eq]
  omega

/-! ## The count -/

/-- The count of a tick leaves everything but t, the founding request and what it raises. -/
theorem advanceCount_frame (state : LinkState) (cycleUs n : Nat) (x : Timer) :
    let y := advanceCount state cycleUs n x
    y.divider = x.divider ∧ y.cycle = x.cycle ∧ y.earlyRun = x.earlyRun ∧ y.earlySeen = x.earlySeen ∧
      y.armed = x.armed ∧ y.pulse = x.pulse ∧ y.adoption = x.adoption ∧ y.syncHigh = x.syncHigh ∧
      y.highRun = x.highRun ∧ y.raised.edge = x.raised.edge ∧
      y.founding = if state = .listen then ageFounding x.founding else x.founding := by
  unfold advanceCount
  cases state <;> dsimp only
  · simp
  all_goals split <;> simp [reachPosition]

/-- What counting reaches, in the states that count cycles. -/
theorem reachPosition_slotStart (n p : Nat) (x : Timer) :
    (reachPosition n p x).raised.slotStart = true ↔ ∃ k, k < n ∧ p = 24 + 96 * k :=
  slotBeginning_isSome n p

theorem exec_tick {pins : PinLevels} {lineStart : Bool} {s : State} (h : anyDue s = false) :
    exec (.tick ⟨pins, lineStart⟩) s = .next (tickAll pins lineStart s) :=
  congrArg Host.Outcome.next (if_neg (by rw [h]; exact Bool.false_ne_true))

/-- With no event due, nothing stands raised that a tick could overwrite. -/
theorem raised_of_none_due {s : State} (h : anyDue s = false) :
    s.timer.raised.runOut = false ∧ s.timer.raised.stretched = false ∧ s.timer.raised.slotStart = false ∧
      (s.link.state = .listen → s.timer.raised.silence = false) := by
  simp only [anyDue, Bool.or_eq_false_iff] at h
  obtain ⟨⟨⟨⟨⟨⟨⟨⟨⟨⟨⟨⟨⟨⟨⟨⟨⟨hrunOut, hstretched⟩, _⟩, hslot⟩, hsilence⟩, _⟩, _⟩, _⟩, _⟩, _⟩, _⟩, _⟩, _⟩, _⟩, _⟩, _⟩, _⟩, _⟩ := h
  refine ⟨hrunOut, hstretched, hslot, fun hlisten => ?_⟩
  simpa [silenceDue, hlisten] using hsilence

/-- The timer after the sample of a tick, before the count. -/
def sampledTimer (s : State) (pins : PinLevels) : Timer :=
  sampleSync (syncSample pins (countDown s.timer.pulse)) { s.timer with divider := 0, pulse := countDown s.timer.pulse }

theorem tickAll_timer (pins : PinLevels) (lineStart : Bool) (s : State) : (tickAll pins lineStart s).timer =
    advanceCount s.link.state s.cycleUs s.stationCount (sampledTimer s pins) := rfl

/-! ## The samples -/

theorem countDown_eq_ticked (x : Option Nat) : countDown x = Claims.ticked x := by cases x <;> rfl

/-- SYNC is low under the own pulse, but not in its last tick. -/
theorem syncSample_eq (pins : PinLevels) (pulse : Option Nat) :
    syncSample pins pulse = (pins.sync && (pulse == none || pulse == some 0)) := by
  unfold syncSample
  cases pulse with
  | none => rfl
  | some n => cases n <;> simp

theorem filter_sample (pin : Bool) (f : Filter) : Claims.Filtered pin f (f.sample pin) := by
  unfold Claims.Filtered Filter.sample
  cases f.primed <;> simp

theorem ageFounding_eq (x : FoundingRequest) : ageFounding x = if x = .requested then .due else x := by
  cases x <;> rfl

/-! ## The receiver -/

theorem receiverOff_iff (s : State) (pos : Nat) : receiverOff s pos = true ↔
    s.link.state = .idle ∨ ((s.link.state = .joining ∨ s.link.state = .active) ∧
      24 + 96 * s.id.val ≤ pos ∧ pos ≤ 119 + 96 * s.id.val) := by
  unfold receiverOff
  cases s.link.state <;> simp [inSlot_iff]

theorem beginsFrame_iff_window (s : State) (pos : Nat) : beginsFrame s pos = true ↔
    (∃ k, k < s.stationCount ∧ 24 + 96 * k ≤ pos ∧ pos ≤ 31 + 96 * k) ∧ (s.link.state = .listen → pos < s.cycleUs) := by
  rw [beginsFrame_iff]
  refine and_congr ⟨fun h => ⟨(pos - 24) / 96, by omega⟩, fun ⟨k, hk, hlow, hhigh⟩ => ?_⟩ Iff.rfl
  have hdiv : (pos - 24) / 96 = k := by omega
  omega

/-- A start bit that a looking receiver meets: off, in a window, or elsewhere. -/
theorem tickRx_of_start {s : State} (pos : Nat) (h : s.link.rx = .looking) :
    (receiverOff s pos = true → tickRx s pos true = .looking) ∧
      (receiverOff s pos = false → beginsFrame s pos = true → tickRx s pos true = .receiving pos 0) ∧
      (receiverOff s pos = false → beginsFrame s pos = false → tickRx s pos true = .waiting) := by
  unfold tickRx
  rw [h]
  refine ⟨fun hoff => by simp [hoff], fun hon hbegins => by simp [hon, hbegins], fun hon hbegins => by simp [hon, hbegins]⟩

/-- The interval count of the executing HOME or PROBE is all that a tick moves in the sequencer. -/
theorem tickSeq_exec (q : Sequencer) : (match q.exec with
    | none => (tickSeq q).exec = none
    | some e =>
      match e.source with
      | .untimed u =>
        (tickSeq q).exec = some { e with source := .untimed { u with
          intervalCount := if u.emitted = 0 then u.intervalCount else min 65535 (u.intervalCount + 1) } }
      | _ => (tickSeq q).exec = some e) := by
  unfold tickSeq
  cases q.exec with
  | none => rfl
  | some e =>
    obtain ⟨seg, startCycle, source⟩ := e
    cases source with
    | none => rfl
    | timed src => rfl
    | untimed u =>
      simp only [tickSource, Option.map_some]
      split <;> rfl

end Sys2Proof.Machine

namespace Sys2Proof.Claims

open Sys2Proof.Machine

/-- Settles O5, by the link state and by whether the count reaches its end. -/
theorem tickCountsByLinkState : Obligations.TickCountsByLinkState := by
  intro pins lineStart s hdue
  obtain ⟨hrunOut, hstretched, hslot, hsilence⟩ := raised_of_none_due hdue
  obtain ⟨hdivider, hcycle, _⟩ := advanceCount_frame s.link.state s.cycleUs s.stationCount (sampledTimer s pins)
  refine ⟨_, exec_tick hdue, hdivider, hcycle, fun hidle => ?_, fun hlisten => ?_, fun hcounting => ?_, fun hduplicate => ?_⟩
  all_goals rw [tickAll_timer]
  · rw [hidle]
    exact ⟨rfl, hslot⟩
  · rw [hlisten]
    simp only [advanceCount]
    have ht : (sampledTimer s pins).t = s.timer.t := rfl
    have hquiet : (sampledTimer s pins).raised.silence = false := hsilence hlisten
    have hno : (sampledTimer s pins).raised.slotStart = false := hslot
    split
    · refine ⟨by simp only [reachPosition]; omega, ?_, ?_⟩
      · simp only [reachPosition, hquiet]
        exact iff_of_false nofun (by omega)
      · rw [reachPosition_slotStart]
        split <;> simp_all
    · refine ⟨by simp only; omega, ?_, ?_⟩
      · simp only [decide_eq_true_eq, ht]
        omega
      · simp only [hno]
        exact iff_of_false nofun (by omega)
  · have hcount : advanceCount s.link.state s.cycleUs s.stationCount (sampledTimer s pins) =
        advanceCount .joining s.cycleUs s.stationCount (sampledTimer s pins) := by
      obtain h | h := hcounting <;> rw [h]
      rfl
    rw [hcount]
    simp only [advanceCount]
    have ht : (sampledTimer s pins).t = s.timer.t := rfl
    rw [ht]
    split
    · exact ⟨rfl, hrunOut, reachPosition_slotStart _ _ _⟩
    · exact ⟨rfl, rfl, hslot⟩
  · rw [hduplicate]
    simp only [advanceCount]
    have ht : (sampledTimer s pins).t = s.timer.t := rfl
    rw [ht]
    split
    · exact ⟨rfl, hstretched, reachPosition_slotStart _ _ _⟩
    · exact ⟨rfl, rfl, hslot⟩

/-- Settles O6: the count leaves what the sample wrote, and each block's part is written once. -/
theorem tickSamplesAndAges : Obligations.TickSamplesAndAges := by
  intro pins lineStart s hdue
  obtain ⟨_, _, hearlyRun, hearlySeen, harmed, hpulse, hadoption, hsyncHigh, hhighRun, hedge, hfounding⟩ :=
    advanceCount_frame s.link.state s.cycleUs s.stationCount (sampledTimer s pins)
  have hp : (sampledTimer s pins).pulse = ticked s.timer.pulse := countDown_eq_ticked _
  refine ⟨_, exec_tick hdue, hpulse.trans hp, fun sample hsample => ?_, harmed, hadoption, hearlySeen, hearlyRun, ?_, rfl,
    countDown_eq_ticked _, countDown_eq_ticked _, rfl, rfl, rfl, rfl, fun i => ?_, filter_sample _ _, rfl, rfl, rfl,
    fun start elapsed hrx => ?_, fun hrx => ?_, fun hrx hstart => ?_, fun hrx hstart off inWindow hoff hwindow => ?_,
    rfl, rfl, rfl, rfl, tickSeq_exec s.seq, rfl, rfl, rfl, rfl, rfl, rfl, rfl, rfl, rfl⟩
  · have hs : syncSample pins (countDown s.timer.pulse) = sample := by
      rw [hsample, syncSample_eq]
      exact congrArg (fun p : Option Nat => pins.sync && (p == none || p == some 0))
        ((countDown_eq_ticked _).trans (hpulse.trans hp).symm)
    rw [tickAll_timer, hsyncHigh, hedge, hhighRun, ← hs]
    exact ⟨rfl, rfl, rfl⟩
  · rw [tickAll_timer, hfounding, ageFounding_eq]
    show (if s.link.state = .listen then if s.timer.founding = .requested then .due else s.timer.founding
      else s.timer.founding) = _
    by_cases hlisten : s.link.state = .listen <;> simp [hlisten]
  · cases i <;> exact filter_sample _ _
  · show tickRx s _ lineStart = _
    rw [tickRx, hrx]
  · show tickRx s _ lineStart = _
    rw [tickRx, hrx]
  · show tickRx s _ lineStart = _
    rw [tickRx, hrx, hstart]
    rfl
  · subst hstart
    obtain ⟨hlooking, hreceiving, hwaiting⟩ := tickRx_of_start (tickTimer s pins).t hrx
    have hoff' : receiverOff s (tickTimer s pins).t = true ↔ off := (receiverOff_iff _ _).trans hoff.symm
    have hwindow' : beginsFrame s (tickTimer s pins).t = true ↔ inWindow := (beginsFrame_iff_window _ _).trans hwindow.symm
    have hon (h : ¬ off) : receiverOff s (tickTimer s pins).t = false := by rwa [← Bool.not_eq_true, hoff']
    refine ⟨fun h => hlooking (hoff'.mpr h), fun h hw => hreceiving (hon h) (hwindow'.mpr hw), fun h hw => ?_⟩
    exact hwaiting (hon h) (by rwa [← Bool.not_eq_true, hwindow'])

end Sys2Proof.Claims
end

