-- ==== Sys2Proof/Proofs/ReceivedFrames.lean ====
section
/-! PROOFS. A received frame on its way through the link: when it is judged, what discards it (O13), what LISTEN and
JOINING take from its number (O16), and the state in which a compatible one is recorded. -/

namespace Sys2Proof.Machine

open Sys2Proof.Claims

/-! ## Judging -/

theorem slotOfStart_eq_none {n start : Nat} (h : ∀ k, k < n → start < 24 + 96 * k ∨ 31 + 96 * k < start) :
    slotOfStart n start = none := by
  refine if_neg fun ⟨hfirst, hwindow, hslot⟩ => ?_
  have := h ((start - 24) / 96) hslot
  omega

theorem validSlot_eq_none {n start : Nat} {chars : List RxChar} (h : slotOfStart n start = none) :
    validSlot n start chars = none := by
  unfold validSlot
  rw [h]

/-- The state in which a frame is judged: the receiver waits for a recessive line. -/
def judged (s : State) : State := s.setLink { s.link with rx := .waiting }

theorem exec_frame_of_not_sampled {start : Nat} {chars : List RxChar} {s : State} (h : ¬ Sampled chars s start) (b : Bool) :
    exec (.frameReceived start chars b) s = .next s :=
  congrArg Host.Outcome.next (if_neg fun hreceived => h ((receivedStart_eq_some _ _ _).mp hreceived))

theorem exec_frame_of_sampled {start : Nat} {chars : List RxChar} {s : State} (h : Sampled chars s start) (b : Bool) :
    exec (.frameReceived start chars b) s = .next (receiveFrame b start chars s) :=
  congrArg Host.Outcome.next (if_pos ((receivedStart_eq_some _ _ _).mpr h))

theorem exec_frame_of_invalid {start : Nat} {chars : List RxChar} {s : State} (h : Sampled chars s start)
    (hinvalid : validSlot s.stationCount start chars = none) (b : Bool) :
    exec (.frameReceived start chars b) s = .next (judged s) := by
  rw [exec_frame_of_sampled h, receiveFrame, hinvalid]
  rfl

theorem exec_frame_of_hears {start : Nat} {chars : List RxChar} {s : State} {k : Station} {f : Frame}
    (h : Hears start chars s k f) (b : Bool) :
    exec (.frameReceived start chars b) s = .next (validFrame b k f (judged s)) := by
  obtain ⟨hsampled, hvalid, rfl⟩ := h
  rw [exec_frame_of_sampled hsampled, receiveFrame, hvalid]
  rfl

/-! ## A valid frame by the link state -/

theorem validFrame_listen {s : State} (h : s.link.state = .listen) (b : Bool) (k : Station) (f : Frame) :
    validFrame b k f s = if s.link.prevEdge then candidateRule f s else s := by
  unfold validFrame
  rw [h]

theorem validFrame_own {s : State} {k : Station} (hk : k = s.id) (h : s.link.state ≠ .listen) (b : Bool) (f : Frame) :
    validFrame b k f s = s := by
  unfold validFrame
  cases hstate : s.link.state with
  | listen => exact absurd hstate h
  | idle => rfl
  | joining | active | duplicate => exact if_pos hk

theorem validFrame_counting {s : State} {k : Station} (hk : k ≠ s.id)
    (h : s.link.state = .joining ∨ s.link.state = .active ∨ s.link.state = .duplicate) (b : Bool) (f : Frame) :
    validFrame b k f s = handleFrame b k f s := by
  unfold validFrame
  obtain h | h | h := h <;> rw [h] <;> exact if_neg hk

theorem handleFrame_mismatch {s : State} {f : Frame} (h : profileMatches s.cfg f = false) (b : Bool) (k : Station) :
    handleFrame b k f s = profileMismatch b k s :=
  if_neg (by rw [h]; exact Bool.false_ne_true)

/-- In ACTIVE a compatible frame agrees with the number of the cycle, or slips. -/
theorem handleFrame_active {s : State} {f : Frame} (h : profileMatches s.cfg f = true) (hstate : s.link.state = .active)
    (b : Bool) (k : Station) : handleFrame b k f s =
      if f.view.lastCycle = s.timer.cycle then acceptFrame b k f (noteAgreed s) else noteSlip s := by
  unfold handleFrame
  rw [if_pos h, hstate]

theorem handleFrame_duplicate {s : State} {f : Frame} (h : profileMatches s.cfg f = true)
    (hstate : s.link.state = .duplicate) (b : Bool) (k : Station) :
    handleFrame b k f s = if f.view.lastCycle = s.timer.cycle then acceptFrame b k f s else s := by
  unfold handleFrame
  rw [if_pos h, hstate]

theorem handleFrame_joining {s : State} {f : Frame} (h : profileMatches s.cfg f = true)
    (hstate : s.link.state = .joining) (b : Bool) (k : Station) :
    handleFrame b k f s = acceptFrame b k f (adoptionRule f s) := by
  unfold handleFrame
  rw [if_pos h, hstate]

/-! ## The state in which a compatible frame is recorded -/

/-- The link's own part of a frame that it hands to the Peer Table: the agreeing cycle, or the adoption. -/
def linkTakes (f : Frame) (s : State) : State :=
  match s.link.state with
  | .joining => adoptionRule f s
  | .active => noteAgreed s
  | .idle | .listen | .duplicate => s

theorem exec_frame_of_records {start : Nat} {chars : List RxChar} {s : State} {k : Station} {f : Frame}
    (h : Records start chars s k f) (b : Bool) :
    exec (.frameReceived start chars b) s = .next (acceptFrame b k f (linkTakes f (judged s))) := by
  obtain ⟨hhears, hown, hprofile, hstate⟩ := h
  have hjudged : profileMatches (judged s).cfg f = true := hprofile
  have hother : k ≠ (judged s).id := hown
  rw [exec_frame_of_hears hhears]
  congr 1
  unfold linkTakes
  obtain hjoining | ⟨hactive | hduplicate, hcycle⟩ := hstate
  · have hj : (judged s).link.state = .joining := hjoining
    rw [validFrame_counting hother (.inl hj), handleFrame_joining hjudged hj, hj]
  · have hj : (judged s).link.state = .active := hactive
    rw [validFrame_counting hother (.inr (.inl hj)), handleFrame_active hjudged hj, hj, if_pos (by exact hcycle)]
  · have hj : (judged s).link.state = .duplicate := hduplicate
    rw [validFrame_counting hother (.inr (.inr hj)), handleFrame_duplicate hjudged hj, hj, if_pos (by exact hcycle)]

/-- The adoption rule, as the frame beats the own number and the request or does not (R126). -/
theorem adopts_iff (f : Frame) (s : State) : (beatsOwn f.view s.timer.cycle && beatsRequest f.view s.link.request) = true ↔
    f.view.lastCycle ≠ s.timer.cycle ∧ (f.view.join = false ∨ later f.view.lastCycle s.timer.cycle = true) ∧
      (∀ c, s.link.request = some c → f.view.join = true → c.join = true ∧ later f.view.lastCycle c.cycle = true) := by
  unfold beatsOwn beatsRequest
  cases s.link.request <;> cases f.view.join <;> simp [and_assoc]

/-- What the link's own part leaves: the request and the slip mark of the link, and the adoption of the timer. -/
structure LinkTook (s t : State) : Prop where
  state : t = { s with
    timer := { s.timer with adoption := t.timer.adoption }
    link := { s.link with request := t.link.request, slips := t.link.slips } }
  slips : t.link.slips = if s.link.state = .active then .agreed else s.link.slips
  adoption : s.link.state ≠ .joining → t.timer.adoption = s.timer.adoption

theorem linkTakes_took (f : Frame) (s : State) : LinkTook s (linkTakes f s) := by
  unfold linkTakes
  cases hstate : s.link.state with
  | joining =>
    dsimp only
    unfold adoptionRule
    split
    · exact ⟨rfl, (if_neg (by rw [hstate]; decide)).symm, fun h => absurd hstate h⟩
    · exact ⟨rfl, (if_neg (by rw [hstate]; decide)).symm, fun _ => rfl⟩
  | active => exact ⟨rfl, (if_pos hstate).symm, fun _ => rfl⟩
  | idle | listen | duplicate => exact ⟨rfl, (if_neg (by rw [hstate]; decide)).symm, fun _ => rfl⟩

theorem haltFrame_clock (k : Station) (v : PeerView) (s : State) : SameClock s (haltFrame k v s) :=
  (motion_frame (haltFrame_motion k v s)).clock

theorem acceptFrame_clock (b : Bool) (k : Station) (f : Frame) (s : State) : SameClock s (acceptFrame b k f s) := by
  refine (recordFrame_clock k f.view s).trans (SameClock.trans ?_
    ((noteSenderFrame_clock k f _).trans (noteReceiverFrame_clock k f _)))
  cases b with
  | true => exact (barrierFrame_clock k f.view _).trans (haltFrame_clock k f.view _)
  | false => exact (haltFrame_clock k f.view _).trans (barrierFrame_clock k f.view _)

theorem LinkTook.station {s t : State} (h : LinkTook s t) : SameStation s t := by
  rw [h.state]
  exact ⟨rfl, rfl, rfl, rfl⟩

end Sys2Proof.Machine

namespace Sys2Proof.Claims

open Sys2Proof.Machine

/-- Settles O13, by what keeps the frame from being recorded. -/
theorem unrecordedFrameLeavesNoTrace : Obligations.UnrecordedFrameLeavesNoTrace := by
  refine ⟨fun start chars b s h => exec_frame_of_not_sampled h b, fun start chars b s hsampled hinvalid => ?_,
    fun start chars b s k f hhears hown hprofile hslip hactive => ?_,
    fun start chars b s k f hhears hduplicate hother => ?_⟩
  · exact exec_frame_of_invalid hsampled (hinvalid.elim (fun h => validSlot_eq_none (slotOfStart_eq_none h)) id) b
  · have hj : (judged s).link.state = .active := hactive
    have hother : k ≠ (judged s).id := hown
    rw [exec_frame_of_hears hhears, validFrame_counting hother (.inr (.inl hj)),
      handleFrame_active (by exact hprofile) hj, if_neg (by exact hslip)]
    rfl
  · have hj : (judged s).link.state = .duplicate := hduplicate
    rw [exec_frame_of_hears hhears]
    by_cases hown : k = s.id
    · have hsame : k = (judged s).id := hown
      rw [validFrame_own hsame (by rw [hj]; decide)]
      rfl
    · obtain ⟨hprofile, hslip⟩ := hother.resolve_left hown
      have hsender : k ≠ (judged s).id := hown
      rw [validFrame_counting hsender (.inr (.inr hj)), handleFrame_duplicate (by exact hprofile) hj, if_neg (by exact hslip)]
      rfl

/-- The candidate that stands after a compatible frame of LISTEN (R123). -/
theorem candidateRule_eq (f : Frame) (s : State) (hprofile : profileMatches s.cfg f = true) :
    candidateRule f s = { s with link := { s.link with candidate :=
      match s.link.candidate with
      | none => some { cycle := f.view.lastCycle, join := f.view.join }
      | some c =>
        if c.join = true ∧ (f.view.join = false ∨ later f.view.lastCycle c.cycle = true) then
          some { cycle := f.view.lastCycle, join := f.view.join }
        else some c } } := by
  unfold candidateRule
  rw [if_pos hprofile]
  cases hcandidate : s.link.candidate with
  | none => rfl
  | some c =>
    have hbeats : beatsCandidate f.view (some c) = true ↔
        c.join = true ∧ (f.view.join = false ∨ later f.view.lastCycle c.cycle = true) := by
      simp [beatsCandidate]
    by_cases hc : c.join = true ∧ (f.view.join = false ∨ later f.view.lastCycle c.cycle = true)
    · rw [if_pos (hbeats.mpr hc)]
      simp only [if_pos hc]
      rfl
    · rw [if_neg (fun h => hc (hbeats.mp h))]
      simp only [if_neg hc, ← hcandidate]

/-- Settles O16, by the previous edge and the profile in LISTEN, and by the adoption rule in JOINING. -/
theorem frameNumberIsTakenUp : Obligations.FrameNumberIsTakenUp := by
  refine ⟨fun start chars b s k f hhears hlisten => ?_, fun start chars b s k f hrecords hjoining => ?_⟩
  · have hj : (judged s).link.state = .listen := hlisten
    rw [exec_frame_of_hears hhears, validFrame_listen hj]
    congr 1
    cases hprev : s.link.prevEdge with
    | false =>
      rw [if_neg (by simp [judged, hprev])]
      simp [judged, State.setLink]
    | true =>
      rw [if_pos (by exact hprev)]
      cases hprofile : profileMatches s.cfg f with
      | true =>
        rw [candidateRule_eq f (judged s) hprofile]
        cases hcandidate : s.link.candidate <;> simp [judged, State.setLink, hcandidate]
      | false =>
        rw [candidateRule, if_neg (by rw [show (judged s).cfg = s.cfg from rfl, hprofile]; exact Bool.false_ne_true)]
        simp [judged, State.setLink]
  · have hj : (judged s).link.state = .joining := hjoining
    refine ⟨_, exec_frame_of_records hrecords b, fun hadopts => ?_, fun hnot => ?_⟩
    all_goals
      have hclock := acceptFrame_clock b k f (linkTakes f (judged s))
      rw [hclock.timer, hclock.link, linkTakes, hj]
      dsimp only
      rw [adoptionRule]
    · rw [if_pos ((adopts_iff f (judged s)).mpr hadopts)]
      exact ⟨rfl, rfl⟩
    · rw [if_neg (fun h => hnot ((adopts_iff f (judged s)).mp h))]
      exact ⟨rfl, rfl⟩

end Sys2Proof.Claims
end

