-- ==== Sys2Proof/Proofs/RecordedFrames.lean ====
section
/-! PROOFS. A compatible frame in the Peer Table and the Note Unit: its entry (O14), and the notes it brings (O21). -/

namespace Sys2Proof.Machine

open Sys2Proof.Claims

/-! ## Writing one entry -/

@[simp] theorem setEntry_setEntry (k : Station) (d e : PeerEntry) (s : State) :
    setEntry k e (setEntry k d s) = setEntry k e s := by
  simp [setEntry, State.setPeers, Vector.set]

theorem updateEntry_updateEntry (k : Station) (f g : PeerEntry → PeerEntry) (s : State) :
    updateEntry k g (updateEntry k f s) = updateEntry k (fun e => g (f e)) s := by
  rw [updateEntry, updateEntry_entry, if_pos rfl, updateEntry, setEntry_setEntry]
  rfl

theorem updateEntry_setNotes (k : Station) (f : PeerEntry → PeerEntry) (u : NoteUnit) (s : State) :
    updateEntry k f (s.setNotes u) = (updateEntry k f s).setNotes u := rfl

/-! ## Recording -/

theorem gonePresence_iff (p : Presence) : gonePresence p = true ↔ Returning p := by
  cases p <;> simp [gonePresence, Returning]

/-- The entry of the frame's sender once the frame is recorded. -/
theorem recordFrame_entry (k m : Station) (v : PeerView) (s : State) :
    (recordFrame k v s).entry m = if m = k then recordedEntry v (s.entry k) else s.entry m := by
  unfold recordFrame
  dsimp only
  split <;> simp only [setChange_entry, setEntry_entry]

theorem recordFrame_changeMap (k : Station) (v : PeerView) (s : State) : (recordFrame k v s).peers.changeMap =
    if gonePresence (s.entry k).presence then s.peers.changeMap ||| maskOf k else s.peers.changeMap := by
  unfold recordFrame
  dsimp only
  split <;> rfl

/-- Recording a frame leaves the motion, the barrier, the halt controller and the notes. -/
structure OnlyPeers (s t : State) : Prop where
  clock : SameClock s t
  seq : t.seq = s.seq
  gen : t.gen = s.gen
  barrier : t.barrier = s.barrier
  haltCtl : t.haltCtl = s.haltCtl
  held : t.held = s.held
  notes : t.notes = s.notes

theorem recordFrame_onlyPeers (k : Station) (v : PeerView) (s : State) : OnlyPeers s (recordFrame k v s) := by
  have hclock := recordFrame_clock k v s
  unfold recordFrame at hclock ⊢
  dsimp only at hclock ⊢
  split at hclock <;> rename_i hgone <;> simp only [hgone, if_true, if_false, Bool.false_eq_true] <;>
    exact ⟨hclock, rfl, rfl, rfl, rfl, rfl, rfl⟩

theorem recordedEntry_heard (v : PeerView) (e : PeerEntry) :
    (recordedEntry v e).view = v ∧ (recordedEntry v e).heard = true := by
  unfold recordedEntry
  split <;> exact ⟨rfl, rfl⟩

theorem recordedEntry_returns {e : PeerEntry} (h : Returning e.presence) (v : PeerView) :
    (recordedEntry v e).presence = .present ∧ (recordedEntry v e).missed = 0 := by
  rw [recordedEntry, if_pos ((gonePresence_iff _).mpr h)]
  exact ⟨rfl, rfl⟩

theorem recordedEntry_stays {e : PeerEntry} (h : ¬ Returning e.presence) (v : PeerView) :
    (recordedEntry v e).presence = e.presence ∧ (recordedEntry v e).missed = e.missed := by
  rw [recordedEntry, if_neg (fun hgone => h ((gonePresence_iff _).mp hgone))]
  exact ⟨rfl, rfl⟩

/-- The note bits of two entries are the same. -/
structure SameNoteBits (a b : PeerEntry) : Prop where
  toggle : b.toggle = a.toggle
  memory : b.memory = a.memory
  refuse : b.refuse = a.refuse
  resync : b.resync = a.resync
  resyncShown : b.resyncShown = a.resyncShown

theorem recordedEntry_noteBits (v : PeerView) (e : PeerEntry) : SameNoteBits e (recordedEntry v e) := by
  unfold recordedEntry
  split <;> exact ⟨rfl, rfl, rfl, rfl, rfl⟩

/-! ## The faults a frame raises -/

/-- The Barrier Unit and the Halt Controller take the frame, in either order (R84). -/
def frameFaults (b : Bool) (k : Station) (v : PeerView) (s : State) : State :=
  if b then haltFrame k v (barrierFrame k v s) else barrierFrame k v (haltFrame k v s)

theorem acceptFrame_eq (b : Bool) (k : Station) (f : Frame) (s : State) : acceptFrame b k f s =
    noteReceiverFrame k f (noteSenderFrame k f (frameFaults b k f.view (recordFrame k f.view s))) := rfl

theorem frameFaults_motion (b : Bool) (k : Station) (v : PeerView) (s : State) : Motion s (frameFaults b k v s) := by
  cases b with
  | true => exact (barrierFrame_motion k v s).trans (haltFrame_motion k v _)
  | false => exact (haltFrame_motion k v s).trans (barrierFrame_motion k v _)

/-- A cause, taken or not, leaves the counter, its flag and every held record. -/
structure KeepsRecords (s t : State) : Prop where
  position : t.gen.position = s.gen.position
  known : t.gen.known = s.gen.known
  held : ∃ more, t.held = s.held ++ more

theorem KeepsRecords.refl (s : State) : KeepsRecords s s := ⟨rfl, rfl, [], (List.append_nil _).symm⟩

theorem KeepsRecords.trans {s t u : State} (h : KeepsRecords s t) (k : KeepsRecords t u) : KeepsRecords s u := by
  obtain ⟨more, hmore⟩ := h.held
  obtain ⟨further, hfurther⟩ := k.held
  exact ⟨k.position.trans h.position, k.known.trans h.known, more ++ further, by
    rw [hfurther, hmore, List.append_assoc]⟩

theorem takeCause_keepsRecords (c : Cause) (s : State) : KeepsRecords s (takeCause c s) := by
  rcases takeCause_cases c s with ⟨_, _, h⟩ | ⟨_, h⟩ | ⟨_, h⟩ <;> rw [h]
  · exact ⟨by rw [haltTaken_gen], by rw [haltTaken_gen], _, haltTaken_held c s⟩
  all_goals split <;> exact ⟨rfl, rfl, [], (List.append_nil _).symm⟩

theorem failBarrier_keepsRecords (code : Code) (s : State) : KeepsRecords s (failBarrier code s) := by
  unfold failBarrier
  split
  · exact .refl s
  · exact KeepsRecords.trans (t := s.setBarrier { s.barrier with ctx := none })
      ⟨rfl, rfl, [], (List.append_nil _).symm⟩ (takeCause_keepsRecords _ _)

theorem setCtx_keepsRecords (x : BarrierCtx) (s : State) : KeepsRecords s (setCtx x s) :=
  ⟨rfl, rfl, [], (List.append_nil _).symm⟩

theorem barrierFrame_keepsRecords (m : Station) (v : PeerView) (s : State) : KeepsRecords s (barrierFrame m v s) := by
  unfold barrierFrame
  split
  · exact .refl s
  · split
    · exact .refl s
    · split
      · exact failBarrier_keepsRecords _ s
      · exact setCtx_keepsRecords _ s
      · exact (setCtx_keepsRecords _ s).trans (failBarrier_keepsRecords _ _)

theorem haltFrame_keepsRecords (k : Station) (v : PeerView) (s : State) : KeepsRecords s (haltFrame k v s) := by
  unfold haltFrame
  split
  · exact takeCause_keepsRecords _ s
  · exact .refl s

theorem frameFaults_keepsRecords (b : Bool) (k : Station) (v : PeerView) (s : State) :
    KeepsRecords s (frameFaults b k v s) := by
  cases b with
  | true => exact (barrierFrame_keepsRecords k v s).trans (haltFrame_keepsRecords k v _)
  | false => exact (haltFrame_keepsRecords k v s).trans (barrierFrame_keepsRecords k v _)

/-! ## The sender side -/

/-- A step of the sender side, from these standings and in this state: it writes the entry of the frame's sender alone. -/
structure SenderStep (d : Station) (x y : Settling) : Prop where
  noteBits : NoteBits x.2 y.2
  other : ∀ m, m ≠ d → y.2.entry m = x.2.entry m
  memory : (y.2.entry d).memory = (x.2.entry d).memory
  refuse : (y.2.entry d).refuse = (x.2.entry d).refuse

theorem SenderStep.refl (d : Station) (x : Settling) : SenderStep d x x := ⟨.refl _, fun _ _ => rfl, rfl, rfl⟩

theorem SenderStep.trans {d : Station} {x y z : Settling} (h : SenderStep d x y) (k : SenderStep d y z) :
    SenderStep d x z :=
  ⟨h.noteBits.trans k.noteBits, fun m hm => (k.other m hm).trans (h.other m hm), k.memory.trans h.memory,
    k.refuse.trans h.refuse⟩

theorem senderStep_update {d : Station} {x y : Settling} (hnote : NoteBits x.2 y.2) (g : PeerEntry → PeerEntry)
    (hy : y.2 = updateEntry d g x.2) (hmemory : ∀ e, (g e).memory = e.memory) (hrefuse : ∀ e, (g e).refuse = e.refuse) :
    SenderStep d x y := by
  refine ⟨hnote, fun m hm => ?_, ?_, ?_⟩
  · rw [hy, updateEntry_entry, if_neg hm]
  · rw [hy, updateEntry_entry, if_pos rfl, hmemory]
  · rw [hy, updateEntry_entry, if_pos rfl, hrefuse]

theorem senderJoin_step (d : Station) (join : Bool) (x : Settling) : SenderStep d x (senderJoin d join x) := by
  have hnote := senderJoin_noteBits d join x
  unfold senderJoin at hnote ⊢
  split
  · rename_i h
    rw [if_pos h] at hnote
    exact senderStep_update hnote (fun e => { e with toggle := false }) rfl (fun _ => rfl)
        fun _ => rfl
  · exact .refl d x

theorem senderDelivery_step (d : Station) (ack : Bool) (x : Settling) : SenderStep d x (senderDelivery d ack x) := by
  have hstate := senderDelivery_state d ack x
  exact ⟨by rw [hstate]; exact .refl _, fun m _ => by rw [hstate], by rw [hstate], by rw [hstate]⟩

theorem senderResync_step (d : Station) (ack : Bool) (x : Settling) : SenderStep d x (senderResync d ack x) := by
  have hnote := senderResync_noteBits d ack x
  unfold senderResync at hnote ⊢
  dsimp only at hnote ⊢
  split
  · rename_i h
    rw [if_pos h] at hnote
    split
    · rename_i hdeferred
      rw [if_pos hdeferred] at hnote
      exact senderStep_update hnote (fun e => { e with resync := false, resyncShown := none, toggle := !e.toggle }) rfl (fun _ => rfl)
        fun _ => rfl
    · rename_i hdeferred
      rw [if_neg hdeferred] at hnote
      exact senderStep_update hnote (fun e => { e with resync := false, resyncShown := none }) rfl (fun _ => rfl)
        fun _ => rfl
  · exact .refl d x

theorem senderSteps_step (d : Station) (f : Frame) (own : Station) (x : Settling) :
    SenderStep d x (senderSteps d f own x) :=
  (senderJoin_step d _ x).trans ((senderDelivery_step d _ _).trans (senderResync_step d _ _))

/-- The standings that a frame meets: those of the SENDING note, and none when no slot is SENDING. -/
def standings (s : State) : Vector Standing 16 :=
  match s.sending with
  | none => Vector.replicate 16 .no
  | some n => n.standing

/-- What the sender side makes of the frame: the new standings, and the state with its sender's entry. -/
def settledBy (d : Station) (f : Frame) (s : State) : Settling := senderSteps d f s.id (standings s, s)

theorem settledBy_step (d : Station) (f : Frame) (s : State) : SenderStep d (standings s, s) (settledBy d f s) :=
  senderSteps_step d f s.id _

theorem noteSenderFrame_none {s : State} (h : s.sending = none) (d : Station) (f : Frame) :
    noteSenderFrame d f s = (settledBy d f s).2 := by
  unfold noteSenderFrame settledBy standings
  rw [h]

theorem noteSenderFrame_some {s : State} {n : SendingNote} (h : s.sending = some n) (d : Station) (f : Frame) :
    noteSenderFrame d f s = putSending n (settledBy d f s).1 (settledBy d f s).2 := by
  unfold noteSenderFrame settledBy standings
  rw [h]

theorem noteSenderFrame_peers (d : Station) (f : Frame) (s : State) :
    (noteSenderFrame d f s).peers = (settledBy d f s).2.peers := by
  cases h : s.sending with
  | none => rw [noteSenderFrame_none h]
  | some n => rw [noteSenderFrame_some h]; rfl

theorem noteSenderFrame_entry (d m : Station) (f : Frame) (s : State) :
    (noteSenderFrame d f s).entry m = (settledBy d f s).2.entry m := by
  unfold State.entry
  rw [noteSenderFrame_peers]

theorem noteSenderFrame_inbox (d : Station) (f : Frame) (s : State) :
    (noteSenderFrame d f s).notes.inbox = s.notes.inbox := by
  have hnotes := (settledBy_step d f s).noteBits.notes
  cases h : s.sending with
  | none => rw [noteSenderFrame_none h, hnotes]
  | some n =>
    rw [noteSenderFrame_some h]
    change (settledBy d f s).2.notes.inbox = s.notes.inbox
    rw [hnotes]

/-! ## The receiver side -/

theorem receiverClear_memory (f : Frame) (own : Station) (e : PeerEntry) :
    (receiverClear f own e).memory = (e.memory && !f.view.join && !inMask f.resyncMap own) := by
  unfold receiverClear
  cases f.view.join <;> cases inMask f.resyncMap own <;> simp

/-- What the receiver side keeps in the entry of the frame's sender. -/
structure SenderBits (a b : PeerEntry) : Prop where
  shown : SameShown a b
  toggle : b.toggle = a.toggle
  resync : b.resync = a.resync
  resyncShown : b.resyncShown = a.resyncShown

theorem receiverClear_bits (f : Frame) (own : Station) (e : PeerEntry) : SenderBits e (receiverClear f own e) := by
  unfold receiverClear
  split
  · exact ⟨⟨rfl, rfl, rfl, rfl⟩, rfl, rfl, rfl⟩
  · split <;> exact ⟨⟨rfl, rfl, rfl, rfl⟩, rfl, rfl, rfl⟩

/-- The sender's entry once the receiver side has taken the frame, with these memory and refuse bits. -/
def receivedEntry (f : Frame) (own : Station) (memory refuse : Bool) (e : PeerEntry) : PeerEntry :=
  { receiverClear f own e with memory := memory, refuse := refuse }

theorem receivedEntry_bits (f : Frame) (own : Station) (memory refuse : Bool) (e : PeerEntry) :
    SenderBits e (receivedEntry f own memory refuse e) := by
  obtain ⟨⟨hpresence, hmissed, hview, hheard⟩, htoggle, hresync, hshown⟩ := receiverClear_bits f own e
  exact ⟨⟨hpresence, hmissed, hview, hheard⟩, htoggle, hresync, hshown⟩

/-- The memory bit that the steps before the note leave. -/
def clearedMemory (f : Frame) (s : State) (k : Station) : Bool :=
  (s.entry k).memory && !f.view.join && !inMask f.resyncMap s.id

theorem setRefuse_receiverClear (k : Station) (f : Frame) (refuse : Bool) (s : State) :
    setRefuse k refuse (updateEntry k (receiverClear f s.id) s) =
      updateEntry k (receivedEntry f s.id (clearedMemory f s k) refuse) s := by
  rw [setRefuse, updateEntry_updateEntry]
  unfold updateEntry receivedEntry clearedMemory
  rw [← receiverClear_memory]

/-- A frame that brings S no note. -/
theorem noteReceiverFrame_no_note {f : Frame} {s : State}
    (h : f.note = none ∨ f.view.join = true ∨ s.link.state = .joining ∨
      ∃ n : FrameNote, f.note = some n ∧ inMask n.pendingMask s.id = false) (k : Station) :
    noteReceiverFrame k f s = updateEntry k (receivedEntry f s.id (clearedMemory f s k) false) s := by
  unfold noteReceiverFrame
  rw [← setRefuse_receiverClear]
  cases hnote : f.note with
  | none => rfl
  | some n =>
    refine if_pos ?_
    obtain hnone | hjoin | hjoining | ⟨m, hm, hpending⟩ := h
    · rw [hnone] at hnote
      cases hnote
    · rw [hjoin]
      rfl
    · rw [decide_eq_true hjoining, Bool.or_true]
      rfl
    · rw [hm] at hnote
      cases hnote
      rw [hpending, Bool.not_false, Bool.or_true]

/-- A frame that brings S a note: a repeat, a new note with room in the queue, or one refused. -/
theorem noteReceiverFrame_note {f : Frame} {n : FrameNote} {s : State} (hnote : f.note = some n)
    (hjoin : f.view.join = false) (hlink : s.link.state ≠ .joining) (hpending : inMask n.pendingMask s.id = true)
    (k : Station) :
    (inMask n.toggleMap s.id = clearedMemory f s k →
      noteReceiverFrame k f s = updateEntry k (receivedEntry f s.id (clearedMemory f s k) false) s) ∧
    (inMask n.toggleMap s.id ≠ clearedMemory f s k → s.notes.inbox.length < 8 →
      noteReceiverFrame k f s = (updateEntry k (receivedEntry f s.id (inMask n.toggleMap s.id) false) s).setNotes
        { s.notes with inbox := s.notes.inbox ++
          [{ sender := k, number := n.number, payload := n.payload, acceptCycle := s.timer.cycle }] }) ∧
    (inMask n.toggleMap s.id ≠ clearedMemory f s k → 8 ≤ s.notes.inbox.length →
      noteReceiverFrame k f s = updateEntry k (receivedEntry f s.id (clearedMemory f s k) true) s) := by
  have hreceive : noteReceiverFrame k f s =
      receiveNote k n (inMask n.toggleMap s.id) (updateEntry k (receiverClear f s.id) s) := by
    unfold noteReceiverFrame
    rw [hnote]
    exact if_neg (by simp [hjoin, hlink, hpending])
  have hmemory : ((updateEntry k (receiverClear f s.id) s).entry k).memory = clearedMemory f s k := by
    rw [updateEntry_entry, if_pos rfl, receiverClear_memory]
    rfl
  rw [hreceive, receiveNote, hmemory]
  refine ⟨fun hsame => ?_, fun hnew hroom => ?_, fun hnew hfull => ?_⟩
  · rw [if_pos hsame, setRefuse_receiverClear]
  · rw [if_neg hnew, if_pos (by exact hroom), acceptNote, updateEntry_setNotes, updateEntry_updateEntry]
    rfl
  · rw [if_neg hnew, if_neg (by exact Nat.not_lt.mpr hfull), setRefuse_receiverClear]

/-- The receiver side writes the sender's entry and the incoming queue alone. -/
theorem noteReceiverFrame_writes (k : Station) (f : Frame) (s : State) : ∃ memory refuse inbox,
    noteReceiverFrame k f s =
      (updateEntry k (receivedEntry f s.id memory refuse) s).setNotes { s.notes with inbox := inbox } := by
  have hplain (memory refuse : Bool) : updateEntry k (receivedEntry f s.id memory refuse) s =
      (updateEntry k (receivedEntry f s.id memory refuse) s).setNotes { s.notes with inbox := s.notes.inbox } := rfl
  by_cases hno : f.note = none ∨ f.view.join = true ∨ s.link.state = .joining ∨
      ∃ n : FrameNote, f.note = some n ∧ inMask n.pendingMask s.id = false
  · exact ⟨_, _, _, (noteReceiverFrame_no_note hno k).trans (hplain _ _)⟩
  · simp only [not_or, not_exists, not_and] at hno
    obtain ⟨hsome, hjoin, hlink, hpending⟩ := hno
    obtain ⟨n, hn⟩ := Option.ne_none_iff_exists'.mp hsome
    obtain ⟨hrepeat, hnew, hrefused⟩ := noteReceiverFrame_note hn (Bool.eq_false_iff.mpr hjoin) hlink
      (Bool.not_eq_false _ ▸ hpending n hn) k
    by_cases hsame : inMask n.toggleMap s.id = clearedMemory f s k
    · exact ⟨_, _, _, (hrepeat hsame).trans (hplain _ _)⟩
    · by_cases hroom : s.notes.inbox.length < 8
      · exact ⟨_, _, _, hnew hsame hroom⟩
      · exact ⟨_, _, _, (hrefused hsame (Nat.not_lt.mp hroom)).trans (hplain _ _)⟩

theorem noteReceiverFrame_entry (k m : Station) (f : Frame) (s : State) :
    (m ≠ k → (noteReceiverFrame k f s).entry m = s.entry m) ∧
      SenderBits (s.entry k) ((noteReceiverFrame k f s).entry k) := by
  obtain ⟨memory, refuse, inbox, h⟩ := noteReceiverFrame_writes k f s
  have hentry (j : Station) : (noteReceiverFrame k f s).entry j =
      if j = k then receivedEntry f s.id memory refuse (s.entry k) else s.entry j := by
    rw [h]
    exact updateEntry_entry k j _ s
  refine ⟨fun hm => by rw [hentry, if_neg hm], ?_⟩
  rw [hentry, if_pos rfl]
  exact receivedEntry_bits _ _ _ _ _

theorem noteReceiverFrame_changeMap (k : Station) (f : Frame) (s : State) :
    (noteReceiverFrame k f s).peers.changeMap = s.peers.changeMap := by
  obtain ⟨_, _, _, h⟩ := noteReceiverFrame_writes k f s
  rw [h]
  rfl

theorem noteReceiverFrame_slots (k : Station) (f : Frame) (s : State) :
    (noteReceiverFrame k f s).notes.slots = s.notes.slots := by
  obtain ⟨_, _, _, h⟩ := noteReceiverFrame_writes k f s
  rw [h]
  rfl

/-! ## The whole frame -/

/-- The state in which the Note Unit meets the frame. -/
def recordedState (b : Bool) (k : Station) (f : Frame) (s : State) : State :=
  frameFaults b k f.view (recordFrame k f.view s)

theorem recordedState_entry (b : Bool) (k m : Station) (f : Frame) (s : State) :
    (recordedState b k f s).entry m = if m = k then recordedEntry f.view (s.entry k) else s.entry m := by
  unfold recordedState
  rw [State.entry, (motion_frame (frameFaults_motion b k f.view _)).peers]
  exact recordFrame_entry k m f.view s

theorem recordedState_changeMap (b : Bool) (k : Station) (f : Frame) (s : State) :
    (recordedState b k f s).peers.changeMap =
      if gonePresence (s.entry k).presence then s.peers.changeMap ||| maskOf k else s.peers.changeMap := by
  unfold recordedState
  rw [(motion_frame (frameFaults_motion b k f.view _)).peers]
  exact recordFrame_changeMap k f.view s

theorem recordedState_notes (b : Bool) (k : Station) (f : Frame) (s : State) :
    (recordedState b k f s).notes = s.notes :=
  (motion_frame (frameFaults_motion b k f.view _)).notes.trans (recordFrame_onlyPeers k f.view s).notes

theorem recordedState_clock (b : Bool) (k : Station) (f : Frame) (s : State) : SameClock s (recordedState b k f s) :=
  (recordFrame_clock k f.view s).trans (motion_frame (frameFaults_motion b k f.view _)).clock

theorem recordedState_keepsRecords (b : Bool) (k : Station) (f : Frame) (s : State) :
    KeepsRecords s (recordedState b k f s) := by
  have h := recordFrame_onlyPeers k f.view s
  exact KeepsRecords.trans ⟨by rw [h.gen], by rw [h.gen], [], by rw [h.held, List.append_nil]⟩
    (frameFaults_keepsRecords b k f.view _)

/-- The two sides of the Note Unit leave the motion, the barrier and the halt controller. -/
theorem acceptFrame_tables (b : Bool) (k : Station) (f : Frame) (s : State) :
    TableFrame (recordedState b k f s) (acceptFrame b k f s) :=
  tables_frame ((noteSenderFrame_tables k f _).trans (noteReceiverFrame_tables k f _))

/-- The entry of the frame's sender as every later part of the frame leaves it, and the other entries. -/
theorem acceptFrame_entry (b : Bool) (k m : Station) (f : Frame) (s : State) :
    (m ≠ k → (acceptFrame b k f s).entry m = s.entry m) ∧
      SameShown (recordedEntry f.view (s.entry k)) ((acceptFrame b k f s).entry k) := by
  obtain ⟨hother, hbits⟩ := noteReceiverFrame_entry k m f (noteSenderFrame k f (recordedState b k f s))
  have hstep := settledBy_step k f (recordedState b k f s)
  refine ⟨fun hm => ?_, ?_⟩
  · exact (hother hm).trans (by rw [noteSenderFrame_entry, hstep.other m hm, recordedState_entry, if_neg hm])
  · have hshown := hstep.noteBits.entry k
    rw [show ((standings (recordedState b k f s), recordedState b k f s) : Settling).2.entry k =
      recordedEntry f.view (s.entry k) by rw [recordedState_entry, if_pos rfl]] at hshown
    rw [noteSenderFrame_entry] at hbits
    exact hshown.trans hbits.shown

theorem acceptFrame_changeMap (b : Bool) (k : Station) (f : Frame) (s : State) : (acceptFrame b k f s).peers.changeMap =
    if gonePresence (s.entry k).presence then s.peers.changeMap ||| maskOf k else s.peers.changeMap := by
  calc (acceptFrame b k f s).peers.changeMap
      = (noteSenderFrame k f (recordedState b k f s)).peers.changeMap := noteReceiverFrame_changeMap k f _
    _ = (recordedState b k f s).peers.changeMap := by
      rw [noteSenderFrame_peers]
      exact (settledBy_step k f _).noteBits.changeMap
    _ = _ := recordedState_changeMap b k f s

end Sys2Proof.Machine

namespace Sys2Proof.Claims

open Sys2Proof.Machine

/-- What the link's own part leaves alone, as the parts of the state that the frame's other readers look at. -/
theorem linkTakes_judged (f : Frame) (s : State) : LinkTook (judged s) (linkTakes f (judged s)) :=
  linkTakes_took f (judged s)

/-- Settles O14, by the parts of `acceptFrame`: the entry, the link's own part, and what the faults leave. -/
theorem compatibleFrameIsRecorded : Obligations.CompatibleFrameIsRecorded := by
  intro start chars b s k f hrecords
  have htook := linkTakes_judged f s
  set u := linkTakes f (judged s) with hu
  have hentries (m : Station) : u.entry m = s.entry m := by
    rw [htook.state]
    rfl
  have hmap : u.peers.changeMap = s.peers.changeMap := by
    rw [htook.state]
    rfl
  have hclock := acceptFrame_clock b k f u
  have htables := acceptFrame_tables b k f u
  have hrecords' := recordedState_keepsRecords b k f u
  have hentry := (acceptFrame_entry b k k f u).2
  have hchange := acceptFrame_changeMap b k f u
  rw [hentries] at hentry hchange
  rw [hmap] at hchange
  refine ⟨_, exec_frame_of_records hrecords b, ?_, ?_, fun hreturns => ?_, fun hstays => ?_, fun m hm => ?_, ?_, ?_, ?_, ?_,
    ?_, fun hjoining => ?_, ?_, ?_, ?_, ?_, ?_, ?_, ?_⟩
  · rw [hentry.view, (recordedEntry_heard f.view _).1]
  · rw [hentry.heard, (recordedEntry_heard f.view _).2]
  · obtain ⟨hpresence, hmissed⟩ := recordedEntry_returns hreturns f.view
    rw [if_pos ((gonePresence_iff _).mpr hreturns)] at hchange
    exact ⟨hentry.presence.trans hpresence, hentry.missed.trans hmissed, hchange⟩
  · obtain ⟨hpresence, hmissed⟩ := recordedEntry_stays hstays f.view
    rw [if_neg (fun h => hstays ((gonePresence_iff _).mp h))] at hchange
    exact ⟨hentry.presence.trans hpresence, hentry.missed.trans hmissed, hchange⟩
  · exact ((acceptFrame_entry b k m f u).1 hm).trans (hentries m)
  · rw [hclock.link, htook.state]
    rfl
  · rw [hclock.link, htook.state]
    rfl
  · rw [hclock.link]
    exact htook.slips
  · rw [hclock.timer, htook.state]
    rfl
  · rw [hclock.timer, htook.state]
    rfl
  · rw [hclock.timer]
    exact htook.adoption hjoining
  · rw [htables.gen, hrecords'.position, htook.state]
    rfl
  · rw [htables.gen, hrecords'.known, htook.state]
    rfl
  · obtain ⟨more, hmore⟩ := hrecords'.held
    refine ⟨more, ?_⟩
    rw [htables.held, hmore, htook.state]
    rfl
  · exact hclock.station.id.trans htook.station.id
  · exact hclock.station.config.trans htook.station.config
  · exact hclock.station.pins.trans htook.station.pins
  · exact hclock.station.pending.trans htook.station.pending

/-- Settles O21: the steps before the receiver side leave its bits and the incoming queue, and it takes the note or not. -/
theorem noteIsTakenOnce : Obligations.NoteIsTakenOnce := by
  intro start chars b s k f hrecords
  have htook := linkTakes_judged f s
  set u := linkTakes f (judged s) with hu
  set v := noteSenderFrame k f (recordedState b k f u) with hv
  have hclock : SameClock u v := (recordedState_clock b k f u).trans (noteSenderFrame_clock k f _)
  have hid : v.id = s.id := hclock.station.id.trans htook.station.id
  have hcycle : v.timer.cycle = s.timer.cycle := by
    rw [hclock.timer, htook.state]
    rfl
  have hlink : v.link.state = s.link.state := by
    rw [hclock.link, htook.state]
    rfl
  have hinbox : v.notes.inbox = s.notes.inbox := by
    rw [hv, noteSenderFrame_inbox, recordedState_notes, htook.state]
    rfl
  have hmemory : (v.entry k).memory = (s.entry k).memory := by
    rw [hv, noteSenderFrame_entry, (settledBy_step k f _).memory]
    dsimp only
    rw [recordedState_entry, if_pos rfl, (recordedEntry_noteBits f.view _).memory, htook.state]
    rfl
  refine ⟨_, exec_frame_of_records hrecords b, ?_⟩
  rw [← hu, show acceptFrame b k f u = noteReceiverFrame k f v from rfl]
  rintro memory hcleared
  have hcleared' : clearedMemory f v k = memory := by rw [hcleared, clearedMemory, hmemory, hid]
  have hupdated (m r : Bool) : ((updateEntry k (receivedEntry f v.id m r) v).entry k).memory = m ∧
      ((updateEntry k (receivedEntry f v.id m r) v).entry k).refuse = r := by
    rw [updateEntry_entry, if_pos rfl]
    exact ⟨rfl, rfl⟩
  refine ⟨fun n hnote hjoin hcounting hpending => ?_, fun hno => ?_⟩
  · rw [← hid] at hpending ⊢
    rw [← hlink] at hcounting
    obtain ⟨hrepeat, hnew, hrefused⟩ := noteReceiverFrame_note hnote hjoin hcounting hpending k
    rw [hcleared'] at hrepeat hnew hrefused
    rw [hinbox] at hnew hrefused
    refine ⟨fun hsame => ?_, fun hdiffers hroom => ?_, fun hdiffers hfull => ?_⟩
    · rw [hrepeat hsame]
      exact ⟨(hupdated _ _).1, (hupdated _ _).2, hinbox⟩
    · rw [hnew hdiffers hroom, ← hcycle]
      exact ⟨(hupdated _ _).1, (hupdated _ _).2, rfl⟩
    · rw [hrefused hdiffers hfull]
      exact ⟨(hupdated _ _).1, (hupdated _ _).2, hinbox⟩
  · rw [← hid, ← hlink] at hno
    rw [noteReceiverFrame_no_note hno k, hcleared']
    exact ⟨(hupdated _ _).1, (hupdated _ _).2, hinbox⟩

end Sys2Proof.Claims
end

