-- ==== Sys2Proof/Proofs/FrameFaults.lean ====
section
/-! PROOFS. What a frame does to the axis and the barrier: GROUP_HALT (O23), arrivals and releases (O24), failures of the
barrier (O25), and a frame of another profile (O15). -/

namespace Sys2Proof.Machine

open Sys2Proof.Claims

/-! ## What the faults read -/

/-- The parts that barriers and halts read and write are the same. -/
structure SameMotion (s t : State) : Prop where
  id : t.id = s.id
  config : t.config = s.config
  cycle : t.timer.cycle = s.timer.cycle
  seq : t.seq = s.seq
  gen : t.gen = s.gen
  barrier : t.barrier = s.barrier
  haltCtl : t.haltCtl = s.haltCtl
  held : t.held = s.held

theorem SameMotion.cfg {s t : State} (h : SameMotion s t) : t.cfg = s.cfg := by
  unfold State.cfg
  rw [h.config]

theorem SameMotion.execRecord {s t : State} (h : SameMotion s t) (e : Executing) (code : Code) (part : RecordPart) :
    t.execRecord e code part = recordOf e code s.timer.cycle e.source.emitted s.gen part := by
  unfold State.execRecord recordOf
  rw [h.cycle, h.gen]

/-- The state in which a recorded frame meets the Barrier Unit and the Halt Controller, and what is left of the faults at
the end of the command. -/
theorem exec_frame_faults {start : Nat} {chars : List RxChar} {s : State} {k : Station} {f : Frame}
    (h : Records start chars s k f) (b : Bool) : ∃ t v, exec (.frameReceived start chars b) s = .next t ∧
      SameMotion s v ∧ TableFrame (frameFaults b k f.view v) t := by
  have htook := linkTakes_took f (judged s)
  have hpeers := recordFrame_onlyPeers k f.view (linkTakes f (judged s))
  refine ⟨_, _, exec_frame_of_records h b, ?_, acceptFrame_tables b k f _⟩
  refine ⟨hpeers.clock.station.id.trans htook.station.id, hpeers.clock.station.config.trans htook.station.config, ?_, ?_, ?_,
    ?_, ?_, ?_⟩
  · rw [hpeers.clock.timer, htook.state]; rfl
  · rw [hpeers.seq, htook.state]; rfl
  · rw [hpeers.gen, htook.state]; rfl
  · rw [hpeers.barrier, htook.state]; rfl
  · rw [hpeers.haltCtl, htook.state]; rfl
  · rw [hpeers.held, htook.state]; rfl

/-! ## The two readers of a frame -/

theorem haltFrame_of_no_origin {k : Station} {v : PeerView} {s : State}
    (h : inMask s.cfg.stopGroup k = false ∨ v.origin = false) : haltFrame k v s = s :=
  if_neg (by obtain h | h := h <;> simp [h])

theorem haltFrame_of_origin {k : Station} {v : PeerView} {s : State} (hgroup : inMask s.cfg.stopGroup k = true)
    (horigin : v.origin = true) : haltFrame k v s = takeCause (.fromPeer .groupHalt k) s :=
  if_pos (by rw [hgroup, horigin]; rfl)

theorem frameFaults_of_no_origin {k : Station} {v : PeerView} {s : State}
    (h : inMask s.cfg.stopGroup k = false ∨ v.origin = false) (b : Bool) :
    frameFaults b k v s = barrierFrame k v s := by
  have hcfg := (barrierFrame_clock k v s).cfg
  cases b with
  | true => exact haltFrame_of_no_origin (by rw [hcfg]; exact h)
  | false =>
    rw [frameFaults, if_neg Bool.false_ne_true, haltFrame_of_no_origin h]

theorem barrierFrame_of_no_context {s : State} (h : s.barrier.ctx = none) (k : Station) (v : PeerView) :
    barrierFrame k v s = s := by
  unfold barrierFrame
  rw [h]

theorem barrierFrame_of_not_examined {s : State} {x : BarrierCtx} {k : Station} (hx : s.barrier.ctx = some x)
    (h : x.release.isSome = true ∨ inMask x.mask k = false) (v : PeerView) : barrierFrame k v s = s := by
  unfold barrierFrame
  rw [hx]
  refine if_pos ?_
  obtain h | h := h <;> simp [h]

/-- A member's frame meets an INCOMPLETE context. -/
theorem barrierFrame_examined {s : State} {x : BarrierCtx} {k : Station} (hx : s.barrier.ctx = some x)
    (hrelease : x.release = none) (hmember : inMask x.mask k = true) (hown : k ≠ s.id) (v : PeerView) :
    barrierFrame k v s =
      match examine s.id s.cfg.releaseLead k v s.timer.cycle x with
      | .mismatch => failBarrier .barrierMismatch s
      | .context y => setCtx y s
      | .halted y => failBarrier .memberHalted (setCtx y s) := by
  unfold barrierFrame
  rw [hx]
  exact if_neg (by simp [hrelease, hmember, hown])

theorem haltTaken_setCtx (c : Cause) (x : BarrierCtx) (s : State) : haltTaken c (setCtx x s) = haltTaken c s := by
  rw [← haltTaken_withdrawn c (setCtx x s), ← haltTaken_withdrawn c s]
  rfl

/-- A member that shows HALTED fails the barrier it has not arrived at. -/
theorem failBarrier_setCtx_of_live {s : State} (h : s.seq.axis.live = true) (y : BarrierCtx) (code : Code) :
    failBarrier code (setCtx y s) = haltTaken (.segmentFault y.seq code .executing) s := by
  rw [failBarrier_of_live (s := setCtx y s) rfl h, haltTaken_setCtx]

/-! ## What the examination finds (R72 to R76) -/

theorem examine_mismatch {own : Station} {lead : Nat} {m : Station} {v : PeerView} {c : Cycle} {x : BarrierCtx}
    (htag : v.barTag = x.tag) (hmask : v.barMask ≠ x.mask) : examine own lead m v c x = .mismatch := by
  rw [examine, if_pos htag, if_pos hmask]

theorem adoptable_of_other_tag {x : BarrierCtx} {v : PeerView} (h : v.relTag ≠ x.tag) (c : Cycle) :
    adoptable x v c = false := by
  simp [adoptable, h]

theorem adoptable_iff (x : BarrierCtx) (v : PeerView) (c : Cycle) : adoptable x v c = true ↔
    v.relTag = x.tag ∧ later v.relCycle x.arrival = true ∧ later v.relCycle c = false := by
  simp [adoptable, and_assoc]

/-- A frame with another tag that reports no release withdraws the arrival; HALTED fails the barrier. -/
theorem examine_other_tag {own : Station} {lead : Nat} {m : Station} {v : PeerView} {c : Cycle} {x : BarrierCtx}
    (htag : v.barTag ≠ x.tag) (hreport : adoptable x v c = false) : examine own lead m v c x =
      if v.halted then .halted { x with arrivals := x.arrivals.set m.val none }
      else .context { x with arrivals := x.arrivals.set m.val none } := by
  rw [examine, if_neg htag, examineRest, if_neg (by rw [hreport]; exact Bool.false_ne_true)]
  simp only [if_neg htag]

theorem examine_adopts {own : Station} {lead : Nat} {m : Station} {v : PeerView} {c : Cycle} {x : BarrierCtx}
    (htag : v.barTag ≠ x.tag) (hreport : adoptable x v c = true) :
    examine own lead m v c x = .context { x with release := some (releaseFor v.relCycle c) } := by
  rw [examine, if_neg htag, examineRest, if_pos hreport]

theorem completeComputed_fields (own : Station) (lead : Nat) (c : Cycle) (x : BarrierCtx) :
    completeComputed own lead c x = { x with release := (completeComputed own lead c x).release } := by
  unfold completeComputed
  split <;> rfl

/-- An arrival is recorded, and completes the barrier or does not. -/
theorem examine_arrival {own : Station} {lead : Nat} {m : Station} {v : PeerView} {c : Cycle} {x : BarrierCtx}
    (htag : v.barTag = x.tag) (hmask : v.barMask = x.mask) (hrelTag : v.relTag ≠ x.tag) (hrunning : v.halted = false) :
    examine own lead m v c x =
      .context (completeComputed own lead c { x with arrivals := x.arrivals.set m.val (some v.barArrival) }) := by
  rw [examine, if_pos htag, if_neg (fun h => h hmask)]
  dsimp only
  split
  · rfl
  · have hfields := completeComputed_fields own lead c { x with arrivals := x.arrivals.set m.val (some v.barArrival) }
    have htagKept : (completeComputed own lead c { x with arrivals := x.arrivals.set m.val (some v.barArrival) }).tag =
      x.tag := by rw [hfields]
    rw [examineRest, adoptable_of_other_tag (by rw [htagKept]; exact hrelTag), if_neg Bool.false_ne_true]
    simp only [htagKept, if_pos htag, hrunning, if_neg Bool.false_ne_true]

theorem allArrived_iff (own : Station) (x : BarrierCtx) : allArrived own x = true ↔
    ∀ m, inMask x.mask m = true → m ≠ own → (x.arrivals.get m).isSome = true := by
  unfold allArrived
  rw [List.all_eq_true]
  refine ⟨fun h m hmember hown => ?_, fun h m _ => ?_⟩
  · have := h m (mem_stations m)
    simpa [hmember, hown] using this
  · by_cases hmember : inMask x.mask m = true
    · by_cases hown : m = own
      · simp [hown]
      · simp [h m hmember hown]
    · simp [hmember]

theorem later_irrefl_pair {x y : Cycle} (h : later x y = true) : later y x = false := by
  have hx : 0 < (x - y).toInt := of_decide_eq_true h
  refine decide_eq_false fun hy => ?_
  have hy' : 0 < (y - x).toInt := hy
  rw [BitVec.toInt_eq_toNat_cond] at hx hy'
  bv_omega

theorem mem_arrivalCycles (own : Station) (x : BarrierCtx) (a : Cycle) : a ∈ arrivalCycles own x ↔
    a = x.arrival ∨ ∃ m, inMask x.mask m = true ∧ m ≠ own ∧ x.arrivals.get m = some a := by
  unfold arrivalCycles
  rw [List.mem_cons, List.mem_filterMap]
  refine or_congr Iff.rfl ⟨fun ⟨m, _, hm⟩ => ?_, fun ⟨m, hmember, hown, harrival⟩ => ⟨m, mem_stations m, ?_⟩⟩
  · split at hm
    · rename_i h
      simp only [Bool.and_eq_true, decide_eq_true_eq] at h
      exact ⟨m, h.1, h.2, hm⟩
    · cases hm
  · rw [if_pos (by simp [hmember, hown])]
    exact harrival

/-- The largest arrival is the one that no other is later than (R77). -/
theorem largestArrival_eq {own : Station} {x : BarrierCtx} {largest : Cycle} (hmem : largest ∈ arrivalCycles own x)
    (hlargest : ∀ a ∈ arrivalCycles own x, a = largest ∨ later largest a = true) : largestArrival own x = largest := by
  have hall : isLargest (arrivalCycles own x) largest = true := by
    unfold isLargest
    rw [List.all_eq_true]
    intro a ha
    obtain h | h := hlargest a ha
    · simp [h]
    · simp [h]
  obtain ⟨hfound, htop⟩ := largestOf_spec _ _ hmem hall
  have htop' := List.all_eq_true.mp htop largest hmem
  simp only [Bool.or_eq_true, decide_eq_true_eq] at htop'
  obtain heq | hlater := htop'
  · exact heq
  · obtain heq | hlater' := hlargest _ hfound
    · exact heq
    · exact absurd hlater' (by rw [later_irrefl_pair hlater]; exact Bool.false_ne_true)

theorem releaseFor_r (r c : Cycle) : (releaseFor r c).r = r := by
  unfold releaseFor
  split <;> rfl

theorem releaseFor_late {r c : Cycle} (h : later r c = false) :
    releaseFor r c = { r := r, q := c + 1, lateness := c + 1 - r } :=
  if_neg fun hearly => absurd (decide_eq_false_iff_not.mp h) (not_not_intro (by omega))

/-! ## Halts that a frame brings -/

theorem takeCause_groupHalt_stopped {s : State} (h : s.seq.axis = .halted ∨ s.seq.axis = .disabled) (k : Station) :
    takeCause (.fromPeer .groupHalt k) s = s := by
  unfold takeCause
  obtain h | h := h <;> rw [h] <;> rfl

theorem frameFaults_origin_no_context {s : State} {k : Station} {v : PeerView} (hgroup : inMask s.cfg.stopGroup k = true)
    (horigin : v.origin = true) (hctx : s.barrier.ctx = none) (b : Bool) :
    frameFaults b k v s = takeCause (.fromPeer .groupHalt k) s := by
  cases b with
  | true =>
    rw [frameFaults, if_pos rfl, barrierFrame_of_no_context hctx, haltFrame_of_origin hgroup horigin]
  | false =>
    rw [frameFaults, if_neg Bool.false_ne_true, haltFrame_of_origin hgroup horigin, barrierFrame_of_no_context]
    rcases takeCause_cases (.fromPeer .groupHalt k) s with ⟨_, _, h⟩ | ⟨_, h⟩ | ⟨_, h⟩ <;> rw [h]
    · rw [haltTaken_barrier]
    · exact hctx
    · exact hctx

/-- What the Barrier Unit makes of a frame while the axis waits: the context stays or is replaced, or a code of its own
halts the axis. -/
theorem barrierFrame_waiting {s : State} (hlive : s.seq.axis.live = true) (k : Station) (v : PeerView) :
    barrierFrame k v s = s ∨ (∃ y, barrierFrame k v s = setCtx y s) ∨
      ∃ seq code, barrierFrame k v s = haltTaken (.segmentFault seq code .executing) s := by
  unfold barrierFrame
  split
  · exact .inl rfl
  · rename_i x hx
    split
    · exact .inl rfl
    · split
      · exact .inr (.inr ⟨_, _, failBarrier_of_live hx hlive _⟩)
      · exact .inr (.inl ⟨_, rfl⟩)
      · exact .inr (.inr ⟨_, _, failBarrier_setCtx_of_live hlive _ _⟩)

/-- ORIGIN halts an axis that waits, in either order. -/
theorem frameFaults_origin_waiting {s : State} {k : Station} {v : PeerView} (hgroup : inMask s.cfg.stopGroup k = true)
    (horigin : v.origin = true) (hlive : s.seq.axis.live = true) (b : Bool) :
    frameFaults b k v s = haltTaken (.fromPeer .groupHalt k) s ∨
      ∃ seq code, frameFaults b k v s = haltTaken (.segmentFault seq code .executing) s := by
  cases b with
  | false =>
    left
    rw [frameFaults, if_neg Bool.false_ne_true, haltFrame_of_origin hgroup horigin, takeCause_of_live hlive,
      barrierFrame_of_no_context (by rw [haltTaken_barrier])]
  | true =>
    rw [frameFaults, if_pos rfl]
    obtain hsame | ⟨y, hctx⟩ | ⟨seq, code, hhalt⟩ := barrierFrame_waiting hlive k v
    · rw [hsame, haltFrame_of_origin hgroup horigin, takeCause_of_live hlive]
      exact .inl rfl
    · rw [hctx, haltFrame_of_origin (s := setCtx y s) hgroup horigin, takeCause_of_live (s := setCtx y s) hlive,
        haltTaken_setCtx]
      exact .inl rfl
    · rw [hhalt, haltFrame_of_origin (by rw [(haltTaken_clock _ s).cfg]; exact hgroup) horigin,
        takeCause_groupHalt_stopped (.inl rfl)]
      exact .inr ⟨seq, code, rfl⟩

/-! ## Another profile -/

/-- The table's part of a frame of another profile. -/
def mismatched (k : Station) (s : State) : State :=
  setChange k (updateEntry k (fun e => { e with presence := .incompatible, missed := 0, heard := false }) s)

theorem profileMismatch_known {k : Station} {s : State} (h : (s.entry k).presence = .incompatible) (b : Bool) :
    profileMismatch b k s = s := if_pos h

theorem profileMismatch_new {k : Station} {s : State} (h : (s.entry k).presence ≠ .incompatible) (b : Bool) :
    profileMismatch b k s = handOn b k (mismatched k s) := if_neg h

theorem haltPeerLost_of_other {k : Station} {s : State} (h : inMask s.cfg.stopGroup k = false) :
    haltPeerLost k s = s := if_neg (by rw [h]; exact Bool.false_ne_true)

theorem haltPeerLost_of_member {k : Station} {s : State} (h : inMask s.cfg.stopGroup k = true) :
    haltPeerLost k s = takeCause (.fromPeer .peerLost k) s := if_pos h

theorem barrierMemberLost_of_no_context {s : State} (h : s.barrier.ctx = none) (k : Station) :
    barrierMemberLost k s = s := by
  unfold barrierMemberLost
  rw [h]

theorem barrierMemberLost_of_member {s : State} {x : BarrierCtx} {k : Station} (hx : s.barrier.ctx = some x)
    (hrelease : x.release = none) (hmember : inMask x.mask k = true) :
    barrierMemberLost k s = failBarrier .memberLost s := by
  unfold barrierMemberLost
  rw [hx]
  exact if_neg (by simp [hrelease, hmember])

theorem handOn_other_no_context {k : Station} {s : State} (hgroup : inMask s.cfg.stopGroup k = false)
    (hctx : s.barrier.ctx = none) (b : Bool) : handOn b k s = s := by
  cases b <;> simp [handOn, haltPeerLost_of_other hgroup, barrierMemberLost_of_no_context hctx]

theorem handOn_member_no_context {k : Station} {s : State} (hgroup : inMask s.cfg.stopGroup k = true)
    (hctx : s.barrier.ctx = none) (hlive : s.seq.axis.live = true) (b : Bool) :
    handOn b k s = haltTaken (.fromPeer .peerLost k) s := by
  cases b with
  | true =>
    rw [handOn, if_pos rfl, barrierMemberLost_of_no_context hctx, haltPeerLost_of_member hgroup, takeCause_of_live hlive]
  | false =>
    rw [handOn, if_neg Bool.false_ne_true, haltPeerLost_of_member hgroup, takeCause_of_live hlive,
      barrierMemberLost_of_no_context (by rw [haltTaken_barrier])]

/-- PEER_LOST after the fault of the barrier finds the axis HALTED and its latch set. -/
theorem takeCause_peerLost_after_fault {s : State} (hlatch : s.haltCtl.latch = true) (haxis : s.seq.axis = .halted)
    (k : Station) : takeCause (.fromPeer .peerLost k) s = s := by
  unfold takeCause
  rw [haxis]
  dsimp only
  rw [if_pos (show (Cause.fromPeer .peerLost k).kind.setsLatch = true from rfl), setLatch, ← hlatch]
  rfl

/-- A lost member fails the barrier it is awaited at, or PEER_LOST is taken first. -/
theorem handOn_member_of_barrier {k : Station} {s : State} {x : BarrierCtx} (hx : s.barrier.ctx = some x)
    (hrelease : x.release = none) (hmember : inMask x.mask k = true) (hlive : s.seq.axis.live = true) (b : Bool) :
    (b = true ∨ inMask s.cfg.stopGroup k = false →
      handOn b k s = haltTaken (.segmentFault x.seq .memberLost .executing) s) ∧
    (b = false → inMask s.cfg.stopGroup k = true → handOn b k s = haltTaken (.fromPeer .peerLost k) s) := by
  have hfail : barrierMemberLost k s = haltTaken (.segmentFault x.seq .memberLost .executing) s := by
    rw [barrierMemberLost_of_member hx hrelease hmember, failBarrier_of_live hx hlive]
  have hcfg := (haltTaken_clock (.segmentFault x.seq .memberLost .executing) s).cfg
  refine ⟨fun hfirst => ?_, fun hb hgroup => ?_⟩
  · cases hgroup : inMask s.cfg.stopGroup k with
    | false =>
      cases b with
      | true => rw [handOn, if_pos rfl, hfail, haltPeerLost_of_other (by rw [hcfg]; exact hgroup)]
      | false => rw [handOn, if_neg Bool.false_ne_true, haltPeerLost_of_other hgroup, hfail]
    | true =>
      obtain rfl : b = true := hfirst.resolve_right (by simp [hgroup])
      have hlatch : (haltTaken (.segmentFault x.seq .memberLost .executing) s).haltCtl.latch = true := by
        rw [haltTaken_haltCtl]
        exact Bool.or_true _
      rw [handOn, if_pos rfl, hfail, haltPeerLost_of_member (by rw [hcfg]; exact hgroup),
        takeCause_peerLost_after_fault hlatch (haltTaken_axis _ _)]
  · subst hb
    rw [handOn, if_neg Bool.false_ne_true, haltPeerLost_of_member hgroup, takeCause_of_live hlive,
      barrierMemberLost_of_no_context (by rw [haltTaken_barrier])]

end Sys2Proof.Machine

namespace Sys2Proof.Claims

open Sys2Proof.Machine

/-- The report and the last record of a halt that finds a segment executing. -/
theorem haltTaken_reports (c : Cause) (s : State) : Reports (haltTaken c s) c.kind c.peer c.segment :=
  ⟨haltReportOf c s, by rw [haltTaken_haltCtl], rfl, rfl, rfl⟩

theorem reports_congr {s t : State} (h : t.haltCtl = s.haltCtl) {cause : HaltCause} {peer : Option Station}
    {segment : Option (SeqNo × Code)} (hs : Reports s cause peer segment) : Reports t cause peer segment := by
  unfold Reports
  rw [h]
  exact hs

theorem haltTaken_last {c : Cause} {s : State} {e : Executing} (he : s.seq.exec = some e) :
    (haltTaken c s).held.getLast? = some (s.execRecord e (c.codeFor .executing) .none) := by
  rw [haltTaken_held, List.getLast?_append, haltRecords_getLast he]
  rfl

/-- Settles O23, by the context: with none only the halt reads the frame; at a barrier the order decides. -/
theorem groupHaltFromOrigin : Obligations.GroupHaltFromOrigin := by
  refine ⟨fun start chars b s k f hrecords hgroup horigin hctx => ?_,
    fun start chars b s k f x e hrecords hgroup horigin hwaiting hx he hseq => ?_⟩
  · obtain ⟨t, v, hexec, hv, ht⟩ := exec_frame_faults hrecords b
    rw [frameFaults_origin_no_context (by rw [hv.cfg]; exact hgroup) horigin (by rw [hv.barrier]; exact hctx)] at ht
    refine ⟨t, hexec, ?_, fun hlive => ?_, fun hstopped => ?_⟩
    · rw [ht.haltCtl, ← hv.haltCtl]
      rcases takeCause_cases (.fromPeer .groupHalt k) v with ⟨_, _, h⟩ | ⟨_, h⟩ | ⟨_, h⟩ <;> rw [h]
      · rw [haltTaken_haltCtl]
        exact Bool.or_false _
      · rfl
      · rfl
    · have hlive' : v.seq.axis.live = true := by
        rw [hv.seq]
        obtain h | h := hlive <;> rw [h] <;> rfl
      rw [takeCause_of_live hlive'] at ht
      refine ⟨by rw [ht.seq]; rfl, by rw [ht.seq]; rfl, by rw [ht.seq]; rfl, by rw [ht.seq, haltTaken_outstanding], ?_,
        haltReportOf (.fromPeer .groupHalt k) v, by rw [ht.haltCtl, haltTaken_haltCtl], rfl, rfl, rfl, hv.cycle, ?_, ?_⟩
      · rw [ht.port, haltTaken_port]
      · exact congrArg StepGen.position hv.gen
      · exact congrArg (fun q => q.queue.length) hv.seq
    · rw [takeCause_groupHalt_stopped (by rw [hv.seq]; exact hstopped)] at ht
      exact ⟨ht.seq.trans hv.seq, ht.haltCtl.trans hv.haltCtl, ht.gen.trans hv.gen, ht.held.trans hv.held⟩
  · obtain ⟨t, v, hexec, hv, ht⟩ := exec_frame_faults hrecords b
    have hgroup' : inMask v.cfg.stopGroup k = true := by rw [hv.cfg]; exact hgroup
    have hlive : v.seq.axis.live = true := by rw [hv.seq, hwaiting]; rfl
    have hvx : v.barrier.ctx = some x := by rw [hv.barrier]; exact hx
    have hve : v.seq.exec = some e := by rw [hv.seq]; exact he
    have hend : ∃ c, frameFaults b k f.view v = haltTaken c v := by
      obtain h | ⟨seq, code, h⟩ := frameFaults_origin_waiting hgroup' horigin hlive b
      · exact ⟨_, h⟩
      · exact ⟨_, h⟩
    obtain ⟨c, hc⟩ := hend
    refine ⟨t, hexec, by rw [ht.seq, hc]; rfl, by rw [ht.seq, hc]; rfl, by rw [ht.barrier, hc, haltTaken_barrier, hv.barrier],
      fun hunexamined => ?_, fun hfirst hrelease hmember htag hrelTag hhalted => ?_⟩
    · have hhalt : frameFaults b k f.view v = haltTaken (.fromPeer .groupHalt k) v := by
        cases b with
        | false =>
          rw [frameFaults, if_neg Bool.false_ne_true, haltFrame_of_origin hgroup' horigin, takeCause_of_live hlive,
            barrierFrame_of_no_context (by rw [haltTaken_barrier])]
        | true =>
          rw [frameFaults, if_pos rfl, barrierFrame_of_not_examined hvx (hunexamined.resolve_left (by decide)),
            haltFrame_of_origin hgroup' horigin, takeCause_of_live hlive]
      rw [hhalt] at ht
      refine ⟨?_, reports_congr ht.haltCtl (haltTaken_reports _ v), ?_⟩
      · rw [ht.haltCtl, haltTaken_haltCtl, ← hv.haltCtl]
        exact Bool.or_false _
      · rw [ht.held, haltTaken_last hve, hv.execRecord]
        rfl
    · have hhalt : frameFaults b k f.view v = haltTaken (.segmentFault e.seg.seq .memberHalted .executing) v := by
        subst hfirst
        rw [frameFaults, if_pos rfl, barrierFrame_examined hvx hrelease hmember (by rw [hv.id]; exact hrecords.2.1),
          examine_other_tag htag (adoptable_of_other_tag hrelTag _), if_pos hhalted]
        dsimp only
        rw [failBarrier_setCtx_of_live hlive, haltFrame_of_origin (by rw [(haltTaken_clock _ v).cfg]; exact hgroup')
          horigin, takeCause_groupHalt_stopped (.inl rfl)]
        dsimp only
        rw [hseq]
      rw [hhalt] at ht
      refine ⟨?_, reports_congr ht.haltCtl (haltTaken_reports _ v), ?_⟩
      · rw [ht.haltCtl, haltTaken_haltCtl]
        exact Bool.or_true _
      · rw [ht.held, haltTaken_last hve, hv.execRecord]
        rfl

/-- Settles O24, by the tag of the frame, and for the frame with the context's tag by the largest arrival. -/
theorem barrierArrivalCompletes : Obligations.BarrierArrivalCompletes := by
  refine ⟨fun start chars b s k f x hrecords hplain hx hrelease hmember htag hmask hrelTag hrunning => ?_,
    fun start chars b s k f x hrecords hplain hx hrelease hmember htag => ?_⟩
  all_goals
    obtain ⟨t, v, hexec, hv, ht⟩ := exec_frame_faults hrecords b
    rw [frameFaults_of_no_origin (by rw [hv.cfg]; exact hplain),
      barrierFrame_examined (by rw [hv.barrier]; exact hx) hrelease hmember (by rw [hv.id]; exact hrecords.2.1),
      hv.id, hv.cfg, hv.cycle] at ht
  · rw [examine_arrival htag hmask hrelTag hrunning] at ht
    have hfields := completeComputed_fields s.id s.cfg.releaseLead s.timer.cycle
      { x with arrivals := x.arrivals.set k.val (some f.view.barArrival) }
    set y := completeComputed s.id s.cfg.releaseLead s.timer.cycle
      { x with arrivals := x.arrivals.set k.val (some f.view.barArrival) } with hy
    have harrivals : y.arrivals = x.arrivals.set k.val (some f.view.barArrival) := by rw [hfields]
    have hymask : y.mask = x.mask := by rw [hfields]
    have hyarrival : y.arrival = x.arrival := by rw [hfields]
    have hall : allArrived s.id { x with arrivals := x.arrivals.set k.val (some f.view.barArrival) } = true ↔
        ∀ m, inMask x.mask m = true → m ≠ s.id → (y.arrivals.get m).isSome = true := by
      rw [harrivals]
      exact allArrived_iff _ _
    have hbarrier : t.barrier = { s.barrier with ctx := some y } := by rw [ht.barrier, ← hv.barrier]; rfl
    refine ⟨t, y, hexec, by rw [hbarrier], by rw [hfields], by rw [hfields], hymask, hyarrival, by rw [hfields], ?_, ?_,
      by rw [hbarrier], by rw [hbarrier], ht.seq.trans hv.seq, fun hmissing => ?_, fun hevery largest hmem hown hothers => ?_⟩
    · rw [harrivals, Vector.get_eq_getElem, Vector.getElem_set_self]
    · intro m hm
      rw [harrivals, Vector.get_eq_getElem, Vector.getElem_set_ne _ _ (fun h => hm (Fin.ext h.symm))]
      rfl
    · obtain ⟨m, hin, hother, hnone⟩ := hmissing
      rw [hy, completeComputed, if_neg, hrelease]
      intro hcomplete
      have := hall.mp hcomplete m hin hother
      rw [hnone] at this
      cases this
    · have hcomplete : y.release =
          some (releaseFor (largestArrival s.id { x with arrivals := x.arrivals.set k.val (some f.view.barArrival) } +
            BitVec.ofNat 16 s.cfg.releaseLead) s.timer.cycle) := by
        rw [hy, completeComputed, if_pos (hall.mpr hevery)]
      rw [largestArrival_eq (largest := largest)] at hcomplete
      · refine ⟨_, hcomplete, releaseFor_r _ _, fun hearly => ?_, fun hlate => ?_⟩
        · rw [releaseFor_r] at hearly
          rw [releaseFor, if_pos hearly]
          exact ⟨rfl, rfl⟩
        · rw [releaseFor_r] at hlate
          rw [releaseFor, if_neg (by omega)]
          exact ⟨rfl, rfl⟩
      · rw [mem_arrivalCycles, ← harrivals]
        exact hmem
      · intro a ha
        rw [mem_arrivalCycles, ← harrivals] at ha
        obtain rfl | ⟨m, hin, hother, hget⟩ := ha
        · exact hown
        · exact hothers m a hin hother hget
  · refine ⟨t, hexec, fun hrelTag hafter hpast => ?_, fun hnot hrunning => ?_⟩
    · rw [examine_adopts htag ((adoptable_iff _ _ _).mpr ⟨hrelTag, hafter, hpast⟩)] at ht
      exact ⟨by rw [ht.barrier, ← hv.barrier, releaseFor_late hpast]; rfl, ht.seq.trans hv.seq⟩
    · have hreport : adoptable x f.view s.timer.cycle = false := by
        refine Bool.eq_false_iff.mpr fun h => ?_
        obtain ⟨hrelTag, hafter, hpast⟩ := (adoptable_iff _ _ _).mp h
        obtain h | h | h := hnot
        · exact h hrelTag
        · rw [hafter] at h
          cases h
        · rw [hpast] at h
          cases h
      rw [examine_other_tag htag hreport, if_neg (by rw [hrunning]; exact Bool.false_ne_true)] at ht
      exact ⟨by rw [ht.barrier, ← hv.barrier]; rfl, ht.seq.trans hv.seq⟩

/-- Settles O25: either frame fails the barrier, and the halt is the fault of its segment. -/
theorem barrierFrameFails : Obligations.BarrierFrameFails := by
  intro start chars b s k f x e code hrecords hplain hwaiting hx hrelease hmember he hseq hwhich
  obtain ⟨t, v, hexec, hv, ht⟩ := exec_frame_faults hrecords b
  have hlive : v.seq.axis.live = true := by rw [hv.seq, hwaiting]; rfl
  have hvx : v.barrier.ctx = some x := by rw [hv.barrier]; exact hx
  have hve : v.seq.exec = some e := by rw [hv.seq]; exact he
  have hfails : barrierFrame k f.view v = haltTaken (.segmentFault e.seg.seq code .executing) v := by
    rw [barrierFrame_examined hvx hrelease hmember (by rw [hv.id]; exact hrecords.2.1)]
    obtain ⟨htag, hmask, rfl⟩ | ⟨htag, hrelTag, hhalted, rfl⟩ := hwhich
    · rw [examine_mismatch htag hmask, ← hseq]
      exact failBarrier_of_live hvx hlive _
    · rw [examine_other_tag htag (adoptable_of_other_tag hrelTag _), if_pos hhalted, ← hseq]
      exact failBarrier_setCtx_of_live hlive _ _
  rw [frameFaults_of_no_origin (by rw [hv.cfg]; exact hplain), hfails] at ht
  refine ⟨t, haltReportOf (.segmentFault e.seg.seq code .executing) v, hexec, by rw [ht.seq]; rfl,
    by rw [ht.barrier, haltTaken_barrier], by rw [ht.barrier, haltTaken_barrier, hv.barrier],
    by rw [ht.barrier, haltTaken_barrier, hv.barrier], by rw [ht.haltCtl, haltTaken_haltCtl], rfl, rfl, ?_, ?_⟩
  · rw [ht.haltCtl, haltTaken_haltCtl]
    exact Bool.or_true _
  · rw [ht.held, haltTaken_last hve, hv.execRecord]
    rfl

/-- Settles O15: the table's part, and what is handed on by the stop group and the barrier. -/
theorem profileMismatchMakesIncompatible : Obligations.ProfileMismatchMakesIncompatible := by
  intro start chars b s k f hhears hown hprofile hstate
  have hsender : k ≠ (judged s).id := hown
  have hexec : exec (.frameReceived start chars b) s = .next (profileMismatch b k (judged s)) := by
    rw [exec_frame_of_hears hhears, validFrame_counting hsender (by exact hstate), handleFrame_mismatch (by exact hprofile)]
  refine ⟨fun hknown => ?_, fun hnew => ⟨_, hexec, ?_⟩⟩
  · rw [hexec, profileMismatch_known (by exact hknown)]
    rfl
  have hframe := motion_frame (handOn_motion b k (mismatched k (judged s)))
  rw [profileMismatch_new (by exact hnew)]
  set t := handOn b k (mismatched k (judged s)) with ht
  have hentry (m : Station) : t.entry m = (mismatched k (judged s)).entry m := by
    rw [State.entry, hframe.peers]
    rfl
  have hwritten (m : Station) : t.entry m =
      if m = k then { s.entry k with presence := .incompatible, missed := 0, heard := false } else s.entry m := by
    rw [hentry]
    exact updateEntry_entry k m (fun e => { e with presence := .incompatible, missed := 0, heard := false }) (judged s)
  refine ⟨by rw [hwritten, if_pos rfl], by rw [hframe.peers]; rfl, fun m hm => by rw [hwritten, if_neg hm], hframe.clock.timer,
    hframe.clock.link, hframe.notes, hframe.clock.station.id, hframe.clock.station.config, hframe.clock.station.pins,
    hframe.clock.station.pending, fun hgroup hctx => ?_, fun hgroup hctx hlive => ?_,
    fun x e hwaiting hx he hseq hrelease hmember => ?_⟩
  · rw [ht, handOn_other_no_context (by exact hgroup) (by exact hctx)]
    exact ⟨rfl, rfl, rfl, rfl⟩
  · rw [ht, handOn_member_no_context (by exact hgroup) (by exact hctx) (by exact (haltable_iff _).mp hlive), haltTaken_haltCtl]
    exact ⟨rfl, Bool.or_true _, rfl⟩
  · have hlive : (mismatched k (judged s)).seq.axis.live = true := by
      change s.seq.axis.live = true
      rw [hwaiting]
      rfl
    obtain ⟨hfault, hlost⟩ := handOn_member_of_barrier (s := mismatched k (judged s)) hx hrelease hmember hlive b
    have hcause : ∃ c : Cause, c.kind.setsLatch = true ∧ t = haltTaken c (mismatched k (judged s)) := by
      cases hgroup : inMask s.cfg.stopGroup k with
      | false => exact ⟨_, rfl, hfault (.inr hgroup)⟩
      | true =>
        cases hb : b with
        | true => exact ⟨_, rfl, hfault (.inl hb)⟩
        | false => exact ⟨_, rfl, hlost hb hgroup⟩
    obtain ⟨c, hlatches, hhalt⟩ := hcause
    refine ⟨by rw [hhalt, haltTaken_barrier]; rfl, by rw [hhalt]; rfl, ?_, fun hfirst => ?_, fun hb hgroup => ?_⟩
    · rw [hhalt, haltTaken_haltCtl, hlatches]
      exact Bool.or_true _
    · rw [ht, hfault hfirst, ← hseq]
      refine ⟨haltTaken_reports _ _, ?_⟩
      rw [haltTaken_last (s := mismatched k (judged s)) he]
      rfl
    · rw [ht, hlost hb hgroup]
      refine ⟨haltTaken_reports _ _, ?_⟩
      rw [haltTaken_last (s := mismatched k (judged s)) he]
      rfl

end Sys2Proof.Claims
end

