-- ==== Sys2Proof/Proofs/OwnFrames.lean ====
section
/-! PROOFS. The own frame: what its slot start records (O11), and that a receiver reads it back (O12). -/

namespace Sys2Proof.Machine

open Sys2Proof.Claims

/-! ## Folds over the stations -/

theorem stations_nodup : stations.Nodup := by decide

/-- A fold that writes one entry after another, each as a function of what stood there: every entry of the list is
written once. -/
theorem foldl_entry {F : State → Station → State} {g : Station → PeerEntry → PeerEntry} {P : State → Prop}
    (hkeeps : ∀ s d, P s → P (F s d))
    (hF : ∀ s d m, P s → (F s d).entry m = if m = d then g d (s.entry d) else s.entry m) {l : List Station} (hl : l.Nodup)
    {s : State} (hs : P s) (k : Station) : (l.foldl F s).entry k = if k ∈ l then g k (s.entry k) else s.entry k := by
  induction l generalizing s with
  | nil => simp
  | cons d l ih =>
    obtain ⟨hd, hl'⟩ := List.nodup_cons.mp hl
    rw [List.foldl_cons, ih hl' (hkeeps s d hs), hF s d k hs]
    by_cases hk : k = d
    · subst hk
      simp [hd]
    · simp [hk]

theorem foldl_stations_entry {F : State → Station → State} {g : Station → PeerEntry → PeerEntry} {P : State → Prop}
    (hkeeps : ∀ s d, P s → P (F s d))
    (hF : ∀ s d m, P s → (F s d).entry m = if m = d then g d (s.entry d) else s.entry m) {s : State} (hs : P s)
    (k : Station) : (stations.foldl F s).entry k = g k (s.entry k) := by
  rw [foldl_entry hkeeps hF stations_nodup hs, if_pos (mem_stations k)]

/-- The same for the standings of a note. -/
theorem foldl_standing {F : Vector Standing 16 → Station → Vector Standing 16} {g : Station → Standing → Standing}
    (hF : ∀ st d m, (F st d).get m = if m = d then g d (st.get d) else st.get m) {l : List Station} (hl : l.Nodup)
    (st : Vector Standing 16) (k : Station) : (l.foldl F st).get k = if k ∈ l then g k (st.get k) else st.get k := by
  induction l generalizing st with
  | nil => simp
  | cons d l ih =>
    obtain ⟨hd, hl'⟩ := List.nodup_cons.mp hl
    rw [List.foldl_cons, ih hl', hF]
    by_cases hk : k = d
    · subst hk
      simp [hd]
    · simp [hk]

theorem standing_set_get (st : Vector Standing 16) (d m : Station) (x : Standing) :
    (st.set d.val x).get m = if m = d then x else st.get m := by
  by_cases h : m = d
  · subst h
    simp [Vector.get_eq_getElem]
  · have hv : d.val ≠ m.val := fun hh => h (Fin.ext hh.symm)
    simp only [Vector.get_eq_getElem, h, if_false]
    exact Vector.getElem_set_ne _ _ hv

/-! ## The shown cycles (R153) -/

/-- A station of the resync set with no resync shown cycle takes this one. -/
def shownResync (c : Cycle) (e : PeerEntry) : PeerEntry :=
  { e with resyncShown := if e.resync && e.resyncShown.isNone then some c else e.resyncShown }

theorem resyncShown_entry (s : State) (k : Station) :
    (stations.foldl showResync s).entry k = shownResync s.timer.cycle (s.entry k) := by
  have hstep (t : State) (d m : Station) (h : t.timer.cycle = s.timer.cycle) :
      (showResync t d).entry m = if m = d then shownResync s.timer.cycle (t.entry d) else t.entry m := by
    rw [showResync, updateEntry_entry, h]
    rfl
  exact foldl_stations_entry (F := showResync) (P := fun t => t.timer.cycle = s.timer.cycle)
    (g := fun _ => shownResync s.timer.cycle) (fun _ _ h => h) hstep rfl k

theorem showPending_get (c : Cycle) (st : Vector Standing 16) (k : Station) :
    (stations.foldl (showPending c) st).get k = if st.get k = .pending none then .pending (some c) else st.get k := by
  have hfold := foldl_standing (F := showPending c)
    (g := fun _ x => if x = .pending none then .pending (some c) else x) (fun st d m => ?_) stations_nodup st k
  · rw [hfold, if_pos (mem_stations k)]
  · unfold showPending
    split
    · rename_i hpending
      rw [standing_set_get, hpending]
      rfl
    · rename_i hother
      rw [if_neg hother]
      split
      · rename_i hm
        rw [hm]
      · rfl

theorem showResync_fold (s : State) : NoteBits s (stations.foldl showResync s) :=
  noteBits_foldl showResync_noteBits stations s

theorem setSlot_entry (i : Fin 4) (x : NoteSlot) (s : State) (k : Station) : (setSlot i x s).entry k = s.entry k := rfl

theorem sending_of_notes {s t : State} (h : t.notes = s.notes) : t.sending = s.sending := by
  unfold State.sending
  rw [h]

theorem noteShown_joining {s : State} (h : s.link.state = .joining) : noteShown s = s := if_pos h

theorem noteShown_none {s : State} (h : s.link.state ≠ .joining) (hnone : s.sending = none) :
    noteShown s = stations.foldl showResync s := by
  unfold noteShown
  rw [if_neg h]
  dsimp only
  rw [sending_of_notes (showResync_fold s).notes, hnone]

theorem noteShown_sending {s : State} {n : SendingNote} (h : s.link.state ≠ .joining) (hn : s.sending = some n) :
    noteShown s = setSlot n.id (.sending n.number n.dests n.payload n.startCycle
      (stations.foldl (showPending s.timer.cycle) n.standing)) (stations.foldl showResync s) := by
  unfold noteShown
  rw [if_neg h]
  dsimp only
  rw [sending_of_notes (showResync_fold s).notes, hn]

/-- The shown cycles are written in the entries and in the SENDING slot alone. -/
theorem noteShown_writes (s : State) : ∃ peers slots, noteShown s = (s.setPeers peers).setNotes { s.notes with slots := slots } ∧
    peers.changeMap = s.peers.changeMap := by
  by_cases hjoining : s.link.state = .joining
  · exact ⟨s.peers, s.notes.slots, noteShown_joining hjoining, rfl⟩
  · have hfold := showResync_fold s
    cases hn : s.sending with
    | none =>
      rw [noteShown_none hjoining hn]
      generalize stations.foldl showResync s = x at hfold
      exact ⟨x.peers, s.notes.slots, hfold.peersOnly, hfold.changeMap⟩
    | some n =>
      rw [noteShown_sending hjoining hn]
      generalize stations.foldl (showPending s.timer.cycle) n.standing = st
      generalize stations.foldl showResync s = x at hfold
      refine ⟨x.peers, s.notes.slots.set n.id (.sending n.number n.dests n.payload n.startCycle st), ?_, hfold.changeMap⟩
      rw [setSlot, hfold.notes, State.setNotes, hfold.peersOnly]
      rfl

theorem noteShown_entry (s : State) (k : Station) : (noteShown s).entry k =
    if s.link.state = .joining then s.entry k else shownResync s.timer.cycle (s.entry k) := by
  by_cases hjoining : s.link.state = .joining
  · rw [noteShown_joining hjoining, if_pos hjoining]
  · rw [if_neg hjoining, ← resyncShown_entry]
    cases hn : s.sending with
    | none => rw [noteShown_none hjoining hn]
    | some n =>
      rw [noteShown_sending hjoining hn, setSlot_entry]

theorem sending_of_slot {s : State} {i : Fin 4} {n : Byte} {dests : Mask} {p : List Byte} {c : Cycle}
    {st : Vector Standing 16} (hid : s.notes.sendingId = some i) (hslot : s.notes.slots.get i = .sending n dests p c st) :
    s.sending = some ⟨i, n, dests, p, c, st⟩ := by
  simp [State.sending, hid, hslot]

theorem noteShown_other_slots {s : State} {i : Fin 4} (h : some i ≠ s.notes.sendingId ∨ s.link.state = .joining) :
    (noteShown s).notes.slots.get i = s.notes.slots.get i := by
  by_cases hjoining : s.link.state = .joining
  · rw [noteShown_joining hjoining]
  · cases hn : s.sending with
    | none => rw [noteShown_none hjoining hn, (showResync_fold s).notes]
    | some n =>
      have hi : i ≠ n.id := fun hi => h.resolve_right hjoining (by rw [hi, (sending_eq_some hn).1])
      rw [noteShown_sending hjoining hn, setSlot_get, if_neg hi, (showResync_fold s).notes]

/-! ## The own slot start -/

/-- The state in which a slot start is taken. -/
def slotTaken (s : State) : State := s.setTimer { s.timer with raised := { s.timer.raised with slotStart := false } }

theorem exec_slotStart {s : State} (h : s.timer.raised.slotStart = true) :
    exec .slotStart s = .next (if ownSlotStart s then transmitOwnFrame (slotTaken s) else slotTaken s) :=
  congrArg Host.Outcome.next (if_pos h)

theorem ownSlotStart_iff (s : State) : ownSlotStart s = true ↔
    (s.id.val < s.stationCount ∧ s.timer.t = 24 + 96 * s.id.val) ∧ (s.link.state = .joining ∨ s.link.state = .active) := by
  rw [ownSlotStart, Bool.and_eq_true, decide_eq_true_eq, decide_eq_true_eq]
  refine and_congr ⟨slotBeginning_eq_some, fun ⟨hcount, ht⟩ => ?_⟩ Iff.rfl
  rw [ht]
  exact slotBeginning_of_own hcount

/-! ## The bytes of the own frame -/

/-- What the barrier field shows. -/
def barrierTag (s : State) : Byte := (s.barrier.ctx.map BarrierCtx.tag).getD 0
def barrierArrival (s : State) : Cycle := (s.barrier.ctx.map BarrierCtx.arrival).getD 0
def barrierMask (s : State) : Mask := (s.barrier.ctx.map BarrierCtx.mask).getD 0

theorem barrierField_eq (s : State) :
    s.barrierField = [barrierTag s] ++ bytes16 (barrierArrival s) ++ bytes16 (barrierMask s) := by
  unfold State.barrierField barrierTag barrierArrival barrierMask
  cases s.barrier.ctx with
  | none => decide
  | some x => rfl

/-- The byte of the profile, and the byte of the axis. -/
def profileByte (c : Settings) : Byte := BitVec.ofNat 8 ((c.stationCount - 1) * 16 + (c.releaseLead - 1))
def axisByte (s : State) : Byte :=
  s.seq.axis.code.setWidth 8 ||| byteOfBits [false, false, false, false, false, false, false, s.gen.known]

/-- The own frame up to its note section, byte by byte (12.2). -/
def frameHead (s : State) (rest : List Byte) : List Byte :=
  0x6B :: s.stationByte :: s.timer.cycle.extractLsb' 8 8 :: s.timer.cycle.extractLsb' 0 8 ::
    BitVec.ofNat 8 s.cfg.cycleCode :: profileByte s.cfg :: axisByte s ::
    s.gen.position.extractLsb' 24 8 :: s.gen.position.extractLsb' 16 8 :: s.gen.position.extractLsb' 8 8 ::
    s.gen.position.extractLsb' 0 8 ::
    barrierTag s :: (barrierArrival s).extractLsb' 8 8 :: (barrierArrival s).extractLsb' 0 8 ::
    (barrierMask s).extractLsb' 8 8 :: (barrierMask s).extractLsb' 0 8 ::
    s.barrier.histTag :: s.barrier.histCycle.extractLsb' 8 8 :: s.barrier.histCycle.extractLsb' 0 8 ::
    (s.peerBits PeerEntry.memory).extractLsb' 8 8 :: (s.peerBits PeerEntry.memory).extractLsb' 0 8 ::
    (s.peerBits PeerEntry.refuse).extractLsb' 8 8 :: (s.peerBits PeerEntry.refuse).extractLsb' 0 8 ::
    (s.peerBits PeerEntry.resync).extractLsb' 8 8 :: (s.peerBits PeerEntry.resync).extractLsb' 0 8 :: rest

theorem ownFrame_eq (s : State) : s.ownFrame = frameHead s (s.noteSection ++ bytes16 (crc16 s.ownFrameBody)) := by
  unfold State.ownFrame State.ownFrameBody frameHead profileByte axisByte
  rw [barrierField_eq]
  simp only [bytes16, bytes32, List.cons_append, List.nil_append]

theorem stationByte_fields : ∀ (k : Station) (join halted origin note : Bool),
    let x : Byte := BitVec.ofNat 8 k.val ||| byteOfBits [false, false, false, false, join, halted, origin, note]
    (x.extractLsb' 0 4).toNat = k.val ∧ x.getLsbD 4 = join ∧ x.getLsbD 5 = halted ∧ x.getLsbD 6 = origin ∧
      x.getLsbD 7 = note := by decide

theorem axisByte_fields (a : AxisState) (known : Bool) :
    let x : Byte := a.code.setWidth 8 ||| byteOfBits [false, false, false, false, false, false, false, known]
    x.getLsbD 7 = known ∧ x.extractLsb' 0 3 = a.code := by
  cases a <;> cases known <;> decide

theorem cycleCode_field {n : Nat} (h : n ≤ 64) : ((BitVec.ofNat 8 n).extractLsb' 0 7).toNat = n := by
  simp only [BitVec.extractLsb'_toNat, BitVec.toNat_ofNat]
  omega

theorem profileByte_fields {c : Settings} (hcount : 2 ≤ c.stationCount) (hcount' : c.stationCount ≤ 16)
    (hlead : 1 ≤ c.releaseLead) (hlead' : c.releaseLead ≤ 8) :
    ((profileByte c).extractLsb' 4 4).toNat + 1 = c.stationCount ∧
      ((profileByte c).extractLsb' 0 3).toNat + 1 = c.releaseLead := by
  simp only [profileByte, BitVec.extractLsb'_toNat, BitVec.toNat_ofNat]
  omega

/-! ## The note section -/

theorem noteSection_none {s : State} (h : s.notes.sendingId = none) : s.noteSection = [] := by
  unfold State.noteSection
  rw [h]

theorem noteSection_sending {s : State} {i : Fin 4} {n : Byte} {dests : Mask} {p : List Byte} {c : Cycle}
    {st : Vector Standing 16} (hid : s.notes.sendingId = some i) (hslot : s.notes.slots.get i = .sending n dests p c st) :
    s.noteSection = n :: (standingMask st Standing.isPending).extractLsb' 8 8 ::
      (standingMask st Standing.isPending).extractLsb' 0 8 :: (s.peerBits PeerEntry.toggle).extractLsb' 8 8 ::
      (s.peerBits PeerEntry.toggle).extractLsb' 0 8 :: BitVec.ofNat 8 p.length :: p := by
  unfold State.noteSection
  rw [hid]
  dsimp only
  rw [hslot]
  rfl

theorem frameNoteFlag_head (s : State) (rest : List Byte) : frameNoteFlag (frameHead s rest) = s.notes.sendingId.isSome :=
  (stationByte_fields s.id _ _ _ _).2.2.2.2

/-- The note that the note section gives back. -/
theorem parseNote_none {s : State} (h : s.notes.sendingId = none) (rest : List Byte) :
    parseNote (frameHead s rest) = none := by
  rw [parseNote, frameNoteFlag_head, h]
  rfl

theorem payload_length_of_sending {s : State} (hlaw : noteLaw s = true) {i : Fin 4} {n : Byte} {dests : Mask}
    {p : List Byte} {c : Cycle} {st : Vector Standing 16} (hslot : s.notes.slots.get i = .sending n dests p c st) :
    p.length ≤ 8 := by
  obtain ⟨_, _, _, hfits, _⟩ := (noteLaw_iff s).mp hlaw
  have := hfits i
  rw [hslot] at this
  exact of_decide_eq_true this

theorem toNat_length {p : List Byte} (h : p.length ≤ 8) : (BitVec.ofNat 8 p.length).toNat = p.length := by
  rw [BitVec.toNat_ofNat, Nat.mod_eq_of_lt (by omega)]

theorem parseNote_sending {s : State} (hlaw : noteLaw s = true) {i : Fin 4} {n : Byte} {dests : Mask} {p : List Byte}
    {c : Cycle} {st : Vector Standing 16} (hid : s.notes.sendingId = some i)
    (hslot : s.notes.slots.get i = .sending n dests p c st) (rest : List Byte) :
    parseNote (frameHead s (s.noteSection ++ rest)) =
      some { number := n, pendingMask := standingMask st Standing.isPending, toggleMap := s.peerBits PeerEntry.toggle,
             payload := p } := by
  have hlength := payload_length_of_sending hlaw hslot
  rw [parseNote, frameNoteFlag_head, hid, noteSection_sending hid hslot, if_pos (by rfl)]
  refine congrArg some ?_
  refine (FrameNote.mk.injEq ..).mpr ⟨rfl, join_bytes16 _, join_bytes16 _, ?_⟩
  change (p ++ rest).take (BitVec.ofNat 8 p.length).toNat = p
  rw [toNat_length hlength, List.take_left]

/-! ## The checks of the receiver (R133) -/

theorem frameLength_own {s : State} (hlaw : noteLaw s = true) : frameLength s.ownFrame = some s.ownFrame.length := by
  rw [frameLength, ownFrame_eq, frameNoteFlag_head]
  cases hid : s.notes.sendingId with
  | none =>
    rw [noteSection_none hid]
    rfl
  | some i =>
    obtain ⟨n, dests, p, c, st, hslot⟩ := isSending_iff.mp (sendingId_eq_some hid)
    have hlength := payload_length_of_sending hlaw hslot
    rw [noteSection_sending hid hslot, if_pos (by rfl)]
    change (if (BitVec.ofNat 8 p.length).toNat ≤ 8 then some (33 + (BitVec.ofNat 8 p.length).toNat) else none) = _
    rw [toNat_length hlength, if_pos hlength]
    refine congrArg some ?_
    simp only [frameHead, List.length_cons, List.length_append, List.cons_append, bytes16, List.length_nil]
    omega

theorem crcSpan_own (s : State) : crcSpan s.ownFrame = s.ownFrameBody := by
  unfold crcSpan State.ownFrame
  rw [List.append_assoc, List.singleton_append, List.drop_one, List.tail_cons]
  have hlength : ((0x6B : Byte) :: (s.ownFrameBody ++ bytes16 (crc16 s.ownFrameBody))).length - 3 = s.ownFrameBody.length := by
    simp [bytes16]
  rw [hlength, List.take_left]

theorem crcField_own (s : State) : word16At s.ownFrame (s.ownFrame.length - 2) = crc16 s.ownFrameBody := by
  have hindex : s.ownFrame.length - 2 = (([0x6B] : List Byte) ++ s.ownFrameBody).length := by
    simp [State.ownFrame, bytes16]
  unfold word16At byteAt
  rw [hindex, State.ownFrame, List.getD_append_right _ _ _ _ (Nat.le_refl _),
    List.getD_append_right _ _ _ _ (Nat.le_succ _), Nat.sub_self, Nat.succ_sub (Nat.le_refl _),
    Nat.sub_self]
  exact join_bytes16 _

theorem slotOfStart_own {n : Nat} {k : Station} (hk : k.val < n) {late : Nat} (hlate : late < 8) :
    slotOfStart n (24 + 96 * k.val + late) = some k.val := by
  rw [slotOfStart, if_pos (by omega)]
  exact congrArg some (by omega)

/-- The frame as a receiver meets it on the line. -/
def onLine (bs : List Byte) : List RxChar := bs.map fun b => { startDominant := true, data := b, stopRecessive := true }

theorem onLine_data (bs : List Byte) : (onLine bs).map RxChar.data = bs := by
  rw [onLine, List.map_map]
  exact List.map_id bs

theorem framingOk_onLine (bs : List Byte) : framingOk (onLine bs) = true := by
  simp [framingOk, onLine]

theorem validSlot_own {s : State} (hlaw : noteLaw s = true) {n : Nat} (hn : s.id.val < n) {late : Nat} (hlate : late < 8) :
    validSlot n (24 + 96 * s.id.val + late) (onLine s.ownFrame) = some s.id := by
  have hdelimiter : byteAt s.ownFrame 0 = 0x6B := rfl
  have hstation : ((byteAt s.ownFrame 1).extractLsb' 0 4).toNat = s.id.val := by
    rw [ownFrame_eq]
    exact (stationByte_fields s.id _ _ _ _).1
  unfold validSlot
  dsimp only
  rw [slotOfStart_own hn hlate]
  dsimp only
  rw [onLine_data, dif_pos s.id.isLt, framingOk_onLine, hdelimiter, frameLength_own hlaw, crcSpan_own, crcField_own, hstation]
  simp

end Sys2Proof.Machine

namespace Sys2Proof.Claims

open Sys2Proof.Machine

/-- Settles O11, by whether the slot that begins is the own one and the link transmits. -/
theorem slotStartTransmitsOwnFrame : Obligations.SlotStartTransmitsOwnFrame := by
  refine ⟨fun s hraised hcount ht hlink => ?_, fun s hraised hother => ?_⟩
  · have hown : ownSlotStart s = true := (ownSlotStart_iff s).mpr ⟨⟨hcount, ht⟩, hlink⟩
    rw [exec_slotStart hraised, if_pos hown]
    obtain ⟨peers, slots, hshown, hmap⟩ := noteShown_writes (slotTaken s)
    have hjoining : s.link.state = .joining ↔ s.link.state ≠ .active := by
      obtain h | h := hlink <;> rw [h] <;> decide
    have hwrites : transmitOwnFrame (slotTaken s) =
        (writeOwnEntry s.ownFrame (noteShown (slotTaken s))).setLink
          { s.link with tx := some { bytes := s.ownFrame, elapsed := 0 } } := rfl
    have hnotes : (transmitOwnFrame (slotTaken s)).notes = (noteShown (slotTaken s)).notes := rfl
    have hid : (noteShown (slotTaken s)).id = s.id := by rw [hshown]; rfl
    refine ⟨_, rfl, ?_, ?_, fun k => ?_, fun i hi => ?_, fun i n dests p c st hsending hactive hslot => ?_, ?_, ?_, ?_, ?_,
      ?_, ?_, ?_, ?_, ?_, ?_, ?_, ?_, ?_, ?_⟩
    · rw [hwrites]; rfl
    · rw [hwrites, writeOwnEntry, hshown]; rfl
    · change (writeOwnEntry s.ownFrame (noteShown (slotTaken s))).entry k = _
      rw [writeOwnEntry, updateEntry_entry, hid, noteShown_entry, noteShown_entry]
      by_cases hactive : s.link.state = .active
      · have hnot : (slotTaken s).link.state ≠ .joining := by
          change s.link.state ≠ .joining
          rw [hactive]; decide
        rw [if_neg hnot, if_neg hnot]
        by_cases hk : k = s.id
        · subst hk
          simp [shownResync, slotTaken, hactive, Option.isNone_iff_eq_none, State.entry]
        · simp [shownResync, slotTaken, hactive, hk, Option.isNone_iff_eq_none, State.entry]
      · have hyes : (slotTaken s).link.state = .joining := hjoining.mpr hactive
        rw [if_pos hyes, if_pos hyes]
        by_cases hk : k = s.id
        · subst hk
          simp [slotTaken, hactive, State.entry]
        · simp [slotTaken, hactive, hk, State.entry]
    · rw [hnotes, noteShown_other_slots (s := slotTaken s) hi]
      rfl
    · have hnot : (slotTaken s).link.state ≠ .joining := by
        change s.link.state ≠ .joining
        rw [hactive]; decide
      rw [hnotes, noteShown_sending hnot (sending_of_slot (s := slotTaken s) hsending hslot), setSlot_get, if_pos rfl]
      exact ⟨_, rfl, fun k => showPending_get s.timer.cycle st k⟩
    · rw [hnotes, hshown]; rfl
    · rw [hnotes, hshown]; rfl
    · rw [hnotes, hshown]; rfl
    · rw [hwrites, writeOwnEntry, hshown]; exact hmap
    all_goals
      rw [hwrites, writeOwnEntry, hshown]
      rfl
  · have hnot : ownSlotStart s ≠ true := fun hown => by
      obtain ⟨⟨_, ht⟩, hlink⟩ := (ownSlotStart_iff s).mp hown
      obtain h | ⟨hj, ha⟩ := hother
      · exact h ht
      · exact hlink.elim hj ha
    rw [exec_slotStart hraised, if_neg hnot]
    rfl

/-- Settles O12: the bytes of the own frame one by one, its checks, and its note section. -/
theorem ownFrameIsReceivedWhole : Obligations.OwnFrameIsReceivedWhole := by
  intro s c other late hconfig hvalid hlaw hlate
  have hcfg : s.cfg = c := by rw [State.cfg, hconfig]; rfl
  obtain ⟨_, hcode, hcount, hcount', _, _, hlead, hlead', _, _, _, _, _, _, hid, _⟩ := (settingsValid_iff s.id c).mp hvalid
  obtain ⟨hstation, hjoin, hhalted, horigin, _⟩ := stationByte_fields s.id (decide (s.link.state = .joining))
    (decide (s.seq.axis = .halted)) s.origin s.notes.sendingId.isSome
  obtain ⟨hknown, haxis⟩ := axisByte_fields s.seq.axis s.gen.known
  obtain ⟨hcountField, hleadField⟩ := profileByte_fields hcount hcount' hlead hlead'
  refine ⟨validSlot_own hlaw hid hlate, ?_, ?_⟩
  · refine decide_eq_true ?_
    rw [ownFrame_eq]
    refine ⟨?_, ?_, ?_⟩
    · change ((BitVec.ofNat 8 s.cfg.cycleCode).extractLsb' 0 7).toNat = c.cycleCode
      rw [hcfg, cycleCode_field hcode]
    · change ((profileByte s.cfg).extractLsb' 4 4).toNat + 1 = c.stationCount
      rw [hcfg, hcountField]
    · change ((profileByte s.cfg).extractLsb' 0 3).toNat + 1 = c.releaseLead
      rw [hcfg, hleadField]
  · rw [ownFrame_eq]
    refine ⟨hstation, join_bytes16 s.timer.cycle, hjoin, hhalted, horigin, hknown, haxis, join_bytes32 s.gen.position, ?_, rfl,
      join_bytes16 s.barrier.histCycle, join_bytes16 (s.peerBits PeerEntry.memory),
      join_bytes16 (s.peerBits PeerEntry.refuse), join_bytes16 (s.peerBits PeerEntry.resync),
      fun hnone => parseNote_none hnone _, fun i n dests p b st hsending hslot => parseNote_sending hlaw hsending hslot _⟩
    have hfields : byteAt (frameHead s (s.noteSection ++ bytes16 (crc16 s.ownFrameBody))) 11 = barrierTag s ∧
        word16At (frameHead s (s.noteSection ++ bytes16 (crc16 s.ownFrameBody))) 12 = barrierArrival s ∧
        word16At (frameHead s (s.noteSection ++ bytes16 (crc16 s.ownFrameBody))) 14 = barrierMask s :=
      ⟨rfl, join_bytes16 (barrierArrival s), join_bytes16 (barrierMask s)⟩
    unfold barrierTag barrierArrival barrierMask at hfields
    cases hctx : s.barrier.ctx with
    | none =>
      rw [hctx] at hfields
      exact hfields
    | some x =>
      rw [hctx] at hfields
      exact hfields

end Sys2Proof.Claims
end

