-- ==== Sys2Proof/Proofs/StepEvents.lean ====
section
/-! PROOFS. The events of the Step Generator and the inputs: what falls due and what the timers end (O31), a step that
begins (O32), and the changes of the filtered inputs (O35). -/

namespace Sys2Proof.Machine

open Sys2Proof.Claims

/-! ## The head of the emission list -/

theorem finishing_nil {q : Sequencer} (h : q.outstanding = []) : q.finishing = [] := by
  rw [finishing_eq, h]
  rfl

theorem finishing_cons {q : Sequencer} {f : Finishing} {rest : List Outstanding} (h : q.outstanding = .finishing f :: rest) :
    q.finishing = f :: finishingOf rest := by
  rw [finishing_eq, h]
  rfl

theorem head_exec {q : Sequencer} (h : q.finishing = []) : q.head = execHead q.exec := by
  unfold Sequencer.head
  rw [h]

theorem head_untimed {q : Sequencer} {e : Executing} {u : UntimedSource} (h : q.finishing = []) (he : q.exec = some e)
    (hu : e.source = .untimed u) (hphase : u.phase ≠ .pending) : q.head = .untimed u := by
  rw [head_exec h, he]
  simp [execHead, hu, hphase]

/-- A HOME or PROBE that is the head is the executing segment, and not PENDING. -/
theorem head_eq_untimed {q : Sequencer} {u : UntimedSource} (h : q.head = .untimed u) : q.finishing = [] ∧
    ∃ e, q.exec = some e ∧ e.source = .untimed u ∧ u.phase ≠ .pending := by
  unfold Sequencer.head at h
  split at h
  · cases h
  · rename_i hfin
    refine ⟨hfin, ?_⟩
    unfold execHead at h
    split at h
    · cases h
    · rename_i e he
      split at h
      · cases h
      · split at h <;> cases h
      · rename_i v hv
        split at h
        · cases h
        · rename_i hphase
          cases h
          exact ⟨e, he, hv, hphase⟩

/-! ## Falling due -/

theorem fallDue_timed {s : State} {e : Executing} {src : TimedSource} (he : s.seq.exec = some e)
    (hsrc : e.source = .timed src) : fallDue s = setExecSource e (.timed { src with fallen := src.fallen + 1 }) s := by
  unfold fallDue
  rw [he]
  dsimp only
  rw [hsrc]

theorem fallDueUntimed_untimed {s : State} {e : Executing} {u : UntimedSource} (he : s.seq.exec = some e)
    (hu : e.source = .untimed u) : fallDueUntimed s = setExecSource e (.untimed { u with backlog := true }) s := by
  unfold fallDueUntimed
  rw [he]
  dsimp only
  rw [hu]

theorem stepDueNow_iff {s : State} {e : Executing} {src : TimedSource} (he : s.seq.exec = some e)
    (hsrc : e.source = .timed src) : stepDueNow s = true ↔ src.fallen < src.n ∧
      (2 * (src.fallen + 1) - 1) * src.length / (2 * src.n) ≤ (s.timer.cycle - e.startCycle).toNat * s.cycleUs + s.timer.t := by
  unfold stepDueNow
  rw [he]
  dsimp only
  rw [hsrc]
  exact decide_eq_true_iff

/-! ## The end of a HOME or PROBE -/

theorem writeExecRecord_alone {s : State} (h : s.seq.outstanding = []) (r : Record) : writeExecRecord r s = { s with
    seq := { s.seq with exec := none, outstanding := [] }
    held := s.held ++ [r] } := by
  unfold writeExecRecord joinRecords
  simp only [State.setSeq, State.setHeld, h, List.nil_append, drain]

/-- The segment has ended with this record, and the axis is IDLE. -/
def endedWith (r : Record) (s : State) : State :=
  { s with
    seq := { s.seq with axis := .idle, exec := none, outstanding := [] }
    held := s.held ++ [r] }

theorem setAxis_writeExecRecord {s : State} (h : s.seq.outstanding = []) (r : Record) :
    setAxis .idle (writeExecRecord r s) = endedWith r s := by
  rw [writeExecRecord_alone h]
  rfl

theorem endUntimed_plain {s : State} (h : s.seq.outstanding = []) {code : Code} (hplain : haltingOutcome s.cfg code = false)
    (e : Executing) (part : RecordPart) : endUntimed e code part s = endedWith (s.execRecord e code part) s := by
  unfold endUntimed
  rw [setAxis_writeExecRecord h]
  exact if_neg (by rw [hplain]; exact Bool.false_ne_true)

theorem endUntimed_halting {s : State} (h : s.seq.outstanding = []) {code : Code} (hhalts : haltingOutcome s.cfg code = true)
    (e : Executing) (part : RecordPart) : endUntimed e code part s =
      haltTaken (.segmentFault e.seg.seq code .ended) (endedWith (s.execRecord e code part) s) := by
  unfold endUntimed
  rw [setAxis_writeExecRecord h]
  exact (if_pos hhalts).trans (takeCause_of_live rfl _)

/-- A halt that finds nothing started writes no record. -/
theorem haltRecords_none {s : State} (hout : s.seq.outstanding = []) (hexec : s.seq.exec = none) (c : Cause) :
    haltRecords c s = [] := by
  rw [haltRecords, executingRecords, hout, hexec]
  rfl

theorem haltTaken_held_none {s : State} (hout : s.seq.outstanding = []) (hexec : s.seq.exec = none) (c : Cause) :
    (haltTaken c s).held = s.held := by
  rw [haltTaken_held, haltRecords_none hout hexec, List.append_nil]

theorem endHomed_alone {s : State} (h : s.seq.outstanding = []) (e : Executing) (v : Position) : endHomed e v s =
    endedWith (recordOf e .homed s.timer.cycle e.source.emitted { s.gen with position := v, known := true } .none)
      (s.setGen { s.gen with position := v, known := true }) :=
  endUntimed_plain (s := s.setGen { s.gen with position := v, known := true }) h rfl e .none

theorem closeSegment_home {s : State} {e : Executing} {u : UntimedSource} {v : Position} (he : s.seq.exec = some e)
    (hu : e.source = .untimed u) (hv : u.home = some v) :
    closeSegment s = if s.inputActive .home then endHomed e v s else endHomeFailed e s := by
  simp only [closeSegment, he, hu, hv]

theorem closeSegment_probe {s : State} {e : Executing} {u : UntimedSource} (he : s.seq.exec = some e)
    (hu : e.source = .untimed u) (hv : u.home = none) : closeSegment s = endUntimed e .probeMiss .none s := by
  simp only [closeSegment, he, hu, hv]

/-! ## A step -/

theorem ofInt_add_toInt (p : Position) (k : Int) : BitVec.ofInt 32 (p.toInt + k) = p + BitVec.ofInt 32 k := by
  rw [BitVec.ofInt_add, BitVec.ofInt_toInt]

/-- The counter after a step, as a number of 32 bits. -/
theorem steppedPosition_bits (g : StepGen) :
    BitVec.ofInt 32 (steppedPosition g) = if g.dirHigh then g.position + 1 else g.position - 1 := by
  unfold steppedPosition
  split
  · exact ofInt_add_toInt g.position 1
  · rw [Int.sub_eq_add_neg, ofInt_add_toInt, BitVec.sub_eq_add_neg]
    rfl

theorem inPositionRange_stepped (g : StepGen) : inPositionRange (steppedPosition g) = true ↔
    g.position ≠ if g.dirHigh then 0x7FFFFFFF#32 else 0x80000000#32 := by
  have hbounds := BitVec.toInt_lt (x := g.position)
  have hbounds' := BitVec.le_toInt g.position
  unfold inPositionRange steppedPosition
  rw [decide_eq_true_iff]
  split
  · have hlast : g.position = 0x7FFFFFFF#32 ↔ g.position.toInt = 2147483647 := by
      rw [← BitVec.toInt_inj]
      rfl
    rw [ne_eq, hlast]
    omega
  · have hfirst : g.position = 0x80000000#32 ↔ g.position.toInt = -2147483648 := by
      rw [← BitVec.toInt_inj]
      rfl
    rw [ne_eq, hfirst]
    omega

/-- The step generator once a pulse has begun. -/
def pulsed (s : State) : StepGen :=
  { s.gen with
    position := if s.gen.dirHigh then s.gen.position + 1 else s.gen.position - 1
    spacing := some 0
    pulse := some s.cfg.stepPulseUs }

theorem beginPulse_eq (s : State) : beginPulse s = s.setGen (pulsed s) := by
  unfold beginPulse pulsed
  rw [steppedPosition_bits]

theorem stepRefusal_eq_none {s : State} (hlimit : s.inputActive (limitAhead s.gen.dirHigh) = false)
    (hlast : s.gen.dirHigh = true → s.gen.position ≠ 0x7FFFFFFF#32)
    (hfirst : s.gen.dirHigh = false → s.gen.position ≠ 0x80000000#32) : stepRefusal s = none := by
  unfold stepRefusal
  rw [if_neg (by rw [hlimit]; exact Bool.false_ne_true), if_pos ((inPositionRange_stepped s.gen).mpr _)]
  cases hdir : s.gen.dirHigh with
  | true => exact hlast hdir
  | false => exact hfirst hdir

/-- The code that refuses a step, LIMIT before RANGE (R46). -/
theorem stepRefusal_eq_some {s : State} {code : Code} (h : (s.inputActive (limitAhead s.gen.dirHigh) = true ∧ code = .limit) ∨
    (s.inputActive (limitAhead s.gen.dirHigh) = false ∧ code = .range ∧
      s.gen.position = (if s.gen.dirHigh then 0x7FFFFFFF#32 else 0x80000000#32))) : stepRefusal s = some code := by
  unfold stepRefusal
  obtain ⟨hactive, rfl⟩ | ⟨hinactive, rfl, hposition⟩ := h
  · rw [if_pos hactive]
  · rw [if_neg (by rw [hinactive]; exact Bool.false_ne_true),
      if_neg (fun hrange => (inPositionRange_stepped s.gen).mp hrange hposition)]

theorem exec_stepPulseBegin {s : State} (h : stepPulseBeginDue s = true) : exec .stepPulseBegin s = .next (takeStep s) :=
  congrArg Host.Outcome.next (if_pos h)

theorem axis_of_due {s : State} (h : stepPulseBeginDue s = true) : s.seq.axis = .running :=
  ((stepConditions_iff s).mp (stepConditions_of_due h)).1

theorem takeStep_finishing {s : State} {f : Finishing} {fs : List Finishing} (h : s.seq.finishing = f :: fs) :
    takeStep s = stepFinishing f s := by
  unfold takeStep
  rw [h]

/-- The executing segment is the head, and not a HOME whose input has become active. -/
theorem takeStep_executing {s : State} {e : Executing} (h : s.seq.finishing = []) (he : s.seq.exec = some e)
    (hhome : ∀ u v, e.source = .untimed u → u.home = some v → s.inputActive .home = false) :
    takeStep s = stepExecuting e s := by
  unfold takeStep
  rw [h, he]
  dsimp only
  split
  · rename_i v hv
    obtain ⟨u, hu, huv⟩ := homeValue_eq_some hv
    rw [if_neg (by rw [hhome u v hu huv]; exact Bool.false_ne_true)]
  · rfl

theorem takeStep_homed {s : State} {e : Executing} {u : UntimedSource} {v : Position} (h : s.seq.finishing = [])
    (he : s.seq.exec = some e) (hu : e.source = .untimed u) (hv : u.home = some v) (hactive : s.inputActive .home = true) :
    takeStep s = endHomed e v s := by
  unfold takeStep
  rw [h, he]
  simp [Executing.homeValue, hu, hv, hactive]

theorem stepExecuting_begins {s : State} (h : stepRefusal s = none) (e : Executing) :
    stepExecuting e s = countExecStep (beginPulse s) := by
  rw [stepExecuting, h]

theorem stepExecuting_refused {s : State} {code : Code} (h : stepRefusal s = some code) (hlive : s.seq.axis.live = true)
    (e : Executing) : stepExecuting e s = haltTaken (.segmentFault e.seg.seq code .executing) s := by
  rw [stepExecuting, h]
  exact refuseStep_of_live hlive _ _ _

theorem stepFinishing_begins {s : State} (h : stepRefusal s = none) (f : Finishing) :
    stepFinishing f s = countFinishingStep f (beginPulse s) := by
  rw [stepFinishing, h]

theorem stepFinishing_refused {s : State} {code : Code} (h : stepRefusal s = some code) (hlive : s.seq.axis.live = true)
    (f : Finishing) : stepFinishing f s = haltTaken (.segmentFault f.seg.seq code .firstFinishing) s := by
  rw [stepFinishing, h]
  exact refuseStep_of_live hlive _ _ _

/-- The source after a step of it. -/
def steppedSource : Source → Source
  | .none => .none
  | .timed src => .timed { src with emitted := src.emitted + 1 }
  | .untimed u => .untimed (countUntimedStep u)

theorem countExecStep_eq {s : State} {e : Executing} (he : s.seq.exec = some e) :
    countExecStep s = setExecSource e (steppedSource e.source) s := by
  unfold countExecStep
  rw [he]
  dsimp only
  cases hsrc : e.source with
  | none =>
    have heta : e = { e with source := .none } := by rw [← hsrc]
    simp only [steppedSource, setExecSource]
    rw [← heta, ← he]
    rfl
  | timed src => rfl
  | untimed u => rfl

/-- A step owed by a finishing segment that is not its last. -/
theorem countFinishingStep_more {s : State} {f : Finishing} {rest : List Outstanding}
    (hout : s.seq.outstanding = .finishing f :: rest) (h : f.source.emitted + 1 < f.source.n) : countFinishingStep f s =
      s.setSeq { s.seq with
        outstanding := .finishing { f with source := { f.source with emitted := f.source.emitted + 1 } } :: rest } := by
  unfold countFinishingStep
  dsimp only
  rw [if_neg (Nat.not_le.mpr h), hout]
  rfl

/-- The record with which the finishing segment completes at its last step. -/
def doneRecord (f : Finishing) (s : State) : Record :=
  s.finishingRecord { f with source := { f.source with emitted := f.source.emitted + 1 } } .done

/-- The state once that record is written, with those held back behind it. -/
def afterLastStep (f : Finishing) (rest : List Outstanding) (s : State) : State :=
  { s with
    seq := { s.seq with outstanding := (drain rest).2 }
    held := s.held ++ doneRecord f s :: (drain rest).1 }

/-- The last step owed by the first finishing segment: its record and those held back behind it are held. -/
theorem countFinishingStep_last {s : State} {f : Finishing} {rest : List Outstanding}
    (hout : s.seq.outstanding = .finishing f :: rest) (h : f.source.n ≤ f.source.emitted + 1) : countFinishingStep f s =
      firstExamination (afterLastStep f rest s) := by
  unfold countFinishingStep
  dsimp only
  rw [if_pos h]
  refine congrArg firstExamination ?_
  unfold writeFinishingRecord joinRecords
  simp only [State.setSeq, State.setHeld, hout, setFinishingSource, replaceFinishing, drain]
  rfl

theorem firstExamination_of_not_untimed {s : State} (h : ∀ e u, s.seq.exec = some e → e.source ≠ .untimed u) :
    firstExamination s = s := by
  unfold firstExamination
  split
  · rfl
  · rename_i e he
    split
    · rename_i u hu
      exact absurd hu (h e u he)
    · rfl

theorem firstExamination_pending {s : State} {e : Executing} {u : UntimedSource} (he : s.seq.exec = some e)
    (hu : e.source = .untimed u) (hphase : u.phase = .pending) (hfin : s.seq.finishing = []) :
    firstExamination s = examineFirst e u s := by
  unfold firstExamination
  rw [he]
  dsimp only
  rw [hu]
  exact if_pos ⟨hphase, hfin⟩

theorem examineFirst_inactive {s : State} {u : UntimedSource}
    (h : s.inputActive (if u.home.isSome then .home else .probe) = false) (e : Executing) :
    examineFirst e u s = setExecSource e (.untimed (enterStepping u)) s := by
  unfold examineFirst
  cases hhome : u.home with
  | some v =>
    rw [hhome] at h
    exact if_neg (by rw [show s.inputActive .home = false from h]; exact Bool.false_ne_true)
  | none =>
    rw [hhome] at h
    exact if_neg (by rw [show s.inputActive .probe = false from h]; exact Bool.false_ne_true)

theorem examineFirst_homed {s : State} {u : UntimedSource} {v : Position} (hv : u.home = some v)
    (h : s.inputActive .home = true) (e : Executing) : examineFirst e u s = endHomed e v s := by
  unfold examineFirst
  rw [hv]
  exact if_pos h

theorem examineFirst_probe {s : State} {u : UntimedSource} (hv : u.home = none)
    (h : s.inputActive .probe = true) (e : Executing) : examineFirst e u s = endUntimed e .probeActiveAtStart .none s := by
  unfold examineFirst
  rw [hv]
  exact if_pos h

/-! ## Level changes -/

theorem setFilter_filter (i j : AxisInput) (f : Filter) (g : StepGen) :
    (setFilter i f g).filter j = if j = i then f else g.filter j := by
  cases i <;> cases j <;> rfl

theorem probeChanged_of_none {s : State}
    (h : ∀ e u, s.seq.exec = some e → e.source = .untimed u → u.home = none → u.phase = .pending) : probeChanged s = s := by
  unfold probeChanged
  split
  · rfl
  · rename_i e he
    split
    · rename_i u hu
      exact if_neg fun ⟨hhome, hphase⟩ => hphase (h e u he hu hhome)
    · rfl

theorem probeChanged_watching {s : State} {e : Executing} {u : UntimedSource} (he : s.seq.exec = some e)
    (hu : e.source = .untimed u) (hhome : u.home = none) (hphase : u.phase ≠ .pending) :
    probeChanged s = watchProbe e u s := by
  unfold probeChanged
  rw [he]
  dsimp only
  rw [hu]
  exact if_pos ⟨hhome, hphase⟩

theorem probeWatching_of_none {s : State}
    (h : ∀ e u, s.seq.exec = some e → e.source = .untimed u → u.home = none → u.phase = .pending) :
    probeWatching s = false := by
  unfold probeWatching
  split
  · rename_i u hhead
    obtain ⟨_, e, he, hu, hphase⟩ := head_eq_untimed hhead
    cases hhome : u.home with
    | some v => rfl
    | none => exact absurd (h e u he hu hhome) hphase
  · rfl

theorem exec_levelChange {s : State} {i : AxisInput} (h : filteredLevelChangeDue i s = true) :
    exec (.filteredLevelChange i) s = .next (changeLevel i s) :=
  congrArg Host.Outcome.next (if_pos h)

theorem exec_probeChange {s : State} (hrun : 2 ≤ s.gen.probe.run) (hboundary : s.boundaryDue = false) :
    exec (.filteredLevelChange .probe) s = .next (probeChanged (flipInput .probe s)) := by
  refine exec_levelChange (i := .probe) ?_
  simp [filteredLevelChangeDue, levelChangeDue, StepGen.filter, hrun, hboundary]

/-- The flipped level of PROBE, once the station is configured. -/
theorem inputActive_flipped {s : State} (hconfig : s.config.isSome = true) :
    (flipInput .probe s).inputActive .probe = decide (s.gen.probe.level ≠ s.cfg.probeHigh) := by
  change (s.config.isSome && ((!s.gen.probe.level) == s.cfg.probeHigh)) = _
  rw [hconfig]
  cases s.gen.probe.level <;> cases s.cfg.probeHigh <;> decide

/-! ## The stop input -/

theorem exec_stopInput {s : State} (hlevel : s.haltCtl.stopn.level = true) (hrun : 4 ≤ s.haltCtl.stopn.run) :
    exec .stopInput s = .next (takeCause (.plain .stopInput) (flipStop s)) :=
  congrArg Host.Outcome.next (if_pos (by simp [stopInputDue, stopChangeDue, hlevel, hrun]))

theorem takeCause_stopInput_stopped {s : State} (h : s.seq.axis.live = false) : takeCause (.plain .stopInput) s = s := by
  unfold takeCause
  cases ha : s.seq.axis <;> simp_all [AxisState.live, Cause.plain, HaltCause.setsLatch]

end Sys2Proof.Machine

namespace Sys2Proof.Claims

open Sys2Proof.Machine

/-- Settles O31, event by event. -/
theorem stepTimersAndDueSteps : Obligations.StepTimersAndDueSteps := by
  refine ⟨fun s e src hboundary he hsrc hleft hreached => ?_, fun s e src he hsrc hnot => ?_,
    fun s e u hboundary he hu hfin hphase hbacklog hemitted hmax hinterval => ?_, fun s hpulse => ?_,
    fun s d hboundary hpulse hhead hdiffers => ?_, fun s hsame => ?_, fun s hsetup => ?_⟩
  · refine congrArg Host.Outcome.next ?_
    rw [if_pos, fallDue_timed he hsrc]
    · rfl
    · rw [stepDueDue, hboundary, (stepDueNow_iff he hsrc).mpr ⟨hleft, hreached⟩]
      rfl
  · refine congrArg Host.Outcome.next (if_neg fun hdue => ?_)
    rw [stepDueDue, Bool.and_eq_true, stepDueNow_iff he hsrc] at hdue
    omega
  · refine congrArg Host.Outcome.next ?_
    rw [if_pos, fallDueUntimed_untimed he hu]
    · rfl
    · rw [untimedStepDueDue, hboundary, untimedStepDueNow, head_untimed hfin he hu (by rw [hphase]; decide)]
      exact decide_eq_true ⟨hphase, hbacklog, hemitted, hmax, hinterval⟩
  · exact congrArg Host.Outcome.next (if_pos (decide_eq_true hpulse))
  · refine congrArg Host.Outcome.next ?_
    rw [if_pos, changeDir]
    · have hflip : (!s.gen.dirHigh) = d.high := by
        revert hdiffers
        cases s.gen.dirHigh <;> cases d.high <;> simp
      rw [hflip]
      rfl
    · simp [dirChangeDue, dirChangeNow, hboundary, hpulse, hhead, hdiffers]
  · refine congrArg Host.Outcome.next (if_neg fun hdue => ?_)
    simp only [dirChangeDue, dirChangeNow, Bool.and_eq_true] at hdue
    obtain ⟨_, _, hhead⟩ := hdue
    cases hd : s.seq.head.direction with
    | none => simp [hd] at hhead
    | some d => simp [hd, hsame d hd] at hhead
  · exact congrArg Host.Outcome.next (if_pos (decide_eq_true hsetup))

/-- Settles O32, by the head of the emission list: the executing segment, a finishing one, or the last step ahead of a
PENDING source. -/
theorem stepBeginsAndCounts : Obligations.StepBeginsAndCounts := by
  refine ⟨fun s e hdue hfin he hlimit hlast hfirst hhome => ?_, fun s f rest hdue hout hlimit hlast hfirst hplain => ?_,
    fun s f e u hdue hout hend he hu hphase hlimit hlast hfirst g done hg hdone => ?_⟩
  · rw [exec_stepPulseBegin hdue, takeStep_executing hfin he hhome,
      stepExecuting_begins (stepRefusal_eq_none hlimit hlast hfirst), beginPulse_eq,
      countExecStep_eq (s := s.setGen (pulsed s)) he]
    refine congrArg Host.Outcome.next ?_
    cases e.source <;> rfl
  · rw [exec_stepPulseBegin hdue, takeStep_finishing (finishing_cons hout),
      stepFinishing_begins (stepRefusal_eq_none hlimit hlast hfirst), beginPulse_eq]
    by_cases hmore : f.source.emitted + 1 < f.source.n
    · rw [countFinishingStep_more (s := s.setGen (pulsed s)) hout hmore]
      exact ⟨_, rfl, rfl, rfl, rfl, rfl, rfl, rfl, rfl, fun _ => ⟨rfl, rfl⟩, fun hend => absurd hmore (by omega)⟩
    · have hend : f.source.n ≤ f.source.emitted + 1 := Nat.not_lt.mp hmore
      rw [countFinishingStep_last (s := s.setGen (pulsed s)) hout hend,
        firstExamination_of_not_untimed (s := afterLastStep f rest (s.setGen (pulsed s))) (hplain.resolve_left hmore)]
      refine ⟨_, rfl, rfl, rfl, rfl, rfl, rfl, rfl, rfl, fun h => absurd h hmore, fun _ => ⟨?_, ?_⟩⟩
      · change (s.held ++ doneRecord f (s.setGen (pulsed s)) :: (drain rest).1).length + (drain rest).2.length = _
        have hlength := drain_length rest
        rw [hout, List.length_append, List.length_cons, List.length_cons]
        omega
      · change (s.held ++ doneRecord f (s.setGen (pulsed s)) :: (drain rest).1)[s.held.length]? = _
        rw [List.getElem?_append_right (Nat.le_refl _), Nat.sub_self]
        rfl
  · have hstep : takeStep s = examineFirst e u { s with
        gen := g, seq := { s.seq with outstanding := [] }, held := s.held ++ [done] } := by
      rw [takeStep_finishing (finishing_cons hout), stepFinishing_begins (stepRefusal_eq_none hlimit hlast hfirst),
        beginPulse_eq, countFinishingStep_last (s := s.setGen (pulsed s)) hout hend,
        firstExamination_pending (s := afterLastStep f [] (s.setGen (pulsed s))) he hu hphase rfl, hdone, hg]
      rfl
    rw [exec_stepPulseBegin hdue, hstep]
    set w : State := { s with gen := g, seq := { s.seq with outstanding := [] }, held := s.held ++ [done] } with hw
    have hinput (i : AxisInput) : w.inputActive i = s.inputActive i := by
      subst hg
      cases i <;> rfl
    have hemitted : e.source.emitted = u.emitted := by rw [hu]; rfl
    have hrecord (code : Code) (x : StepGen) :
        recordOf e code s.timer.cycle e.source.emitted x .none = recordOf e code s.timer.cycle u.emitted x .none := by
      rw [hemitted]
    by_cases hactive : s.inputActive (if u.home.isSome then .home else .probe) = true
    · cases hhome : u.home with
      | some v =>
        have hhomed : s.inputActive .home = true := by rw [hhome] at hactive; exact hactive
        rw [examineFirst_homed hhome (by rw [hinput]; exact hhomed), endHomed_alone (s := w) rfl, hemitted]
        refine ⟨_, rfl, rfl, fun hnot => ?_, fun v' hv' _ => ?_, fun hnone => nomatch hnone⟩
        · rw [show (some v).isSome = true from rfl, if_pos rfl, hhomed] at hnot
          cases hnot
        · obtain rfl : v = v' := Option.some.inj hv'
          exact ⟨rfl, rfl, rfl, rfl, List.append_assoc _ _ _⟩
      | none =>
        have hprobe : s.inputActive .probe = true := by rw [hhome] at hactive; exact hactive
        rw [examineFirst_probe hhome (by rw [hinput]; exact hprobe), endUntimed_halting (s := w) rfl rfl]
        refine ⟨_, rfl, haltTaken_outstanding _ _, fun hnot => ?_, fun v hv _ => (nomatch hv), fun _ _ => ⟨rfl, rfl, ?_, ?_, ?_⟩⟩
        · rw [show (none : Option Position).isSome = false from rfl, if_neg Bool.false_ne_true, hprobe] at hnot
          cases hnot
        · rw [haltTaken_gen]
          rfl
        · exact haltTaken_reports _ _
        · rw [haltTaken_held_none rfl rfl, ← hrecord]
          exact List.append_assoc _ _ _
    · have hinactive := Bool.eq_false_iff.mpr hactive
      rw [examineFirst_inactive (by rw [hinput]; exact hinactive)]
      refine ⟨_, rfl, rfl, fun _ => ⟨axis_of_due (s := s) hdue, rfl, rfl, rfl, rfl⟩, fun v hv hhome => ?_, fun hnone hprobe => ?_⟩
      · rw [hv] at hactive
        exact absurd hhome hactive
      · rw [hnone] at hactive
        exact absurd hprobe hactive

/-- Settles O35, by the input: the axis inputs, PROBE under an executing PROBE, and STOPN. -/
theorem filteredInputsChange : Obligations.FilteredInputsChange := by
  refine ⟨fun s i hrun => ?_, fun s i hrun hplain => ?_,
    fun s e u hrun hboundary he hu hhome hphase hlast hconfig hlevel hout => ?_,
    fun s e u active hrun hboundary he hu hhome hphase hconfig hactive hnotrip => ?_, fun s hlevel hrun => ?_,
    fun s hlevel hrun => ?_, fun s hrun => ?_⟩
  · refine congrArg Host.Outcome.next (if_neg fun hdue => ?_)
    simp only [filteredLevelChangeDue, levelChangeDue, Bool.and_eq_true, decide_eq_true_eq] at hdue
    omega
  · have hdue : filteredLevelChangeDue i s = true := by
      rw [filteredLevelChangeDue, levelChangeDue, decide_eq_true hrun]
      obtain hother | hnone := hplain
      · simp [hother]
      · simp [probeWatching_of_none hnone]
    have hchange : changeLevel i s = flipInput i s := by
      cases i with
      | probe => exact probeChanged_of_none (s := flipInput .probe s) (hplain.resolve_left (fun h => h rfl))
      | home | limp | limn => rfl
    rw [exec_levelChange hdue, hchange]
    refine ⟨_, rfl, ?_, fun j hj => ?_, ?_⟩
    · exact (setFilter_filter i i _ _).trans (if_pos rfl)
    · exact (setFilter_filter i j _ _).trans (if_neg hj)
    · cases i <;> rfl
  · have hflipped : (!s.gen.probe.level) = s.cfg.probeHigh := by
      revert hlevel
      cases s.gen.probe.level <;> cases s.cfg.probeHigh <;> simp
    have htrip : (flipInput .probe s).inputActive .probe = true := by
      rw [inputActive_flipped hconfig]
      exact decide_eq_true hlevel
    have hemitted : e.source.emitted = u.emitted := by rw [hu]; rfl
    rw [exec_probeChange hrun hboundary, probeChanged_watching (s := flipInput .probe s) he hu hhome hphase, watchProbe,
      htrip, hlast, if_pos (by rfl), endUntimed_plain (s := flipInput .probe s) hout rfl]
    unfold endedWith State.execRecord recordOf flipInput
    rw [hemitted]
    simp only [setFilter, StepGen.filter, Filter.flip, hflipped, State.setGen]
  · have hsees : (flipInput .probe s).inputActive .probe = active := by rw [inputActive_flipped hconfig, hactive]
    rw [exec_probeChange hrun hboundary, probeChanged_watching (s := flipInput .probe s) he hu hhome hphase, watchProbe, hsees,
      if_neg (by obtain h | h := hnotrip <;> simp [h])]
    rfl
  · rw [exec_stopInput hlevel hrun]
    have hflip : (flipStop s).haltCtl = { s.haltCtl with stopn := { s.haltCtl.stopn with level := false, run := 0 } } := by
      change { s.haltCtl with stopn := { s.haltCtl.stopn with level := !s.haltCtl.stopn.level, run := 0 } } = _
      rw [hlevel]
      rfl
    have hstate : flipStop s = { s with haltCtl := { s.haltCtl with
        stopn := { s.haltCtl.stopn with level := false, run := 0 } } } := by
      rw [← hflip]
      rfl
    by_cases hlive : s.seq.axis.live = true
    · rw [takeCause_of_live (s := flipStop s) hlive, haltTaken_eq, hstate]
      refine ⟨_, rfl, rfl, Bool.or_false _, rfl, rfl, rfl, rfl, rfl, rfl, fun _ => ⟨rfl, rfl, rfl, rfl, rfl⟩, fun hnot => ?_⟩
      exact absurd ((haltable_iff _).mpr hlive) hnot
    · rw [takeCause_stopInput_stopped (s := flipStop s) (Bool.eq_false_iff.mpr hlive), hstate]
      exact ⟨_, rfl, rfl, rfl, rfl, rfl, rfl, rfl, rfl, rfl, fun h => absurd ((haltable_iff _).mp h) hlive, fun _ => rfl⟩
  · refine congrArg Host.Outcome.next ?_
    rw [if_pos (by simp [stopnInactiveDue, stopChangeDue, hlevel, hrun]), flipStop, Filter.flip, hlevel]
    rfl
  · have hdue : stopChangeDue s = false := decide_eq_false (by omega)
    exact ⟨congrArg Host.Outcome.next (if_neg (by simp [stopInputDue, hdue])),
      congrArg Host.Outcome.next (if_neg (by simp [stopnInactiveDue, hdue]))⟩

end Sys2Proof.Claims
end

