-- ==== Sys2Proof/Proofs/Boundaries.lean ====
section
/-! PROOFS. The boundary: the order of its turns, what ends the cycle, and the timer that the next cycle begins with (O7,
O8). -/

namespace Sys2Proof.Machine

open Sys2Proof.Claims

/-! ## The order of the turns -/

/-- No turn that acts on what the motion turn has done stands ahead of it. -/
def MotionFirst (l : List BoundaryTurn) : Prop := l.Pairwise fun a b => afterMotion a = true → b ≠ .motion

theorem firsts_motionFirst {l rest : List BoundaryTurn} (h : ∀ b ∈ l, afterMotion b = false) :
    MotionFirst (firsts (l ++ .motion :: rest)) := by
  induction l with
  | nil =>
    refine List.pairwise_cons.mpr ⟨fun b _ hmotion => (nomatch hmotion), ?_⟩
    refine List.pairwise_of_forall_mem_list fun a _ b hb _ => ?_
    exact of_decide_eq_true (List.mem_filter.mp hb).2
  | cons a l ih =>
    obtain ⟨ha, hl⟩ := List.forall_mem_cons.mp h
    refine List.pairwise_cons.mpr ⟨fun b _ hafter => ?_, (ih hl).sublist List.filter_sublist⟩
    rw [ha] at hafter
    cases hafter

theorem turnsOf_motionFirst (o : EventOrder) : MotionFirst (turnsOf o) := by
  have hplain : ∀ b ∈ (o.turns.takeWhile (· ≠ .motion)).filter (!afterMotion ·), afterMotion b = false := fun b hb => by
    simpa using (List.mem_filter.mp hb).2
  unfold turnsOf
  cases hdrop : o.turns.dropWhile (· ≠ .motion) with
  | nil =>
    rw [List.append_nil, show ∀ p : List BoundaryTurn,
      p ++ [.link, .peers, .motion, .examination, .stepEvents, .lateHalt, .deadline, .notes] =
        (p ++ [.link, .peers]) ++ .motion :: [.examination, .stepEvents, .lateHalt, .deadline, .notes] from
      fun p => (List.append_assoc p [.link, .peers] _).symm]
    refine firsts_motionFirst fun b hb => ?_
    obtain hb | hb := List.mem_append.mp hb
    · exact hplain b hb
    · fin_cases hb <;> rfl
  | cons a rest =>
    have ha : a = .motion := by
      have hne : o.turns.dropWhile (· ≠ .motion) ≠ [] := by rw [hdrop]; exact List.cons_ne_nil _ _
      have hhead := List.head_dropWhile_not (· ≠ BoundaryTurn.motion) hne
      simp only [hdrop, List.head_cons] at hhead
      simpa using hhead
    rw [ha, List.append_assoc, List.cons_append]
    exact firsts_motionFirst hplain

/-- The turns that stand at the head of the order are taken in that order. -/
theorem turnsOf_of_head {o : EventOrder} {l : List BoundaryTurn} (h : o.turns = .motion :: l) : turnsOf o =
    firsts (.motion :: l ++ [.link, .peers, .motion, .examination, .stepEvents, .lateHalt, .deadline, .notes]) := by
  unfold turnsOf
  rw [h]
  rfl

theorem firsts_head_three {α : Type} [DecidableEq α] {a b c : α} (hab : b ≠ a) (hac : c ≠ a) (hbc : c ≠ b) (l : List α) :
    ∃ rest, firsts (a :: b :: c :: l) = a :: b :: c :: rest := by
  simp [firsts, hab, hac, hbc]

theorem firsts_head_two {α : Type} [DecidableEq α] {a b : α} (hab : b ≠ a) (l : List α) :
    ∃ rest, firsts (a :: b :: l) = a :: b :: rest := by
  simp [firsts, hab]

/-! ## Rows of turns -/

/-- What holds of the turns still to come and of the state holds at the end. -/
theorem turns_induct {o : EventOrder} {e : CycleEnd} {I : List BoundaryTurn → Raising → Prop}
    (hstep : ∀ b rest x, I (b :: rest) x → I rest (takeTurn o e x b)) {l : List BoundaryTurn} {x : Raising} (h : I l x) :
    I [] (l.foldl (takeTurn o e) x) := by
  induction l generalizing x with
  | nil => exact h
  | cons b l ih => exact ih (hstep b l x h)

/-- A relation that every turn of the row respects. -/
theorem turns_relate {o : EventOrder} {e : CycleEnd} {R : State → State → Prop} (hrefl : ∀ s, R s s)
    (htrans : ∀ {s t u}, R s t → R t u → R s u) {l : List BoundaryTurn}
    (hstep : ∀ x, ∀ b ∈ l, R x.1 (takeTurn o e x b).1) (x : Raising) : R x.1 (l.foldl (takeTurn o e) x).1 := by
  induction l generalizing x with
  | nil => exact hrefl _
  | cons b l ih =>
    obtain ⟨hb, hl⟩ : (∀ x, R x.1 (takeTurn o e x b).1) ∧ ∀ x, ∀ c ∈ l, R x.1 (takeTurn o e x c).1 :=
      ⟨fun x => hstep x b List.mem_cons_self, fun x c hc => hstep x c (List.mem_cons_of_mem b hc)⟩
    exact htrans (hb x) (ih hl _)

/-! ## What ends the cycle -/

/-- The station at the start of its boundary: the timer has begun the next cycle, with its own pulse or without. -/
def begun (pulse : Option Nat) (s : State) : State := s.setTimer (timerBoundary { s.timer with pulse := pulse })

/-- The state after the turns of the boundary of a cycle that ends so. -/
def afterTurns (o : EventOrder) (skipped : Nat) (pulse : Option Nat) (s : State) : State :=
  ((turnsOf o).foldl (takeTurn o (cycleEnd skipped s)) (begun pulse s, none)).1

theorem boundary_eq (o : EventOrder) (skipped : Nat) (s : State) :
    boundary o skipped s = afterTurns o skipped s.timer.pulse s := rfl

theorem exec_runOut {s : State} (h : runOutDue s = true) (o : EventOrder) :
    exec (.runOut o) s = .next (afterTurns o 0 (some 8) s) :=
  congrArg Host.Outcome.next (if_pos h)

theorem exec_stretchedRunOut {s : State} (h : stretchedRunOutDue s = true) (o : EventOrder) :
    exec (.stretchedRunOut o) s = .next (afterTurns o 0 s.timer.pulse s) :=
  congrArg Host.Outcome.next (if_pos h)

theorem counting_cases {s : State} (h : s.counting = true) :
    s.link.state = .joining ∨ s.link.state = .active ∨ s.link.state = .duplicate := by
  unfold State.counting at h
  cases hstate : s.link.state <;> simp_all

theorem edgeAccepted_counting {s : State} (h : s.edgeAccepted = true) : s.counting = true :=
  (Bool.and_eq_true_iff.mp h).1

theorem exec_acceptedEdge {s : State} (hdue : edgeDue s = true) (haccepted : s.edgeAccepted = true) (o : EventOrder) :
    exec (.syncFallingEdge o) s = .next (afterTurns o s.skippedCount s.timer.pulse s) := by
  refine congrArg Host.Outcome.next ((if_pos hdue).trans ?_)
  unfold takeEdge
  obtain h | h | h := counting_cases (edgeAccepted_counting haccepted) <;> rw [h] <;> exact if_pos haccepted

/-- How the cycle ended: by the own run-out, by the stretched one, or by an edge. -/
inductive CycleEnded (o : EventOrder) (s : State) : State → Prop
  | runOut (h : runOutDue s = true) : CycleEnded o s (afterTurns o 0 (some 8) s)
  | stretched (h : stretchedRunOutDue s = true) : CycleEnded o s (afterTurns o 0 s.timer.pulse s)
  | edge (hdue : edgeDue s = true) (haccepted : s.edgeAccepted = true) :
      CycleEnded o s (afterTurns o s.skippedCount s.timer.pulse s)

theorem cycleEnded_of_endsCycle {o : EventOrder} {s t : State} (h : EndsCycle o s t) : CycleEnded o s t := by
  obtain ⟨hdue, hexec⟩ | ⟨hdue, hexec⟩ | ⟨hdue, haccepted, hexec⟩ := h
  · rw [exec_runOut hdue] at hexec
    cases hexec
    exact .runOut hdue
  · rw [exec_stretchedRunOut hdue] at hexec
    cases hexec
    exact .stretched hdue
  · rw [exec_acceptedEdge hdue haccepted] at hexec
    cases hexec
    exact .edge hdue haccepted

theorem runOutDue_iff (s : State) : runOutDue s = true ↔ s.timer.raised.runOut = true ∧ examinationLevelsSettled s = true ∧
    (s.link.state = .joining ∨ s.link.state = .active) := by
  simp [runOutDue, and_assoc]

theorem stretchedRunOutDue_iff (s : State) :
    stretchedRunOutDue s = true ↔ s.timer.raised.stretched = true ∧ s.link.state = .duplicate := by
  simp [stretchedRunOutDue]

theorem edgeDue_settled {s : State} (hdue : edgeDue s = true) (haccepted : s.edgeAccepted = true) :
    examinationLevelsSettled s = true := by
  simp only [edgeDue, haccepted, Bool.not_true, Bool.false_or, Bool.and_eq_true] at hdue
  exact hdue.2

/-- The turns that every end of a cycle takes. -/
theorem CycleEnded.turns {o : EventOrder} {s t : State} (h : CycleEnded o s t) :
    ∃ skipped pulse, t = afterTurns o skipped pulse s ∧
      (s.link.state = .joining ∨ s.link.state = .active ∨ s.link.state = .duplicate) ∧
      (s.link.state = .active → examinationLevelsSettled s = true) ∧
      (skipped = 0 ∨ (s.timer.raised.edge = true ∧ skipped = s.skippedCount)) := by
  cases h with
  | runOut h =>
    obtain ⟨_, hsettled, hstate⟩ := (runOutDue_iff s).mp h
    exact ⟨_, _, rfl, by tauto, fun _ => hsettled, .inl rfl⟩
  | stretched h =>
    obtain ⟨_, hstate⟩ := (stretchedRunOutDue_iff s).mp h
    exact ⟨_, _, rfl, .inr (.inr hstate), fun hactive => absurd (hstate.symm.trans hactive) (by decide), .inl rfl⟩
  | edge hdue haccepted =>
    have hraised : s.timer.raised.edge = true := (Bool.and_eq_true_iff.mp hdue).1
    exact ⟨_, _, rfl, counting_cases (edgeAccepted_counting haccepted), fun _ => edgeDue_settled hdue haccepted,
      .inr ⟨hraised, rfl⟩⟩

/-! ## The link's turn, alone in moving the clock -/

theorem takeTurn_clock (o : EventOrder) (e : CycleEnd) (x : Raising) {b : BoundaryTurn} (h : b ≠ .link) :
    SameClock x.1 (takeTurn o e x b).1 := by
  cases b with
  | link => exact absurd rfl h
  | peers => exact ageing_clock _ x.1
  | motion => exact motionBoundary_clock _ _ x.1
  | examination => exact firstExamination_clock x.1
  | stepEvents => exact stepEventsTurn_clock o e.executing x.1
  | lateHalt => exact takeRaised_clock _ x.1
  | stopInput => exact stopTurn_clock x.1
  | hostHalt => exact haltRequest_clock x.1
  | deadline => exact barrierDeadline_clock x.1
  | notes => exact noteBoundary_clock x.1

/-- Every turn but the one named stands before it or after it. -/
theorem turnsOf_split (o : EventOrder) {b : BoundaryTurn} (h : b ∈ turnsOf o) :
    ∃ pre post, turnsOf o = pre ++ b :: post ∧ b ∉ pre ∧ b ∉ post := by
  obtain ⟨pre, post, hsplit⟩ := List.mem_iff_append.mp h
  have hnodup := turnsOf_nodup o
  rw [hsplit, List.nodup_append, List.nodup_cons] at hnodup
  obtain ⟨_, ⟨hpost, _⟩, hdisjoint⟩ := hnodup
  exact ⟨pre, post, hsplit, fun hb => hdisjoint b hb b List.mem_cons_self rfl, hpost⟩

theorem link_mem_turnsOf (o : EventOrder) : .link ∈ turnsOf o := mem_turnsOf o .link (by decide) (by decide)

/-- The clock at the end of a boundary is the one that the link's turn leaves. -/
theorem afterTurns_link (o : EventOrder) (skipped : Nat) (pulse : Option Nat) (s : State) :
    ∃ u, SameClock (begun pulse s) u ∧
      SameClock (linkBoundary o s.timer.adoption.isSome (earlyLossOf s.timer) u) (afterTurns o skipped pulse s) := by
  obtain ⟨pre, post, hsplit, hpre, hpost⟩ := turnsOf_split o (link_mem_turnsOf o)
  have hrow (l : List BoundaryTurn) (hl : .link ∉ l) (x : Raising) :
      SameClock x.1 (l.foldl (takeTurn o (cycleEnd skipped s)) x).1 :=
    turns_relate SameClock.refl SameClock.trans
      (fun x b hb => takeTurn_clock o _ x (fun h => hl (h ▸ hb))) x
  refine ⟨_, hrow pre hpre (begun pulse s, none), ?_⟩
  unfold afterTurns
  rw [hsplit, List.foldl_append, List.foldl_cons]
  exact hrow post hpost (takeTurn o (cycleEnd skipped s) (pre.foldl (takeTurn o (cycleEnd skipped s)) (begun pulse s, none)) .link)

/-! ## The timer after the link's turn -/

/-- The link's turn keeps the clock and enters ACTIVE at most; or it leaves for LISTEN or DUPLICATE. -/
def LinkLeft (s t : State) : Prop :=
  (t.timer = s.timer ∧ (t.link.state = s.link.state ∨ (s.link.state = .joining ∧ t.link.state = .active))) ∨
    ((s.link.state = .joining ∨ s.link.state = .active) ∧
      ((t.link.state = .listen ∧ t.timer = listenTimer s.timer) ∨
        (t.link.state = .duplicate ∧ t.timer = { s.timer with pulse := none, adoption := none })))

theorem LinkLeft.trans {s t u : State} (h : LinkLeft s t) (k : LinkLeft t u) : LinkLeft s u := by
  obtain ⟨htimer, hstate⟩ | ⟨hcounting, hleft⟩ := h
  · obtain ⟨ktimer, kstate⟩ | ⟨kcounting, kleft⟩ := k
    · refine .inl ⟨ktimer.trans htimer, ?_⟩
      obtain hsame | ⟨hjoining, hactive⟩ := hstate
      · rw [hsame] at kstate
        exact kstate
      · rw [hactive] at kstate
        exact .inr ⟨hjoining, kstate.resolve_right fun h => nomatch h.1⟩
    · rw [htimer] at kleft
      refine .inr ⟨?_, kleft⟩
      obtain hsame | ⟨hjoining, _⟩ := hstate
      · rw [hsame] at kcounting
        exact kcounting
      · exact .inl hjoining
  · have hgone : t.link.state = .listen ∨ t.link.state = .duplicate := hleft.imp And.left And.left
    obtain ⟨ktimer, kstate⟩ | ⟨kcounting, _⟩ := k
    · have ksame : u.link.state = t.link.state := kstate.resolve_right fun h => by
        rw [h.1] at hgone
        exact hgone.elim nofun nofun
      rw [← ktimer, ← ksame] at hleft
      exact .inr ⟨hcounting, hleft⟩
    · obtain h | h := hgone <;> rw [h] at kcounting <;> exact kcounting.elim nofun nofun

theorem LinkLeft.of_clock {s t : State} (htimer : t.timer = s.timer) (hstate : t.link.state = s.link.state) : LinkLeft s t :=
  .inl ⟨htimer, .inl hstate⟩

theorem enterActive_left {s : State} (h : s.link.state = .joining) : LinkLeft s (enterActive s) := by
  have hclock := leaveDisabled_clock (latchLink (s.setLink { s.link with state := .active }))
  exact .inl ⟨hclock.timer, .inr ⟨h, by rw [enterActive, hclock.link]; rfl⟩⟩

theorem joinCountTurn_left (adopted : Bool) (s : State) : LinkLeft s (joinCountTurn adopted s) := by
  unfold joinCountTurn
  split
  · rename_i h
    dsimp only
    generalize (if adopted then 0 else s.link.joinCount + 1) = n
    have hcount : LinkLeft s (s.setLink { s.link with joinCount := n, request := none }) := .of_clock rfl rfl
    split
    · exact hcount.trans (enterActive_left (s := s.setLink { s.link with joinCount := n, request := none }) h)
    · exact hcount
  · exact .of_clock rfl rfl

/-- The state in which the link has entered DUPLICATE, and the axis has not yet heard of it. -/
def duplicateEntered (s : State) : State :=
  latchLink ((s.setLink { s.link with
      state := .duplicate, collisionRun := 0, collision := false, request := none, tx := none }).setTimer
    { s.timer with pulse := none, adoption := none })

theorem enterDuplicate_eq (s : State) :
    enterDuplicate s = linkLost (decide (s.link.state = .active)) (duplicateEntered s) := rfl

theorem enterDuplicate_left {s : State} (h : s.link.state = .joining ∨ s.link.state = .active) :
    LinkLeft s (enterDuplicate s) := by
  have hclock := linkLost_clock (decide (s.link.state = .active)) (duplicateEntered s)
  rw [enterDuplicate_eq]
  exact .inr ⟨h, .inr ⟨by rw [hclock.link]; rfl, hclock.timer⟩⟩

theorem collisionTurn_left (s : State) : LinkLeft s (collisionTurn s) := by
  unfold collisionTurn
  split
  · rename_i h
    split
    · split
      · exact enterDuplicate_left h
      · exact .of_clock rfl rfl
    · exact .of_clock rfl rfl
  · exact .of_clock rfl rfl

theorem syncLoss_clock (o : EventOrder) (s : State) : SameClock (enterListen s) (syncLoss o s) := by
  have hnotes := notesAtListen_clock (enterListen s)
  unfold syncLoss
  dsimp only
  split
  · exact hnotes.trans ((linkLost_clock _ _).trans (markAllLost_clock _ _))
  · exact hnotes.trans ((markAllLost_clock _ _).trans (linkLost_clock _ _))

theorem syncLoss_left {s : State} (h : s.link.state = .joining ∨ s.link.state = .active) (o : EventOrder) :
    LinkLeft s (syncLoss o s) := by
  have hclock := syncLoss_clock o s
  exact .inr ⟨h, .inl ⟨by rw [hclock.link]; rfl, hclock.timer⟩⟩

theorem slipTurn_left (s : State) : LinkLeft s (slipTurn s).1 := by
  unfold slipTurn
  split
  · split
    · split <;> exact .of_clock rfl rfl
    · exact .of_clock rfl rfl
  · exact .of_clock rfl rfl

theorem syncLossTurn_left (o : EventOrder) (loss : Bool) (s : State) : LinkLeft s (syncLossTurn o loss s) := by
  unfold syncLossTurn
  dsimp only
  split
  · rename_i h
    exact (slipTurn_left s).trans (syncLoss_left h.2 o)
  · exact slipTurn_left s

theorem linkBoundary_left (o : EventOrder) (adopted loss : Bool) (s : State) : LinkLeft s (linkBoundary o adopted loss s) := by
  have hleave (s : State) : LinkLeft s (leaveTurns o loss s) := by
    unfold leaveTurns
    split
    · exact (syncLossTurn_left o loss s).trans (collisionTurn_left _)
    · exact (collisionTurn_left s).trans (syncLossTurn_left o loss _)
  unfold linkBoundary
  split
  · exact (joinCountTurn_left adopted s).trans (hleave _)
  · exact (hleave s).trans (joinCountTurn_left adopted _)

/-- The clock at the end of a boundary, by what the link's turn does with it. -/
theorem afterTurns_left (o : EventOrder) (skipped : Nat) (pulse : Option Nat) (s : State) :
    LinkLeft (begun pulse s) (afterTurns o skipped pulse s) := by
  obtain ⟨u, hbefore, hafter⟩ := afterTurns_link o skipped pulse s
  have hleft := linkBoundary_left o s.timer.adoption.isSome (earlyLossOf s.timer) u
  unfold LinkLeft at hleft ⊢
  rw [hbefore.timer, hbefore.link] at hleft
  rw [hafter.timer, hafter.link]
  exact hleft

theorem afterTurns_turn (o : EventOrder) (skipped : Nat) (pulse : Option Nat) (s : State) :
    TurnFrame (begun pulse s) (afterTurns o skipped pulse s) :=
  turns_turn o _ _ (begun pulse s, none)

end Sys2Proof.Machine

namespace Sys2Proof.Claims

open Sys2Proof.Machine

/-- What the timer begins the next cycle with stands at the end of the boundary. -/
theorem afterTurns_began {s : State} (hcounting : s.link.state ≠ .listen) (o : EventOrder) (skipped : Nat)
    (pulse : Option Nat) : BeganCycle s (afterTurns o skipped pulse s) := by
  have hturn := afterTurns_turn o skipped pulse s
  have hleft := afterTurns_left o skipped pulse s
  set t := afterTurns o skipped pulse s with ht
  have htimer : (t.timer.adoption = none ∧ t.timer.earlySeen = false) ∧
      t.timer.earlyRun = if t.link.state = .listen then 0 else (timerBoundary s.timer).earlyRun := by
    obtain ⟨hsame, hstate⟩ | ⟨_, ⟨hlisten, hsame⟩ | ⟨hduplicate, hsame⟩⟩ := hleft
    · have hnot : t.link.state ≠ .listen := by
        obtain h | ⟨_, h⟩ := hstate <;> rw [h]
        · exact hcounting
        · decide
      rw [hsame, if_neg hnot]
      exact ⟨⟨rfl, rfl⟩, rfl⟩
    · rw [hsame, if_pos hlisten]
      exact ⟨⟨rfl, rfl⟩, rfl⟩
    · rw [hsame, hduplicate, if_neg (by decide)]
      exact ⟨⟨rfl, rfl⟩, rfl⟩
  obtain ⟨⟨hadoption, hseen⟩, hrun⟩ := htimer
  refine ⟨?_, hturn.zero rfl, hadoption, hturn.disarmed rfl, hseen, ?_, hturn.divider, hturn.station.id,
    hturn.station.config, hturn.station.pins, hturn.station.pending⟩
  · rw [hturn.cycle]
    change s.timer.adoption.getD s.timer.cycle + 1 = _
    cases s.timer.adoption <;> rfl
  · rw [hrun, timerBoundary]
    dsimp only
    by_cases hlisten : t.link.state = .listen
    · rw [if_pos hlisten, if_pos (.inl hlisten)]
    · rw [if_neg hlisten]
      cases s.timer.earlySeen <;> simp [hlisten]

/-- Settles O7: the own pulse lasts unless the link's turn leaves JOINING and ACTIVE. -/
theorem runOutBeginsNextCycle : Obligations.RunOutBeginsNextCycle := by
  intro o s hdue
  obtain ⟨_, _, hstate⟩ := (runOutDue_iff s).mp hdue
  refine ⟨_, exec_runOut hdue o, afterTurns_began (by obtain h | h := hstate <;> rw [h] <;> decide) o _ _, ?_⟩
  obtain ⟨hsame, hkept⟩ | ⟨_, ⟨hlisten, hsame⟩ | ⟨hduplicate, hsame⟩⟩ := afterTurns_left o 0 (some 8) s
  · rw [hsame, if_pos]
    · rfl
    · obtain h | ⟨_, h⟩ := hkept
      · rw [h]
        exact hstate
      · exact .inr h
  · rw [hsame, hlisten]
    rfl
  · rw [hsame, hduplicate]
    rfl

/-- Settles O8: nothing of the boundary begins a pulse, and DUPLICATE is left by none of its turns. -/
theorem edgeOrStretchedRunOutBeginsNextCycle : Obligations.EdgeOrStretchedRunOutBeginsNextCycle := by
  refine ⟨fun o s hdue => ?_, fun o s hdue haccepted => ?_⟩
  · obtain ⟨_, hstate⟩ := (stretchedRunOutDue_iff s).mp hdue
    refine ⟨_, exec_stretchedRunOut hdue o, afterTurns_began (by rw [hstate]; decide) o _ _, ?_⟩
    obtain ⟨hsame, hkept⟩ | ⟨hcounting, _⟩ := afterTurns_left o 0 s.timer.pulse s
    · rw [hsame]
      refine ⟨rfl, ?_⟩
      obtain h | ⟨h, _⟩ := hkept
      · exact h.trans hstate
      · exact absurd (hstate.symm.trans h) (by decide)
    · obtain h | h := hcounting <;> exact absurd (hstate.symm.trans h) (by decide)
  · have hstate := counting_cases (edgeAccepted_counting haccepted)
    refine ⟨_, exec_acceptedEdge hdue haccepted o,
      afterTurns_began (by obtain h | h | h := hstate <;> rw [h] <;> decide) o _ _, ?_⟩
    obtain ⟨hsame, _⟩ | ⟨_, ⟨_, hsame⟩ | ⟨_, hsame⟩⟩ := afterTurns_left o s.skippedCount s.timer.pulse s
    · rw [hsame]
      exact .inl rfl
    · rw [hsame]
      exact .inr rfl
    · rw [hsame]
      exact .inr rfl

end Sys2Proof.Claims
end

