-- ==== Sys2Proof/Proofs/BoundaryCauses.lean ====
section
/-! PROOFS. What the turns of a boundary that start no segment can do to the axis: they take causes, and an axis that they
find HALTED stays as the halt left it. -/

namespace Sys2Proof.Machine

open Sys2Proof.Claims

/-! ## The Note Unit's turns on the Peer Table -/

/-- The entries differ in the bits of the Note Unit alone, and the change map not at all. -/
structure TableShown (s t : State) : Prop where
  changeMap : t.peers.changeMap = s.peers.changeMap
  entry : ∀ k, SameShown (s.entry k) (t.entry k)

theorem TableShown.refl (s : State) : TableShown s s := ⟨rfl, fun _ => .refl _⟩

theorem TableShown.trans {s t u : State} (h : TableShown s t) (k : TableShown t u) : TableShown s u :=
  ⟨k.changeMap.trans h.changeMap, fun m => (h.entry m).trans (k.entry m)⟩

theorem NoteBits.tableShown {s t : State} (h : NoteBits s t) : TableShown s t := ⟨h.changeMap, h.entry⟩

theorem putSending_shown (n : SendingNote) (st : Vector Standing 16) (s : State) : TableShown s (putSending n st s) :=
  ⟨rfl, fun _ => .refl _⟩

theorem noteFailures_shown (s : State) : TableShown s (noteFailures s) := by
  unfold noteFailures
  split
  · exact .refl s
  · rename_i n _
    dsimp only
    have hgone := settling_noteBits failGone_noteBits stations (n.standing, s)
    refine TableShown.trans ?_ (putSending_shown n _ _)
    split
    · exact (hgone.trans (settling_noteBits failNoAck_noteBits stations _)).tableShown
    · exact hgone.tableShown

theorem startNote_shown (i : Fin 4) (s : State) : TableShown s (startNote i s) := by
  unfold startNote
  split
  · rename_i dests _ _
    dsimp only
    exact (settling_noteBits (settleDest_noteBits _) stations (Vector.replicate 16 .no, s)).tableShown.trans
      (putSending_shown _ _ _)
  · exact .refl s

theorem startNotes_shown (l : List (Fin 4)) (s : State) : TableShown s (startNotes l s) := by
  induction l generalizing s with
  | nil => exact .refl s
  | cons i l ih =>
    have hstart : TableShown s (startNote i (setOrder l s)) :=
      ⟨(startNote_shown i (setOrder l s)).changeMap, (startNote_shown i (setOrder l s)).entry⟩
    unfold startNotes
    dsimp only
    split
    · exact hstart
    · exact hstart.trans (ih _)

theorem noteBoundary_shown (s : State) : TableShown s (noteBoundary s) := by
  unfold noteBoundary
  dsimp only
  split
  · exact (noteFailures_shown s).trans (startNotes_shown _ _)
  · exact noteFailures_shown s

theorem notesAtListen_shown (s : State) : TableShown s (notesAtListen s) := by
  have hclear := (noteBits_foldl clearNoteBits_noteBits stations s).tableShown
  unfold notesAtListen
  dsimp only
  split
  · exact hclear
  · exact hclear.trans (putSending_shown _ _ _)

/-! ## The causes of a boundary -/

/-- The parts that barriers and halts read and write are the same, a HALT flag stays, and no peer is newly LOST. -/
structure SameCore (s t : State) : Prop extends SameMotion s t where
  haltFlag : s.port.haltFlag = true → t.port.haltFlag = true
  lost : ∀ k, (t.entry k).presence = .lost → (s.entry k).presence = .lost

theorem SameMotion.refl (s : State) : SameMotion s s := ⟨rfl, rfl, rfl, rfl, rfl, rfl, rfl, rfl⟩

theorem SameCore.refl (s : State) : SameCore s s := ⟨.refl s, id, fun _ => id⟩

theorem SameMotion.trans {s t u : State} (h : SameMotion s t) (k : SameMotion t u) : SameMotion s u :=
  ⟨k.id.trans h.id, k.config.trans h.config, k.cycle.trans h.cycle, k.seq.trans h.seq, k.gen.trans h.gen,
    k.barrier.trans h.barrier, k.haltCtl.trans h.haltCtl, k.held.trans h.held⟩

theorem SameCore.trans {s t u : State} (h : SameCore s t) (k : SameCore t u) : SameCore s u :=
  ⟨h.toSameMotion.trans k.toSameMotion, fun hf => k.haltFlag (h.haltFlag hf), fun m hm => h.lost m (k.lost m hm)⟩

theorem TableFrame.core {s t : State} (h : TableFrame s t) (k : TableShown s t) : SameCore s t :=
  ⟨⟨h.clock.station.id, h.clock.station.config, by rw [h.clock.timer], h.seq, h.gen, h.barrier, h.haltCtl, h.held⟩,
    fun hf => by rw [h.port]; exact hf, fun m hm => (k.entry m).presence.symm.trans hm⟩

/-- One change that a turn other than the motion's own makes to the axis; from outside come STOPN and HALT. -/
inductive CauseChange (outside : Bool) (s : State) : State → Prop
  | other (t : State) (h : SameCore s t) : CauseChange outside s t
  | cause (c : Cause) (h : c.kind ≠ .hostHalt) : CauseChange outside s (takeCause c s)
  | fails (code : Code) : CauseChange outside s (failBarrier code s)
  | transition (b : Bool) (k : Station) (e : PeerEntry) :
    CauseChange outside s (handOn b k (setChange k (setEntry k e s)))
  | leaves : CauseChange outside s (leaveDisabled s)
  | flips (h : outside = true) : CauseChange outside s (flipStop s)
  | hostHalt (h : outside = true) : CauseChange outside s (takeCause (.plain .hostHalt) s)

/-- A row of them. -/
abbrev Causes (outside : Bool) : State → State → Prop := Relation.ReflTransGen (CauseChange outside)

variable {outside : Bool}

theorem SameCore.causes {s t : State} (h : SameCore s t) : Causes outside s t := .single (.other t h)

theorem setLink_core (x : Link) (s : State) : SameCore s (s.setLink x) := ⟨⟨rfl, rfl, rfl, rfl, rfl, rfl, rfl, rfl⟩, id, fun _ => id⟩

theorem latchLink_core (s : State) : SameCore s (latchLink s) := ⟨⟨rfl, rfl, rfl, rfl, rfl, rfl, rfl, rfl⟩, id, fun _ => id⟩

/-- Writing an entry that is not LOST, or was. -/
theorem setEntry_core {k : Station} {e : PeerEntry} {s : State} (h : e.presence = .lost → (s.entry k).presence = .lost) :
    SameCore s (setEntry k e s) := by
  refine ⟨⟨rfl, rfl, rfl, rfl, rfl, rfl, rfl, rfl⟩, id, fun m hm => ?_⟩
  rw [setEntry_entry] at hm
  split at hm
  · rename_i hk
    rw [hk]
    exact h hm
  · exact hm

theorem ageEntry_causes (b : Bool) (s : State) (k : Station) : Causes outside s (ageEntry b s k) := by
  unfold ageEntry
  dsimp only
  split
  · exact .refl
  · split
    · split
      · exact (setEntry_core fun hlost => by cases hlost).causes
      · split
        · exact (setEntry_core fun hlost => by cases hlost).causes
        · exact .single (.transition b k _)
    · exact (setEntry_core (k := k) (e := { s.entry k with heard := false }) id).causes

theorem ageing_causes (b : Bool) (s : State) : Causes outside s (ageing b s) := by
  unfold ageing
  split
  · exact rows_foldl _ (fun s k => ageEntry_causes b s k) _ s
  · exact .refl

theorem markLost_causes (b : Bool) (s : State) (k : Station) : Causes outside s (markLost b s k) := by
  unfold markLost
  dsimp only
  split
  · exact .refl
  · split
    · exact .single (.transition b k _)
    · exact (setEntry_core (k := k) (e := { s.entry k with heard := false }) id).causes

theorem linkLost_causes (wasActive : Bool) (s : State) : Causes outside s (linkLost wasActive s) := by
  unfold linkLost
  split
  · exact .single (.cause _ (by decide))
  · exact .refl

theorem enterListen_core (s : State) : SameCore s (enterListen s) := ⟨⟨rfl, rfl, rfl, rfl, rfl, rfl, rfl, rfl⟩, id, fun _ => id⟩

theorem syncLoss_causes (o : EventOrder) (s : State) : Causes outside s (syncLoss o s) := by
  have hnotes : Causes outside s (notesAtListen (enterListen s)) :=
    ((enterListen_core s).trans ((tables_frame (notesAtListen_tables _)).core (notesAtListen_shown _))).causes
  have hlost (s : State) : Causes outside s (markAllLost o.barrierFirst s) :=
    rows_foldl _ (fun s k => markLost_causes o.barrierFirst s k) _ s
  unfold syncLoss
  dsimp only
  split
  · exact hnotes.trans ((linkLost_causes _ _).trans (hlost _))
  · exact hnotes.trans ((hlost _).trans (linkLost_causes _ _))

theorem enterActive_causes (s : State) : Causes outside s (enterActive s) :=
  ((setLink_core _ s).trans (latchLink_core _)).causes.trans (.single .leaves)

theorem joinCountTurn_causes (adopted : Bool) (s : State) : Causes outside s (joinCountTurn adopted s) := by
  unfold joinCountTurn
  split
  · dsimp only
    split
    · split
      · exact (setLink_core _ s).causes.trans (enterActive_causes _)
      · exact (setLink_core _ s).causes
    · split
      · exact (setLink_core _ s).causes.trans (enterActive_causes _)
      · exact (setLink_core _ s).causes
  · exact .refl

theorem duplicateEntered_core (s : State) : SameCore s (duplicateEntered s) :=
  ⟨⟨rfl, rfl, rfl, rfl, rfl, rfl, rfl, rfl⟩, id, fun _ => id⟩

theorem collisionTurn_causes (s : State) : Causes outside s (collisionTurn s) := by
  unfold collisionTurn
  split
  · split
    · split
      · exact (duplicateEntered_core s).causes.trans (linkLost_causes _ _)
      · exact (setLink_core _ s).causes
    · exact (setLink_core _ s).causes
  · exact .refl

theorem slipTurn_core (s : State) : SameCore s (slipTurn s).1 := by
  unfold slipTurn
  split
  · split
    · split <;> exact setLink_core _ s
    · exact setLink_core _ s
  · exact .refl s

theorem syncLossTurn_causes (o : EventOrder) (loss : Bool) (s : State) : Causes outside s (syncLossTurn o loss s) := by
  unfold syncLossTurn
  dsimp only
  split
  · exact (slipTurn_core s).causes.trans (syncLoss_causes o _)
  · exact (slipTurn_core s).causes

theorem linkBoundary_causes (o : EventOrder) (adopted loss : Bool) (s : State) :
    Causes outside s (linkBoundary o adopted loss s) := by
  have hleave (s : State) : Causes outside s (leaveTurns o loss s) := by
    unfold leaveTurns
    split
    · exact (syncLossTurn_causes o loss s).trans (collisionTurn_causes _)
    · exact (collisionTurn_causes s).trans (syncLossTurn_causes o loss _)
  unfold linkBoundary
  split
  · exact (joinCountTurn_causes adopted s).trans (hleave _)
  · exact (hleave s).trans (joinCountTurn_causes adopted _)

theorem barrierDeadline_causes (s : State) : Causes outside s (barrierDeadline s) := by
  unfold barrierDeadline
  split
  · exact .refl
  · split
    · exact .single (.fails _)
    · exact .refl

theorem stopTurn_causes (s : State) : Causes true s (stopTurn s) := by
  unfold stopTurn
  split
  · exact .tail (.single (.flips rfl)) (.cause _ (by decide))
  · exact .refl

theorem haltRequest_causes (s : State) : Causes true s (clockPlain 0x12 takeHalt s) := by
  have hrespond (a : Answer) (r : List Byte) (n : Nat) (s : State) : Causes true s (respond a r n s) :=
    SameCore.causes ⟨⟨rfl, rfl, rfl, rfl, rfl, rfl, rfl, rfl⟩, id, fun _ => id⟩
  obtain ⟨_, htake⟩ | ⟨_, hsame⟩ := clockPlain_cases 0x12 takeHalt s
  · rw [htake]
    have hhold : SameCore s (holdParams 0x12 [] s) := ⟨⟨rfl, rfl, rfl, rfl, rfl, rfl, rfl, rfl⟩, id, fun _ => id⟩
    refine hhold.causes.trans ?_
    unfold takeHalt
    split
    · exact hrespond _ _ _ _
    · exact (Relation.ReflTransGen.single (.hostHalt rfl)).trans (hrespond _ _ _ _)
  · rw [hsame]

/-- The turns of the motion's own. -/
def movesAxis : BoundaryTurn → Bool
  | .motion | .examination | .stepEvents => true
  | .link | .peers | .lateHalt | .stopInput | .hostHalt | .deadline | .notes => false

/-- Every other turn takes causes; none from outside but STOP_INPUT and HALT. -/
theorem takeTurn_causes {o : EventOrder} {e : CycleEnd} {x : Raising} {b : BoundaryTurn} (hb : movesAxis b = false)
    (hraised : ∀ c, x.2 = some c → c.kind ≠ .hostHalt)
    (houtside : outside = false → b ≠ .stopInput ∧ b ≠ .hostHalt) :
    Causes outside x.1 (takeTurn o e x b).1 := by
  cases b with
  | link => exact linkBoundary_causes o _ _ x.1
  | peers => exact ageing_causes _ x.1
  | motion | examination | stepEvents => cases hb
  | lateHalt =>
    change Causes outside x.1 (takeRaised x.2 x.1)
    cases hx : x.2 with
    | none => exact .refl
    | some c => exact .single (.cause c (hraised c hx))
  | stopInput =>
    cases outside with
    | true => exact stopTurn_causes x.1
    | false => exact absurd rfl (houtside rfl).1
  | hostHalt =>
    cases outside with
    | true => exact haltRequest_causes x.1
    | false => exact absurd rfl (houtside rfl).2
  | deadline => exact barrierDeadline_causes x.1
  | notes => exact ((tables_frame (noteBoundary_tables x.1)).core (noteBoundary_shown x.1)).causes

/-- They leave the cause that is raised, or take it. -/
theorem takeTurn_raised {o : EventOrder} {e : CycleEnd} {x : Raising} {b : BoundaryTurn} (hb : b ≠ .motion) :
    (takeTurn o e x b).2 = if b = .lateHalt then none else x.2 := by
  cases b with
  | motion => exact absurd rfl hb
  | _ => rfl

/-! ## After a halt -/

/-- The axis is HALTED with nothing started and nothing queued. -/
structure Rests (s : State) : Prop where
  axis : s.seq.axis = .halted
  exec : s.seq.exec = none
  outstanding : s.seq.outstanding = []
  queue : s.seq.queue = []
  ctx : s.barrier.ctx = none

/-- What the halt left stands. -/
structure StandsAs (s t : State) : Prop where
  seq : t.seq = s.seq
  barrier : t.barrier = s.barrier
  held : t.held = s.held
  report : t.haltCtl.report = s.haltCtl.report
  latch : s.haltCtl.latch = true → t.haltCtl.latch = true
  position : t.gen.position = s.gen.position
  known : t.gen.known = s.gen.known
  haltFlag : s.port.haltFlag = true → t.port.haltFlag = true

theorem StandsAs.refl (s : State) : StandsAs s s := ⟨rfl, rfl, rfl, rfl, id, rfl, rfl, id⟩

theorem StandsAs.trans {s t u : State} (h : StandsAs s t) (k : StandsAs t u) : StandsAs s u :=
  ⟨k.seq.trans h.seq, k.barrier.trans h.barrier, k.held.trans h.held, k.report.trans h.report,
    fun hl => k.latch (h.latch hl), k.position.trans h.position, k.known.trans h.known,
    fun hf => k.haltFlag (h.haltFlag hf)⟩

theorem Rests.of_stands {s t : State} (h : Rests s) (k : StandsAs s t) : Rests t :=
  ⟨by rw [k.seq]; exact h.axis, by rw [k.seq]; exact h.exec, by rw [k.seq]; exact h.outstanding,
    by rw [k.seq]; exact h.queue, by rw [k.barrier]; exact h.ctx⟩

theorem haltTaken_rests (c : Cause) (s : State) : Rests (haltTaken c s) :=
  ⟨rfl, rfl, haltTaken_outstanding c s, rfl, by rw [haltTaken_barrier]⟩

theorem SameCore.stands {s t : State} (h : SameCore s t) : StandsAs s t :=
  ⟨h.seq, h.barrier, h.held, by rw [h.haltCtl], fun hl => by rw [h.haltCtl]; exact hl, by rw [h.gen], by rw [h.gen], h.haltFlag⟩

theorem setLatch_stands (s : State) : StandsAs s (setLatch s) := ⟨rfl, rfl, rfl, rfl, fun _ => rfl, rfl, rfl, id⟩

theorem takeCause_stands {s : State} (h : s.seq.axis = .halted) (c : Cause) : StandsAs s (takeCause c s) := by
  unfold takeCause
  rw [h]
  dsimp only
  split
  · exact setLatch_stands s
  · exact .refl s

theorem handOn_stands {s : State} (haxis : s.seq.axis = .halted) (hctx : s.barrier.ctx = none) (b : Bool) (k : Station) :
    StandsAs s (handOn b k s) := by
  have hlost : StandsAs s (haltPeerLost k s) := by
    unfold haltPeerLost
    split
    · exact takeCause_stands haxis _
    · exact .refl s
  cases b with
  | true =>
    rw [handOn, if_pos rfl, barrierMemberLost_of_no_context hctx]
    exact hlost
  | false =>
    rw [handOn, if_neg Bool.false_ne_true, barrierMemberLost_of_no_context (by rw [hlost.barrier]; exact hctx)]
    exact hlost

theorem CauseChange.stands {s t : State} (h : CauseChange outside s t) (hs : Rests s) : StandsAs s t := by
  cases h with
  | other _ h => exact h.stands
  | cause c _ => exact takeCause_stands hs.axis c
  | fails code =>
    rw [failBarrier, hs.ctx]
    exact .refl s
  | transition b k e =>
    have hwritten : StandsAs s (setChange k (setEntry k e s)) := ⟨rfl, rfl, rfl, rfl, id, rfl, rfl, id⟩
    exact hwritten.trans (handOn_stands (hs.of_stands hwritten).axis (hs.of_stands hwritten).ctx b k)
  | leaves =>
    rw [leaveDisabled, if_neg (by rw [hs.axis]; decide)]
    exact .refl s
  | flips _ => exact ⟨rfl, rfl, rfl, rfl, id, rfl, rfl, id⟩
  | hostHalt _ => exact takeCause_stands hs.axis _

theorem Causes.stands {s t : State} (h : Causes outside s t) (hs : Rests s) : StandsAs s t := by
  induction h with
  | refl => exact .refl s
  | tail _ hstep ih => exact ih.trans (hstep.stands (hs.of_stands ih))

theorem Rests.finishing {s : State} (h : Rests s) : s.seq.finishing = [] := finishing_nil h.outstanding

theorem Rests.head {s : State} (h : Rests s) : s.seq.head = .none := by
  rw [head_exec h.finishing, h.exec]
  rfl

theorem flipInput_stands (i : AxisInput) (s : State) : StandsAs s (flipInput i s) := by
  cases i <;> exact ⟨rfl, rfl, rfl, rfl, id, rfl, rfl, id⟩

/-- With nothing started the Step Generator's events find nothing to do but a change of the PROBE level. -/
theorem stepTurn_of_no_exec {s : State} (hexec : s.seq.exec = none) (hhead : s.seq.head = .none) (haxis : s.seq.axis ≠ .running)
    (e : StepTurn) : stepTurn s e = s ∨ stepTurn s e = flipInput .probe s := by
  cases e with
  | probeChange =>
    change (if filteredLevelChangeDue .probe s then probeChanged (flipInput .probe s) else s) = s ∨
      (if filteredLevelChangeDue .probe s then probeChanged (flipInput .probe s) else s) = flipInput .probe s
    rw [probeChanged_of_none (s := flipInput .probe s) fun e u he _ _ => absurd (hexec.symm.trans he) nofun]
    split
    · exact .inr rfl
    · exact .inl rfl
  | stepDue =>
    refine .inl ?_
    change (if stepDueDue s then fallDue s else s) = s
    rw [fallDue, hexec, ite_self]
  | untimedStepDue =>
    refine .inl ?_
    change (if untimedStepDueDue s then fallDueUntimed s else s) = s
    rw [fallDueUntimed, hexec, ite_self]
  | closingTick =>
    refine .inl ?_
    change (if closingTickDue s then closeSegment s else s) = s
    rw [closeSegment, hexec, ite_self]
  | dirChange => exact .inl (if_neg (by simp [dirChangeDue, dirChangeNow, hhead, Head.direction]))
  | stepPulseBegin => exact .inl (if_neg (by simp [stepPulseBeginDue, stepConditions, haxis]))

theorem stepTurn_stands {s : State} (h : Rests s) (e : StepTurn) : StandsAs s (stepTurn s e) := by
  obtain hsame | hflip := stepTurn_of_no_exec h.exec h.head (by rw [h.axis]; exact nofun) e
  · rw [hsame]
    exact .refl s
  · rw [hflip]
    exact flipInput_stands .probe s

/-- A row of the Step Generator's events inside a boundary. -/
def stepRow (before : Option Segment) (l : List StepTurn) (s : State) : State :=
  l.foldl (fun s e => if stepTurnOpen before s e then stepTurn s e else s) s

theorem stepEventsTurn_eq (o : EventOrder) (before : Option Segment) (s : State) :
    stepEventsTurn o before s = stepRow before (firsts o.steps) s := rfl

theorem stepRow_stands {s : State} (h : Rests s) (before : Option Segment) (l : List StepTurn) :
    StandsAs s (stepRow before l s) := by
  induction l generalizing s with
  | nil => exact .refl s
  | cons e l ih =>
    have hstep : StandsAs s (if stepTurnOpen before s e then stepTurn s e else s) := by
      split
      · exact stepTurn_stands h e
      · exact .refl s
    exact hstep.trans (ih (h.of_stands hstep))

theorem stepEventsTurn_stands {s : State} (h : Rests s) (o : EventOrder) (before : Option Segment) :
    StandsAs s (stepEventsTurn o before s) := stepRow_stands h before _

theorem startAtBoundary_halted {s : State} (h : s.seq.axis = .halted) (ended : Bool) : startAtBoundary ended s = s := by
  unfold startAtBoundary
  rw [h]
  exact if_neg Bool.false_ne_true

theorem motionBoundary_rests {s : State} (h : Rests s) (late : Bool) (skipped : Nat) :
    motionBoundary late skipped s = (s, none) := by
  have hskipped : joinSkipped skipped s = s := by rw [joinSkipped, h.exec]
  rw [motionBoundary, hskipped, sequencerBoundary, h.exec]
  exact congrArg (·, none) (startAtBoundary_halted h.axis false)

theorem firstExamination_of_no_exec {s : State} (h : s.seq.exec = none) : firstExamination s = s := by
  rw [firstExamination, h]

theorem takeTurn_stands {x : Raising} (h : Rests x.1) (o : EventOrder) (e : CycleEnd) (b : BoundaryTurn) :
    StandsAs x.1 (takeTurn o e x b).1 := by
  cases b with
  | link => exact Causes.stands (outside := true) (linkBoundary_causes o _ _ x.1) h
  | peers => exact Causes.stands (outside := true) (ageing_causes _ x.1) h
  | motion =>
    change StandsAs x.1 (motionBoundary _ _ x.1).1
    rw [motionBoundary_rests h]
    exact .refl _
  | examination =>
    change StandsAs x.1 (firstExamination x.1)
    rw [firstExamination_of_no_exec h.exec]
    exact .refl _
  | stepEvents => exact stepEventsTurn_stands h o _
  | lateHalt =>
    change StandsAs x.1 (takeRaised x.2 x.1)
    cases x.2 with
    | none => exact .refl _
    | some c => exact takeCause_stands h.axis c
  | stopInput => exact (stopTurn_causes x.1).stands h
  | hostHalt => exact (haltRequest_causes x.1).stands h
  | deadline => exact Causes.stands (outside := true) (barrierDeadline_causes x.1) h
  | notes => exact ((tables_frame (noteBoundary_tables x.1)).core (noteBoundary_shown x.1)).stands

/-- The turns still to come find the axis as the halt left it. -/
theorem turns_stand {o : EventOrder} {e : CycleEnd} {l : List BoundaryTurn} {x : Raising} (h : Rests x.1) :
    StandsAs x.1 (l.foldl (takeTurn o e) x).1 := by
  induction l generalizing x with
  | nil => exact .refl _
  | cons b l ih =>
    have hstep := takeTurn_stands h o e b
    exact hstep.trans (ih (h.of_stands hstep))

end Sys2Proof.Machine
end

