-- ==== Sys2Proof/Proofs/AgedPeers.lean ====
section
/-! PROOFS. What a boundary writes into the Peer Table: the ageing of every entry (O20). -/

namespace Sys2Proof.Machine

open Sys2Proof.Claims

/-! ## One entry, aged -/

/-- An entry below N other than the own one at a boundary, with this LOSS_LIMIT (R143). -/
def agedEntry (limit : Nat) (e : PeerEntry) : PeerEntry :=
  if onLink e.presence then
    if e.heard then { e with presence := .present, missed := 0, heard := false }
    else if e.missed + 1 < limit then { e with presence := .stale, missed := e.missed + 1, heard := false }
    else { e with presence := .lost, missed := e.missed + 1, heard := false }
  else { e with heard := false }

/-- The transition of an entry is handed on to the axis and the barrier alone. -/
theorem handOn_peers (b : Bool) (k : Station) (s : State) : (handOn b k s).peers = s.peers :=
  (motion_frame (handOn_motion b k s)).peers

theorem handOn_entry (b : Bool) (k m : Station) (s : State) : (handOn b k s).entry m = s.entry m := by
  unfold State.entry
  rw [handOn_peers]

theorem ageEntry_of_other {s : State} {k : Station} (h : k = s.id ∨ s.stationCount ≤ k.val) (b : Bool) :
    ageEntry b s k = s := if_pos h

/-- An entry that stays on the link is written, and nothing is handed on. -/
theorem ageEntry_of_heard {s : State} {k : Station} (hother : ¬(k = s.id ∨ s.stationCount ≤ k.val))
    (h : (s.entry k).heard = true ∨ onLink (s.entry k).presence = false ∨ (s.entry k).missed + 1 < s.cfg.lossLimit)
    (b : Bool) : ageEntry b s k = setEntry k (agedEntry s.cfg.lossLimit (s.entry k)) s := by
  unfold ageEntry agedEntry
  rw [if_neg hother]
  split
  · split
    · rfl
    · rename_i honLink hsilent
      have hmissed : (s.entry k).missed + 1 < s.cfg.lossLimit :=
        (h.resolve_left hsilent).resolve_left (by rw [honLink]; exact nofun)
      rw [if_pos hmissed, if_pos hmissed]
  · rfl

/-- An entry that has missed as many cycles as LOSS_LIMIT is LOST, with its change bit, and handed on. -/
theorem ageEntry_of_lost {s : State} {k : Station} (hother : ¬(k = s.id ∨ s.stationCount ≤ k.val))
    (honLink : onLink (s.entry k).presence = true) (hsilent : (s.entry k).heard = false)
    (hmissed : ¬(s.entry k).missed + 1 < s.cfg.lossLimit) (b : Bool) :
    ageEntry b s k = handOn b k (setChange k (setEntry k (agedEntry s.cfg.lossLimit (s.entry k)) s)) := by
  unfold ageEntry agedEntry
  rw [if_neg hother, if_pos honLink, if_pos honLink, hsilent,
    if_neg Bool.false_ne_true, if_neg Bool.false_ne_true, if_neg hmissed, if_neg hmissed]

/-- The two ways to age an entry. -/
theorem ageEntry_cases {s : State} {k : Station} (hother : ¬(k = s.id ∨ s.stationCount ≤ k.val)) (b : Bool) :
    ageEntry b s k = setEntry k (agedEntry s.cfg.lossLimit (s.entry k)) s ∨
      ageEntry b s k = handOn b k (setChange k (setEntry k (agedEntry s.cfg.lossLimit (s.entry k)) s)) := by
  by_cases h : (s.entry k).heard = true ∨ onLink (s.entry k).presence = false ∨ (s.entry k).missed + 1 < s.cfg.lossLimit
  · exact .inl (ageEntry_of_heard hother h b)
  · obtain ⟨hsilent, honLink, hmissed⟩ := not_or.mp h |>.imp id not_or.mp
    exact .inr (ageEntry_of_lost hother (by simpa using honLink) (by simpa using hsilent) hmissed b)

theorem ageEntry_entry (b : Bool) (s : State) (k m : Station) : (ageEntry b s k).entry m =
    if m = k then (if k = s.id ∨ s.stationCount ≤ k.val then s.entry k else agedEntry s.cfg.lossLimit (s.entry k))
    else s.entry m := by
  by_cases hother : k = s.id ∨ s.stationCount ≤ k.val
  · rw [ageEntry_of_other hother, if_pos hother]
    split
    · rename_i hm
      rw [hm]
    · rfl
  · rw [if_neg hother]
    obtain h | h := ageEntry_cases hother b
    · rw [h, setEntry_entry]
    · rw [h, handOn_entry]
      exact setEntry_entry k m _ s

theorem ageEntry_station (b : Bool) (s : State) (k : Station) : SameStation s (ageEntry b s k) :=
  (ageEntry_clock b s k).station

/-! ## The change map -/

theorem setChange_bit (k : Station) (s : State) : inMask (setChange k s).peers.changeMap k = true := by
  change inMask (s.peers.changeMap ||| maskOf k) k = true
  rw [inMask_or, inMask_maskOf, decide_eq_true rfl, Bool.or_true]

theorem setChange_keeps_bit {m : Station} {s : State} (h : inMask s.peers.changeMap m = true) (k : Station) :
    inMask (setChange k s).peers.changeMap m = true := by
  change inMask (s.peers.changeMap ||| maskOf k) m = true
  rw [inMask_or, h, Bool.true_or]

theorem transition_bit {m k : Station} {e : PeerEntry} {s : State} {b : Bool}
    (h : inMask s.peers.changeMap m = true ∨ m = k) :
    inMask (handOn b k (setChange k (setEntry k e s))).peers.changeMap m = true := by
  rw [handOn_peers]
  obtain h | h := h
  · exact setChange_keeps_bit (s := setEntry k e s) h k
  · rw [h]
    exact setChange_bit k _

theorem ageEntry_keeps_bit {m : Station} {s : State} (h : inMask s.peers.changeMap m = true) (b : Bool) (k : Station) :
    inMask (ageEntry b s k).peers.changeMap m = true := by
  by_cases hother : k = s.id ∨ s.stationCount ≤ k.val
  · rw [ageEntry_of_other hother]
    exact h
  · obtain hcase | hcase := ageEntry_cases hother b
    · rw [hcase]
      exact h
    · rw [hcase]
      exact transition_bit (.inl h)

/-- A fold over the stations that sets the bit of a station at its turn, from an entry that no other turn writes. -/
theorem foldl_bit {F : State → Station → State} {P : State → Prop} {k : Station} {e : PeerEntry}
    (hkeeps : ∀ s d, P s → P (F s d)) (hentry : ∀ s d, d ≠ k → (F s d).entry k = s.entry k)
    (hbit : ∀ s d, inMask s.peers.changeMap k = true → inMask (F s d).peers.changeMap k = true)
    (hmarks : ∀ s, P s → s.entry k = e → inMask (F s k).peers.changeMap k = true) {s : State} (hs : P s)
    (he : s.entry k = e) : inMask (stations.foldl F s).peers.changeMap k = true := by
  obtain ⟨pre, post, hsplit⟩ := List.mem_iff_append.mp (mem_stations k)
  have hnodup := stations_nodup
  rw [hsplit, List.nodup_append] at hnodup
  obtain ⟨_, _, hdisjoint⟩ := hnodup
  have hpre : ∀ l : List Station, (∀ d ∈ l, d ≠ k) → ∀ s, P s ∧ s.entry k = e → P (l.foldl F s) ∧ (l.foldl F s).entry k = e := by
    intro l hl
    induction l with
    | nil => exact fun s h => h
    | cons d l ih =>
      intro s h
      obtain ⟨hd, hl⟩ := List.forall_mem_cons.mp hl
      exact ih hl _ ⟨hkeeps s d h.1, (hentry s d hd).trans h.2⟩
  have hpost : ∀ (l : List Station) (s : State), inMask s.peers.changeMap k = true →
      inMask (l.foldl F s).peers.changeMap k = true := by
    intro l
    induction l with
    | nil => exact fun s h => h
    | cons d l ih => exact fun s h => ih _ (hbit s d h)
  rw [hsplit, List.foldl_append, List.foldl_cons]
  obtain ⟨hP, hentry⟩ := hpre pre (fun d hd => hdisjoint d hd k List.mem_cons_self) s ⟨hs, he⟩
  exact hpost post _ (hmarks _ hP hentry)

/-! ## The ageing of the whole table -/

theorem ageing_entry {s : State} (hcounting : s.counting = true) (b : Bool) (k : Station) : (ageing b s).entry k =
    if k = s.id ∨ s.stationCount ≤ k.val then s.entry k else agedEntry s.cfg.lossLimit (s.entry k) := by
  rw [ageing, if_pos hcounting]
  refine foldl_stations_entry (F := ageEntry b) (P := SameStation s)
    (g := fun k e => if k = s.id ∨ s.stationCount ≤ k.val then e else agedEntry s.cfg.lossLimit e)
    (fun u d hu => hu.trans (ageEntry_station b u d)) (fun u d m hu => ?_) (.refl s) k
  have hcount := hu.stationCount
  have hcfg : u.cfg = s.cfg := by rw [State.cfg, hu.config]; rfl
  rw [ageEntry_entry, hu.id, hcount, hcfg]

theorem agedEntry_view (limit : Nat) (e : PeerEntry) : (agedEntry limit e).view = e.view := by
  unfold agedEntry
  split
  · split
    · rfl
    · split <;> rfl
  · rfl

theorem agedEntry_heard (limit : Nat) (e : PeerEntry) : (agedEntry limit e).heard = false := by
  unfold agedEntry
  split
  · split
    · rfl
    · split <;> rfl
  · rfl

/-- An entry that is LOST by ageing sets its change bit. -/
theorem ageing_bit {s : State} (hcounting : s.counting = true) (b : Bool) {k : Station}
    (hother : ¬(k = s.id ∨ s.stationCount ≤ k.val)) (honLink : onLink (s.entry k).presence = true)
    (hsilent : (s.entry k).heard = false) (hmissed : ¬(s.entry k).missed + 1 < s.cfg.lossLimit) :
    inMask (ageing b s).peers.changeMap k = true := by
  rw [ageing, if_pos hcounting]
  refine foldl_bit (F := ageEntry b) (P := SameStation s) (e := s.entry k)
    (fun u d hu => hu.trans (ageEntry_station b u d)) (fun u d hd => ?_) (fun u d hu => ageEntry_keeps_bit hu b d)
    (fun u hu he => ?_) (.refl s) rfl
  · rw [ageEntry_entry, if_neg hd.symm]
  · have hcfg : u.cfg = s.cfg := by rw [State.cfg, hu.config]; rfl
    rw [ageEntry_of_lost (by rw [hu.id, hu.stationCount]; exact hother) (by rw [he]; exact honLink) (by rw [he]; exact hsilent)
      (by rw [he, hcfg]; exact hmissed)]
    exact transition_bit (.inr rfl)

/-! ## The other turns -/

theorem tableShown_of_peers {s t : State} (h : t.peers = s.peers) : TableShown s t := by
  refine ⟨by rw [h], fun k => ?_⟩
  rw [State.entry, State.entry, h]
  exact .refl _

theorem Motion.tableShown {s t : State} (h : Motion s t) : TableShown s t := tableShown_of_peers (motion_frame h).peers

theorem joinCountTurn_shown (adopted : Bool) (s : State) : TableShown s (joinCountTurn adopted s) := by
  have hactive (s : State) : TableShown s (enterActive s) := by
    refine tableShown_of_peers ?_
    unfold enterActive leaveDisabled
    split
    · split
      · rw [haltTaken_eq]
        rfl
      · split
        · rw [haltTaken_eq]
          rfl
        · rfl
    · rfl
  unfold joinCountTurn
  split
  · dsimp only
    generalize (if adopted then 0 else s.link.joinCount + 1) = n
    have hcounted : TableShown s (s.setLink { s.link with joinCount := n, request := none }) := tableShown_of_peers rfl
    split
    · exact hcounted.trans (hactive _)
    · exact hcounted
  · exact .refl s

theorem linkLost_peers (wasActive : Bool) (s : State) : (linkLost wasActive s).peers = s.peers :=
  (motion_frame (linkLost_motion wasActive s)).peers

theorem collisionTurn_shown (s : State) : TableShown s (collisionTurn s) := by
  unfold collisionTurn
  split
  · split
    · split
      · rw [enterDuplicate_eq]
        exact tableShown_of_peers (linkLost_peers _ (duplicateEntered s))
      · exact tableShown_of_peers rfl
    · exact tableShown_of_peers rfl
  · exact .refl s

theorem slipTurn_shown (s : State) : TableShown s (slipTurn s).1 := by
  unfold slipTurn
  split
  · split
    · split <;> exact tableShown_of_peers rfl
    · exact tableShown_of_peers rfl
  · exact .refl s

theorem syncLoss_listens (o : EventOrder) (s : State) : (syncLoss o s).link.state = .listen := by
  rw [(syncLoss_clock o s).link]
  rfl

theorem syncLossTurn_shown (o : EventOrder) (loss : Bool) (s : State) :
    TableShown s (syncLossTurn o loss s) ∨ (syncLossTurn o loss s).link.state = .listen := by
  unfold syncLossTurn
  dsimp only
  split
  · exact .inr (syncLoss_listens o _)
  · exact .inl (slipTurn_shown s)

/-- LISTEN is left by no turn of a boundary. -/
theorem LinkLeft.listen {s t : State} (h : LinkLeft s t) (hs : s.link.state = .listen) : t.link.state = .listen := by
  obtain ⟨_, hsame | ⟨hjoining, _⟩⟩ | ⟨hjoining | hactive, _⟩ := h
  · exact hsame.trans hs
  · exact absurd (hs.symm.trans hjoining) (by decide)
  · exact absurd (hs.symm.trans hjoining) (by decide)
  · exact absurd (hs.symm.trans hactive) (by decide)

/-- The link's turn leaves the table, or loses the sync. -/
theorem linkBoundary_shown (o : EventOrder) (adopted loss : Bool) (s : State) :
    TableShown s (linkBoundary o adopted loss s) ∨ (linkBoundary o adopted loss s).link.state = .listen := by
  have hleave (s : State) : TableShown s (leaveTurns o loss s) ∨ (leaveTurns o loss s).link.state = .listen := by
    unfold leaveTurns
    split
    · exact (syncLossTurn_shown o loss s).imp (·.trans (collisionTurn_shown _)) ((collisionTurn_left _).listen ·)
    · exact (syncLossTurn_shown o loss (collisionTurn s)).imp_left ((collisionTurn_shown s).trans ·)
  unfold linkBoundary
  split
  · exact (hleave _).imp_left ((joinCountTurn_shown adopted s).trans ·)
  · exact (hleave s).imp (·.trans (joinCountTurn_shown adopted _)) ((joinCountTurn_left adopted _).listen ·)

/-- The table is left alone by the turns that are neither the link's nor the ageing. -/
theorem takeTurn_table (o : EventOrder) (e : CycleEnd) (x : Raising) {b : BoundaryTurn} (hlink : b ≠ .link) (hpeers : b ≠ .peers) :
    TableShown x.1 (takeTurn o e x b).1 := by
  cases b with
  | link => exact absurd rfl hlink
  | peers => exact absurd rfl hpeers
  | motion => exact (motionBoundary_motion _ _ x.1).tableShown
  | examination => exact (firstExamination_motion x.1).tableShown
  | stepEvents => exact (stepEventsTurn_motion o _ x.1).tableShown
  | lateHalt => exact (takeRaised_motion _ x.1).tableShown
  | stopInput => exact (stopTurn_motion x.1).tableShown
  | hostHalt =>
    refine tableShown_of_peers ?_
    obtain ⟨_, h⟩ | ⟨_, h⟩ := clockPlain_cases 0x12 takeHalt x.1
    · refine (congrArg State.peers h).trans ?_
      unfold takeHalt
      split
      · rfl
      · exact (motion_frame (takeCause_motion _ (holdParams 0x12 [] x.1))).peers
    · exact congrArg State.peers h
  | deadline => exact (barrierDeadline_motion x.1).tableShown
  | notes => exact noteBoundary_shown x.1

theorem takeTurn_shown (o : EventOrder) (e : CycleEnd) (x : Raising) {b : BoundaryTurn} (hpeers : b ≠ .peers) :
    TableShown x.1 (takeTurn o e x b).1 ∨ (takeTurn o e x b).1.link.state = .listen := by
  by_cases hlink : b = .link
  · rw [hlink]
    exact linkBoundary_shown o _ _ x.1
  · exact .inl (takeTurn_table o e x hlink hpeers)

theorem takeTurn_left (o : EventOrder) (e : CycleEnd) (x : Raising) (b : BoundaryTurn) : LinkLeft x.1 (takeTurn o e x b).1 := by
  by_cases hb : b = .link
  · rw [hb]
    exact linkBoundary_left o _ _ x.1
  · have hclock := takeTurn_clock o e x hb
    exact .of_clock hclock.timer (by rw [hclock.link])

/-- A counting link counts on, or has lost the sync. -/
theorem LinkLeft.counting {s t : State} (h : LinkLeft s t) (hs : s.counting = true) :
    t.counting = true ∨ t.link.state = .listen := by
  obtain ⟨_, hsame | ⟨_, hactive⟩⟩ | ⟨_, ⟨hlisten, _⟩ | ⟨hduplicate, _⟩⟩ := h
  · refine .inl ?_
    unfold State.counting at hs ⊢
    rw [hsame]
    exact hs
  · exact .inl (by rw [State.counting, hactive])
  · exact .inr hlisten
  · exact .inl (by rw [State.counting, hduplicate])

/-- The Peer Table before and after the one turn that ages it. -/
def AgedOnce (b : Bool) (s : State) (l : List BoundaryTurn) (x : Raising) : Prop :=
  x.1.link.state = .listen ∨
    (l.Nodup ∧ SameStation s x.1 ∧ x.1.counting = true ∧
      ((.peers ∈ l ∧ TableShown s x.1) ∨
        (.peers ∉ l ∧ ∃ u, SameStation s u ∧ u.counting = true ∧ TableShown s u ∧ TableShown (ageing b u) x.1)))

theorem AgedOnce.step {o : EventOrder} {e : CycleEnd} {s : State} {b : BoundaryTurn} {rest : List BoundaryTurn} {x : Raising}
    (h : AgedOnce o.barrierFirst s (b :: rest) x) : AgedOnce o.barrierFirst s rest (takeTurn o e x b) := by
  have hleft := takeTurn_left o e x b
  obtain hlisten | ⟨hnodup, hstation, hcounting, htable⟩ := h
  · exact .inl (hleft.listen hlisten)
  obtain ⟨hb, hrest⟩ := List.nodup_cons.mp hnodup
  obtain hcounts | hlisten := hleft.counting hcounting
  · have hstation' := hstation.trans (takeTurn_turn o e x b).station
    by_cases hpeers : b = .peers
    · subst hpeers
      obtain ⟨_, hshown⟩ | ⟨hnot, _⟩ := htable
      · exact .inr ⟨hrest, hstation', hcounts, .inr ⟨hb, x.1, hstation, hcounting, hshown, .refl _⟩⟩
      · exact absurd List.mem_cons_self hnot
    · obtain hshown | hlisten := takeTurn_shown o e x hpeers
      · refine .inr ⟨hrest, hstation', hcounts, ?_⟩
        obtain ⟨hmem, hbefore⟩ | ⟨hnot, u, hu, hucounting, hbefore, hafter⟩ := htable
        · exact .inl ⟨(List.mem_cons.mp hmem).resolve_left (Ne.symm hpeers), hbefore.trans hshown⟩
        · exact .inr ⟨fun hmem => hnot (List.mem_cons_of_mem b hmem), u, hu, hucounting, hbefore, hafter.trans hshown⟩
      · exact .inl hlisten
  · exact .inl hlisten

/-- A boundary that leaves the link counting ages the table it found. -/
theorem afterTurns_aged {o : EventOrder} {skipped : Nat} {pulse : Option Nat} {s : State} (hs : s.counting = true)
    (ht : (afterTurns o skipped pulse s).counting = true) : ∃ u, SameStation s u ∧ u.counting = true ∧ TableShown s u ∧
      TableShown (ageing o.barrierFirst u) (afterTurns o skipped pulse s) := by
  have hstart : AgedOnce o.barrierFirst s (turnsOf o) (begun pulse s, none) :=
    .inr ⟨turnsOf_nodup o, ⟨rfl, rfl, rfl, rfl⟩, hs, .inl ⟨mem_turnsOf o .peers (by decide) (by decide), tableShown_of_peers rfl⟩⟩
  obtain hlisten | ⟨_, _, _, ⟨hmem, _⟩ | ⟨_, haged⟩⟩ :=
    turns_induct (I := AgedOnce o.barrierFirst s) (e := cycleEnd skipped s) (fun _ _ _ h => h.step) hstart
  · exact absurd (counting_cases ht) (by
      rw [show (afterTurns o skipped pulse s).link.state = .listen from hlisten]
      decide)
  · exact absurd hmem List.not_mem_nil
  · exact haged

end Sys2Proof.Machine

namespace Sys2Proof.Claims

open Sys2Proof.Machine

theorem onLink_iff (p : Presence) : onLink p = true ↔ ¬ Returning p := by
  cases p <;> simp [onLink, Returning]

/-- Settles O20: every turn but the ageing leaves the table, or has lost the sync. -/
theorem boundaryAgesPeers : Obligations.BoundaryAgesPeers := by
  intro o s t hends ht k
  obtain ⟨skipped, pulse, rfl, hstate, _, _⟩ := (cycleEnded_of_endsCycle hends).turns
  have hs : s.counting = true := by
    unfold State.counting
    obtain h | h | h := hstate <;> rw [h]
  obtain ⟨u, hu, hcounting, hbefore, hafter⟩ := afterTurns_aged hs ht
  have hshown := hbefore.entry k
  have haged := hafter.entry k
  rw [ageing_entry hcounting, hu.id, hu.stationCount, show u.cfg = s.cfg by rw [State.cfg, hu.config]; rfl] at haged
  by_cases hother : k = s.id ∨ s.stationCount ≤ k.val
  · rw [if_pos hother] at haged
    have hsame := hshown.trans haged
    refine ⟨hsame.view, fun _ => ⟨hsame.presence, hsame.missed⟩, fun hne hlt => ?_⟩
    exact absurd hother (not_or.mpr ⟨hne, Nat.not_le.mpr hlt⟩)
  · rw [if_neg hother] at haged
    refine ⟨haged.view.trans ((agedEntry_view _ _).trans hshown.view), fun h => absurd h hother, fun _ _ => ?_⟩
    refine ⟨haged.heard.trans (agedEntry_heard _ _), fun hgone => ?_, fun hpresent => ?_⟩
    · have hoff : onLink (u.entry k).presence = false := by
        rw [hshown.presence, Bool.eq_false_iff]
        exact fun h => (onLink_iff _).mp h hgone
      rw [agedEntry, if_neg (by rw [hoff]; exact Bool.false_ne_true)] at haged
      exact ⟨haged.presence.trans hshown.presence, haged.missed.trans hshown.missed⟩
    · have hon : onLink (u.entry k).presence = true := by
        rw [hshown.presence]
        exact (onLink_iff _).mpr hpresent
      rw [agedEntry, if_pos hon, hshown.heard, hshown.missed] at haged
      refine ⟨fun hheard => ?_, fun hsilent => ?_⟩
      · rw [if_pos hheard] at haged
        exact ⟨haged.presence, haged.missed⟩
      · rw [if_neg (by rw [hsilent]; exact Bool.false_ne_true)] at haged
        by_cases hmissed : (s.entry k).missed + 1 < s.cfg.lossLimit
        · rw [if_pos hmissed] at haged
          rw [if_pos hmissed]
          exact ⟨haged.missed, haged.presence, fun hlost => by cases haged.presence.symm.trans hlost⟩
        · rw [if_neg hmissed] at haged
          rw [if_neg hmissed]
          refine ⟨haged.missed, haged.presence, fun _ => ?_⟩
          rw [hafter.changeMap]
          exact ageing_bit hcounting o.barrierFirst (by rw [hu.id, hu.stationCount]; exact hother) hon
            (hshown.heard.trans hsilent)
            (by rw [hshown.missed, show u.cfg = s.cfg by rw [State.cfg, hu.config]; rfl]; exact hmissed)

end Sys2Proof.Claims
end

