-- ==== Sys2Proof/Proofs/QuietBoundaries.lean ====
section
/-! PROOFS. The quiet boundary: what its turns leave alone, and how its outcome follows from the motion's own turns. -/

namespace Sys2Proof.Machine

open Sys2Proof.Claims

/-! ## The calm of a quiet boundary -/

/-- The turns that act on the axis or on the barrier. -/
def touchesAxis : BoundaryTurn → Bool
  | .motion | .examination | .stepEvents | .lateHalt | .deadline => true
  | .link | .peers | .stopInput | .hostHalt | .notes => false

/-- What a quiet boundary has left as it was, with the turns `l` still to come. -/
structure Calm (o : EventOrder) (pulse : Option Nat) (s : State) (l : List BoundaryTurn) (x : State) : Prop where
  rows : ∃ pre, turnsOf o = pre ++ l
  station : SameStation s x
  timer : x.timer = (begun pulse s).timer
  active : x.link.state = .active
  link : .link ∈ l → x.link = s.link
  heard : .peers ∈ l → AllHeard x
  view : ∀ k, (x.entry k).view = (s.entry k).view
  presence : ∀ k, (x.entry k).presence = (s.entry k).presence ∨
    (onLink (x.entry k).presence = true ∧ onLink (s.entry k).presence = true)
  phase : x.port.phase = s.port.phase

theorem suffix_cons {o : EventOrder} {b : BoundaryTurn} {rest : List BoundaryTurn} (h : ∃ pre, turnsOf o = pre ++ b :: rest) :
    ∃ pre, turnsOf o = pre ++ rest := by
  obtain ⟨pre, hpre⟩ := h
  exact ⟨pre ++ [b], by rw [hpre, List.append_assoc]; rfl⟩

section Suffixes

variable {o : EventOrder} {b : BoundaryTurn} {rest : List BoundaryTurn} (h : ∃ pre, turnsOf o = pre ++ b :: rest)
include h

theorem suffix_nodup : b ∉ rest := by
  obtain ⟨pre, hpre⟩ := h
  have hnodup := turnsOf_nodup o
  rw [hpre, List.nodup_append, List.nodup_cons] at hnodup
  exact hnodup.2.1.1

/-- Where a turn that follows the motion's stands first, the motion's is taken. -/
theorem suffix_after (hafter : afterMotion b = true) : .motion ∉ b :: rest := by
  obtain ⟨pre, hpre⟩ := h
  have hfirst := turnsOf_motionFirst o
  rw [hpre, MotionFirst, List.pairwise_append, List.pairwise_cons] at hfirst
  intro hmem
  obtain hb | hrest := List.mem_cons.mp hmem
  · rw [← hb] at hafter
    cases hafter
  · exact hfirst.2.1.1 _ hrest hafter rfl

/-- A turn that follows the motion's is still to come when the motion's is taken. -/
theorem suffix_follows {c : BoundaryTurn} (hafter : afterMotion c = true) (hmem : c ∈ turnsOf o) (hb : b = .motion := by rfl) :
    c ∈ rest := by
  obtain ⟨pre, hpre⟩ := h
  have hfirst := turnsOf_motionFirst o
  rw [hpre, MotionFirst, List.pairwise_append] at hfirst
  rw [hpre] at hmem
  obtain hpre | hrest := List.mem_append.mp hmem
  · exact absurd hb (hfirst.2.2 c hpre b List.mem_cons_self hafter)
  · refine (List.mem_cons.mp hrest).resolve_left fun hc => ?_
    rw [hc, hb] at hafter
    cases hafter

theorem suffix_mem : b ∈ turnsOf o := by
  obtain ⟨pre, hpre⟩ := h
  rw [hpre]
  exact List.mem_append_right _ List.mem_cons_self

end Suffixes

/-- STOP_INPUT and HALT are turns of the boundary where the order names them. -/
theorem mem_order_of_mem_turnsOf {o : EventOrder} {b : BoundaryTurn} (h : b ∈ turnsOf o)
    (hb : b = .stopInput ∨ b = .hostHalt) : b ∈ o.turns := by
  have h := (mem_firsts b _).mp h
  obtain h | h := List.mem_append.mp h
  · obtain h | h := List.mem_append.mp h
    · exact (List.takeWhile_sublist _).subset (List.mem_filter.mp h).1
    · exact (List.dropWhile_sublist _).subset h
  · obtain rfl | rfl := hb <;> simp at h

/-! ## The turns that leave the axis alone -/

/-- The link of an ACTIVE station that nothing ends clears its counts. -/
theorem linkBoundary_quiet {s : State} (hactive : s.link.state = .active) (hcollision : s.link.collision = false)
    (hslips : s.link.slips ≠ .allSlips) (o : EventOrder) (adopted : Bool) : linkBoundary o adopted false s =
      s.setLink { s.link with collisionRun := 0, slipRun := 0, slips := .none } := by
  have hjoin (u : State) (hu : u.link.state = .active) : joinCountTurn adopted u = u := by
    rw [joinCountTurn, if_neg (by rw [hu]; decide)]
  have hcollide (u : State) (hu : u.link.state = .active) (hc : u.link.collision = false) :
      collisionTurn u = u.setLink { u.link with collisionRun := 0 } := by
    rw [collisionTurn, if_pos (.inr hu), if_neg (by rw [hc]; exact Bool.false_ne_true)]
  have hsync (u : State) (hu : u.link.state = .active) (hs : u.link.slips ≠ .allSlips) :
      syncLossTurn o false u = u.setLink { u.link with slipRun := 0, slips := .none } := by
    have hslip : slipTurn u = (u.setLink { u.link with slipRun := 0, slips := .none }, false) := by
      rw [slipTurn, if_pos hu, if_neg hs]
    rw [syncLossTurn, hslip]
    exact if_neg fun h => Bool.false_ne_true h.1
  have hleave : leaveTurns o false s = s.setLink { s.link with collisionRun := 0, slipRun := 0, slips := .none } := by
    unfold leaveTurns
    split
    · rw [hsync s hactive hslips, hcollide (s.setLink { s.link with slipRun := 0, slips := .none }) hactive hcollision]
      rfl
    · rw [hcollide s hactive hcollision, hsync (s.setLink { s.link with collisionRun := 0 }) hactive hslips]
      rfl
  unfold linkBoundary
  split
  · rw [hjoin s hactive, hleave]
  · rw [hleave]
    exact hjoin (s.setLink { s.link with collisionRun := 0, slipRun := 0, slips := .none }) hactive

/-- Every station is heard or off the link: its ageing loses nobody. -/
theorem ageEntry_quiet {s : State} {k : Station}
    (h : k ≠ s.id → k.val < s.stationCount → (s.entry k).presence = .present ∨ (s.entry k).presence = .stale →
      (s.entry k).heard = true) (b : Bool) : SameCore s (ageEntry b s k) := by
  by_cases hother : k = s.id ∨ s.stationCount ≤ k.val
  · rw [ageEntry_of_other hother]
    exact .refl s
  · obtain ⟨hid, hcount⟩ := not_or.mp hother
    have hheard : (s.entry k).heard = true ∨ onLink (s.entry k).presence = false := by
      cases hp : (s.entry k).presence
      case present => exact .inl (h hid (Nat.not_le.mp hcount) (.inl hp))
      case stale => exact .inl (h hid (Nat.not_le.mp hcount) (.inr hp))
      all_goals exact .inr rfl
    rw [ageEntry_of_heard hother (hheard.imp_right .inl)]
    refine setEntry_core fun hlost => ?_
    unfold agedEntry at hlost
    split at hlost
    · rename_i hon
      rw [if_pos (hheard.resolve_right (by rw [hon]; exact nofun))] at hlost
      cases hlost
    · exact hlost

theorem ageing_quiet {s : State} (h : AllHeard s) (b : Bool) : SameCore s (ageing b s) := by
  have hrow : ∀ l : List Station, l.Nodup → ∀ u : State, SameStation s u → (∀ k ∈ l, u.entry k = s.entry k) →
      SameCore u (l.foldl (ageEntry b) u) := by
    intro l
    induction l with
    | nil => exact fun _ u _ _ => .refl u
    | cons k l ih =>
      intro hnodup u hu hsame
      obtain ⟨hk, hl⟩ := List.nodup_cons.mp hnodup
      obtain ⟨hfirst, hrest⟩ := List.forall_mem_cons.mp hsame
      refine SameCore.trans (ageEntry_quiet (fun hid hlt hp => ?_) b)
        (ih hl _ (hu.trans (ageEntry_station b u k)) fun m hm => ?_)
      · rw [hfirst] at hp ⊢
        exact h k (by rw [← hu.id]; exact hid) (by rw [← hu.stationCount]; exact hlt) hp
      · rw [ageEntry_entry, if_neg (fun hmk : m = k => hk (hmk ▸ hm))]
        exact hrest m hm
  unfold ageing
  split
  · exact hrow stations stations_nodup s (.refl s) fun _ _ => rfl
  · exact .refl s

theorem agedEntry_onLink (limit : Nat) {e : PeerEntry} (h : e.presence = .present ∨ e.presence = .stale → e.heard = true) :
    (agedEntry limit e).presence = e.presence ∨ (onLink (agedEntry limit e).presence = true ∧ onLink e.presence = true) := by
  unfold agedEntry
  split
  · rename_i hon
    have hheard : e.heard = true := h (by cases hp : e.presence <;> simp_all [onLink])
    rw [if_pos hheard]
    exact .inr ⟨rfl, hon⟩
  · exact .inl rfl

theorem work_phase {s t : State} (h : Work s t) : t.port.phase = s.port.phase :=
  rows_relate (P := fun s t => t.port.phase = s.port.phase) (fun _ => rfl) (fun h k => k.trans h)
    (fun h => h.elim (fun h => by rw [h.frame.port]) fun h => by rw [h.frame.port]) h

/-! ## Calm is kept -/

section Kept

variable {o : EventOrder} {skipped : Nat} {pulse : Option Nat} {s : State} {b : BoundaryTurn} {rest : List BoundaryTurn}
  {x : Raising}

/-- Calm is kept by what leaves the clock, the tables' entries and the port's phase. -/
theorem Calm.of_clock {t : State} (h : Calm o pulse s (b :: rest) x.1) (hclock : SameClock x.1 t) (hshown : TableShown x.1 t)
    (hphase : t.port.phase = x.1.port.phase) : Calm o pulse s rest t where
  rows := suffix_cons h.rows
  station := h.station.trans hclock.station
  timer := hclock.timer.trans h.timer
  active := by rw [hclock.link]; exact h.active
  link hmem := by rw [hclock.link]; exact h.link (List.mem_cons_of_mem b hmem)
  heard hmem k hid hlt hp := by
    rw [(hshown.entry k).heard]
    rw [(hshown.entry k).presence] at hp
    exact h.heard (List.mem_cons_of_mem b hmem) k (by rw [← hclock.station.id]; exact hid)
      (by rw [← hclock.station.stationCount]; exact hlt) hp
  view k := (hshown.entry k).view.trans (h.view k)
  presence k := by rw [(hshown.entry k).presence]; exact h.presence k
  phase := hphase.trans h.phase

theorem takeTurn_motion (o : EventOrder) (e : CycleEnd) (x : Raising) (hb : touchesAxis b = true) :
    Motion x.1 (takeTurn o e x b).1 := by
  cases b with
  | motion => exact motionBoundary_motion _ _ x.1
  | examination => exact firstExamination_motion x.1
  | stepEvents => exact stepEventsTurn_motion o _ x.1
  | lateHalt => exact takeRaised_motion _ x.1
  | deadline => exact barrierDeadline_motion x.1
  | link | peers | stopInput | hostHalt | notes => cases hb

theorem Calm.of_axis_turn (h : Calm o pulse s (b :: rest) x.1) (hb : touchesAxis b = true) :
    Calm o pulse s rest (takeTurn o (cycleEnd skipped s) x b).1 := by
  have hmotion := takeTurn_motion o (cycleEnd skipped s) x hb
  have hframe := motion_frame hmotion
  exact h.of_clock hframe.clock hmotion.tableShown (by rw [hframe.port])

/-- Any other turn of a quiet boundary leaves the axis, and the calm. -/
theorem Calm.of_other_turn (hq : Quiet o s) (h : Calm o pulse s (b :: rest) x.1)
    (hstop : x.1.haltCtl.stopn = s.haltCtl.stopn) (hb : touchesAxis b = false) :
    SameCore x.1 (takeTurn o (cycleEnd skipped s) x b).1 ∧ (takeTurn o (cycleEnd skipped s) x b).2 = x.2 ∧
      Calm o pulse s rest (takeTurn o (cycleEnd skipped s) x b).1 := by
  have hnodup := suffix_nodup h.rows
  cases b with
  | motion | examination | stepEvents | lateHalt | deadline => cases hb
  | link =>
    have hlink := h.link List.mem_cons_self
    have hloss : earlyLossOf s.timer = false := by
      cases hseen : s.timer.earlySeen with
      | false => simp [earlyLossOf, hseen]
      | true => simp [earlyLossOf, hseen, Nat.not_le.mpr (hq.early hseen)]
    have hturn : (takeTurn o (cycleEnd skipped s) x .link).1 =
        x.1.setLink { x.1.link with collisionRun := 0, slipRun := 0, slips := .none } := by
      change linkBoundary o _ (earlyLossOf s.timer) x.1 = _
      rw [hloss]
      exact linkBoundary_quiet h.active (by rw [hlink]; exact hq.collision) (by rw [hlink]; exact hq.slips) o _
    rw [hturn]
    exact ⟨setLink_core _ x.1, rfl, suffix_cons h.rows, h.station.trans ⟨rfl, rfl, rfl, rfl⟩, h.timer, h.active, fun hmem => absurd hmem hnodup,
      fun hmem => h.heard (List.mem_cons_of_mem _ hmem), h.view, h.presence, h.phase⟩
  | peers =>
    have hheard := h.heard List.mem_cons_self
    have hclock := ageing_clock o.barrierFirst x.1
    have hcounting : x.1.counting = true := by rw [State.counting, h.active]
    have hentry := ageing_entry hcounting o.barrierFirst
    have hcore : SameCore x.1 (ageing o.barrierFirst x.1) := ageing_quiet hheard o.barrierFirst
    refine ⟨hcore, rfl, suffix_cons h.rows, h.station.trans hclock.station, hclock.timer.trans h.timer,
      (by change (ageing o.barrierFirst x.1).link.state = _; rw [hclock.link]; exact h.active),
      fun hmem => (congrArg id hclock.link).trans (h.link (List.mem_cons_of_mem _ hmem)), fun hmem => absurd hmem hnodup,
      fun k => ?_, fun k => ?_, ?_⟩
    · change ((ageing o.barrierFirst x.1).entry k).view = _
      rw [hentry k, ← h.view k]
      split
      · rfl
      · exact agedEntry_view _ _
    · change ((ageing o.barrierFirst x.1).entry k).presence = _ ∨ (onLink ((ageing o.barrierFirst x.1).entry k).presence = true ∧ _)
      rw [hentry k]
      split
      · exact h.presence k
      · rename_i hother
        obtain ⟨hid, hlt⟩ := not_or.mp hother
        obtain hsame | ⟨hon, hon'⟩ := agedEntry_onLink x.1.cfg.lossLimit (hheard k hid (Nat.not_le.mp hlt))
        · rw [hsame]
          exact h.presence k
        · refine .inr ⟨hon, ?_⟩
          obtain hp | ⟨_, hp⟩ := h.presence k
          · rw [← hp]
            exact hon'
          · exact hp
    · exact (work_phase (ageing_work o.barrierFirst x.1)).trans h.phase
  | stopInput =>
    have hnone : stopTurn x.1 = x.1 := by
      have hdue := hq.unstopped.stopInput (mem_order_of_mem_turnsOf (suffix_mem h.rows) (.inl rfl))
      rw [stopTurn, if_neg (by rw [stopInputDue, stopChangeDue, hstop]; exact Bool.eq_false_iff.mp hdue)]
    have hturn : (takeTurn o (cycleEnd skipped s) x .stopInput).1 = x.1 := hnone
    rw [hturn]
    exact ⟨.refl _, rfl, h.of_clock (.refl _) (.refl _) rfl⟩
  | hostHalt =>
    have hphase := hq.unstopped.hostHalt (mem_order_of_mem_turnsOf (suffix_mem h.rows) (.inr rfl))
    have hturn : (takeTurn o (cycleEnd skipped s) x .hostHalt).1 = x.1 :=
      clockPlain_of_not_request (by rw [h.phase]; exact hphase) 0x12 takeHalt
    rw [hturn]
    exact ⟨.refl _, rfl, h.of_clock (.refl _) (.refl _) rfl⟩
  | notes =>
    have hframe := tables_frame (noteBoundary_tables x.1)
    have hshown := noteBoundary_shown x.1
    refine ⟨hframe.core hshown, rfl, h.of_clock hframe.clock hshown ?_⟩
    change (noteBoundary x.1).port.phase = _
    rw [hframe.port]

end Kept

/-! ## The outcome of a quiet boundary -/

section Outcome

variable {o : EventOrder} {skipped : Nat} {pulse : Option Nat} {s : State}

/-- What the axis's own turns respect, and the others cannot change, holds at the end of a quiet boundary; or one of them
has halted the axis, and the halt stands. -/
theorem quiet_induct (hq : Quiet o s) {I : List BoundaryTurn → Raising → Prop} {P : State → Prop}
    (hstop : ∀ l x, I l x → x.1.haltCtl.stopn = s.haltCtl.stopn)
    (hother : ∀ b rest x t, touchesAxis b = false → I (b :: rest) x → SameCore x.1 t → I rest (t, x.2))
    (haxis : ∀ b rest x, touchesAxis b = true → Calm o pulse s (b :: rest) x.1 → I (b :: rest) x →
      I rest (takeTurn o (cycleEnd skipped s) x b) ∨
        (Rests (takeTurn o (cycleEnd skipped s) x b).1 ∧ P (takeTurn o (cycleEnd skipped s) x b).1))
    (hstart : I (turnsOf o) (begun pulse s, none)) :
    (∃ c, I [] (afterTurns o skipped pulse s, c)) ∨ ∃ v, Rests v ∧ P v ∧ StandsAs v (afterTurns o skipped pulse s) := by
  have hcalm : Calm o pulse s (turnsOf o) (begun pulse s) :=
    ⟨⟨[], rfl⟩, ⟨rfl, rfl, rfl, rfl⟩, rfl, hq.active, fun _ => rfl, fun _ => hq.heard, fun _ => rfl, fun _ => .inl rfl, rfl⟩
  obtain ⟨_, h⟩ | h := turns_induct (o := o) (e := cycleEnd skipped s)
    (I := fun l x => (Calm o pulse s l x.1 ∧ I l x) ∨ ∃ v, Rests v ∧ P v ∧ StandsAs v x.1)
    (fun b rest x h => by
      obtain ⟨hcalm, h⟩ | ⟨v, hv, hP, hstands⟩ := h
      · cases hb : touchesAxis b with
        | true =>
          obtain h | ⟨hrests, hP⟩ := haxis b rest x hb hcalm h
          · exact .inl ⟨hcalm.of_axis_turn hb, h⟩
          · exact .inr ⟨_, hrests, hP, .refl _⟩
        | false =>
          obtain ⟨hcore, hraised, hcalm'⟩ := hcalm.of_other_turn (skipped := skipped) hq (hstop _ x h) hb
          have h' := hother b rest x _ hb h hcore
          rw [← hraised] at h'
          exact .inl ⟨hcalm', h'⟩
      · exact .inr ⟨v, hv, hP, hstands.trans (takeTurn_stands (hv.of_stands hstands) o _ b)⟩)
    (.inl ⟨hcalm, hstart⟩)
  · exact .inl ⟨_, h⟩
  · exact .inr h

/-- The same in two stages: before the motion's turn, in which only the deadline can act, and after it. -/
theorem quiet_stages (hq : Quiet o s) {J : List BoundaryTurn → Raising → Prop} {P : State → Prop}
    (hdeadline : ∀ x, SameMotion (begun pulse s) x → barrierDeadline x = x ∨ (Rests (barrierDeadline x) ∧ P (barrierDeadline x)))
    (hmotion : ∀ rest x, Calm o pulse s (.motion :: rest) x → SameMotion (begun pulse s) x →
      J rest (motionBoundary o.lateHaltFirst skipped x) ∨
        (Rests (motionBoundary o.lateHaltFirst skipped x).1 ∧ P (motionBoundary o.lateHaltFirst skipped x).1))
    (hstop : ∀ l x, J l x → x.1.haltCtl.stopn = s.haltCtl.stopn)
    (hother : ∀ b rest x t, touchesAxis b = false → J (b :: rest) x → SameMotion x.1 t → J rest (t, x.2))
    (hafter : ∀ b rest x, touchesAxis b = true → b ≠ .motion → Calm o pulse s (b :: rest) x.1 → J (b :: rest) x →
      J rest (takeTurn o (cycleEnd skipped s) x b) ∨
        (Rests (takeTurn o (cycleEnd skipped s) x b).1 ∧ P (takeTurn o (cycleEnd skipped s) x b).1)) :
    (∃ c, J [] (afterTurns o skipped pulse s, c)) ∨ ∃ v, Rests v ∧ P v ∧ StandsAs v (afterTurns o skipped pulse s) := by
  obtain ⟨c, ⟨hmem, _⟩ | ⟨_, h⟩⟩ | h := quiet_induct (skipped := skipped) hq (P := P)
    (I := fun l x => (.motion ∈ l ∧ SameMotion (begun pulse s) x.1 ∧ x.2 = none) ∨ (.motion ∉ l ∧ J l x))
    (fun l x h => h.elim (fun h => by rw [h.2.1.haltCtl]; rfl) fun h => hstop l x h.2)
    (fun b rest x t hb h hcore => by
      obtain ⟨hmem, hsame, hnone⟩ | ⟨hnot, h⟩ := h
      · have hne : .motion ≠ b := fun hmotion => by
          rw [← hmotion] at hb
          cases hb
        exact .inl ⟨(List.mem_cons.mp hmem).resolve_left hne, hsame.trans hcore.toSameMotion, hnone⟩
      · exact .inr ⟨fun hmem => hnot (List.mem_cons_of_mem b hmem), hother b rest x t hb h hcore.toSameMotion⟩)
    (fun b rest x hb hcalm h => by
      obtain ⟨hmem, hsame, hnone⟩ | ⟨hnot, h⟩ := h
      · have hbefore (hne : b ≠ .motion) (hafter : afterMotion b = true) : False :=
          suffix_after hcalm.rows hafter hmem
        cases b with
        | motion =>
          exact (hmotion rest x.1 hcalm hsame).imp_left fun h => .inr ⟨suffix_nodup hcalm.rows, h⟩
        | deadline =>
          obtain h | h := hdeadline x.1 hsame
          · refine .inl (.inl ⟨(List.mem_cons.mp hmem).resolve_left nofun, ?_, hnone⟩)
            rw [show (takeTurn o (cycleEnd skipped s) x .deadline).1 = x.1 from h]
            exact hsame
          · exact .inr h
        | examination => exact (hbefore nofun rfl).elim
        | stepEvents => exact (hbefore nofun rfl).elim
        | lateHalt => exact (hbefore nofun rfl).elim
        | link | peers | stopInput | hostHalt | notes => cases hb
      · have hne : b ≠ .motion := fun hmotion => hnot (hmotion ▸ List.mem_cons_self)
        exact (hafter b rest x hb hne hcalm h).imp_left fun h =>
          .inr ⟨fun hmem => hnot (List.mem_cons_of_mem b hmem), h⟩)
    (.inl ⟨mem_turnsOf o .motion (by decide) (by decide), .refl _, rfl⟩)
  · exact absurd hmem List.not_mem_nil
  · exact .inl ⟨c, h⟩
  · exact .inr h

/-- A quiet boundary whose motion turn leaves nothing to the other turns but the first examination. -/
theorem quiet_examines (hq : Quiet o s) {U W P : State → Prop}
    (hdeadline : ∀ x, SameMotion (begun pulse s) x → barrierDeadline x = x)
    (hmotion : ∀ rest x, Calm o pulse s (.motion :: rest) x → SameMotion (begun pulse s) x →
      U (motionBoundary o.lateHaltFirst skipped x).1 ∧ (motionBoundary o.lateHaltFirst skipped x).2 = none)
    (hsame : ∀ x y, SameMotion x y → (U x → U y) ∧ (W x → W y))
    (hstop : ∀ x, U x ∨ W x → x.haltCtl.stopn = s.haltCtl.stopn)
    (hexamination : ∀ x, U x → W (firstExamination x) ∨ (Rests (firstExamination x) ∧ P (firstExamination x)))
    (hsteps : ∀ x, x.timer = (begun pulse s).timer →
      (U x → U (stepEventsTurn o (s.seq.exec.map Executing.seg) x)) ∧
        (W x → W (stepEventsTurn o (s.seq.exec.map Executing.seg) x)))
    (hdeadline' : ∀ x, U x ∨ W x → barrierDeadline x = x) :
    W (afterTurns o skipped pulse s) ∨ ∃ v, Rests v ∧ P v ∧ StandsAs v (afterTurns o skipped pulse s) := by
  have hold {l : List BoundaryTurn} {b : BoundaryTurn} (hb : b ≠ .examination) {x y : State} (hU : U x → U y) (hW : W x → W y)
      (h : (.examination ∈ b :: l ∧ U x) ∨ (.examination ∉ b :: l ∧ W x)) :
      (.examination ∈ l ∧ U y) ∨ (.examination ∉ l ∧ W y) :=
    h.imp (fun ⟨hmem, h⟩ => ⟨(List.mem_cons.mp hmem).resolve_left (Ne.symm hb), hU h⟩)
      fun ⟨hnot, h⟩ => ⟨fun hmem => hnot (List.mem_cons_of_mem b hmem), hW h⟩
  obtain ⟨_, ⟨hmem, _⟩ | ⟨_, h⟩, _⟩ | h := quiet_stages (skipped := skipped) (pulse := pulse) hq (P := P)
    (J := fun l x => ((.examination ∈ l ∧ U x.1) ∨ (.examination ∉ l ∧ W x.1)) ∧ x.2 = none)
    (fun x h => .inl (hdeadline x h))
    (fun rest x hcalm h => .inl ⟨.inl ⟨suffix_follows hcalm.rows rfl (mem_turnsOf o _ (by decide) (by decide)), (hmotion rest x hcalm h).1⟩,
      (hmotion rest x hcalm h).2⟩)
    (fun _ x h => hstop x.1 (h.1.imp And.right And.right))
    (fun b _ x t hb h hxt => ⟨hold (fun hexam => by rw [hexam] at hb; cases hb) (hsame x.1 t hxt).1 (hsame x.1 t hxt).2 h.1, h.2⟩)
    (fun b rest x hb hne hcalm h => by
      obtain ⟨hx, hnone⟩ := h
      have heither : U x.1 ∨ W x.1 := hx.imp And.right And.right
      cases b with
      | motion => exact absurd rfl hne
      | examination =>
        obtain ⟨_, hU⟩ | ⟨hnot, _⟩ := hx
        · exact (hexamination x.1 hU).imp_left fun h => ⟨.inr ⟨suffix_nodup hcalm.rows, h⟩, hnone⟩
        · exact absurd List.mem_cons_self hnot
      | stepEvents => exact .inl ⟨hold (b := .stepEvents) nofun (hsteps x.1 hcalm.timer).1 (hsteps x.1 hcalm.timer).2 hx, hnone⟩
      | lateHalt =>
        have hturn : (takeTurn o (cycleEnd skipped s) x .lateHalt).1 = x.1 := by
          change takeRaised x.2 x.1 = x.1
          rw [hnone]
          rfl
        rw [hturn]
        exact .inl ⟨hold (b := .lateHalt) nofun id id hx, rfl⟩
      | deadline =>
        rw [show (takeTurn o (cycleEnd skipped s) x .deadline).1 = x.1 from hdeadline' x.1 heither]
        exact .inl ⟨hold (b := .deadline) nofun id id hx, hnone⟩
      | link | peers | stopInput | hostHalt | notes => cases hb)
  · exact absurd hmem List.not_mem_nil
  · exact .inl h
  · exact .inr h

/-- A quiet boundary whose motion turn leaves nothing to the other turns ends as the motion turn left it. -/
theorem quiet_settles (hq : Quiet o s) {u : State}
    (hdeadline : ∀ x, SameMotion (begun pulse s) x → barrierDeadline x = x)
    (hmotion : ∀ x, SameMotion (begun pulse s) x →
      SameMotion u (motionBoundary o.lateHaltFirst skipped x).1 ∧ (motionBoundary o.lateHaltFirst skipped x).2 = none)
    (hstop : u.haltCtl.stopn = s.haltCtl.stopn)
    (hexamination : ∀ x, SameMotion u x → firstExamination x = x)
    (hsteps : ∀ x, x.timer = (begun pulse s).timer → SameMotion u x →
      stepEventsTurn o (s.seq.exec.map Executing.seg) x = x)
    (hdeadline' : ∀ x, SameMotion u x → barrierDeadline x = x) : SameMotion u (afterTurns o skipped pulse s) := by
  obtain h | ⟨_, _, h, _⟩ := quiet_examines (skipped := skipped) (pulse := pulse) hq (U := SameMotion u) (W := SameMotion u)
    (P := fun _ => False) hdeadline (fun _ x _ => hmotion x) (fun _ _ hxy => ⟨(·.trans hxy), (·.trans hxy)⟩)
    (fun x h => by rw [(h.elim id id).haltCtl]; exact hstop) (fun x h => .inl (by rw [hexamination x h]; exact h))
    (fun x htimer => by
      have hkeeps (h : SameMotion u x) : SameMotion u (stepEventsTurn o (s.seq.exec.map Executing.seg) x) := by
        rw [hsteps x htimer h]
        exact h
      exact ⟨hkeeps, hkeeps⟩)
    fun x h => hdeadline' x (h.elim id id)
  · exact h
  · exact h.elim

/-- A quiet boundary whose motion turn halts the axis ends as the halt left it. -/
theorem quiet_halts (hq : Quiet o s) {u : State}
    (hdeadline : ∀ x, SameMotion (begun pulse s) x → barrierDeadline x = x)
    (hmotion : ∀ x, SameMotion (begun pulse s) x → Rests (motionBoundary o.lateHaltFirst skipped x).1 ∧
      SameMotion u (motionBoundary o.lateHaltFirst skipped x).1) :
    ∃ v, SameMotion u v ∧ StandsAs v (afterTurns o skipped pulse s) := by
  obtain ⟨_, h⟩ | ⟨v, _, h, hstands⟩ := quiet_stages (skipped := skipped) (pulse := pulse) hq (P := SameMotion u)
    (J := fun _ _ => False) (fun x h => .inl (hdeadline x h)) (fun _ x _ h => .inr (hmotion x h)) (fun _ _ h => h.elim)
    (fun _ _ _ _ _ h _ => h) (fun _ _ _ _ _ _ h => h.elim)
  · exact h.elim
  · exact ⟨v, h, hstands⟩

end Outcome

end Sys2Proof.Machine
end

