-- ==== Sys2Proof/Proofs/QuietStarts.lean ====
section
/-! PROOFS. The start of the head segment at a quiet boundary (O27). -/

namespace Sys2Proof.Machine

open Sys2Proof.Claims

/-! ## What the start of a segment reads -/

/-- A halt's records read the sequencer, the Step Generator and the cycle number. -/
theorem haltRecords_congr {s t : State} (hseq : t.seq = s.seq) (hgen : t.gen = s.gen) (hcycle : t.timer.cycle = s.timer.cycle)
    (c : Cause) : haltRecords c t = haltRecords c s := by
  have hcompleted : ∀ code l, completedRecords t code l = completedRecords s code l := by
    intro code l
    induction l generalizing code with
    | nil => rfl
    | cons a l ih => cases a <;> simp only [completedRecords, State.finishingRecord, hgen, ih]
  unfold haltRecords executingRecords
  rw [hseq, hcompleted]
  cases s.seq.exec with
  | none => rfl
  | some e => simp only [State.execRecord, hgen, hcycle]

theorem haltReportOf_congr {s t : State} (hseq : t.seq = s.seq) (hgen : t.gen = s.gen) (hcycle : t.timer.cycle = s.timer.cycle)
    (c : Cause) : haltReportOf c t = haltReportOf c s := by
  unfold haltReportOf
  rw [hcycle, hgen, hseq]

section Same

variable {s t : State} (h : SameMotion s t)
include h

theorem SameMotion.startWith (seg : Segment) (axis : AxisState) (src : Source) (rest : List Segment) :
    SameMotion (startWith seg axis src rest s) (startWith seg axis src rest t) :=
  ⟨h.id, h.config, h.cycle, by simp only [Machine.startWith, State.setSeq_seq, h.seq, h.cycle], h.gen, h.barrier, h.haltCtl, h.held⟩

theorem SameMotion.setAxis (a : AxisState) : SameMotion (setAxis a s) (setAxis a t) :=
  ⟨h.id, h.config, h.cycle, by simp only [Machine.setAxis, State.setSeq_seq, h.seq], h.gen, h.barrier, h.haltCtl, h.held⟩

theorem SameMotion.setExecSource (e : Executing) (src : Source) : SameMotion (setExecSource e src s) (setExecSource e src t) :=
  ⟨h.id, h.config, h.cycle, by simp only [Machine.setExecSource, State.setSeq_seq, h.seq], h.gen, h.barrier, h.haltCtl, h.held⟩

theorem SameMotion.startPosition : t.startPosition = s.startPosition := by
  unfold State.startPosition
  rw [h.seq, h.gen]

theorem SameMotion.cycleUs : t.cycleUs = s.cycleUs := by
  unfold State.cycleUs
  rw [h.cfg]

theorem SameMotion.inputActive (i : AxisInput) : t.inputActive i = s.inputActive i := by
  unfold State.inputActive
  rw [h.cfg, h.gen, h.config]

theorem SameMotion.haltTaken (c : Cause) : SameMotion (haltTaken c s) (haltTaken c t) := by
  have hreport := haltReportOf_congr h.seq h.gen h.cycle c
  rw [haltTaken_eq c t, haltTaken_eq c s]
  refine ⟨h.id, h.config, h.cycle, ?_, ?_, ?_, ?_, ?_⟩
  · simp only [h.seq]
  · simp only [h.gen]
  · simp only [h.barrier]
  · simp only [h.haltCtl, hreport]
  · simp only [h.held, haltRecords_congr h.seq h.gen h.cycle]

end Same

theorem begun_cycle (pulse : Option Nat) (s : State) : (begun pulse s).timer.cycle = nextCycle s := by
  change s.timer.adoption.getD s.timer.cycle + 1 = _
  unfold nextCycle
  cases s.timer.adoption <;> rfl

/-! ## The motion's turn, case by case -/

theorem motionBoundary_no_exec {s : State} (h : s.seq.exec = none) (late : Bool) (skipped : Nat) :
    motionBoundary late skipped s = (startAtBoundary false s, none) := by
  have hskipped : joinSkipped skipped s = s := by rw [joinSkipped, h]
  rw [motionBoundary, hskipped, sequencerBoundary, h]

section Starts

variable {s : State} {ended : Bool} (hmay : mayStart ended s.seq.axis = true)
include hmay

theorem startAtBoundary_empty (h : s.seq.queue = []) : startAtBoundary ended s = setAxis .idle s := by
  rw [startAtBoundary, if_pos hmay, h]

theorem startAtBoundary_full {seg : Segment} {rest : List Segment} (h : s.seq.queue = seg :: rest) (hfree : s.freeEntries = 0) :
    startAtBoundary ended s = takeCause (.plain .resultSpace) s := by
  rw [startAtBoundary, if_pos hmay, h]
  exact if_pos hfree

theorem startAtBoundary_head {seg : Segment} {rest : List Segment} (h : s.seq.queue = seg :: rest) (hfree : s.freeEntries ≠ 0) :
    startAtBoundary ended s = startSegment seg rest s := by
  rw [startAtBoundary, if_pos hmay, h]
  exact if_neg hfree

end Starts

theorem freeEntries_eq_zero_iff {s : State} (h : s.seq.exec = none) :
    s.freeEntries = 0 ↔ 16 ≤ s.held.length + s.seq.outstanding.length := by
  unfold State.freeEntries Sequencer.reserved
  rw [h]
  simp only [Option.isSome_none, Bool.false_eq_true, if_false, Config.completionCapacity]
  omega

theorem inPositionRange_iff (x : Int) : inPositionRange x = true ↔ -2147483648 ≤ x ∧ x ≤ 2147483647 := decide_eq_true_iff

theorem rateTooHigh_iff (s : State) (n d : Nat) : rateTooHigh s.cfg n d = true ↔ d * s.cycleUs < n * s.cfg.minStepUs :=
  decide_eq_true_iff

theorem startSegment_moveRel {s : State} {seg : Segment} {count : Int} {d : Nat} (h : seg.body = .moveRel count d)
    (hrange : inPositionRange (s.startPosition + count) = true) (rest : List Segment) :
    startSegment seg rest s = startWith seg .running (.timed (timedSourceOf s.cfg count d)) rest s := by
  unfold startSegment
  rw [h]
  exact if_pos hrange

theorem startSegment_moveRel_fails {s : State} {seg : Segment} {count : Int} {d : Nat} (h : seg.body = .moveRel count d)
    (hrange : inPositionRange (s.startPosition + count) = false) (rest : List Segment) :
    startSegment seg rest s = failStart seg .range rest s := by
  unfold startSegment
  rw [h]
  exact if_neg (by rw [hrange]; exact Bool.false_ne_true)

theorem startSegment_moveAbs {s : State} {seg : Segment} {target : Position} {d : Nat} (h : seg.body = .moveAbs target d)
    (hpasses : moveAbsFailure s target d = none) (rest : List Segment) : startSegment seg rest s =
      startWith seg .running (.timed (timedSourceOf s.cfg (target.toInt - s.startPosition) d)) rest s := by
  unfold startSegment
  rw [h]
  dsimp only
  rw [hpasses]

theorem startSegment_moveAbs_fails {s : State} {seg : Segment} {target : Position} {d : Nat} {code : Code}
    (h : seg.body = .moveAbs target d) (hfails : moveAbsFailure s target d = some code) (rest : List Segment) :
    startSegment seg rest s = failStart seg code rest s := by
  unfold startSegment
  rw [h]
  dsimp only
  rw [hfails]

/-- The body of a HOME with this home value, or of a PROBE. -/
def untimedBody (home : Option Position) (dir : Direction) (interval maxSteps : Nat) : SegBody :=
  match home with
  | some v => .home dir interval maxSteps v
  | none => .probe dir interval maxSteps

/-- A HOME or PROBE starts PENDING. -/
theorem startSegment_untimed {s : State} {seg : Segment} {home : Option Position} {dir : Direction} {interval maxSteps : Nat}
    (h : seg.body = untimedBody home dir interval maxSteps) (rest : List Segment) : startSegment seg rest s =
      startWith seg .running (.untimed (untimedSourceOf home dir interval maxSteps)) rest s := by
  unfold startSegment
  rw [h]
  cases home <;> rfl

theorem moveAbsFailure_none {s : State} {target : Position} {d : Nat} (hknown : s.gen.known = true)
    (hcount : (target.toInt - s.startPosition).natAbs ≤ 65535)
    (hrate : (target.toInt - s.startPosition).natAbs * s.cfg.minStepUs ≤ d * s.cycleUs) : moveAbsFailure s target d = none := by
  unfold moveAbsFailure
  dsimp only
  rw [hknown, Bool.not_true, if_neg Bool.false_ne_true, if_neg (Nat.not_lt.mpr hcount),
    if_neg fun h => Nat.not_lt.mpr hrate ((rateTooHigh_iff s _ d).mp h)]

/-- The start checks of a MOVE_ABS that fail, in the order in which they are made (R29). -/
theorem moveAbsFailure_some {s : State} {target : Position} {d : Nat} {code : Code}
    (h : (s.gen.known = false ∧ code = .positionUnknown) ∨
      (s.gen.known = true ∧ 65535 < (target.toInt - s.startPosition).natAbs ∧ code = .range) ∨
      (s.gen.known = true ∧ (target.toInt - s.startPosition).natAbs ≤ 65535 ∧
        d * s.cycleUs < (target.toInt - s.startPosition).natAbs * s.cfg.minStepUs ∧ code = .rateLimit)) :
    moveAbsFailure s target d = some code := by
  unfold moveAbsFailure
  dsimp only
  obtain ⟨hknown, rfl⟩ | ⟨hknown, hcount, rfl⟩ | ⟨hknown, hcount, hrate, rfl⟩ := h
  · rw [hknown]
    exact if_pos rfl
  · rw [hknown, Bool.not_true, if_neg Bool.false_ne_true, if_pos hcount]
  · rw [hknown, Bool.not_true, if_neg Bool.false_ne_true, if_neg (Nat.not_lt.mpr hcount), if_pos ((rateTooHigh_iff s _ d).mpr hrate)]

/-- The segment that fails its start check halts the axis as the executing one. -/
theorem failStart_eq (seg : Segment) (code : Code) (rest : List Segment) (s : State) : failStart seg code rest s =
    haltTaken (.segmentFault seg.seq code .executing) (startWith seg .running .none rest s) :=
  takeCause_of_live rfl _

/-! ## The turns that find nothing to do -/

theorem barrierDeadline_no_context {s : State} (h : s.barrier.ctx = none) : barrierDeadline s = s := by
  rw [barrierDeadline, h]

theorem stepEventsTurn_no_events {o : EventOrder} (h : o.steps = []) (before : Option Segment) (s : State) :
    stepEventsTurn o before s = s := by
  unfold stepEventsTurn
  rw [h]
  rfl

theorem stepEventsTurn_idle {before : Option Segment} {s : State}
    (h : ∀ e, stepTurnOpen before s e = true → stepTurn s e = s) (o : EventOrder) : stepEventsTurn o before s = s := by
  unfold stepEventsTurn
  generalize firsts o.steps = l
  induction l with
  | nil => rfl
  | cons e l ih =>
    rw [List.foldl_cons]
    split
    · rename_i hopen
      rw [h e hopen]
      exact ih
    · exact ih

/-- A timed segment that has just started, with no steps owed ahead of it, lets no event be taken. -/
theorem stepEventsTurn_of_timed_start {before : Option Segment} {s : State} {e : Executing} {src : TimedSource}
    (hfin : s.seq.finishing = []) (he : s.seq.exec = some e) (hsrc : e.source = .timed src) (hnew : some e.seg ≠ before)
    (o : EventOrder) : stepEventsTurn o before s = s := by
  refine stepEventsTurn_idle (fun ev hopen => ?_) o
  have hhead : ∀ u, s.seq.head ≠ .untimed u := fun u hu => by
    rw [head_exec hfin, he] at hu
    simp only [execHead, hsrc] at hu
    split at hu <;> cases hu
  unfold stepTurnOpen at hopen
  rw [hfin, he, decide_eq_false (show ¬ (some e).map Executing.seg = before from hnew)] at hopen
  simp only [List.isEmpty_nil, Bool.not_true, Bool.false_or, Bool.or_self] at hopen
  cases hs : s.seq.head with
  | untimed u => exact absurd hs (hhead u)
  | none => rw [hs] at hopen; cases hopen
  | finishing f => rw [hs] at hopen; cases hopen
  | timed src => rw [hs] at hopen; cases hopen

end Sys2Proof.Machine

namespace Sys2Proof.Claims

open Sys2Proof.Machine

/-- At a quiet boundary a free completion entry lets the head of an IDLE axis start. -/
theorem motionBoundary_idle_head {s x : State} {pulse : Option Nat} (hx : SameMotion (begun pulse s) x)
    (haxis : s.seq.axis = .idle) (hexec : s.seq.exec = none) {seg : Segment} {rest : List Segment}
    (hqueue : s.seq.queue = seg :: rest) (hfree : s.held.length + s.seq.outstanding.length < 16) (late : Bool) (skipped : Nat) :
    motionBoundary late skipped x = (startSegment seg rest x, none) := by
  have hseq : x.seq = s.seq := hx.seq
  have hheld : x.held = s.held := hx.held
  rw [motionBoundary_no_exec (by rw [hseq]; exact hexec),
    startAtBoundary_head (by rw [hseq, haxis]; rfl) (by rw [hseq]; exact hqueue)]
  rw [Ne, freeEntries_eq_zero_iff (by rw [hseq]; exact hexec), hseq, hheld]
  exact Nat.not_le.mpr hfree

/-- Settles O27: the motion turn starts the segment, or fails it, or halts for space, and no other turn of a quiet boundary
adds to that. -/
theorem timedSegmentStartsOrFails : Obligations.TimedSegmentStartsOrFails := by
  refine ⟨fun o s t seg rest count d hends hq hsteps haxis hexec hctx hqueue hfree hbody => ?_,
    fun o s t seg rest hends hq haxis hexec hctx hqueue => ⟨fun hfull => ?_, fun hfree code hcode => ?_⟩⟩
  · obtain ⟨skipped, pulse, rfl, _⟩ := (cycleEnded_of_endsCycle hends).turns
    have hu : SameMotion (startWith seg .running (.timed (timedSourceOf s.cfg count d)) rest (begun pulse s))
        (afterTurns o skipped pulse s) := by
      refine quiet_settles hq (fun x hx => barrierDeadline_no_context (by rw [hx.barrier]; exact hctx)) (fun x hx => ?_) rfl
        (fun x hx => firstExamination_of_not_untimed fun e u he hu => ?_) (fun x _ hx => ?_)
        (fun x hx => barrierDeadline_no_context (by rw [hx.barrier]; exact hctx))
      · rw [motionBoundary_idle_head hx haxis hexec hqueue hfree]
        have hstart : x.startPosition = s.startPosition := hx.startPosition
        have hcfg : x.cfg = s.cfg := hx.cfg
        have hcycle : x.cycleUs = s.cycleUs := hx.cycleUs
        have hgen : x.gen = s.gen := hx.gen
        refine ⟨?_, rfl⟩
        obtain ⟨hrel, hrange⟩ | ⟨target, habs, rfl, hknown, hcount, hrate⟩ := hbody
        · rw [startSegment_moveRel hrel (by rw [inPositionRange_iff, hstart]; exact hrange), hcfg]
          exact hx.startWith ..
        · rw [startSegment_moveAbs habs (moveAbsFailure_none (by rw [hgen]; exact hknown) (by rw [hstart]; exact hcount)
            (by rw [hstart, hcfg, hcycle]; exact hrate)), hcfg, hstart]
          exact hx.startWith ..
      · rw [hx.seq] at he
        cases he
        cases hu
      · obtain hsteps | hfin := hsteps
        · exact stepEventsTurn_no_events hsteps _ x
        · rw [hexec]
          exact stepEventsTurn_of_timed_start (by rw [hx.seq]; exact hfin) (by rw [hx.seq]; rfl) rfl (Option.some_ne_none _) o
    refine ⟨?_, hu.gen, hu.held, hu.barrier, hu.haltCtl⟩
    rw [hu.seq, ← begun_cycle pulse s]
    rfl
  · obtain ⟨skipped, pulse, rfl, _⟩ := (cycleEnded_of_endsCycle hends).turns
    obtain ⟨v, hv, ht⟩ := quiet_halts (skipped := skipped) (pulse := pulse) (u := haltTaken (.plain .resultSpace) (begun pulse s)) hq
      (fun x hx => barrierDeadline_no_context (by rw [hx.barrier]; exact hctx)) fun x hx => by
        have hseq : x.seq = s.seq := hx.seq
        have hheld : x.held = s.held := hx.held
        rw [motionBoundary_no_exec (by rw [hseq]; exact hexec), startAtBoundary_full (by rw [hseq, haxis]; rfl)
          (by rw [hseq]; exact hqueue) (by rw [freeEntries_eq_zero_iff (by rw [hseq]; exact hexec), hseq, hheld]; exact hfull),
          takeCause_of_live (by rw [hseq, haxis]; rfl)]
        exact ⟨haltTaken_rests _ x, hx.haltTaken _⟩
    refine ⟨by rw [ht.seq, hv.seq]; rfl, by rw [ht.seq, hv.seq]; rfl, haltReportOf (.plain .resultSpace) (begun pulse s),
      by rw [ht.report, hv.haltCtl, haltTaken_eq], rfl, ?_, ?_⟩
    · change s.seq.queue.length = _
      rw [hqueue, List.length_cons]
    · change queueRange s.seq.queue = _
      rw [queueRange, hqueue]
      cases hlast : (seg :: rest).getLast? with
      | none => exact absurd hlast (by simp)
      | some z => rfl
  · obtain ⟨skipped, pulse, rfl, _⟩ := (cycleEnded_of_endsCycle hends).turns
    obtain ⟨v, hv, ht⟩ := quiet_halts (skipped := skipped) (pulse := pulse)
      (u := haltTaken (.segmentFault seg.seq code .executing) (startWith seg .running .none rest (begun pulse s))) hq
      (fun x hx => barrierDeadline_no_context (by rw [hx.barrier]; exact hctx)) fun x hx => by
        have hstart : x.startPosition = s.startPosition := hx.startPosition
        have hcfg : x.cfg = s.cfg := hx.cfg
        have hcycle : x.cycleUs = s.cycleUs := hx.cycleUs
        have hgen : x.gen = s.gen := hx.gen
        have hfails : startSegment seg rest x = failStart seg code rest x := by
          obtain ⟨count, d, hrel, hrange, rfl⟩ | ⟨target, d, habs, hfails⟩ := hcode
          · refine startSegment_moveRel_fails hrel ?_ rest
            rw [Bool.eq_false_iff, Ne, inPositionRange_iff, hstart]
            omega
          · refine startSegment_moveAbs_fails habs (moveAbsFailure_some ?_) rest
            rw [hstart, hcfg, hcycle, hgen]
            exact hfails
        rw [motionBoundary_idle_head hx haxis hexec hqueue hfree, hfails, failStart_eq]
        exact ⟨haltTaken_rests _ _, (hx.startWith ..).haltTaken _⟩
    refine ⟨by rw [ht.seq, hv.seq]; rfl, by rw [ht.seq, hv.seq]; rfl, ht.latch ?_, ?_, _,
      by rw [ht.report, hv.haltCtl, haltTaken_eq], rfl, rfl, rfl⟩
    · rw [hv.haltCtl, haltTaken_eq]
      exact Bool.or_true _
    · rw [ht.held, hv.held, haltTaken_last (e := { seg := seg, startCycle := (begun pulse s).timer.cycle, source := .none }) rfl]
      rw [← begun_cycle pulse s]
      rfl

end Sys2Proof.Claims
end

