-- ==== Sys2Proof/Proofs/QuietEnds.lean ====
section
/-! PROOFS. A timed segment at a quiet boundary: its end and the start that follows (O29), and the due points of the skipped
positions (O30). -/

namespace Sys2Proof.Machine

open Sys2Proof.Claims

/-! ## The due points of skipped positions -/

/-- Due points join the backlog one after another, while they lie before x and the fuel lasts. -/
theorem joinDue_spec (x fuel : Nat) (src : TimedSource) : ∃ j, joinDue x fuel src = { src with fallen := j } ∧
    src.fallen ≤ j ∧ j ≤ src.fallen + fuel ∧ (src.fallen ≤ src.n → j ≤ src.n) ∧
    (∀ k, src.fallen < k → k ≤ j → src.duePoint k < x) ∧
    (j = src.fallen + fuel ∨ src.n ≤ j ∨ x ≤ src.duePoint (j + 1)) := by
  induction fuel generalizing src with
  | zero => exact ⟨src.fallen, rfl, le_rfl, le_rfl, id, fun k hk hk' => absurd hk' (Nat.not_le.mpr hk), .inl rfl⟩
  | succ fuel ih =>
    by_cases hdue : src.fallen < src.n ∧ src.duePoint (src.fallen + 1) < x
    · obtain ⟨j, hj, hlow, hhigh, hn, hbefore, hstop⟩ := ih { src with fallen := src.fallen + 1 }
      dsimp only at hj hlow hhigh hn hbefore hstop
      refine ⟨j, by rw [joinDue, if_pos hdue, hj], by omega, by omega, fun _ => hn hdue.1, fun k hk hk' => ?_, ?_⟩
      · obtain rfl | hk := Nat.eq_or_lt_of_le (Nat.succ_le_of_lt hk)
        · exact hdue.2
        · exact hbefore k hk hk'
      · exact hstop.imp_left fun h => by omega
    · refine ⟨src.fallen, by rw [joinDue, if_neg hdue], le_rfl, by omega, id,
        fun k hk hk' => absurd hk' (Nat.not_le.mpr hk), .inr ?_⟩
      by_cases hn : src.n ≤ src.fallen
      · exact .inl hn
      · exact .inr (Nat.not_lt.mp fun h => hdue ⟨Nat.not_le.mp hn, h⟩)

/-- Due points lie at least a tick apart when there are no more of them than ticks. -/
theorem duePoint_succ {src : TimedSource} (hn : 0 < src.n) (hlength : src.n ≤ src.length) {k : Nat} (hk : 1 ≤ k) :
    src.duePoint k + 1 ≤ src.duePoint (k + 1) := by
  unfold TimedSource.duePoint
  have hpos : 0 < 2 * src.n := by omega
  have hsplit : (2 * k - 1) * src.length + 2 * src.n ≤ (2 * (k + 1) - 1) * src.length := by
    calc (2 * k - 1) * src.length + 2 * src.n ≤ (2 * k - 1) * src.length + 2 * src.length := by omega
      _ = (2 * (k + 1) - 1) * src.length := by
        rw [← Nat.add_mul]
        congr 1
        omega
  calc (2 * k - 1) * src.length / (2 * src.n) + 1
      = ((2 * k - 1) * src.length + 2 * src.n) / (2 * src.n) := (Nat.add_div_right _ hpos).symm
    _ ≤ (2 * (k + 1) - 1) * src.length / (2 * src.n) := Nat.div_le_div_right hsplit

theorem duePoint_add {src : TimedSource} (hn : 0 < src.n) (hlength : src.n ≤ src.length) {k : Nat} (hk : 1 ≤ k) (i : Nat) :
    src.duePoint k + i ≤ src.duePoint (k + i) := by
  induction i with
  | zero => exact le_rfl
  | succ i ih =>
    have hsucc := duePoint_succ hn hlength (k := k + i) (by omega)
    have hassoc : k + (i + 1) = k + i + 1 := by omega
    rw [hassoc]
    omega

/-- Exactly the due points before x have fallen due, when the skipped positions reach back to the first that had not. -/
theorem joinDue_exact {x fuel : Nat} {src : TimedSource} (hn : 0 < src.n) (hlength : src.n ≤ src.length)
    (hfallen : src.fallen ≤ src.n) (hbefore : ∀ k, 1 ≤ k → k ≤ src.fallen → src.duePoint k < x)
    (hreach : src.fallen < src.n → x ≤ src.duePoint (src.fallen + 1) + fuel) : ∃ j,
    joinDue x fuel src = { src with fallen := j } ∧ src.fallen ≤ j ∧ j ≤ src.n ∧ j ≤ src.fallen + fuel ∧
      ∀ k, 1 ≤ k → k ≤ src.n → (k ≤ j ↔ src.duePoint k < x) := by
  obtain ⟨j, hj, hlow, hhigh, hle, hjoined, hstop⟩ := joinDue_spec x fuel src
  refine ⟨j, hj, hlow, hle hfallen, hhigh, fun k hk hkn => ⟨fun hkj => ?_, fun hdue => ?_⟩⟩
  · by_cases hkf : k ≤ src.fallen
    · exact hbefore k hk hkf
    · exact hjoined k (Nat.not_le.mp hkf) hkj
  · by_contra hkj
    have hlate : x ≤ src.duePoint k := by
      obtain hfuel | hall | hnext := hstop
      · calc x ≤ src.duePoint (src.fallen + 1) + fuel := hreach (by omega)
          _ ≤ src.duePoint (src.fallen + 1) + (k - (src.fallen + 1)) := by omega
          _ ≤ src.duePoint (src.fallen + 1 + (k - (src.fallen + 1))) := duePoint_add hn hlength (by omega) _
          _ = src.duePoint k := by rw [Nat.add_sub_cancel' (by omega)]
      · omega
      · calc x ≤ src.duePoint (j + 1) := hnext
          _ ≤ src.duePoint (j + 1) + (k - (j + 1)) := Nat.le_add_right _ _
          _ ≤ src.duePoint (j + 1 + (k - (j + 1))) := duePoint_add hn hlength (by omega) _
          _ = src.duePoint k := by rw [Nat.add_sub_cancel' (by omega)]
    exact absurd hdue (Nat.not_lt.mpr hlate)

/-! ## The motion's turn with a timed segment -/

/-- The executing timed segment, with the due points of the skipped positions in its backlog. -/
def skippedInto (skipped : Nat) (e : Executing) (src : TimedSource) (s : State) : TimedSource :=
  joinDue (s.motionStart e.startCycle) skipped src

section Timed

variable {s : State} {e : Executing} {src : TimedSource} (he : s.seq.exec = some e) (hsrc : e.source = .timed src)
include he hsrc

theorem joinSkipped_timed (skipped : Nat) :
    joinSkipped skipped s = setExecSource e (.timed (skippedInto skipped e src s)) s := by
  rw [joinSkipped, he]
  dsimp only
  rw [hsrc]
  rfl

/-- Before its end boundary a timed segment executes on. -/
theorem motionBoundary_timed_on (hend : endBoundary e.seg e.startCycle ≠ s.timer.cycle) (haxis : s.seq.axis = .running)
    (late : Bool) (skipped : Nat) :
    motionBoundary late skipped s = (setExecSource e (.timed (skippedInto skipped e src s)) s, none) := by
  rw [motionBoundary, joinSkipped_timed he hsrc, sequencerBoundary]
  refine (if_neg hend).trans (congrArg (·, none) ?_)
  exact if_neg (by rw [show (setExecSource e (.timed (skippedInto skipped e src s)) s).seq.axis = .running from haxis]; decide)

/-- At its end boundary it ends, and the head may start. -/
theorem motionBoundary_timed_end (hend : endBoundary e.seg e.startCycle = s.timer.cycle) (late : Bool) (skipped : Nat) :
    motionBoundary late skipped s = (startAtBoundary true (endTimed { e with source := .timed (skippedInto skipped e src s) }
      (skippedInto skipped e src s) (setExecSource e (.timed (skippedInto skipped e src s)) s)), none) := by
  rw [motionBoundary, joinSkipped_timed he hsrc, sequencerBoundary]
  exact if_pos hend

end Timed

/-- What a timed segment that has emitted every step leaves, and one that has not (R30, R41). -/
def timedEnded (e : Executing) (src : TimedSource) (s : State) : State :=
  if src.emitted = src.n then
    { s with
      seq := { s.seq with exec := none, outstanding := [] }
      held := s.held ++ [recordOf e .done s.timer.cycle src.n s.gen .none] }
  else
    { s with
      seq := { s.seq with
        exec := none
        outstanding :=
          [.finishing { seg := e.seg, startCycle := e.startCycle, source := { src with fallen := src.n } }] } }

/-- How many due points had fallen does not matter at the end boundary. -/
theorem endTimed_eq {s : State} {e : Executing} {src : TimedSource} (hout : s.seq.outstanding = []) (j : Nat) :
    endTimed { e with source := .timed { src with fallen := j } } { src with fallen := j }
      (setExecSource e (.timed { src with fallen := j }) s) = timedEnded e src s := by
  unfold endTimed timedEnded
  dsimp only
  by_cases hdone : src.emitted = src.n
  · rw [if_pos hdone, if_pos hdone, writeExecRecord_alone (by exact hout)]
    simp only [State.execRecord, recordOf, Source.emitted, setExecSource, State.setSeq, hdone]
  · rw [if_neg hdone, if_neg hdone]
    simp only [setExecSource, State.setSeq, hout, List.nil_append]

theorem SameMotion.timedEnded {s t : State} (h : SameMotion s t) (e : Executing) (src : TimedSource) :
    SameMotion (timedEnded e src s) (timedEnded e src t) := by
  unfold Machine.timedEnded
  split
  · exact ⟨h.id, h.config, h.cycle, by simp only [h.seq], h.gen, h.barrier, h.haltCtl,
      by simp only [h.held, h.cycle, h.gen]⟩
  · exact ⟨h.id, h.config, h.cycle, by simp only [h.seq], h.gen, h.barrier, h.haltCtl, h.held⟩

/-- What the end of a timed segment writes, and what it leaves. -/
theorem timedEnded_seq (e : Executing) (src : TimedSource) (s : State) : ∃ outstanding,
    (timedEnded e src s).seq = { s.seq with exec := none, outstanding := outstanding } ∧
      ((src.emitted = src.n ∧ outstanding = [] ∧
          (timedEnded e src s).held = s.held ++ [recordOf e .done s.timer.cycle src.n s.gen .none]) ∨
        (src.emitted ≠ src.n ∧ (timedEnded e src s).held = s.held ∧ outstanding =
          [.finishing { seg := e.seg, startCycle := e.startCycle, source := { src with fallen := src.n } }])) := by
  unfold timedEnded
  split
  · rename_i hdone
    exact ⟨_, rfl, .inl ⟨hdone, rfl, rfl⟩⟩
  · rename_i howes
    exact ⟨_, rfl, .inr ⟨howes, rfl, rfl⟩⟩

theorem timedEnded_rest (e : Executing) (src : TimedSource) (s : State) :
    (timedEnded e src s).id = s.id ∧ (timedEnded e src s).config = s.config ∧ (timedEnded e src s).timer = s.timer ∧
      (timedEnded e src s).gen = s.gen ∧ (timedEnded e src s).barrier = s.barrier ∧
      (timedEnded e src s).haltCtl = s.haltCtl := by
  unfold timedEnded
  split <;> exact ⟨rfl, rfl, rfl, rfl, rfl, rfl⟩

/-- The position a start reads counts the steps still owed (R28). -/
theorem timedEnded_startPosition (e : Executing) (src : TimedSource) (s : State) :
    (timedEnded e src s).startPosition = s.gen.position.toInt + src.owed := by
  unfold timedEnded
  split
  · rename_i hdone
    have howed : src.owed = 0 := by
      unfold TimedSource.owed
      rw [hdone, Nat.sub_self]
      cases src.dir <;> rfl
    simp [State.startPosition, Sequencer.finishing, howed]
  · simp [State.startPosition, Sequencer.finishing, TimedSource.owed]

/-- The motion's turn at the end boundary of a timed segment with no steps owed before it. -/
theorem motionBoundary_ends {s : State} {e : Executing} {src : TimedSource} (he : s.seq.exec = some e)
    (hsrc : e.source = .timed src) (hout : s.seq.outstanding = [])
    (hend : endBoundary e.seg e.startCycle = s.timer.cycle) (late : Bool) (skipped : Nat) :
    motionBoundary late skipped s = (startAtBoundary true (timedEnded e src s), none) := by
  obtain ⟨j, hj, _⟩ := joinDue_spec (s.motionStart e.startCycle) skipped src
  rw [motionBoundary_timed_end he hsrc hend, skippedInto, hj, endTimed_eq hout]

/-! ## Step events without a source -/

/-- With no source executing, an event of the Step Generator changes filters and DIR alone. -/
structure OnlyPins (s t : State) : Prop where
  same : t = s.setGen t.gen
  position : t.gen.position = s.gen.position
  known : t.gen.known = s.gen.known

theorem OnlyPins.refl (s : State) : OnlyPins s s := ⟨rfl, rfl, rfl⟩

theorem OnlyPins.trans {s t u : State} (h : OnlyPins s t) (k : OnlyPins t u) : OnlyPins s u :=
  ⟨by rw [k.same, h.same]; rfl, k.position.trans h.position, k.known.trans h.known⟩

/-- No segment with a source executes, and the axis is not RUNNING. -/
def Sourceless (s : State) : Prop := s.seq.axis ≠ .running ∧ ∀ e, s.seq.exec = some e → e.source = .none

theorem Sourceless.congr {s t : State} (h : Sourceless s) (hseq : t.seq = s.seq) : Sourceless t := by
  unfold Sourceless
  rw [hseq]
  exact h

theorem stepTurn_sourceless {s : State} (h : Sourceless s) (e : StepTurn) : OnlyPins s (stepTurn s e) := by
  obtain ⟨haxis, hexec⟩ := h
  cases e with
  | probeChange =>
    change OnlyPins s (if filteredLevelChangeDue .probe s then probeChanged (flipInput .probe s) else s)
    rw [probeChanged_of_none (s := flipInput .probe s) fun e u he hu _ => by cases (hexec e he).symm.trans hu]
    split
    · exact ⟨rfl, rfl, rfl⟩
    · exact .refl s
  | stepDue =>
    have hnone : stepDueDue s = false := by
      unfold stepDueDue stepDueNow
      cases he : s.seq.exec with
      | none => exact Bool.and_false _
      | some e =>
        simp only [hexec e he]
        exact Bool.and_false _
    change OnlyPins s (if stepDueDue s then fallDue s else s)
    rw [hnone]
    exact .refl s
  | untimedStepDue =>
    have hsame : fallDueUntimed s = s := by
      unfold fallDueUntimed
      cases he : s.seq.exec with
      | none => rfl
      | some e => simp only [hexec e he]
    change OnlyPins s (if untimedStepDueDue s then fallDueUntimed s else s)
    rw [hsame, ite_self]
    exact .refl s
  | closingTick =>
    have hsame : closeSegment s = s := by
      unfold closeSegment
      cases he : s.seq.exec with
      | none => rfl
      | some e => simp only [hexec e he]
    change OnlyPins s (if closingTickDue s then closeSegment s else s)
    rw [hsame, ite_self]
    exact .refl s
  | dirChange =>
    change OnlyPins s (if dirChangeDue s then changeDir s else s)
    split
    · exact ⟨rfl, rfl, rfl⟩
    · exact .refl s
  | stepPulseBegin =>
    change OnlyPins s (if stepPulseBeginDue s then takeStep s else s)
    rw [if_neg (by simp [stepPulseBeginDue, stepConditions, haxis])]
    exact .refl s

theorem stepEventsTurn_onlyPins {s : State} (h : Sourceless s) (o : EventOrder) (before : Option Segment) :
    OnlyPins s (stepEventsTurn o before s) := by
  unfold stepEventsTurn
  generalize firsts o.steps = l
  induction l generalizing s with
  | nil => exact .refl s
  | cons e l ih =>
    have hstep : OnlyPins s (if stepTurnOpen before s e then stepTurn s e else s) := by
      split
      · exact stepTurn_sourceless h e
      · exact .refl s
    exact hstep.trans (ih (h.congr (by rw [hstep.same]; rfl)))

/-- The states that differ in filters and DIR alone from this one, and not even there without step events. -/
structure IdleAs (o : EventOrder) (u x : State) : Prop where
  same : SameMotion u (x.setGen u.gen)
  position : x.gen.position = u.gen.position
  known : x.gen.known = u.gen.known
  gen : o.steps = [] → x.gen = u.gen

theorem IdleAs.of_same {o : EventOrder} {u x : State} (h : SameMotion u x) : IdleAs o u x :=
  ⟨⟨h.id, h.config, h.cycle, h.seq, rfl, h.barrier, h.haltCtl, h.held⟩, by rw [h.gen], by rw [h.gen], fun _ => h.gen⟩

theorem IdleAs.trans {o : EventOrder} {u x y : State} (h : IdleAs o u x) (k : SameMotion x y) : IdleAs o u y := by
  obtain ⟨hid, hconfig, hcycle, hseq, _, hbarrier, hhaltCtl, hheld⟩ := h.same
  exact ⟨⟨k.id.trans hid, k.config.trans hconfig, k.cycle.trans hcycle, k.seq.trans hseq, rfl, k.barrier.trans hbarrier,
    k.haltCtl.trans hhaltCtl, k.held.trans hheld⟩, by rw [k.gen]; exact h.position, by rw [k.gen]; exact h.known,
    fun hsteps => by rw [k.gen]; exact h.gen hsteps⟩

theorem IdleAs.stepEvents {o : EventOrder} {u x : State} (h : IdleAs o u x) (hu : Sourceless u) (before : Option Segment) :
    IdleAs o u (stepEventsTurn o before x) := by
  obtain ⟨hsame, hposition, hknown⟩ := stepEventsTurn_onlyPins (s := x) (hu.congr h.same.seq) o before
  refine ⟨?_, hposition.trans h.position, hknown.trans h.known, fun hsteps => ?_⟩
  · rw [hsame]
    exact h.same
  · rw [stepEventsTurn_no_events hsteps]
    exact h.gen hsteps

end Sys2Proof.Machine

namespace Sys2Proof.Claims

open Sys2Proof.Machine

/-- Settles O30: no other turn of a quiet boundary touches the source. -/
theorem skippedDuePointsJoinBacklog : Obligations.SkippedDuePointsJoinBacklog := by
  intro o s e src hq hsteps hdue haccepted haxis hctx hexec hsrc hend hn hlength hfallen hbefore hreach
  obtain ⟨j, hj, hlow, hle, hhigh, hexact⟩ := joinDue_exact (x := (nextCycle s - e.startCycle).toNat * s.cycleUs)
    (fuel := s.skippedCount) hn hlength hfallen hbefore hreach
  have hu : SameMotion (setExecSource e (.timed { src with fallen := j }) (begun s.timer.pulse s))
      (afterTurns o s.skippedCount s.timer.pulse s) := by
    refine quiet_settles hq (fun x hx => barrierDeadline_no_context (by rw [hx.barrier]; exact hctx)) (fun x hx => ?_) rfl
      (fun x hx => firstExamination_of_not_untimed fun e u he hu => ?_) (fun x _ _ => stepEventsTurn_no_events hsteps _ x)
      (fun x hx => barrierDeadline_no_context (by rw [hx.barrier]; exact hctx))
    · have hseq : x.seq = s.seq := hx.seq
      have hskipped : skippedInto s.skippedCount e src x = { src with fallen := j } := by
        rw [skippedInto, State.motionStart, hx.cycle, begun_cycle, show x.cycleUs = s.cycleUs from hx.cycleUs, hj]
      rw [motionBoundary_timed_on (by rw [hseq]; exact hexec) hsrc (by rw [hx.cycle, begun_cycle]; exact hend)
        (by rw [hseq]; exact haxis), hskipped]
      exact ⟨hx.setExecSource _ _, rfl⟩
    · rw [hx.seq] at he
      cases he
      cases hu
  exact ⟨_, j, exec_acceptedEdge hdue haccepted o, hu.seq, hlow, hle, hhigh, hexact⟩

/-- Settles O29: the motion turn ends the segment and starts the head; events of an IDLE axis change filters and DIR alone. -/
theorem timedSegmentEnds : Obligations.TimedSegmentEnds := by
  intro o s t e src hends hq haxis hexec hsrc hctx hout
  obtain ⟨skipped, pulse, rfl, _, _, hskipped⟩ := (cycleEnded_of_endsCycle hends).turns
  have hdeadline : ∀ x, SameMotion (begun pulse s) x → barrierDeadline x = x := fun x hx =>
    barrierDeadline_no_context (by rw [hx.barrier]; exact hctx)
  have hcycle := begun_cycle pulse s
  refine ⟨fun hend done left hdone hleft => ?_, fun hon hsteps => ?_⟩
  · have hmotion : ∀ x, SameMotion (begun pulse s) x →
        motionBoundary o.lateHaltFirst skipped x = (startAtBoundary true (timedEnded e src x), none) := fun x hx => by
      have hseq : x.seq = s.seq := hx.seq
      exact motionBoundary_ends (by rw [hseq]; exact hexec) hsrc (by rw [hseq]; exact hout)
        (by rw [hx.cycle, hcycle]; exact hend) _ _
    obtain ⟨hid, hconfig, htimer, hgen, hbarrier, hhaltCtl⟩ := timedEnded_rest e src (begun pulse s)
    obtain ⟨outstanding, hseq, hends⟩ := timedEnded_seq e src (begun pulse s)
    have hrecords : (src.emitted = src.n → (timedEnded e src (begun pulse s)).held = s.held ++ [done] ∧ outstanding = []) ∧
        (src.emitted ≠ src.n → (timedEnded e src (begun pulse s)).held = s.held ∧ outstanding = [left]) := by
      rw [hdone, hleft, ← hcycle]
      obtain ⟨hall, hnone, hheld⟩ | ⟨howes, hheld, hleft⟩ := hends
      · exact ⟨fun _ => ⟨hheld, hnone⟩, fun howes => absurd hall howes⟩
      · exact ⟨fun hall => absurd hall howes, fun _ => ⟨hheld, hleft⟩⟩
    refine ⟨fun hqueue => ?_, fun seg rest count d hqueue hsteps hfree hstart => ?_⟩
    · obtain h | ⟨_, _, h, _⟩ := quiet_examines (skipped := skipped) (pulse := pulse) hq
        (U := IdleAs o (setAxis .idle (timedEnded e src (begun pulse s))))
        (W := IdleAs o (setAxis .idle (timedEnded e src (begun pulse s)))) (P := fun _ => False) hdeadline
        (fun _ x _ hx => by
          have hended := hx.timedEnded e src
          rw [hmotion x hx, startAtBoundary_empty (by rw [hended.seq, hseq]; exact congrArg (mayStart true) haxis)
            (by rw [hended.seq, hseq]; exact hqueue)]
          exact ⟨.of_same (hended.setAxis .idle), rfl⟩)
        (fun _ _ hxy => ⟨(·.trans hxy), (·.trans hxy)⟩)
        (fun x h => by
          have hx := (h.elim id id).same.haltCtl
          exact (congrArg HaltCtl.stopn hx).trans (congrArg HaltCtl.stopn hhaltCtl))
        (fun x h => .inl (by
          have hnone : x.seq.exec = none := h.same.seq.symm ▸ congrArg Sequencer.exec hseq
          rw [firstExamination_of_no_exec hnone]
          exact h))
        (fun x _ => by
          have hkeeps (h : IdleAs o (setAxis .idle (timedEnded e src (begun pulse s))) x) :=
            h.stepEvents ⟨nofun, fun _ he => by cases (congrArg Sequencer.exec hseq).symm.trans he⟩ (s.seq.exec.map Executing.seg)
          exact ⟨hkeeps, hkeeps⟩)
        (fun x h => barrierDeadline_no_context (by
          have hx : x.barrier = _ := (h.elim id id).same.barrier
          rw [hx]
          exact (congrArg BarrierUnit.ctx hbarrier).trans hctx))
      · have htseq : (afterTurns o skipped pulse s).seq = { s.seq with axis := .idle, exec := none, outstanding := outstanding } :=
          h.same.seq.trans (by rw [setAxis, State.setSeq_seq, hseq]; rfl)
        have htheld : (afterTurns o skipped pulse s).held = (timedEnded e src (begun pulse s)).held := h.same.held
        rw [htseq, htheld]
        exact ⟨rfl, rfl, h.position.trans (congrArg StepGen.position hgen), h.known.trans (congrArg StepGen.known hgen),
          fun hsteps => (h.gen hsteps).trans hgen, hrecords.1, hrecords.2⟩
      · exact h.elim
    · obtain ⟨hbody, hrange⟩ := hstart
      have hu : SameMotion (startWith seg .running (.timed (timedSourceOf s.cfg count d)) rest (timedEnded e src (begun pulse s)))
          (afterTurns o skipped pulse s) := by
        refine quiet_settles hq hdeadline (fun x hx => ?_) (congrArg HaltCtl.stopn hhaltCtl)
          (fun x hx => firstExamination_of_not_untimed fun e' u he hu => ?_) (fun x _ _ => stepEventsTurn_no_events hsteps _ x)
          (fun x hx => barrierDeadline_no_context (by rw [hx.barrier]; exact (congrArg BarrierUnit.ctx hbarrier).trans hctx))
        · have hended := hx.timedEnded e src
          have hfree : (timedEnded e src x).freeEntries ≠ 0 := by
            rw [Ne, freeEntries_eq_zero_iff (by rw [hended.seq, hseq]), hended.seq, hended.held, hseq]
            obtain ⟨_, hnone, hheld⟩ | ⟨_, hheld, hleft⟩ := hends
            · rw [hheld, hnone, List.length_append]
              exact Nat.not_le.mpr hfree
            · rw [hheld, hleft]
              exact Nat.not_le.mpr hfree
          have hposition : (timedEnded e src x).startPosition = s.gen.position.toInt + src.owed := by
            rw [timedEnded_startPosition, hx.gen]
            rfl
          have hcfg : (timedEnded e src x).cfg = s.cfg := hended.cfg.trans (by rw [State.cfg, hconfig]; rfl)
          rw [hmotion x hx, startAtBoundary_head (by rw [hended.seq, hseq]; exact congrArg (mayStart true) haxis)
            (by rw [hended.seq, hseq]; exact hqueue) hfree,
            startSegment_moveRel hbody (by rw [hposition, inPositionRange_iff]; exact hrange), hcfg]
          exact ⟨hended.startWith .., rfl⟩
        · rw [hx.seq] at he
          cases he
          cases hu
      have htseq := hu.seq
      have htheld : (afterTurns o skipped pulse s).held = (timedEnded e src (begun pulse s)).held := hu.held
      rw [startWith, State.setSeq_seq, hseq, htimer, hcycle] at htseq
      rw [htseq, htheld]
      exact ⟨hu.gen.trans hgen, hu.haltCtl.trans hhaltCtl, rfl, rfl, rfl, hrecords.1, hrecords.2⟩
  · obtain ⟨j, hj, hlow, _⟩ := joinDue_spec ((nextCycle s - e.startCycle).toNat * s.cycleUs) skipped src
    have hu : SameMotion (setExecSource e (.timed { src with fallen := j }) (begun pulse s)) (afterTurns o skipped pulse s) := by
      refine quiet_settles hq hdeadline (fun x hx => ?_) rfl
        (fun x hx => firstExamination_of_not_untimed fun e u he hu => ?_) (fun x _ _ => stepEventsTurn_no_events hsteps _ x)
        (fun x hx => barrierDeadline_no_context (by rw [hx.barrier]; exact hctx))
      · have hseq : x.seq = s.seq := hx.seq
        have hinto : skippedInto skipped e src x = { src with fallen := j } := by
          rw [skippedInto, State.motionStart, hx.cycle, hcycle, show x.cycleUs = s.cycleUs from hx.cycleUs, hj]
        rw [motionBoundary_timed_on (by rw [hseq]; exact hexec) hsrc (by rw [hx.cycle, hcycle]; exact hon)
          (by rw [hseq]; exact haxis), hinto]
        exact ⟨hx.setExecSource _ _, rfl⟩
      · rw [hx.seq] at he
        cases he
        cases hu
    refine ⟨by rw [hu.seq]; exact haxis, hu.held, hu.gen, j, hlow, by rw [hu.seq]; rfl, fun ⟨_, hedge⟩ => ?_⟩
    obtain hzero | ⟨hraised, _⟩ := hskipped
    · rw [hzero] at hj
      exact (congrArg TimedSource.fallen hj).symm
    · exact absurd (hraised.symm.trans hedge) (by decide)

end Sys2Proof.Claims
end

