-- ==== Sys2Proof/Proofs/UntimedStarts.lean ====
section
/-! PROOFS. The start of a HOME or PROBE at a boundary, and its first examination (O28). -/

namespace Sys2Proof.Machine

open Sys2Proof.Claims

/-! ## A PENDING source -/

/-- The context of a HOME or PROBE that starts in cycle c. -/
def untimedStart (seg : Segment) (home : Option Position) (dir : Direction) (interval maxSteps : Nat) (c : Cycle) : Executing where
  seg := seg
  startCycle := c
  source := .untimed (untimedSourceOf home dir interval maxSteps)

theorem firstExamination_of_finishing {s : State} (h : s.seq.finishing ≠ []) : firstExamination s = s := by
  unfold firstExamination
  split
  · rfl
  · split
    · exact if_neg fun hopen => h hopen.2
    · rfl

theorem head_pending {q : Sequencer} {e : Executing} {u : UntimedSource} (hfin : q.finishing = []) (he : q.exec = some e)
    (hu : e.source = .untimed u) (hphase : u.phase = .pending) : q.head = .none := by
  rw [head_exec hfin, he]
  simp only [execHead, hu, hphase, if_pos]

/-- Nor does a segment that has just started PENDING let an event be taken. -/
theorem stepEventsTurn_of_pending {before : Option Segment} {s : State} {e : Executing} {u : UntimedSource}
    (hfin : s.seq.finishing = []) (he : s.seq.exec = some e) (hu : e.source = .untimed u) (hphase : u.phase = .pending)
    (hnew : some e.seg ≠ before) (o : EventOrder) : stepEventsTurn o before s = s := by
  refine stepEventsTurn_idle (fun ev hopen => ?_) o
  unfold stepTurnOpen at hopen
  rw [hfin, he, decide_eq_false (show ¬ (some e).map Executing.seg = before from hnew), head_pending hfin he hu hphase] at hopen
  cases hopen

/-- With no source and the level of PROBE settled, no event of an axis that is not RUNNING is due. -/
theorem stepEventsTurn_settled {s : State} (haxis : s.seq.axis ≠ .running)
    (hexec : ∀ e, s.seq.exec = some e → e.source = .none) (hout : s.seq.outstanding = [])
    (hprobe : levelChangeDue s.gen.probe = false) (o : EventOrder) (before : Option Segment) :
    stepEventsTurn o before s = s := by
  have hhead : s.seq.head = .none := by
    rw [head_exec (finishing_nil hout)]
    cases he : s.seq.exec with
    | none => rfl
    | some e => simp only [execHead, hexec e he]
  have hdue : stepDueNow s = false := by
    unfold stepDueNow
    cases he : s.seq.exec with
    | none => rfl
    | some e => simp only [hexec e he]
  refine stepEventsTurn_idle (fun e _ => ?_) o
  cases e with
  | probeChange => exact if_neg (by simp [filteredLevelChangeDue, StepGen.filter, hprobe])
  | stepDue => exact if_neg (by simp [stepDueDue, hdue])
  | untimedStepDue => exact if_neg (by simp [untimedStepDueDue, untimedStepDueNow, hhead])
  | closingTick => exact if_neg (by simp [closingTickDue, closingTickNow, hhead])
  | dirChange => exact if_neg (by simp [dirChangeDue, dirChangeNow, hhead, Head.direction])
  | stepPulseBegin => exact if_neg (by simp [stepPulseBeginDue, stepConditions, haxis])

theorem SameMotion.endedWith {s t : State} (h : SameMotion s t) (r : Record) : SameMotion (endedWith r s) (endedWith r t) :=
  ⟨h.id, h.config, h.cycle, by simp only [Machine.endedWith, h.seq], h.gen, h.barrier, h.haltCtl, by
    simp only [Machine.endedWith, h.held]⟩

/-- At a boundary of ACTIVE with no HOME or PROBE executing, no change of PROBE is due. -/
theorem probe_settled {s : State} (hexec : ∀ e, s.seq.exec = some e → e.source = .none)
    (h : examinationLevelsSettled s = true) : levelChangeDue s.gen.probe = false := by
  have hwatching : probeWatching s = false := by
    rw [probeWatching_of_none fun e u he hu => by cases (hexec e he).symm.trans hu]
  unfold examinationLevelsSettled at h
  rw [hwatching, Bool.false_or, Bool.and_eq_true] at h
  exact Bool.not_eq_true' _ |>.mp h.2

theorem SameMotion.setGen {s t : State} (h : SameMotion s t) (g : StepGen) : SameMotion (s.setGen g) (t.setGen g) :=
  ⟨h.id, h.config, h.cycle, h.seq, rfl, h.barrier, h.haltCtl, h.held⟩

/-- The HOME that is found active at its first examination has ended. -/
def homedAtStart (seg : Segment) (v : Position) (dir : Direction) (interval maxSteps : Nat) (s : State) : State :=
  endedWith (recordOf (untimedStart seg (some v) dir interval maxSteps s.timer.cycle) .homed s.timer.cycle 0
    { s.gen with position := v, known := true } .none) (s.setGen { s.gen with position := v, known := true })

/-- The PROBE that is found active at its first examination has ended, and is about to halt the axis. -/
def probedAtStart (seg : Segment) (dir : Direction) (interval maxSteps : Nat) (s : State) : State :=
  endedWith (recordOf (untimedStart seg none dir interval maxSteps s.timer.cycle) .probeActiveAtStart s.timer.cycle 0
    s.gen .none) s

section Examined

variable {u x : State} {seg : Segment} {rest : List Segment} {home : Option Position} {dir : Direction}
  {interval maxSteps : Nat} {b : State}

/-- The state in which a HOME or PROBE has started, and has not been examined. -/
def startedPending (seg : Segment) (home : Option Position) (dir : Direction) (interval maxSteps : Nat) (rest : List Segment)
    (s : State) : State :=
  startWith seg .running (.untimed (untimedSourceOf home dir interval maxSteps)) rest s

variable (hx : SameMotion (startedPending seg home dir interval maxSteps rest b) x) (hout : b.seq.outstanding = [])
include hx hout

theorem firstExamination_started : firstExamination x =
    examineFirst (untimedStart seg home dir interval maxSteps b.timer.cycle) (untimedSourceOf home dir interval maxSteps) x :=
  firstExamination_pending (by rw [hx.seq]; rfl) rfl rfl (finishing_nil (by rw [hx.seq]; exact hout))

/-- An inactive input enters STEPPING with step 1 due. -/
theorem firstExamination_steps (hinactive : b.inputActive (if home.isSome then .home else .probe) = false) :
    SameMotion (setExecSource (untimedStart seg home dir interval maxSteps b.timer.cycle)
      (.untimed (enterStepping (untimedSourceOf home dir interval maxSteps)))
      (startedPending seg home dir interval maxSteps rest b)) (firstExamination x) := by
  rw [firstExamination_started hx hout, examineFirst_inactive (by rw [hx.inputActive]; exact hinactive)]
  exact hx.setExecSource _ _

/-- An active HOME ends HOMED with the home value. -/
theorem firstExamination_homes {v : Position} (hhome : home = some v) (hactive : b.inputActive .home = true) :
    SameMotion (homedAtStart seg v dir interval maxSteps (startedPending seg home dir interval maxSteps rest b))
      (firstExamination x) := by
  subst hhome
  rw [firstExamination_started hx hout, examineFirst_homed rfl (by rw [hx.inputActive]; exact hactive),
    endHomed_alone (by rw [hx.seq]; exact hout), hx.cycle, hx.gen]
  exact (hx.setGen _).endedWith _

/-- An active PROBE ends PROBE_ACTIVE_AT_START, which halts the axis. -/
theorem firstExamination_probes (hhome : home = none) (hactive : b.inputActive .probe = true) :
    Rests (firstExamination x) ∧ SameMotion (haltTaken (.segmentFault seg.seq .probeActiveAtStart .ended)
      (probedAtStart seg dir interval maxSteps (startedPending seg home dir interval maxSteps rest b)))
      (firstExamination x) := by
  subst hhome
  rw [firstExamination_started hx hout, examineFirst_probe rfl (by rw [hx.inputActive]; exact hactive),
    endUntimed_halting (by rw [hx.seq]; exact hout) rfl, hx.execRecord]
  exact ⟨haltTaken_rests _ _, (hx.endedWith _).haltTaken _⟩

end Examined

end Sys2Proof.Machine

namespace Sys2Proof.Claims

open Sys2Proof.Machine

/-- The start of a HOME or PROBE at a quiet boundary with an IDLE axis and a free completion entry. -/
theorem motionBoundary_untimed {s x : State} {pulse : Option Nat} (hx : SameMotion (begun pulse s) x)
    (haxis : s.seq.axis = .idle) (hexec : s.seq.exec = none) {seg : Segment} {rest : List Segment}
    (hqueue : s.seq.queue = seg :: rest) (hfree : s.held.length + s.seq.outstanding.length < 16) {home : Option Position}
    {dir : Direction} {interval maxSteps : Nat} (hbody : seg.body = untimedBody home dir interval maxSteps) (late : Bool)
    (skipped : Nat) : motionBoundary late skipped x = (startedPending seg home dir interval maxSteps rest x, none) := by
  rw [motionBoundary_idle_head hx haxis hexec hqueue hfree, startSegment_untimed hbody]
  rfl

/-- The first part of O28: the outcome of the examination at a quiet boundary. -/
theorem untimedSegmentStarts_quiet {o : EventOrder} {s t : State} {seg : Segment} {rest : List Segment}
    {home : Option Position} {dir : Direction} {interval maxSteps : Nat} (hends : EndsCycle o s t) (hq : Quiet o s)
    (haxis : s.seq.axis = .idle) (hexec : s.seq.exec = none) (hctx : s.barrier.ctx = none) (hqueue : s.seq.queue = seg :: rest)
    (hfree : s.held.length + s.seq.outstanding.length < 16) (hbody : seg.body = untimedBody home dir interval maxSteps) :
    (s.seq.finishing ≠ [] → o.steps = [] →
      t.seq = { s.seq with
        axis := .running
        queue := rest
        exec := some (untimedStart seg home dir interval maxSteps (nextCycle s)) } ∧ t.gen = s.gen ∧ t.held = s.held) ∧
    (s.seq.outstanding = [] → o.steps = [] → s.inputActive (if home.isSome then .home else .probe) = false →
      t.seq = { s.seq with
        axis := .running
        queue := rest
        exec := some { untimedStart seg home dir interval maxSteps (nextCycle s) with
          source := .untimed (enterStepping (untimedSourceOf home dir interval maxSteps)) } } ∧
        t.gen = s.gen ∧ t.held = s.held) ∧
    (∀ v, s.seq.outstanding = [] → home = some v → s.inputActive .home = true →
      t.seq = { s.seq with queue := rest } ∧ t.gen = { s.gen with position := v, known := true } ∧
        t.held = s.held ++ [recordOf (untimedStart seg home dir interval maxSteps (nextCycle s)) .homed (nextCycle s) 0
          { s.gen with position := v, known := true } .none]) ∧
    (s.seq.outstanding = [] → home = none → s.inputActive .probe = true →
      t.seq.axis = .halted ∧ t.gen.position = s.gen.position ∧
        t.held = s.held ++ [recordOf (untimedStart seg home dir interval maxSteps (nextCycle s)) .probeActiveAtStart
          (nextCycle s) 0 s.gen .none]) := by
  obtain ⟨skipped, pulse, rfl, _, hsettled, _⟩ := (cycleEnded_of_endsCycle hends).turns
  have hprobe := probe_settled (fun e he => by cases hexec.symm.trans he) (hsettled hq.active)
  have hdeadline : ∀ x, SameMotion (begun pulse s) x → barrierDeadline x = x := fun x hx =>
    barrierDeadline_no_context (by rw [hx.barrier]; exact hctx)
  have hcycle := begun_cycle pulse s
  have hmotion (x : State) (hx : SameMotion (begun pulse s) x) :
      SameMotion (startedPending seg home dir interval maxSteps rest (begun pulse s))
        (motionBoundary o.lateHaltFirst skipped x).1 ∧ (motionBoundary o.lateHaltFirst skipped x).2 = none := by
    rw [motionBoundary_untimed hx haxis hexec hqueue hfree hbody]
    exact ⟨hx.startWith .., rfl⟩
  have hpending (hout : s.seq.outstanding = []) (x : State)
      (hx : SameMotion (startedPending seg home dir interval maxSteps rest (begun pulse s)) x) :
      SameMotion (startedPending seg home dir interval maxSteps rest (begun pulse s))
        (stepEventsTurn o (s.seq.exec.map Executing.seg) x) := by
    rw [hexec, Option.map_none, stepEventsTurn_of_pending (finishing_nil (by rw [hx.seq]; exact hout)) (by rw [hx.seq]; rfl) rfl rfl
      (Option.some_ne_none _)]
    exact hx
  refine ⟨fun hfin hsteps => ?_, fun hout hsteps hinactive => ?_, fun v hout hhome hactive => ?_, fun hout hhome hactive => ?_⟩
  · have hu := quiet_settles (skipped := skipped) hq hdeadline hmotion rfl
      (fun x hx => firstExamination_of_finishing (by rw [hx.seq]; exact hfin))
      (fun x _ _ => stepEventsTurn_no_events hsteps _ x)
      (fun x hx => barrierDeadline_no_context (by rw [hx.barrier]; exact hctx))
    rw [hu.seq, ← hcycle]
    exact ⟨rfl, hu.gen, hu.held⟩
  · obtain hw | ⟨_, _, h, _⟩ := quiet_examines (skipped := skipped) hq (P := fun _ => False)
      (W := SameMotion (setExecSource (untimedStart seg home dir interval maxSteps (begun pulse s).timer.cycle)
        (.untimed (enterStepping (untimedSourceOf home dir interval maxSteps)))
        (startedPending seg home dir interval maxSteps rest (begun pulse s)))) hdeadline (fun _ x _ => hmotion x)
      (fun _ _ hxy => ⟨(·.trans hxy), (·.trans hxy)⟩)
      (fun x h => h.elim (fun h => congrArg HaltCtl.stopn h.haltCtl) fun h => congrArg HaltCtl.stopn h.haltCtl)
      (fun x hx => .inl (firstExamination_steps hx hout hinactive))
      (fun x _ => by
        rw [stepEventsTurn_no_events hsteps]
        exact ⟨id, id⟩)
      (fun x h => barrierDeadline_no_context (h.elim (fun h => by rw [h.barrier]; exact hctx) fun h => by rw [h.barrier]; exact hctx))
    · rw [hw.seq, ← hcycle]
      exact ⟨rfl, hw.gen, hw.held⟩
    · exact h.elim
  · obtain hw | ⟨_, _, h, _⟩ := quiet_examines (skipped := skipped) hq (P := fun _ => False)
      (W := SameMotion (homedAtStart seg v dir interval maxSteps
        (startedPending seg home dir interval maxSteps rest (begun pulse s)))) hdeadline (fun _ x _ => hmotion x)
      (fun _ _ hxy => ⟨(·.trans hxy), (·.trans hxy)⟩)
      (fun x h => h.elim (fun h => congrArg HaltCtl.stopn h.haltCtl) fun h => congrArg HaltCtl.stopn h.haltCtl)
      (fun x hx => .inl (firstExamination_homes hx hout hhome hactive))
      (fun x _ => ⟨hpending hout x, fun hx => by
        rw [stepEventsTurn_settled (by rw [hx.seq]; exact nofun) (by rw [hx.seq]; exact fun _ he => by cases he) (by rw [hx.seq]; rfl)
          (by rw [hx.gen]; exact hprobe)]
        exact hx⟩)
      (fun x h => barrierDeadline_no_context (h.elim (fun h => by rw [h.barrier]; exact hctx) fun h => by rw [h.barrier]; exact hctx))
    · rw [hw.seq, hw.held, ← hcycle, hhome]
      refine ⟨?_, hw.gen, rfl⟩
      change { s.seq with axis := AxisState.idle, queue := rest, exec := none, outstanding := [] } = _
      rw [← haxis, ← hexec, ← hout]
    · exact h.elim
  · obtain h | ⟨w, _, hw, ht⟩ := quiet_examines (skipped := skipped) hq (W := fun _ => False)
      (P := SameMotion (haltTaken (.segmentFault seg.seq .probeActiveAtStart .ended) (probedAtStart seg dir interval maxSteps
        (startedPending seg home dir interval maxSteps rest (begun pulse s))))) hdeadline (fun _ x _ => hmotion x)
      (fun _ _ hxy => ⟨(·.trans hxy), id⟩)
      (fun x h => h.elim (fun h => congrArg HaltCtl.stopn h.haltCtl) fun h => h.elim)
      (fun x hx => .inr (firstExamination_probes hx hout hhome hactive))
      (fun x _ => ⟨hpending hout x, fun h => h.elim⟩)
      (fun x h => barrierDeadline_no_context (h.elim (fun h => by rw [h.barrier]; exact hctx) fun h => h.elim))
    · exact h.elim
    · refine ⟨by rw [ht.seq, hw.seq]; rfl, by rw [ht.position, hw.gen, haltTaken_eq]; rfl, ?_⟩
      rw [ht.held, hw.held, haltTaken_held_none (s := probedAtStart seg dir interval maxSteps _) rfl rfl, ← hcycle, hhome]
      rfl

/-- STOP_INPUT halts an axis that is IDLE, RUNNING or WAITING; the halt reads nothing of STOPN. -/
theorem stopTurn_halts {s : State} (hdue : stopInputDue s = true) (hlive : s.seq.axis.live = true) :
    stopTurn s = haltTaken (.plain .stopInput) (flipStop s) := by
  rw [stopTurn, if_pos hdue]
  exact takeCause_of_live (s := flipStop s) (by exact hlive) _

/-- The halt of a STOP_INPUT leaves the report, the records and the counter as one without its change of STOPN would. -/
theorem stopHalt_fields (s : State) : (haltTaken (.plain .stopInput) (flipStop s)).held = s.held ++ haltRecords (.plain .stopInput) s ∧
    (haltTaken (.plain .stopInput) (flipStop s)).haltCtl.report = some (haltReportOf (.plain .stopInput) s) ∧
    (haltTaken (.plain .stopInput) (flipStop s)).gen.position = s.gen.position ∧
    (haltTaken (.plain .stopInput) (flipStop s)).gen.known = s.gen.known := by
  rw [haltTaken_eq]
  exact ⟨congrArg (s.held ++ ·) (haltRecords_congr (s := s) (t := flipStop s) rfl rfl rfl _), rfl, rfl, rfl⟩

/-- The order's turns at the head of the row, one after another. -/
theorem turnsOf_heads {o : EventOrder} {b c : BoundaryTurn} {l : List BoundaryTurn} (h : o.turns = .motion :: b :: c :: l)
    (hb : b ≠ .motion) (hc : c ≠ .motion) (hbc : c ≠ b) : ∃ rest, turnsOf o = .motion :: b :: c :: rest := by
  rw [turnsOf_of_head h]
  exact firsts_head_three hb hc hbc _

theorem afterTurns_heads {o : EventOrder} {b c : BoundaryTurn} {rest : List BoundaryTurn}
    (h : turnsOf o = .motion :: b :: c :: rest) (skipped : Nat) (pulse : Option Nat) (s : State) :
    afterTurns o skipped pulse s = (rest.foldl (takeTurn o (cycleEnd skipped s))
      (takeTurn o (cycleEnd skipped s) (takeTurn o (cycleEnd skipped s)
        (motionBoundary o.lateHaltFirst skipped (begun pulse s)) b) c)).1 := by
  unfold afterTurns
  rw [h]
  rfl

/-- Settles O28: the examination at a quiet boundary, and STOP_INPUT taken before it or after it. -/
theorem untimedSegmentStarts : Obligations.UntimedSegmentStarts := by
  refine ⟨fun o s t seg rest home dir interval maxSteps hends hq haxis hexec hctx hqueue hfree hbody => ?_,
    fun o s t seg rest home dir interval maxSteps turns hends hdue haxis hexec hctx hout hqueue hfree hbody =>
      ⟨fun hturns => ?_, fun hturns => ⟨fun v hhome hactive => ?_, fun hhome hactive => ?_⟩⟩⟩
  · obtain ⟨howes, hsteps, hhomes, hprobes⟩ :=
      untimedSegmentStarts_quiet hends hq haxis hexec hctx hqueue hfree (show seg.body = untimedBody home dir interval maxSteps from hbody)
    refine ⟨howes, hsteps, fun v hout hhome hactive => ?_, fun hout hhome hactive => ?_⟩
    · have hkind : seg.body.kind = .home := by
        rw [hbody, hhome]
        rfl
      rw [← hkind]
      exact hhomes v hout hhome hactive
    · have hkind : seg.body.kind = .probe := by
        rw [hbody, hhome]
        rfl
      rw [← hkind]
      exact hprobes hout hhome hactive
  all_goals
    obtain ⟨skipped, pulse, rfl, _⟩ := (cycleEnded_of_endsCycle hends).turns
    have hrow := turnsOf_of_head hturns
    have hcycle := begun_cycle pulse s
    have hstart : motionBoundary o.lateHaltFirst skipped (begun pulse s) =
        (startedPending seg home dir interval maxSteps rest (begun pulse s), none) :=
      motionBoundary_untimed (.refl _) haxis hexec hqueue (by rw [hout]; exact hfree) hbody _ _
  · obtain ⟨l, hl⟩ := turnsOf_heads hturns (by decide) (by decide) (by decide)
    set u := startedPending seg home dir interval maxSteps rest (begun pulse s) with hu
    have ht : StandsAs (haltTaken (.plain .stopInput) (flipStop u)) (afterTurns o skipped pulse s) := by
      rw [afterTurns_heads hl, hstart, ← stopTurn_halts (s := u) hdue rfl]
      exact turns_stand (l := .examination :: l) (x := (stopTurn u, none)) (by
        rw [stopTurn_halts (s := u) hdue rfl]
        exact haltTaken_rests _ _)
    obtain ⟨hheld, hreport, hposition, hknown⟩ := stopHalt_fields u
    refine ⟨by rw [ht.seq]; rfl, ⟨_, by rw [ht.report, hreport], rfl, rfl, rfl⟩, by rw [ht.report, hreport]; rfl,
      ht.position.trans hposition, ht.known.trans hknown, ?_⟩
    rw [ht.held, hheld, ← hcycle, haltRecords, executingRecords, show u.seq.outstanding = [] from hout]
    rfl
  · obtain ⟨l, hl⟩ := turnsOf_heads hturns (by decide) (by decide) (by decide)
    set u := firstExamination (startedPending seg home dir interval maxSteps rest (begun pulse s)) with hu
    have hhomed := firstExamination_homes (seg := seg) (home := home) (dir := dir) (interval := interval)
      (maxSteps := maxSteps) (rest := rest) (.refl _) (b := begun pulse s) hout hhome hactive
    rw [← hu] at hhomed
    have hlive : u.seq.axis.live = true := by
      rw [hhomed.seq]
      rfl
    have hdue' : stopInputDue u = true := by
      rw [stopInputDue, stopChangeDue, hhomed.haltCtl]
      exact hdue
    have ht : StandsAs (haltTaken (.plain .stopInput) (flipStop u)) (afterTurns o skipped pulse s) := by
      rw [afterTurns_heads hl, hstart, ← stopTurn_halts hdue' hlive]
      refine turns_stand (x := (stopTurn u, none)) ?_
      rw [stopTurn_halts hdue' hlive]
      exact haltTaken_rests _ _
    obtain ⟨hheld, hreport, hposition, hknown⟩ := stopHalt_fields u
    refine ⟨by rw [ht.seq]; rfl, ⟨_, by rw [ht.report, hreport], rfl, rfl, rfl⟩, ?_,
      (ht.position.trans hposition).trans (by rw [hhomed.gen]; rfl), (ht.known.trans hknown).trans (by rw [hhomed.gen]; rfl), ?_⟩
    · rw [ht.report, hreport]
      change some u.seq.queue.length = _
      rw [hhomed.seq]
      rfl
    · rw [ht.held, hheld, haltRecords_none (by rw [hhomed.seq]; rfl) (by rw [hhomed.seq]; rfl), List.append_nil, hhomed.held,
        ← hcycle]
      rfl
  · obtain ⟨l, hl⟩ := turnsOf_heads hturns (by decide) (by decide) (by decide)
    set u := firstExamination (startedPending seg home dir interval maxSteps rest (begun pulse s)) with hu
    obtain ⟨hrests, hprobed⟩ := firstExamination_probes (seg := seg) (home := home) (dir := dir) (interval := interval)
      (maxSteps := maxSteps) (rest := rest) (.refl _) (b := begun pulse s) hout hhome hactive
    rw [← hu] at hrests hprobed
    have ht : StandsAs u (afterTurns o skipped pulse s) := by
      rw [afterTurns_heads hl, hstart]
      exact turns_stand (l := .stopInput :: l) (x := (u, none)) hrests
    refine ⟨by rw [ht.seq]; exact hrests.axis, ht.latch (by rw [hprobed.haltCtl, haltTaken_eq]; exact Bool.or_true _),
      ⟨_, by rw [ht.report, hprobed.haltCtl, haltTaken_eq], rfl, rfl, rfl⟩, ?_⟩
    rw [ht.held, hprobed.held, haltTaken_held_none (s := probedAtStart seg dir interval maxSteps _) rfl rfl, ← hcycle]
    rfl

end Sys2Proof.Claims
end

