-- ==== Sys2Proof/Proofs/BarrierReleases.lean ====
section
/-! PROOFS. A BARRIER at a quiet boundary: its release, the start that follows, its deadline, and a late release (O26). -/

namespace Sys2Proof.Machine

open Sys2Proof.Claims

/-! ## The motion's turn at a barrier -/

/-- The state in which the context has released, and the axis has not yet looked for a start (R79). -/
def released (e : Executing) (y : BarrierCtx) (r : Release) (s : State) : State :=
  { s with
    barrier := { ctx := none, histTag := y.tag, histCycle := r.r }
    seq := { s.seq with exec := none, outstanding := [] }
    held := s.held ++ [recordOf e (releaseCode r) s.timer.cycle 0 s.gen (.release r.r r.lateness)] }

theorem releaseBarrier_eq {s : State} {e : Executing} (hsrc : e.source = .none) (hout : s.seq.outstanding = [])
    (y : BarrierCtx) (r : Release) : releaseBarrier e y r s = released e y r s := by
  unfold releaseBarrier
  rw [writeExecRecord_alone (by exact hout)]
  simp only [released, State.execRecord, recordOf, hsrc, Source.emitted, State.setBarrier]

theorem SameMotion.released {s t : State} (h : SameMotion s t) (e : Executing) (y : BarrierCtx) (r : Release) :
    SameMotion (released e y r s) (released e y r t) :=
  ⟨h.id, h.config, h.cycle, by simp only [Machine.released, h.seq], h.gen, rfl, h.haltCtl,
    by simp only [Machine.released, h.held, h.cycle, h.gen]⟩

theorem releaseDue_some {s : State} {y : BarrierCtx} {r : Release} (hctx : s.barrier.ctx = some y) (hr : y.release = some r)
    (hq : r.q = s.timer.cycle) : releaseDue s = some (y, r) := by
  unfold releaseDue
  rw [hctx]
  dsimp only
  rw [hr]
  exact if_pos hq

theorem releaseDue_none {s : State} {y : BarrierCtx} (hctx : s.barrier.ctx = some y)
    (h : ∀ r, y.release = some r → r.q ≠ s.timer.cycle) : releaseDue s = none := by
  unfold releaseDue
  rw [hctx]
  dsimp only
  cases hr : y.release with
  | none => rfl
  | some r => exact if_neg (h r hr)

/-- The halt of a late release under LATE_HALTS. -/
def lateCause (e : Executing) : Cause := .segmentFault e.seg.seq .releasedLate .ended

theorem lateFault_some {s : State} {r : Release} (hlate : r.lateness ≠ 0) (hhalts : s.cfg.lateHalts = true) (e : Executing) :
    lateFault s.cfg e r = some (lateCause e) := if_pos ⟨hlate, hhalts⟩

theorem lateFault_none {s : State} {r : Release} (h : r.lateness = 0 ∨ s.cfg.lateHalts = false) (e : Executing) :
    lateFault s.cfg e r = none :=
  if_neg fun ⟨hlate, hhalts⟩ => h.elim hlate fun h => Bool.false_ne_true (h.symm.trans hhalts)

section Waiting

variable {s : State} {e : Executing} (he : s.seq.exec = some e) (hsrc : e.source = .none)
include he hsrc

theorem joinSkipped_barrier (skipped : Nat) : joinSkipped skipped s = s := by
  rw [joinSkipped, he]
  dsimp only
  rw [hsrc]

/-- The barrier waits on. -/
theorem motionBoundary_waits (haxis : s.seq.axis = .waiting) (hdue : releaseDue s = none) (late : Bool) (skipped : Nat) :
    motionBoundary late skipped s = (s, none) := by
  rw [motionBoundary, joinSkipped_barrier he hsrc, sequencerBoundary, he]
  dsimp only
  rw [hsrc, hdue]
  refine congrArg (·, none) ?_
  rw [startAtBoundary, haxis]
  exact if_neg Bool.false_ne_true

variable {y : BarrierCtx} {r : Release} (hdue : releaseDue s = some (y, r)) (hout : s.seq.outstanding = [])
include hdue hout

/-- It releases in time, or late without a halt, and the head may start. -/
theorem motionBoundary_releases (hfault : lateFault s.cfg e r = none) (late : Bool) (skipped : Nat) :
    motionBoundary late skipped s = (startAtBoundary true (released e y r s), none) := by
  rw [motionBoundary, joinSkipped_barrier he hsrc, sequencerBoundary, he]
  dsimp only
  rw [hsrc, hdue]
  dsimp only
  rw [hfault, releaseBarrier_eq hsrc hout]
  cases late <;> rfl

/-- The halt of a late release is taken ahead of the start. -/
theorem motionBoundary_halts_first (haxis : s.seq.axis = .waiting) {c : Cause} (hfault : lateFault s.cfg e r = some c)
    (skipped : Nat) : motionBoundary true skipped s = (haltTaken c (released e y r s), none) := by
  rw [motionBoundary, joinSkipped_barrier he hsrc, sequencerBoundary, he]
  dsimp only
  rw [hsrc, hdue]
  dsimp only
  rw [hfault, releaseBarrier_eq hsrc hout, if_pos rfl, takeRaised,
    takeCause_of_live (s := released e y r s) (congrArg AxisState.live haxis), startAtBoundary_halted rfl]

/-- The halt of a late release is left raised behind the start. -/
theorem motionBoundary_halts_later (hfault : lateFault s.cfg e r = some c) (skipped : Nat) :
    motionBoundary false skipped s = (startAtBoundary true (released e y r s), some c) := by
  rw [motionBoundary, joinSkipped_barrier he hsrc, sequencerBoundary, he]
  dsimp only
  rw [hsrc, hdue]
  dsimp only
  rw [hfault, releaseBarrier_eq hsrc hout]
  exact if_neg Bool.false_ne_true

end Waiting

/-! ## The deadline -/

theorem barrierDeadline_complete {s : State} {y : BarrierCtx} (hctx : s.barrier.ctx = some y)
    (h : y.release.isSome = true ∨ y.timeout = 0 ∨ cycleDiff s.timer.cycle y.arrival < (y.timeout : Int)) :
    barrierDeadline s = s := by
  unfold barrierDeadline
  rw [hctx]
  refine if_neg fun hdue => ?_
  obtain ⟨hnone, hpassed⟩ := Bool.and_eq_true_iff.mp hdue
  obtain ⟨htimeout, hpassed⟩ := of_decide_eq_true hpassed
  obtain h | h | h := h
  · rw [Option.isNone_iff_eq_none.mp hnone] at h
    cases h
  · exact htimeout h
  · omega

theorem barrierDeadline_fails {s : State} {y : BarrierCtx} (hctx : s.barrier.ctx = some y) (hlive : s.seq.axis.live = true)
    (hnone : y.release = none) (htimeout : y.timeout ≠ 0) (hpassed : (y.timeout : Int) ≤ cycleDiff s.timer.cycle y.arrival) :
    barrierDeadline s = haltTaken (.segmentFault y.seq .barrierTimeout .executing) s := by
  unfold barrierDeadline
  rw [hctx]
  refine (if_pos ?_).trans (failBarrier_of_live hctx hlive _)
  rw [hnone, decide_eq_true (And.intro htimeout hpassed)]
  rfl

/-! ## A cause that is raised and taken in its own turn -/

section Late

variable {o : EventOrder} {skipped : Nat} {pulse : Option Nat} {s : State}

/-- A quiet boundary whose motion turn raises a cause and leaves nothing else to its other turns ends with that halt. -/
theorem quiet_halts_later (hq : Quiet o s) {u : State} {c : Cause} (hlive : u.seq.axis.live = true)
    (hdeadline : ∀ x, SameMotion (begun pulse s) x → barrierDeadline x = x)
    (hmotion : ∀ x, SameMotion (begun pulse s) x →
      SameMotion u (motionBoundary o.lateHaltFirst skipped x).1 ∧ (motionBoundary o.lateHaltFirst skipped x).2 = some c)
    (hstop : u.haltCtl.stopn = s.haltCtl.stopn)
    (hexamination : ∀ x, SameMotion u x → firstExamination x = x)
    (hsteps : ∀ x, SameMotion u x → stepEventsTurn o (s.seq.exec.map Executing.seg) x = x)
    (hdeadline' : ∀ x, SameMotion u x → barrierDeadline x = x) :
    ∃ v, SameMotion (haltTaken c u) v ∧ StandsAs v (afterTurns o skipped pulse s) := by
  have hold {l : List BoundaryTurn} {b : BoundaryTurn} (h : .lateHalt ∈ b :: l) (hb : b ≠ .lateHalt) : .lateHalt ∈ l :=
    (List.mem_cons.mp h).resolve_left (Ne.symm hb)
  obtain ⟨_, hmem, _⟩ | ⟨v, _, h, hstands⟩ := quiet_stages (skipped := skipped) (pulse := pulse) hq
    (P := SameMotion (haltTaken c u)) (J := fun l x => .lateHalt ∈ l ∧ SameMotion u x.1 ∧ x.2 = some c)
    (fun x h => .inl (hdeadline x h))
    (fun rest x hcalm h => .inl ⟨suffix_follows hcalm.rows rfl (mem_turnsOf o _ (by decide) (by decide)), hmotion x h⟩)
    (fun _ x h => by rw [h.2.1.haltCtl]; exact hstop)
    (fun b _ x t hb h hxt => ⟨hold h.1 (fun hlate => by rw [hlate] at hb; cases hb), h.2.1.trans hxt, h.2.2⟩)
    (fun b rest x hb hne hcalm h => by
      obtain ⟨hmem, hsame, hraised⟩ := h
      cases b with
      | motion => exact absurd rfl hne
      | examination =>
        refine .inl ⟨hold hmem nofun, ?_, hraised⟩
        rw [show (takeTurn o (cycleEnd skipped s) x .examination).1 = x.1 from hexamination x.1 hsame]
        exact hsame
      | stepEvents =>
        refine .inl ⟨hold hmem nofun, ?_, hraised⟩
        rw [show (takeTurn o (cycleEnd skipped s) x .stepEvents).1 = x.1 from hsteps x.1 hsame]
        exact hsame
      | lateHalt =>
        have hturn : (takeTurn o (cycleEnd skipped s) x .lateHalt).1 = haltTaken c x.1 := by
          change takeRaised x.2 x.1 = _
          rw [hraised]
          exact takeCause_of_live (by rw [hsame.seq]; exact hlive) c
        rw [hturn]
        exact .inr ⟨haltTaken_rests c x.1, hsame.haltTaken c⟩
      | deadline =>
        refine .inl ⟨hold hmem nofun, ?_, hraised⟩
        rw [show (takeTurn o (cycleEnd skipped s) x .deadline).1 = x.1 from hdeadline' x.1 hsame]
        exact hsame
      | link | peers | stopInput | hostHalt | notes => cases hb)
  · exact absurd hmem List.not_mem_nil
  · exact ⟨v, h, hstands⟩

/-- A quiet boundary at which the motion waits on and the deadline has passed ends with the failure of the barrier. -/
theorem quiet_times_out (hq : Quiet o s) {c : Cause}
    (hmotion : ∀ x, SameMotion (begun pulse s) x → motionBoundary o.lateHaltFirst skipped x = (x, none))
    (hexamination : ∀ x, SameMotion (begun pulse s) x → firstExamination x = x)
    (hsteps : ∀ x, SameMotion (begun pulse s) x → stepEventsTurn o (s.seq.exec.map Executing.seg) x = x)
    (hdeadline : ∀ x, SameMotion (begun pulse s) x → barrierDeadline x = haltTaken c x) :
    ∃ v, SameMotion (haltTaken c (begun pulse s)) v ∧ StandsAs v (afterTurns o skipped pulse s) := by
  have hold {l : List BoundaryTurn} {b : BoundaryTurn} (h : .deadline ∈ b :: l) (hb : b ≠ .deadline) : .deadline ∈ l :=
    (List.mem_cons.mp h).resolve_left (Ne.symm hb)
  obtain ⟨_, hmem, _⟩ | ⟨v, _, h, hstands⟩ := quiet_induct (skipped := skipped) (pulse := pulse) hq
    (P := SameMotion (haltTaken c (begun pulse s)))
    (I := fun l x => .deadline ∈ l ∧ SameMotion (begun pulse s) x.1 ∧ x.2 = none)
    (fun _ x h => by rw [h.2.1.haltCtl]; rfl)
    (fun b _ x t hb h hxt => ⟨hold h.1 (fun hdead => by rw [hdead] at hb; cases hb), h.2.1.trans hxt.toSameMotion, h.2.2⟩)
    (fun b rest x hb _ h => by
      obtain ⟨hmem, hsame, hnone⟩ := h
      cases b with
      | motion =>
        have hturn : takeTurn o (cycleEnd skipped s) x .motion = (x.1, none) := hmotion x.1 hsame
        rw [hturn]
        exact .inl ⟨hold hmem nofun, hsame, rfl⟩
      | examination =>
        refine .inl ⟨hold hmem nofun, ?_, hnone⟩
        rw [show (takeTurn o (cycleEnd skipped s) x .examination).1 = x.1 from hexamination x.1 hsame]
        exact hsame
      | stepEvents =>
        refine .inl ⟨hold hmem nofun, ?_, hnone⟩
        rw [show (takeTurn o (cycleEnd skipped s) x .stepEvents).1 = x.1 from hsteps x.1 hsame]
        exact hsame
      | lateHalt =>
        refine .inl ⟨hold hmem nofun, ?_, rfl⟩
        change SameMotion _ (takeRaised x.2 x.1)
        rw [hnone]
        exact hsame
      | deadline =>
        rw [show (takeTurn o (cycleEnd skipped s) x .deadline).1 = haltTaken c x.1 from hdeadline x.1 hsame]
        exact .inr ⟨haltTaken_rests c x.1, hsame.haltTaken c⟩
      | link | peers | stopInput | hostHalt | notes => cases hb)
    ⟨mem_turnsOf o .deadline (by decide) (by decide), .refl _, rfl⟩
  · exact absurd hmem List.not_mem_nil
  · exact ⟨v, h, hstands⟩

end Late

end Sys2Proof.Machine
end

