-- ==== Sys2Proof/Proofs/BarrierBoundaries.lean ====
section
/-! PROOFS. The boundary of a BARRIER that waits, and of one that starts (O26). -/

namespace Sys2Proof.Claims

open Sys2Proof.Machine

section Waiting

variable {o : EventOrder} {s : State} {skipped : Nat} {pulse : Option Nat} {y : BarrierCtx} {e : Executing}
  (hq : Quiet o s) (hsettled : examinationLevelsSettled s = true) (haxis : s.seq.axis = .waiting)
  (hctx : s.barrier.ctx = some y) (hexec : s.seq.exec = some e) (hsrc : e.source = .none) (hout : s.seq.outstanding = [])

include hexec hsrc in
/-- Neither the first examination nor an event of the Step Generator has anything to do while the axis waits. -/
theorem waiting_unexamined {x : State} (hx : SameMotion (begun pulse s) x) : firstExamination x = x :=
  firstExamination_of_not_untimed fun e' u he hu => by
    rw [hx.seq] at he
    cases hexec.symm.trans he
    cases hsrc.symm.trans hu

include hsettled haxis hexec hsrc hout in
theorem waiting_without_events {x : State} (hx : SameMotion (begun pulse s) x) (before : Option Segment) :
    stepEventsTurn o before x = x := by
  have honly : ∀ e', s.seq.exec = some e' → e'.source = .none := fun e' he => by
    cases hexec.symm.trans he
    exact hsrc
  refine stepEventsTurn_settled ?_ ?_ ?_ ?_ o before
  · rw [hx.seq]
    exact fun h => by cases haxis.symm.trans h
  · rw [hx.seq]
    exact honly
  · rw [hx.seq]
    exact hout
  · rw [hx.gen]
    exact probe_settled honly hsettled

include hq hsettled haxis hctx hexec hsrc hout in
/-- A barrier that neither releases nor times out waits on. -/
theorem waits_on (hdue : ∀ r, y.release = some r → r.q ≠ nextCycle s)
    (hdeadline : y.release.isSome = true ∨ y.timeout = 0 ∨ cycleDiff (nextCycle s) y.arrival < (y.timeout : Int)) :
    SameMotion (begun pulse s) (afterTurns o skipped pulse s) := by
  have hstands (x : State) (hx : SameMotion (begun pulse s) x) : barrierDeadline x = x :=
    barrierDeadline_complete (by rw [hx.barrier]; exact hctx) (by rw [hx.cycle, begun_cycle]; exact hdeadline)
  refine quiet_settles hq hstands (fun x hx => ?_) rfl (fun x hx => waiting_unexamined hexec hsrc hx)
    (fun x _ hx => waiting_without_events hsettled haxis hexec hsrc hout hx _) hstands
  have hseq : x.seq = s.seq := hx.seq
  rw [motionBoundary_waits (by rw [hseq]; exact hexec) hsrc (by rw [hseq]; exact haxis)
    (releaseDue_none (by rw [hx.barrier]; exact hctx) (by rw [hx.cycle, begun_cycle]; exact hdue))]
  exact ⟨hx, rfl⟩

include hq hsettled haxis hctx hexec hsrc hout in
/-- An INCOMPLETE one past its deadline fails. -/
theorem waits_out (hnone : y.release = none) (htimeout : y.timeout ≠ 0)
    (hpassed : (y.timeout : Int) ≤ cycleDiff (nextCycle s) y.arrival) :
    ∃ v, SameMotion (haltTaken (.segmentFault y.seq .barrierTimeout .executing) (begun pulse s)) v ∧
      StandsAs v (afterTurns o skipped pulse s) := by
  refine quiet_times_out hq (fun x hx => ?_) (fun x hx => waiting_unexamined hexec hsrc hx)
    (fun x hx => waiting_without_events hsettled haxis hexec hsrc hout hx _) fun x hx => ?_
  · have hseq : x.seq = s.seq := hx.seq
    exact motionBoundary_waits (by rw [hseq]; exact hexec) hsrc (by rw [hseq]; exact haxis)
      (releaseDue_none (by rw [hx.barrier]; exact hctx) (by rw [hnone]; exact nofun)) _ _
  · exact barrierDeadline_fails (by rw [hx.barrier]; exact hctx) (by rw [hx.seq]; exact congrArg AxisState.live haxis) hnone
      htimeout (by rw [hx.cycle, begun_cycle]; exact hpassed)

end Waiting

section Releases

variable {o : EventOrder} {s : State} {skipped : Nat} {pulse : Option Nat} {y : BarrierCtx} {e : Executing} {r : Release}
  (hq : Quiet o s) (haxis : s.seq.axis = .waiting) (hctx : s.barrier.ctx = some y) (hexec : s.seq.exec = some e)
  (hsrc : e.source = .none) (hout : s.seq.outstanding = []) (hr : y.release = some r) (hqx : r.q = nextCycle s)

include hctx hr in
/-- A COMPLETE context has no deadline. -/
theorem complete_stands {x : State} (hx : SameMotion (begun pulse s) x) : barrierDeadline x = x :=
  barrierDeadline_complete (by rw [hx.barrier]; exact hctx) (.inl (by rw [hr]; rfl))

include hctx hr hqx in
theorem release_due {x : State} (hx : SameMotion (begun pulse s) x) : releaseDue x = some (y, r) :=
  releaseDue_some (by rw [hx.barrier]; exact hctx) hr (by rw [hx.cycle, begun_cycle]; exact hqx)

include hq hctx hexec hsrc hout hr hqx in
/-- A release in time, or late without a halt, goes on to the start it allows. -/
theorem releases_to {u : State} (hfault : r.lateness = 0 ∨ s.cfg.lateHalts = false)
    (hstart : ∀ x, SameMotion (released e y r (begun pulse s)) x → SameMotion u (startAtBoundary true x))
    (hstop : u.haltCtl.stopn = s.haltCtl.stopn) (hctx' : u.barrier.ctx = none)
    (hexamination : ∀ x, SameMotion u x → firstExamination x = x)
    (hsteps : ∀ x, SameMotion u x → stepEventsTurn o (s.seq.exec.map Executing.seg) x = x) :
    SameMotion u (afterTurns o skipped pulse s) := by
  refine quiet_settles hq (fun x hx => complete_stands hctx hr hx) (fun x hx => ?_) hstop hexamination (fun x _ => hsteps x)
    (fun x hx => barrierDeadline_no_context (by rw [hx.barrier]; exact hctx'))
  have hseq : x.seq = s.seq := hx.seq
  rw [motionBoundary_releases (by rw [hseq]; exact hexec) hsrc (release_due hctx hr hqx hx) (by rw [hseq]; exact hout)
    (lateFault_none (by rw [hx.cfg]; exact hfault) e)]
  exact ⟨hstart _ (hx.released e y r), rfl⟩

include hq haxis hctx hexec hsrc hout hr hqx in
/-- The halt of a late release is taken ahead of the start that it allows. -/
theorem releases_halted (hlate : r.lateness ≠ 0) (hhalts : s.cfg.lateHalts = true) (hfirst : o.lateHaltFirst = true) :
    ∃ v, SameMotion (haltTaken (lateCause e) (released e y r (begun pulse s))) v ∧
      StandsAs v (afterTurns o skipped pulse s) := by
  refine quiet_halts hq (fun x hx => complete_stands hctx hr hx) fun x hx => ?_
  have hseq : x.seq = s.seq := hx.seq
  rw [hfirst, motionBoundary_halts_first (by rw [hseq]; exact hexec) hsrc (release_due hctx hr hqx hx)
    (by rw [hseq]; exact hout) (by rw [hseq]; exact haxis) (lateFault_some hlate (by rw [hx.cfg]; exact hhalts) e)]
  exact ⟨haltTaken_rests _ _, (hx.released e y r).haltTaken _⟩

include hq hctx hexec hsrc hout hr hqx in
/-- Or after it, in its own turn. -/
theorem releases_halted_later {u : State} (hlate : r.lateness ≠ 0) (hhalts : s.cfg.lateHalts = true)
    (hlater : o.lateHaltFirst = false) (hlive : u.seq.axis.live = true)
    (hstart : ∀ x, SameMotion (released e y r (begun pulse s)) x → SameMotion u (startAtBoundary true x))
    (hstop : u.haltCtl.stopn = s.haltCtl.stopn) (hctx' : u.barrier.ctx = none)
    (hexamination : ∀ x, SameMotion u x → firstExamination x = x)
    (hsteps : ∀ x, SameMotion u x → stepEventsTurn o (s.seq.exec.map Executing.seg) x = x) :
    ∃ v, SameMotion (haltTaken (lateCause e) u) v ∧ StandsAs v (afterTurns o skipped pulse s) := by
  refine quiet_halts_later hq hlive (fun x hx => complete_stands hctx hr hx) (fun x hx => ?_) hstop hexamination hsteps
    (fun x hx => barrierDeadline_no_context (by rw [hx.barrier]; exact hctx'))
  have hseq : x.seq = s.seq := hx.seq
  rw [hlater, motionBoundary_halts_later (by rw [hseq]; exact hexec) hsrc (release_due hctx hr hqx hx)
    (by rw [hseq]; exact hout) (lateFault_some hlate (by rw [hx.cfg]; exact hhalts) e)]
  exact ⟨hstart _ (hx.released e y r), rfl⟩

end Releases

/-- With an empty queue the axis becomes IDLE after the release. -/
theorem released_to_idle {s x : State} {pulse : Option Nat} {e : Executing} {y : BarrierCtx} {r : Release}
    (haxis : s.seq.axis = .waiting) (hqueue : s.seq.queue = []) (hx : SameMotion (released e y r (begun pulse s)) x) :
    SameMotion (setAxis .idle (released e y r (begun pulse s))) (startAtBoundary true x) := by
  rw [startAtBoundary_empty (by rw [hx.seq]; exact congrArg (mayStart true) haxis) (by rw [hx.seq]; exact hqueue)]
  exact hx.setAxis .idle

/-- With a MOVE_REL at the head that passes its range check, that starts. -/
theorem released_to_start {s x : State} {pulse : Option Nat} {e : Executing} {y : BarrierCtx} {r : Release} {seg : Segment}
    {rest : List Segment} {count : Int} {d : Nat} (haxis : s.seq.axis = .waiting) (hqueue : s.seq.queue = seg :: rest)
    (hfree : s.held.length + 1 < 16) (hstart : StartsFrom s.gen.position.toInt seg count d)
    (hx : SameMotion (released e y r (begun pulse s)) x) :
    SameMotion (startWith seg .running (.timed (timedSourceOf s.cfg count d)) rest (released e y r (begun pulse s)))
      (startAtBoundary true x) := by
  obtain ⟨hbody, hrange⟩ := hstart
  have hposition : x.startPosition = s.gen.position.toInt := by
    rw [State.startPosition, hx.gen, hx.seq]
    rfl
  have hfree : x.freeEntries ≠ 0 := by
    rw [Ne, freeEntries_eq_zero_iff (by rw [hx.seq]; rfl), hx.seq, hx.held]
    simp only [released, List.length_append, List.length_cons, List.length_nil]
    exact Nat.not_le.mpr hfree
  have hcfg : x.cfg = s.cfg := hx.cfg
  rw [startAtBoundary_head (by rw [hx.seq]; exact congrArg (mayStart true) haxis) (by rw [hx.seq]; exact hqueue) hfree,
    startSegment_moveRel hbody (by rw [hposition, inPositionRange_iff]; exact hrange), hcfg]
  exact hx.startWith ..

/-- The state with which the head starts at a release boundary. -/
theorem released_start_seq (s : State) (pulse : Option Nat) (e : Executing) (y : BarrierCtx) (r : Release) (seg : Segment)
    (rest : List Segment) (count : Int) (d : Nat) (hout : s.seq.outstanding = []) :
    (startWith seg .running (.timed (timedSourceOf s.cfg count d)) rest (released e y r (begun pulse s))).seq =
      { s.seq with axis := .running, queue := rest, exec := some (timedStart s seg count d (nextCycle s)) } := by
  rw [← begun_cycle pulse s]
  exact congrArg (fun l => ({ s.seq with
    axis := .running
    queue := rest
    exec := some (timedStart s seg count d (begun pulse s).timer.cycle)
    outstanding := l } : Sequencer)) hout.symm

/-- The order in which STOP_INPUT is taken between the record of a late release and its fault. -/
theorem releases_stopped {o : EventOrder} {s t : State} {y : BarrierCtx} {e : Executing} {r : Release}
    {others : List BoundaryTurn} (hends : EndsCycle o s t) (hturns : o.turns = .motion :: .stopInput :: .lateHalt :: others)
    (hlater : o.lateHaltFirst = false) (hdue : stopInputDue s = true) (haxis : s.seq.axis = .waiting)
    (hctx : s.barrier.ctx = some y) (hexec : s.seq.exec = some e) (hsrc : e.source = .none) (hr : y.release = some r)
    (hqx : r.q = nextCycle s) (hlate : r.lateness ≠ 0) (hhalts : s.cfg.lateHalts = true) (hqueue : s.seq.queue = [])
    (hout : s.seq.outstanding = []) : ∃ pulse, StandsAs (setLatch (haltTaken (.plain .stopInput)
      (flipStop (setAxis .idle (released e y r (begun pulse s)))))) t := by
  obtain ⟨skipped, pulse, rfl, _⟩ := (cycleEnded_of_endsCycle hends).turns
  obtain ⟨l, hl⟩ := turnsOf_heads hturns (by decide) (by decide) (by decide)
  have hstart : startAtBoundary true (released e y r (begun pulse s)) = setAxis .idle (released e y r (begun pulse s)) :=
    startAtBoundary_empty (congrArg (mayStart true) haxis) hqueue
  have hstop : stopTurn (setAxis .idle (released e y r (begun pulse s))) =
      haltTaken (.plain .stopInput) (flipStop (setAxis .idle (released e y r (begun pulse s)))) := stopTurn_halts hdue rfl
  have hlatched : takeCause (lateCause e) (haltTaken (.plain .stopInput)
      (flipStop (setAxis .idle (released e y r (begun pulse s))))) = setLatch (haltTaken (.plain .stopInput)
      (flipStop (setAxis .idle (released e y r (begun pulse s))))) := rfl
  refine ⟨pulse, ?_⟩
  rw [afterTurns_heads hl, hlater, motionBoundary_halts_later (s := begun pulse s) hexec hsrc
    (release_due hctx hr hqx (.refl _)) hout (lateFault_some hlate hhalts e), hstart, ← hlatched, ← hstop]
  refine turns_stand (x := (takeCause (lateCause e) (stopTurn (setAxis .idle (released e y r (begun pulse s)))), none)) ?_
  rw [hstop, hlatched]
  exact (haltTaken_rests _ _).of_stands (setLatch_stands _)

end Sys2Proof.Claims
end

