-- ==== Sys2Proof/Proofs/BarrierCreation.lean ====
section
/-! PROOFS. The creation of a barrier context from the Peer Table (O26). -/

namespace Sys2Proof.Machine

open Sys2Proof.Claims

theorem vector_set_get {α : Type} (v : Vector α 16) (d m : Station) (x : α) :
    (v.set d.val x).get m = if m = d then x else v.get m := by
  by_cases h : m = d
  · subst h
    simp [Vector.get_eq_getElem]
  · have hv : d.val ≠ m.val := fun hh => h (Fin.ext hh.symm)
    simp only [Vector.get_eq_getElem, h, if_false]
    exact Vector.getElem_set_ne _ _ hv

/-- The entry of a member is one that creation can take: ABSENT, or on the link with a frame that neither halts, nor reports a
release of the tag, nor shows it with another mask. -/
def Fillable (w : State) (x : BarrierCtx) (m : Station) : Prop :=
  inMask x.mask m = true → m ≠ w.id → (w.entry m).presence = .absent ∨
    (((w.entry m).presence = .present ∨ (w.entry m).presence = .stale) ∧ (w.entry m).view.halted = false ∧
      (w.entry m).view.relTag ≠ x.tag ∧ ((w.entry m).view.barTag = x.tag → (w.entry m).view.barMask = x.mask))

/-- The station is a member other than S whose entry shows the tag. -/
def ShowsArrival (w : State) (x : BarrierCtx) (m : Station) : Prop :=
  inMask x.mask m = true ∧ m ≠ w.id ∧ ShowsTag w x.tag m

/-- The context once the stations of `p` have been looked at. -/
structure Filled (w : State) (x : BarrierCtx) (p : List Station) (y : BarrierCtx) : Prop where
  same : y = { x with arrivals := y.arrivals, release := y.release }
  shown : ∀ m, m ∈ p → ShowsArrival w x m → y.arrivals.get m = some (w.entry m).view.barArrival
  others : ∀ m, ¬ (m ∈ p ∧ ShowsArrival w x m) → y.arrivals.get m = none
  complete : y.release.isSome = true → allArrived w.id y = true
  alone : (∀ m, inMask x.mask m = true → m = w.id) → y.release = none

section Fill

variable {w : State} {x y : BarrierCtx} {p : List Station} {d : Station} (h : Filled w x p y)
include h

theorem Filled.mask : y.mask = x.mask := by rw [h.same]

theorem Filled.tag : y.tag = x.tag := by rw [h.same]

/-- A station that is no member to be heard, or is known already, adds nothing. -/
theorem Filled.skip (hd : ¬ ShowsArrival w x d ∨ d ∈ p) : Filled w x (p ++ [d]) y := by
  refine ⟨h.same, fun m hm hshows => ?_, fun m hm => h.others m fun hmp => hm ⟨List.mem_append_left _ hmp.1, hmp.2⟩, h.complete,
    h.alone⟩
  obtain hmp | hmd := List.mem_append.mp hm
  · exact h.shown m hmp hshows
  · rw [List.mem_singleton.mp hmd] at hshows ⊢
    exact h.shown d (hd.resolve_left (not_not_intro hshows)) hshows

/-- A COMPLETE context knows every member. -/
theorem Filled.known (hrelease : y.release.isSome = true) (hshows : ShowsArrival w x d) : d ∈ p := by
  by_contra hd
  obtain ⟨hmember, hown, _⟩ := hshows
  have harrived := (allArrived_iff w.id y).mp (h.complete hrelease) d (by rw [h.mask]; exact hmember) hown
  rw [h.others d fun hdp => hd hdp.1] at harrived
  cases harrived

/-- A member that shows the tag is recorded, and may complete the context. -/
theorem Filled.arrive (hrelease : y.release = none) (hshows : ShowsArrival w x d) (lead : Nat) (c : Cycle) :
    Filled w x (p ++ [d]) (completeComputed w.id lead c
      { y with arrivals := y.arrivals.set d.val (some (w.entry d).view.barArrival) }) := by
  have hfields := completeComputed_fields w.id lead c { y with arrivals := y.arrivals.set d.val (some (w.entry d).view.barArrival) }
  set z := completeComputed w.id lead c { y with arrivals := y.arrivals.set d.val (some (w.entry d).view.barArrival) } with hz
  have harrivals : z.arrivals = y.arrivals.set d.val (some (w.entry d).view.barArrival) := by rw [hfields]
  refine ⟨?_, fun m hm hshown => ?_, fun m hm => ?_, fun hcomplete => ?_,
    fun halone => absurd (halone d hshows.1) hshows.2.1⟩
  · rw [hfields, h.same]
  · rw [harrivals, vector_set_get]
    split
    · rename_i hmd
      rw [hmd]
    · rename_i hmd
      exact h.shown m ((List.mem_append.mp hm).resolve_right fun hsingle => hmd (List.mem_singleton.mp hsingle)) hshown
  · rw [harrivals, vector_set_get, if_neg fun hmd => hm ⟨by rw [hmd]; exact List.mem_append_right _ List.mem_cons_self,
      by rw [hmd]; exact hshows⟩]
    exact h.others m fun hmp => hm ⟨List.mem_append_left _ hmp.1, hmp.2⟩
  · by_cases hall : allArrived w.id { y with arrivals := y.arrivals.set d.val (some (w.entry d).view.barArrival) } = true
    · rw [hz, completeComputed, if_pos hall]
      exact hall
    · rw [hz, completeComputed, if_neg hall] at hcomplete
      rw [show ({ y with arrivals := y.arrivals.set d.val (some (w.entry d).view.barArrival) } : BarrierCtx).release = none from
        hrelease] at hcomplete
      cases hcomplete

/-- A member that shows another tag stays without an arrival. -/
theorem Filled.absent (hshows : ¬ ShowsArrival w x d) (hrelease : y.release = none) :
    Filled w x (p ++ [d]) { y with arrivals := y.arrivals.set d.val none } := by
  have hskip := h.skip (.inl hshows)
  refine ⟨by rw [h.same], fun m hm hshown => ?_, fun m hm => ?_, fun hcomplete => ?_, fun _ => hrelease⟩
  · have hmd : m ≠ d := fun hmd => hshows (hmd ▸ hshown)
    rw [vector_set_get, if_neg hmd]
    exact hskip.shown m hm hshown
  · rw [vector_set_get]
    split
    · rfl
    · exact hskip.others m hm
  · rw [show ({ y with arrivals := y.arrivals.set d.val none } : BarrierCtx).release = none from hrelease] at hcomplete
    cases hcomplete

/-- One station is looked at. -/
theorem Filled.step (hd : Fillable w x d) : ∃ z, fillFrom (setCtx y w) d = setCtx z w ∧ Filled w x (p ++ [d]) z := by
  by_cases hguard : y.release.isSome = true ∨ inMask x.mask d = false ∨ d = w.id
  · refine ⟨y, ?_, h.skip ?_⟩
    · change (if y.release.isSome || !inMask y.mask d || decide (d = w.id) then setCtx y w else _) = _
      rw [h.mask]
      exact if_pos (by obtain hg | hg | hg := hguard <;> simp [hg])
    · obtain hg | hg | hg := hguard
      · by_cases hshows : ShowsArrival w x d
        · exact .inr (h.known hg hshows)
        · exact .inl hshows
      · exact .inl fun hshows => by cases hg.symm.trans hshows.1
      · exact .inl fun hshows => hshows.2.1 hg
  · obtain ⟨hrelease, hmember, hown⟩ := not_or.mp hguard |>.imp id not_or.mp
    have hrelease : y.release = none := by simpa using hrelease
    have hmember : inMask x.mask d = true := by simpa using hmember
    have hopen : fillFrom (setCtx y w) d = (match (w.entry d).presence with
        | .lost | .incompatible => failBarrier .memberLost (setCtx y w)
        | .absent => setCtx y w
        | .present | .stale => barrierFrame d (w.entry d).view (setCtx y w)) := by
      refine if_neg ?_
      rw [h.mask, hrelease, hmember, decide_eq_false (show ¬ d = (setCtx y w).id from hown)]
      exact Bool.false_ne_true
    obtain habsent | ⟨hon, hrunning, hrel, hmask⟩ := hd hmember hown
    · refine ⟨y, by rw [hopen, habsent], h.skip (.inl fun hshows => hshows.2.2.1 habsent)⟩
    · have hframe : fillFrom (setCtx y w) d = barrierFrame d (w.entry d).view (setCtx y w) := by
        rw [hopen]
        obtain hon | hon := hon <;> rw [hon]
      have hexamined := barrierFrame_examined (s := setCtx y w) (k := d) rfl hrelease (by rw [h.mask]; exact hmember) hown
        (w.entry d).view
      by_cases htag : (w.entry d).view.barTag = x.tag
      · have hshows : ShowsArrival w x d := ⟨hmember, hown, ⟨by obtain hon | hon := hon <;> rw [hon] <;> decide, htag⟩⟩
        rw [examine_arrival (by rw [h.tag]; exact htag) (by rw [h.mask]; exact hmask htag) (by rw [h.tag]; exact hrel) hrunning]
          at hexamined
        exact ⟨_, by rw [hframe, hexamined]; rfl, h.arrive hrelease hshows w.cfg.releaseLead w.timer.cycle⟩
      · rw [examine_other_tag (by rw [h.tag]; exact htag) (adoptable_of_other_tag (by rw [h.tag]; exact hrel) _), hrunning]
          at hexamined
        exact ⟨_, by rw [hframe, hexamined]; rfl, h.absent (fun hshows => htag hshows.2.2.2) hrelease⟩

end Fill

theorem filled_new (w : State) (seq : SeqNo) (tag : Byte) (mask : Mask) (timeout : Nat) (a : Cycle) :
    Filled w (newCtx seq tag mask timeout a) [] (newCtx seq tag mask timeout a) := by
  refine ⟨rfl, fun m hm => absurd hm List.not_mem_nil, fun m _ => ?_, fun h => (by cases h), fun _ => rfl⟩
  change (Vector.replicate 16 (none : Option Cycle)).get m = none
  simp [Vector.get_eq_getElem]

/-- All the stations are looked at. -/
theorem filled_all {w : State} {x : BarrierCtx} (hfill : ∀ m, Fillable w x m) : ∀ (l p : List Station) (y : BarrierCtx),
    Filled w x p y → ∃ z, l.foldl fillFrom (setCtx y w) = setCtx z w ∧ Filled w x (p ++ l) z := by
  intro l
  induction l with
  | nil => exact fun p y h => ⟨y, rfl, by rw [List.append_nil]; exact h⟩
  | cons d l ih =>
    intro p y h
    obtain ⟨z, hz, hfilled⟩ := h.step (hfill d)
    obtain ⟨z', hz', hfilled'⟩ := ih (p ++ [d]) z hfilled
    refine ⟨z', by rw [List.foldl_cons, hz, hz'], ?_⟩
    rw [List.append_assoc] at hfilled'
    exact hfilled'

/-- The context that a creation leaves. -/
structure Created (w : State) (x y : BarrierCtx) : Prop where
  same : y = { x with arrivals := y.arrivals, release := y.release }
  shown : ∀ m, ShowsArrival w x m → y.arrivals.get m = some (w.entry m).view.barArrival
  others : ∀ m, ¬ ShowsArrival w x m → y.arrivals.get m = none
  incomplete : (∃ m, inMask x.mask m = true ∧ m ≠ w.id ∧ ¬ ShowsTag w x.tag m) → y.release = none
  complete : (∀ m, inMask x.mask m = true → m ≠ w.id → ShowsTag w x.tag m) → y.release.isSome = true
  alone : (∀ m, inMask x.mask m = true → m = w.id) →
    y.release = some (releaseFor (x.arrival + BitVec.ofNat 16 w.cfg.releaseLead) w.timer.cycle)

/-- A context that S alone is a member of completes with the own arrival. -/
theorem largestArrival_alone {own : Station} {y : BarrierCtx} (h : ∀ m, inMask y.mask m = true → m = own) :
    largestArrival own y = y.arrival := by
  refine largestArrival_eq ((mem_arrivalCycles own y _).mpr (.inl rfl)) fun a ha => ?_
  obtain harrival | ⟨m, hmember, hown, _⟩ := (mem_arrivalCycles own y a).mp ha
  · exact .inl harrival
  · exact absurd (h m hmember) hown

/-- The last look at a context that every station has filled. -/
theorem Filled.created {w : State} {x z : BarrierCtx} (h : Filled w x stations z) : ∃ y,
    completeAtCreation (setCtx z w) = setCtx y w ∧ Created w x y := by
  have hall : allArrived w.id z = true ↔ ∀ m, inMask x.mask m = true → m ≠ w.id → ShowsTag w x.tag m := by
    rw [allArrived_iff, h.mask]
    refine forall_congr' fun m => imp_congr_right fun hmember => imp_congr_right fun hown => ⟨fun harrived => ?_, fun hshows => ?_⟩
    · by_contra hnot
      rw [h.others m fun hshown => hnot hshown.2.2.2] at harrived
      cases harrived
    · rw [h.shown m (mem_stations m) ⟨hmember, hown, hshows⟩]
      rfl
  have hincomplete (hmissing : ∃ m, inMask x.mask m = true ∧ m ≠ w.id ∧ ¬ ShowsTag w x.tag m) : ¬ allArrived w.id z = true := by
    obtain ⟨m, hmember, hown, hnot⟩ := hmissing
    exact fun harrived => hnot (hall.mp harrived m hmember hown)
  by_cases hrelease : z.release.isSome = true
  · refine ⟨z, if_pos hrelease, h.same, fun m => h.shown m (mem_stations m), fun m hm => h.others m fun hmp => hm hmp.2,
      fun hmissing => absurd (h.complete hrelease) (hincomplete hmissing), fun _ => hrelease, fun halone => ?_⟩
    rw [h.alone halone] at hrelease
    cases hrelease
  · have hfields := completeComputed_fields w.id w.cfg.releaseLead w.timer.cycle z
    have harrivals : (completeComputed w.id w.cfg.releaseLead w.timer.cycle z).arrivals = z.arrivals := by rw [hfields]
    refine ⟨completeComputed w.id w.cfg.releaseLead w.timer.cycle z, if_neg hrelease, ?_, fun m hm => ?_, fun m hm => ?_,
      fun hmissing => ?_, fun hshows => ?_, fun halone => ?_⟩
    · rw [hfields, h.same]
    · rw [harrivals]
      exact h.shown m (mem_stations m) hm
    · rw [harrivals]
      exact h.others m fun hmp => hm hmp.2
    · rw [completeComputed, if_neg (hincomplete hmissing)]
      simpa using hrelease
    · rw [completeComputed, if_pos (hall.mpr hshows)]
      rfl
    · rw [completeComputed, if_pos (hall.mpr fun m hmember hown => absurd (halone m hmember) hown)]
      rw [largestArrival_alone (by rw [h.mask]; exact halone), show z.arrival = x.arrival by rw [h.same]]

theorem createBarrier_fills {w : State} {seq : SeqNo} {tag : Byte} {mask : Mask} {timeout : Nat}
    (hfill : ∀ m, Fillable w (newCtx seq tag mask timeout w.timer.cycle) m) : ∃ y,
      createBarrier seq tag mask timeout w = setCtx y w ∧ Created w (newCtx seq tag mask timeout w.timer.cycle) y := by
  obtain ⟨z, hz, hfilled⟩ := filled_all hfill stations [] _ (filled_new w seq tag mask timeout w.timer.cycle)
  obtain ⟨y, hy, hcreated⟩ := hfilled.created
  exact ⟨y, by rw [createBarrier, hz, hy], hcreated⟩

/-! ## A member that is gone -/

/-- A member whose entry is LOST or INCOMPATIBLE, with no member on the link ahead of it, fails the barrier. -/
theorem createBarrier_fails {w : State} {seq : SeqNo} {tag : Byte} {mask : Mask} {timeout : Nat} {m : Station}
    (hlive : w.seq.axis.live = true) (hmember : inMask mask m = true) (hown : m ≠ w.id)
    (hgone : (w.entry m).presence = .lost ∨ (w.entry m).presence = .incompatible)
    (hbefore : ∀ j, j < m → inMask mask j = true → j ≠ w.id → (w.entry j).presence = .absent) :
    createBarrier seq tag mask timeout w = haltTaken (.segmentFault seq .memberLost .executing) w := by
  set x := newCtx seq tag mask timeout w.timer.cycle with hx
  obtain ⟨pre, post, hsplit⟩ := List.mem_iff_append.mp (mem_stations m)
  have hsorted : stations.Pairwise (· < ·) := by decide
  rw [hsplit, List.pairwise_append] at hsorted
  have hpre : ∀ l : List Station, (∀ j ∈ l, j < m) → l.foldl fillFrom (setCtx x w) = setCtx x w := by
    intro l hl
    induction l with
    | nil => rfl
    | cons j l ih =>
      obtain ⟨hj, hl⟩ := List.forall_mem_cons.mp hl
      have hstep : fillFrom (setCtx x w) j = setCtx x w := by
        by_cases hother : inMask mask j = true ∧ j ≠ w.id
        · have habsent : ((setCtx x w).entry j).presence = .absent := hbefore j hj hother.1 hother.2
          refine (if_neg ?_).trans ?_
          · rw [show inMask x.mask j = true from hother.1, decide_eq_false (show ¬ j = (setCtx x w).id from hother.2)]
            exact Bool.false_ne_true
          · rw [habsent]
        · refine if_pos ?_
          rw [show x.mask = mask from rfl, show (setCtx x w).id = w.id from rfl]
          by_cases hj : j = w.id
          · simp [hj]
          · simp [show inMask mask j = false by simpa using fun hm => hother ⟨hm, hj⟩]
      rw [List.foldl_cons, hstep]
      exact ih hl
  have hfail : fillFrom (setCtx x w) m = haltTaken (.segmentFault seq .memberLost .executing) w := by
    have hfailed : failBarrier .memberLost (setCtx x w) = haltTaken (.segmentFault seq .memberLost .executing) w := by
      rw [failBarrier_of_live (s := setCtx x w) rfl hlive, haltTaken_setCtx]
      rfl
    refine (if_neg ?_).trans ?_
    · rw [show inMask x.mask m = true from hmember, decide_eq_false (show ¬ m = (setCtx x w).id from hown)]
      exact Bool.false_ne_true
    · rw [show ((setCtx x w).entry m).presence = (w.entry m).presence from rfl]
      obtain hgone | hgone := hgone <;> rw [hgone] <;> exact hfailed
  have hctx : (haltTaken (.segmentFault seq .memberLost .executing) w).barrier.ctx = none := by rw [haltTaken_barrier]
  have hpost : ∀ l : List Station, l.foldl fillFrom (haltTaken (.segmentFault seq .memberLost .executing) w) =
      haltTaken (.segmentFault seq .memberLost .executing) w := by
    intro l
    induction l with
    | nil => rfl
    | cons j l ih =>
      rw [List.foldl_cons, show fillFrom (haltTaken (.segmentFault seq .memberLost .executing) w) j =
        haltTaken (.segmentFault seq .memberLost .executing) w by rw [fillFrom, hctx]]
      exact ih
  rw [createBarrier, hsplit, List.foldl_append, List.foldl_cons, ← hx,
    hpre pre fun j hj => hsorted.2.2 j hj m List.mem_cons_self, hfail, hpost, completeAtCreation, hctx]

end Sys2Proof.Machine
end

