-- ==== Sys2Proof/Proofs/BarrierOutcomes.lean ====
section
/-! PROOFS. O26: the release, the deadline, the late halt and the start of a BARRIER at a boundary. -/

namespace Sys2Proof.Claims

open Sys2Proof.Machine

/-- What a creation reads of the table and the settings. -/
structure SameTable (s t : State) : Prop where
  id : t.id = s.id
  config : t.config = s.config
  cycle : t.timer.cycle = s.timer.cycle
  view : ∀ k, (t.entry k).view = (s.entry k).view
  absent : ∀ k, (t.entry k).presence = .absent ↔ (s.entry k).presence = .absent

theorem SameTable.shows {s t : State} (h : SameTable s t) (tag : Byte) (m : Station) :
    ShowsTag t tag m ↔ ShowsTag s tag m := by
  unfold ShowsTag
  rw [h.view, Ne, Ne, h.absent]

theorem SameTable.created {s t : State} (h : SameTable s t) {x y : BarrierCtx} (hc : Created t x y) : Created s x y := by
  have hshows (m : Station) : ShowsArrival t x m ↔ ShowsArrival s x m := by
    unfold ShowsArrival
    rw [h.id, h.shows]
  refine ⟨hc.same, fun m hm => ?_, fun m hm => hc.others m fun hs => hm ((hshows m).mp hs), fun hmissing => hc.incomplete ?_,
    fun hall => hc.complete fun m hmember hown => (h.shows _ m).mpr (hall m hmember (by rw [← h.id]; exact hown)),
    fun halone => ?_⟩
  · rw [hc.shown m ((hshows m).mpr hm), h.view]
  · obtain ⟨m, hmember, hown, hnot⟩ := hmissing
    exact ⟨m, hmember, by rw [h.id]; exact hown, fun hs => hnot ((h.shows _ m).mp hs)⟩
  · rw [hc.alone fun m hm => (halone m hm).trans h.id.symm, h.cycle, State.cfg, h.config]
    rfl

theorem not_absent_of_onLink {p : Presence} (h : onLink p = true) : p ≠ .absent := by
  rintro rfl
  cases h

theorem present_or_stale_of_onLink {p : Presence} (h : onLink p = true) : p = .present ∨ p = .stale := by
  cases p <;> simp_all [onLink]

/-- The table that a quiet boundary shows a creation is the one that the cycle ended with. -/
theorem calm_sameTable {o : EventOrder} {pulse : Option Nat} {s x : State} {l : List BoundaryTurn} (h : Calm o pulse s l x)
    (hx : SameMotion (begun pulse s) x) : SameTable (begun pulse s) x := by
  refine ⟨hx.id, hx.config, hx.cycle, h.view, fun k => ?_⟩
  obtain hsame | ⟨hon, hon'⟩ := h.presence k
  · rw [hsame]
    rfl
  · exact iff_of_false (not_absent_of_onLink hon) (not_absent_of_onLink hon')

section Starts

variable {o : EventOrder} {s : State} {skipped : Nat} {pulse : Option Nat} {seg : Segment} {rest : List Segment}
  {tag : Byte} {mask : Mask} {timeout : Nat}
  (hq : Quiet o s) (haxis : s.seq.axis = .idle) (hexec : s.seq.exec = none) (hctx : s.barrier.ctx = none)
  (hqueue : s.seq.queue = seg :: rest) (hbody : seg.body = .barrier tag mask timeout)
  (hfree : s.held.length + s.seq.outstanding.length < 16)

/-- The state in which the BARRIER executes and its context is not yet created. -/
def barrierStarted (seg : Segment) (rest : List Segment) (s : State) : State := startWith seg .waiting .none rest s

include haxis hexec hqueue hbody hfree in
theorem motionBoundary_creates {x : State} (hx : SameMotion (begun pulse s) x) (late : Bool) (skipped : Nat) :
    motionBoundary late skipped x = (createBarrier seg.seq tag mask timeout (barrierStarted seg rest x), none) := by
  rw [motionBoundary_idle_head hx haxis hexec hqueue hfree, startSegment, hbody]
  rfl

/-- The BARRIER waits with a context that the table has filled. -/
def Waits (o : EventOrder) (s : State) (pulse : Option Nat) (seg : Segment) (rest : List Segment) (x : BarrierCtx)
    (t : State) : Prop :=
  ∃ y, Created (begun pulse s) x y ∧ IdleAs o (setCtx y (barrierStarted seg rest (begun pulse s))) t

include hq haxis hexec hctx hqueue hbody hfree in
/-- A BARRIER that starts waits with the context that the table fills. -/
theorem barrier_created (hfill : ∀ m, Fillable s (newCtx seg.seq tag mask timeout (nextCycle s)) m) :
    Waits o s pulse seg rest (newCtx seg.seq tag mask timeout (nextCycle s)) (afterTurns o skipped pulse s) := by
  have hcycle := begun_cycle pulse s
  obtain h | ⟨_, _, h, _⟩ := quiet_examines (skipped := skipped) (pulse := pulse) hq (P := fun _ => False)
    (U := Waits o s pulse seg rest (newCtx seg.seq tag mask timeout (nextCycle s)))
    (W := Waits o s pulse seg rest (newCtx seg.seq tag mask timeout (nextCycle s)))
    (fun x hx => barrierDeadline_no_context (by rw [hx.barrier]; exact hctx))
    (fun l x hcalm hx => by
      have htable := calm_sameTable hcalm hx
      have hxcycle : (barrierStarted seg rest x).timer.cycle = nextCycle s := hx.cycle.trans hcycle
      have hfill' : ∀ m, Fillable (barrierStarted seg rest x)
          (newCtx seg.seq tag mask timeout (barrierStarted seg rest x).timer.cycle) m := fun m hmember hown => by
        rw [show (barrierStarted seg rest x).entry m = x.entry m from rfl, htable.absent, htable.view]
        obtain habsent | ⟨hon, hview⟩ := hfill m hmember (by rw [show s.id = x.id from hx.id.symm]; exact hown)
        · exact .inl habsent
        · refine .inr ⟨?_, hview⟩
          obtain hsame | ⟨hon', _⟩ := hcalm.presence m
          · rw [hsame]
            exact hon
          · exact present_or_stale_of_onLink hon'
      obtain ⟨y, hy, hcreated⟩ := createBarrier_fills hfill'
      rw [hxcycle] at hcreated
      rw [motionBoundary_creates haxis hexec hqueue hbody hfree hx, hy]
      have hstarted : SameMotion (barrierStarted seg rest (begun pulse s)) (barrierStarted seg rest x) := hx.startWith ..
      refine ⟨⟨y, SameTable.created (t := barrierStarted seg rest x) ⟨htable.id, htable.config, htable.cycle, htable.view, htable.absent⟩ hcreated, .of_same ?_⟩, rfl⟩
      exact ⟨hstarted.id, hstarted.config, hstarted.cycle, hstarted.seq, hstarted.gen, by
        simp only [setCtx, State.setBarrier, hstarted.barrier], hstarted.haltCtl, hstarted.held⟩)
    (fun _ _ hxy => ⟨fun ⟨y, hy, hx⟩ => ⟨y, hy, hx.trans hxy⟩, fun ⟨y, hy, hx⟩ => ⟨y, hy, hx.trans hxy⟩⟩)
    (fun x h => by
      obtain ⟨y, _, hx⟩ := h.elim id id
      exact congrArg HaltCtl.stopn hx.same.haltCtl)
    (fun x ⟨y, hy, hx⟩ => .inl (by
      rw [firstExamination_of_not_untimed fun e u he hu => by
        have hxseq : x.seq = _ := hx.same.seq
        rw [hxseq] at he
        cases he
        cases hu]
      exact ⟨y, hy, hx⟩))
    (fun x _ => by
      have hkeeps (h : Waits o s pulse seg rest (newCtx seg.seq tag mask timeout (nextCycle s)) x) :
          Waits o s pulse seg rest (newCtx seg.seq tag mask timeout (nextCycle s))
            (stepEventsTurn o (s.seq.exec.map Executing.seg) x) := by
        obtain ⟨y, hy, hx⟩ := h
        exact ⟨y, hy, hx.stepEvents ⟨nofun, fun e he => by cases he; rfl⟩ _⟩
      exact ⟨hkeeps, hkeeps⟩)
    (fun x h => by
      obtain ⟨y, hy, hx⟩ := h.elim id id
      have hxctx : x.barrier.ctx = some y := congrArg BarrierUnit.ctx hx.same.barrier
      have hxcycle : x.timer.cycle = nextCycle s := hx.same.cycle.trans hcycle
      refine barrierDeadline_complete hxctx ?_
      have harrival : y.arrival = nextCycle s := by rw [hy.same]; rfl
      rw [hxcycle, harrival, cycleDiff, BitVec.sub_self]
      by_cases hzero : y.timeout = 0
      · exact .inr (.inl hzero)
      · exact .inr (.inr (by rw [BitVec.toInt_zero]; omega)))
  · exact h
  · exact h.elim

include hq haxis hexec hctx hqueue hbody hfree in
/-- A member that is LOST or INCOMPATIBLE, with none on the link ahead of it, fails it at once. -/
theorem barrier_fails_at_start {m : Station} (hmember : inMask mask m = true) (hown : m ≠ s.id)
    (hgone : (s.entry m).presence = .lost ∨ (s.entry m).presence = .incompatible)
    (hbefore : ∀ j, j < m → inMask mask j = true → j ≠ s.id → (s.entry j).presence = .absent) :
    ∃ v, SameMotion (haltTaken (.segmentFault seg.seq .memberLost .executing) (barrierStarted seg rest (begun pulse s))) v ∧
      StandsAs v (afterTurns o skipped pulse s) := by
  obtain ⟨_, h⟩ | ⟨v, _, h, hstands⟩ := quiet_stages (skipped := skipped) (pulse := pulse) hq
    (P := SameMotion (haltTaken (.segmentFault seg.seq .memberLost .executing) (barrierStarted seg rest (begun pulse s))))
    (J := fun _ _ => False) (fun x hx => .inl (barrierDeadline_no_context (by rw [hx.barrier]; exact hctx)))
    (fun l x hcalm hx => .inr (by
      have hpresence (k : Station) (hoff : onLink (s.entry k).presence = false) : (x.entry k).presence = (s.entry k).presence :=
        (hcalm.presence k).resolve_right fun h => by cases hoff.symm.trans h.2
      have hxid : (barrierStarted seg rest x).id = s.id := hx.id
      rw [motionBoundary_creates haxis hexec hqueue hbody hfree hx, createBarrier_fails (w := barrierStarted seg rest x) rfl
        hmember (by rw [hxid]; exact hown) (by
          rw [show (barrierStarted seg rest x).entry m = x.entry m from rfl,
            hpresence m (by obtain h | h := hgone <;> rw [h] <;> rfl)]
          exact hgone)
        fun j hj hjm hjown => by
          have habsent := hbefore j hj hjm (by rw [← hxid]; exact hjown)
          rw [show (barrierStarted seg rest x).entry j = x.entry j from rfl, hpresence j (by rw [habsent]; rfl)]
          exact habsent]
      exact ⟨haltTaken_rests _ _, (hx.startWith ..).haltTaken _⟩))
    (fun _ _ h => h.elim) (fun _ _ _ _ _ h _ => h) (fun _ _ _ _ _ _ h => h.elim)
  · exact h.elim
  · exact ⟨v, h, hstands⟩

end Starts

/-! ## The release boundary -/

/-- A halt that finds one segment executing, and none before it, writes its record. -/
theorem haltRecords_alone {s : State} {e : Executing} (hout : s.seq.outstanding = []) (he : s.seq.exec = some e) (c : Cause) :
    haltRecords c s = [recordOf e (c.codeFor .executing) s.timer.cycle e.source.emitted s.gen .none] := by
  rw [haltRecords, executingRecords, hout, he]
  rfl

/-- A context that S alone is a member of releases RELEASE_LEAD cycles after its arrival. -/
theorem releaseFor_lead {c : Cycle} {lead : Nat} (hlow : 1 ≤ lead) (hhigh : lead ≤ 8) :
    releaseFor (c + BitVec.ofNat 16 lead) c =
      { r := c + BitVec.ofNat 16 lead, q := c + BitVec.ofNat 16 lead, lateness := 0 } := by
  have hdiff : cycleDiff (c + BitVec.ofNat 16 lead) c = lead := by
    have hsub : c + BitVec.ofNat 16 lead - c = BitVec.ofNat 16 lead := by bv_omega
    have hnat : (BitVec.ofNat 16 lead).toNat = lead := by
      rw [BitVec.toNat_ofNat]
      omega
    rw [cycleDiff, hsub, BitVec.toInt_eq_toNat_cond, hnat]
    omega
  exact if_pos (by rw [hdiff]; omega)

section Released

variable {o : EventOrder} {s : State} {skipped : Nat} {pulse : Option Nat} {y : BarrierCtx} {e : Executing} {r : Release}

/-- What the release of a context leaves when no head stands behind it. -/
theorem releases_alone (hq : Quiet o s) (hsettled : examinationLevelsSettled s = true) (haxis : s.seq.axis = .waiting)
    (hctx : s.barrier.ctx = some y) (hexec : s.seq.exec = some e) (hsrc : e.source = .none) (hqueue : s.seq.queue = [])
    (hout : s.seq.outstanding = []) (hr : y.release = some r) (hqx : r.q = nextCycle s) :
    (afterTurns o skipped pulse s).barrier = (released e y r (begun pulse s)).barrier ∧
      (afterTurns o skipped pulse s).held = (released e y r (begun pulse s)).held ∧
      (afterTurns o skipped pulse s).seq.axis = (if r.lateness ≠ 0 ∧ s.cfg.lateHalts = true then .halted else .idle) := by
  have hprobe : levelChangeDue s.gen.probe = false := probe_settled (fun e' he => by
    cases hexec.symm.trans he
    exact hsrc) hsettled
  have hstart (x : State) := released_to_idle (x := x) (pulse := pulse) (e := e) (y := y) (r := r) haxis hqueue
  have hexamination (x : State) (hx : SameMotion (setAxis .idle (released e y r (begun pulse s))) x) : firstExamination x = x :=
    firstExamination_of_no_exec (by rw [hx.seq]; rfl)
  have hsteps (x : State) (hx : SameMotion (setAxis .idle (released e y r (begun pulse s))) x) :
      stepEventsTurn o (s.seq.exec.map Executing.seg) x = x :=
    stepEventsTurn_settled (by rw [hx.seq]; exact nofun) (by rw [hx.seq]; exact fun e' he => by cases he) (by rw [hx.seq]; rfl)
      (by rw [hx.gen]; exact hprobe) o _
  by_cases hlate : r.lateness ≠ 0 ∧ s.cfg.lateHalts = true
  · rw [if_pos hlate]
    have hhalted : ∃ v, SameMotion (haltTaken (lateCause e) (released e y r (begun pulse s))) v ∧
        StandsAs v (afterTurns o skipped pulse s) := by
      cases hfirst : o.lateHaltFirst with
      | true => exact releases_halted hq haxis hctx hexec hsrc hout hr hqx hlate.1 hlate.2 hfirst
      | false =>
        rw [← haltTaken_setAxis (lateCause e) .idle]
        exact releases_halted_later hq hctx hexec hsrc hout hr hqx hlate.1 hlate.2 hfirst rfl hstart rfl rfl hexamination hsteps
    obtain ⟨v, hv, ht⟩ := hhalted
    refine ⟨by rw [ht.barrier, hv.barrier, haltTaken_barrier]; rfl, ?_, by rw [ht.seq, hv.seq]; rfl⟩
    rw [ht.held, hv.held, haltTaken_held_none (s := released e y r (begun pulse s)) rfl rfl]
  · rw [if_neg hlate]
    have hfault : r.lateness = 0 ∨ s.cfg.lateHalts = false :=
      (Decidable.not_and_iff_or_not.mp hlate).imp Decidable.not_not.mp (Bool.not_eq_true _).mp
    have hu := releases_to (skipped := skipped) hq hctx hexec hsrc hout hr hqx hfault hstart rfl rfl hexamination hsteps
    exact ⟨hu.barrier, hu.held, by rw [hu.seq]; rfl⟩

end Released

/-- Settles O26: the motion turn releases, starts or waits; the deadline fails; a late halt is taken in its place. -/
theorem barrierReleasesOrTimesOut : Obligations.BarrierReleasesOrTimesOut := by
  refine ⟨fun o s t y e hends hq haxis hctx hexec hsrc hseq hqueue hout => ?_,
    fun o s t y e r seg rest count d hends hq hlaw haxis hctx hexec hr hqx hqueue hout hfree hstart late hlate => ?_,
    fun o s t y e r others hends hturns hlater hdue haxis hctx hexec hsrc hr hqx hlate hhalts hqueue hout => ?_,
    fun o s t seg rest tag mask timeout c hends hq hconfig hvalid haxis hexec hctx hqueue hbody hfree =>
      ⟨fun hmembers => ?_, fun m hmember hown hgone hbefore => ?_⟩⟩
  · obtain ⟨skipped, pulse, rfl, _, hsettled, _⟩ := (cycleEnded_of_endsCycle hends).turns
    have hcycle := begun_cycle pulse s
    replace hsettled := hsettled hq.active
    refine ⟨fun r hr hqx => ?_, fun r hr hqx => ?_, fun hnone ⟨htimeout, hpassed⟩ => ?_, fun hnone hdeadline => ?_⟩
    · obtain ⟨hbarrier, hheld, haxis'⟩ := releases_alone (skipped := skipped) (pulse := pulse) hq hsettled haxis hctx hexec hsrc
        hqueue hout hr hqx
      rw [hbarrier, hheld, ← hcycle]
      exact ⟨rfl, rfl, rfl, rfl, haxis'⟩
    · have hu := waits_on (skipped := skipped) (pulse := pulse) hq hsettled haxis hctx hexec hsrc hout
        (fun r' hr' hq' => by
          cases hr.symm.trans hr'
          exact hqx hq') (.inl (by rw [hr]; rfl))
      exact ⟨hu.barrier, hu.seq, hu.held⟩
    · obtain ⟨v, hv, ht⟩ := waits_out (skipped := skipped) (pulse := pulse) hq hsettled haxis hctx hexec hsrc hout hnone htimeout
        hpassed
      refine ⟨by rw [ht.barrier, hv.barrier, haltTaken_barrier], by rw [ht.barrier, hv.barrier, haltTaken_barrier]; rfl,
        by rw [ht.seq, hv.seq]; rfl, ?_, _, by rw [ht.report, hv.haltCtl, haltTaken_haltCtl], rfl, rfl⟩
      rw [ht.held, hv.held, haltTaken_held, haltRecords_alone (s := begun pulse s) hout hexec, ← hcycle, hsrc]
      rfl
    · have hu := waits_on (skipped := skipped) (pulse := pulse) hq hsettled haxis hctx hexec hsrc hout
        (fun r hr => by cases hnone.symm.trans hr) (.inr hdeadline)
      exact ⟨hu.barrier, hu.seq, hu.held⟩
  · obtain ⟨skipped, pulse, rfl, _⟩ := (cycleEnded_of_endsCycle hends).turns
    have hcycle := begun_cycle pulse s
    obtain ⟨_, hbarrier⟩ : e.source = .none ∧ e.isBarrier = true := by
      obtain ⟨hrunning, _⟩ | ⟨_, x, _, hbarrier, _⟩ := axisLaw_executing hlaw hexec
      · cases haxis.symm.trans hrunning
      · exact ⟨isBarrier_source hbarrier, hbarrier⟩
    have hsrc := isBarrier_source hbarrier
    have hnew : some seg ≠ s.seq.exec.map Executing.seg := by
      rw [hexec]
      intro h
      have hseg : seg = e.seg := Option.some.inj h
      rw [Executing.isBarrier, ← hseg, hstart.1] at hbarrier
      cases hbarrier
    set u := startWith seg .running (.timed (timedSourceOf s.cfg count d)) rest (released e y r (begun pulse s)) with hu
    have hto (x : State) (hx : SameMotion (released e y r (begun pulse s)) x) : SameMotion u (startAtBoundary true x) :=
      released_to_start haxis hqueue hfree hstart hx
    have hexamination (x : State) (hx : SameMotion u x) : firstExamination x = x :=
      firstExamination_of_not_untimed fun e' w he hw => by
        rw [hx.seq] at he
        cases he
        cases hw
    have hsteps (x : State) (hx : SameMotion u x) : stepEventsTurn o (s.seq.exec.map Executing.seg) x = x :=
      stepEventsTurn_of_timed_start (finishing_nil (by rw [hx.seq]; rfl)) (by rw [hx.seq]; rfl) rfl hnew o
    have hulive : u.seq.axis.live = true := rfl
    have huheld : u.held = s.held ++ [late] := by
      rw [hlate, ← hcycle]
      rfl
    have hbar : u.barrier = { ctx := none, histTag := y.tag, histCycle := r.r } := rfl
    by_cases hhalts : r.lateness ≠ 0 ∧ s.cfg.lateHalts = true
    · cases hfirst : o.lateHaltFirst with
      | true =>
        obtain ⟨v, hv, ht⟩ := releases_halted (skipped := skipped) (pulse := pulse) hq haxis hctx hexec hsrc hout hr hqx
          hhalts.1 hhalts.2 hfirst
        refine ⟨by rw [ht.barrier, hv.barrier, haltTaken_barrier]; rfl, fun h => ?_, fun _ _ => ⟨by rw [ht.seq, hv.seq]; rfl,
          ht.latch (by rw [hv.haltCtl, haltTaken_eq]; exact Bool.or_true _),
          ⟨_, by rw [ht.report, hv.haltCtl, haltTaken_haltCtl], rfl, rfl, rfl⟩, fun _ => ⟨?_, ?_⟩, nofun⟩⟩
        · exact absurd hhalts fun hboth => h.elim hboth.1 fun hoff => Bool.false_ne_true (hoff.symm.trans hboth.2)
        · rw [ht.held, hv.held, haltTaken_held_none (s := released e y r (begun pulse s)) rfl rfl]
          exact huheld
        · rw [ht.report, hv.haltCtl, haltTaken_haltCtl]
          change some s.seq.queue.length = _
          rw [hqueue, List.length_cons]
      | false =>
        obtain ⟨v, hv, ht⟩ := releases_halted_later (skipped := skipped) (pulse := pulse) hq hctx hexec hsrc hout hr hqx
          hhalts.1 hhalts.2 hfirst hulive hto rfl rfl hexamination hsteps
        refine ⟨by rw [ht.barrier, hv.barrier, haltTaken_barrier]; rfl, fun h => ?_, fun _ _ => ⟨by rw [ht.seq, hv.seq]; rfl,
          ht.latch (by rw [hv.haltCtl, haltTaken_eq]; exact Bool.or_true _),
          ⟨_, by rw [ht.report, hv.haltCtl, haltTaken_haltCtl], rfl, rfl, rfl⟩, nofun, fun _ => ⟨?_, ?_⟩⟩⟩
        · exact absurd hhalts fun hboth => h.elim hboth.1 fun hoff => Bool.false_ne_true (hoff.symm.trans hboth.2)
        · rw [ht.held, hv.held, haltTaken_held, huheld, ← hcycle, List.append_assoc]
          rfl
        · rw [ht.report, hv.haltCtl, haltTaken_haltCtl]
          rfl
    · have hfault : r.lateness = 0 ∨ s.cfg.lateHalts = false :=
        (Decidable.not_and_iff_or_not.mp hhalts).imp Decidable.not_not.mp (Bool.not_eq_true _).mp
      have ht := releases_to (skipped := skipped) (pulse := pulse) hq hctx hexec hsrc hout hr hqx hfault hto rfl rfl
        hexamination hsteps
      exact ⟨ht.barrier, fun _ => ⟨ht.seq.trans (released_start_seq s pulse e y r seg rest count d hout), ht.held.trans huheld,
        ht.haltCtl⟩, fun hlate hon => absurd ⟨hlate, hon⟩ hhalts⟩
  · obtain ⟨pulse, ht⟩ := releases_stopped hends hturns hlater hdue haxis hctx hexec hsrc hr hqx hlate hhalts hqueue hout
    obtain ⟨hheld, hreport, _⟩ := stopHalt_fields (setAxis .idle (released e y r (begun pulse s)))
    refine ⟨by rw [ht.seq]; rfl, ht.latch rfl, ⟨_, ht.report.trans hreport, rfl, rfl, rfl⟩, ?_⟩
    rw [ht.held, show ∀ x, (setLatch x).held = x.held from fun _ => rfl, hheld, haltRecords_none rfl rfl, List.append_nil,
      ← begun_cycle pulse s]
    exact congrArg (fun code => s.held ++ [recordOf e code _ 0 s.gen _]) (if_neg hlate)
  · obtain ⟨skipped, pulse, rfl, _⟩ := (cycleEnded_of_endsCycle hends).turns
    have hcycle := begun_cycle pulse s
    have hcfg : s.cfg = c := by rw [State.cfg, hconfig]; rfl
    obtain ⟨y, hy, ht⟩ := barrier_created (skipped := skipped) (pulse := pulse) hq haxis hexec hctx hqueue hbody hfree
      fun m hmember hown => hmembers m hmember hown
    have hbarrier : (afterTurns o skipped pulse s).barrier = { s.barrier with ctx := some y } := ht.same.barrier
    refine ⟨?_, ht.same.held, ht.same.haltCtl, by rw [hbarrier], y, by rw [hbarrier], ?_⟩
    · rw [← hcycle]
      exact ht.same.seq
    · have hsame := hy.same
      refine ⟨by rw [hsame]; rfl, by rw [hsame]; rfl, by rw [hsame]; rfl, by rw [hsame]; rfl, by rw [hsame]; rfl,
        fun m hmember hown hshows => hy.shown m ⟨hmember, hown, hshows⟩, fun m hm => hy.others m hm,
        fun hmissing => hy.incomplete hmissing, fun hall => hy.complete hall, fun halone => ?_⟩
      obtain ⟨_, _, _, _, _, _, hlow, hhigh, _⟩ := (settingsValid_iff s.id c).mp hvalid
      have hlead := releaseFor_lead (c := nextCycle s) hlow hhigh
      have hbcfg : (begun pulse s).cfg = c := hcfg
      rw [hy.alone halone, hcycle, hbcfg]
      exact congrArg some hlead
  · obtain ⟨skipped, pulse, rfl, _⟩ := (cycleEnded_of_endsCycle hends).turns
    have hcycle := begun_cycle pulse s
    obtain ⟨v, hv, ht⟩ := barrier_fails_at_start (skipped := skipped) (pulse := pulse) hq haxis hexec hctx hqueue hbody hfree
      hmember hown hgone hbefore
    refine ⟨?_, by rw [ht.seq, hv.seq]; rfl, by rw [ht.seq, hv.seq]; rfl,
      ht.latch (by rw [hv.haltCtl, haltTaken_eq]; exact Bool.or_true _),
      ⟨_, by rw [ht.report, hv.haltCtl, haltTaken_haltCtl], rfl, rfl, rfl⟩, ?_⟩
    · rw [ht.barrier, hv.barrier, haltTaken_barrier]
      change { s.barrier with ctx := none } = s.barrier
      rw [← hctx]
    · rw [ht.held, hv.held, haltTaken_last (e := { seg := seg, startCycle := (begun pulse s).timer.cycle, source := .none }) rfl,
        ← hcycle]
      rfl

end Sys2Proof.Claims
end

