-- ==== Sys2Proof/Proofs/RefusedSteps.lean ====
section
/-! PROOFS. A step that is refused, at its own command and inside a boundary (O33). -/

namespace Sys2Proof.Machine

open Sys2Proof.Claims

theorem completedRecords_first {s : State} {f : Finishing} {rest : List Outstanding} (h : s.seq.outstanding = .finishing f :: rest)
    (c : Cause) : (haltRecords c s)[0]? = some (s.finishingRecord f (c.codeFor .firstFinishing)) := by
  refine haltRecords_outstanding ?_
  rw [h]
  rfl

/-! ## Step 1 inside a boundary -/

/-- The state in which a HOME or PROBE that started at this boundary has its step 1 due. -/
def startedStepping (seg : Segment) (home : Option Position) (dir : Direction) (interval maxSteps : Nat) (rest : List Segment)
    (s : State) : State :=
  setExecSource (untimedStart seg home dir interval maxSteps s.timer.cycle)
    (.untimed (enterStepping (untimedSourceOf home dir interval maxSteps)))
    (startedPending seg home dir interval maxSteps rest s)

section Stepping

variable {s : State} {seg : Segment} {rest : List Segment} {home : Option Position} {dir : Direction}
  {interval maxSteps : Nat} (hout : s.seq.outstanding = [])
include hout

theorem startedStepping_head : (startedStepping seg home dir interval maxSteps rest s).seq.head =
    .untimed (enterStepping (untimedSourceOf home dir interval maxSteps)) :=
  head_untimed (finishing_nil hout) rfl rfl (fun h => by cases h)

/-- Its refusal may be taken inside the boundary. -/
theorem startedStepping_refuses {code : Code} (hraised : s.timer.raised = Raised.clear)
    (hsettled : anyLevelChange s = false) (hinactive : s.inputActive (if home.isSome then .home else .probe) = false)
    (hdir : s.gen.dirHigh = dir.high) (hsetup : s.gen.dirSetup = none) (hrefused : s.gen.refused = false)
    (hspacing : ∀ n, s.gen.spacing = some n → s.cfg.minStepUs ≤ n) (hrefusal : stepRefusal s = some code) :
    (if stepTurnOpen none (startedStepping seg home dir interval maxSteps rest s) .stepPulseBegin then
        stepTurn (startedStepping seg home dir interval maxSteps rest s) .stepPulseBegin
      else startedStepping seg home dir interval maxSteps rest s) =
      haltTaken (.segmentFault seg.seq code .executing) (startedStepping seg home dir interval maxSteps rest s) := by
  set x := startedStepping seg home dir interval maxSteps rest s with hx
  have hhead : x.seq.head = .untimed (enterStepping (untimedSourceOf home dir interval maxSteps)) := startedStepping_head hout
  have hxrefusal : stepRefusal x = some code := hrefusal
  have hopen : stepTurnOpen none x .stepPulseBegin = true := by
    unfold stepTurnOpen
    rw [hhead]
    simp [ownStartTurnOpen, hxrefusal]
  have hconditions : stepConditions x = true := (stepConditions_iff x).mpr
    ⟨rfl, hrefused, by rw [hhead]; rfl, hspacing, ⟨dir, by rw [hhead]; rfl, hdir.symm⟩, hsetup⟩
  have hlevels : stepLevelsSettled x = true := by
    unfold anyLevelChange at hsettled
    simp only [Bool.or_eq_false_iff] at hsettled
    obtain ⟨⟨⟨hhome, hprobe⟩, hlimp⟩, hlimn⟩ := hsettled
    have hgen : x.gen = s.gen := rfl
    simp [stepLevelsSettled, examinationLevelsSettled, hgen, hhome, hprobe, hlimp, hlimn]
  have hboundary : x.boundaryDue = false := by
    have hxraised : x.timer.raised = Raised.clear := hraised
    simp [State.boundaryDue, hxraised, Raised.clear]
  have hdue : stepPulseBeginDue x = true := by
    rw [stepPulseBeginDue, hboundary, hlevels, hconditions]
    rfl
  rw [if_pos hopen]
  change (if stepPulseBeginDue x then takeStep x else x) = _
  rw [if_pos hdue, takeStep_executing (s := x) (finishing_nil hout) rfl (fun u v hu hv => ?_),
    stepExecuting_refused hxrefusal rfl]
  · rfl
  · cases hu
    rw [show home = some v from hv] at hinactive
    exact hinactive

end Stepping

/-- The order's events at the head of the row. -/
theorem stepRow_heads {o : EventOrder} {e : StepTurn} {l : List StepTurn} (h : o.steps = e :: l) (before : Option Segment)
    (s : State) : ∃ rest, stepEventsTurn o before s =
      stepRow before rest (if stepTurnOpen before s e then stepTurn s e else s) := by
  refine ⟨(firsts l).filter (· ≠ e), ?_⟩
  rw [stepEventsTurn_eq, h]
  rfl

end Sys2Proof.Machine

namespace Sys2Proof.Claims

open Sys2Proof.Machine

/-- Step 1 of a HOME or PROBE that starts at a boundary is refused inside it. -/
theorem refused_at_start {o : EventOrder} {s t : State} {code : Code} {seg : Segment} {rest : List Segment}
    {home : Option Position} {dir : Direction} {interval maxSteps : Nat} {turns : List BoundaryTurn} {steps : List StepTurn}
    (hends : EndsCycle o s t) (hturns : o.turns = .motion :: .examination :: .stepEvents :: turns)
    (hsteps : o.steps = .stepPulseBegin :: steps) (haxis : s.seq.axis = .idle) (hexec : s.seq.exec = none)
    (hout : s.seq.outstanding = []) (hqueue : s.seq.queue = seg :: rest) (hfree : s.held.length < 16)
    (hbody : seg.body = untimedBody home dir interval maxSteps)
    (hinactive : s.inputActive (if home.isSome then .home else .probe) = false) (hdir : s.gen.dirHigh = dir.high)
    (hsetup : s.gen.dirSetup = none) (hrefused : s.gen.refused = false)
    (hspacing : ∀ n, s.gen.spacing = some n → s.cfg.minStepUs ≤ n) (hsettled : anyLevelChange s = false)
    (hrefusal : stepRefusal s = some code) : ∃ pulse, StandsAs (haltTaken (.segmentFault seg.seq code .executing)
      (startedStepping seg home dir interval maxSteps rest (begun pulse s))) t := by
  obtain ⟨skipped, pulse, rfl, _⟩ := (cycleEnded_of_endsCycle hends).turns
  obtain ⟨l, hl⟩ := turnsOf_heads hturns (by decide) (by decide) (by decide)
  have hstart : motionBoundary o.lateHaltFirst skipped (begun pulse s) =
      (startedPending seg home dir interval maxSteps rest (begun pulse s), none) :=
    motionBoundary_untimed (.refl _) haxis hexec hqueue (by rw [hout]; exact hfree) hbody _ _
  have hexamined : firstExamination (startedPending seg home dir interval maxSteps rest (begun pulse s)) =
      startedStepping seg home dir interval maxSteps rest (begun pulse s) := by
    rw [firstExamination_started (.refl _) (by exact hout), examineFirst_inactive (by exact hinactive)]
    rfl
  obtain ⟨row, hrow⟩ := stepRow_heads hsteps none (startedStepping seg home dir interval maxSteps rest (begun pulse s))
  rw [startedStepping_refuses (s := begun pulse s) hout rfl hsettled hinactive hdir hsetup hrefused hspacing hrefusal] at hrow
  have hrests := haltTaken_rests (.segmentFault seg.seq code .executing)
    (startedStepping seg home dir interval maxSteps rest (begun pulse s))
  have hstands := stepRow_stands hrests none row
  refine ⟨pulse, hstands.trans ?_⟩
  have hbefore : (cycleEnd skipped s).executing = none := by
    rw [cycleEnd, hexec]
    rfl
  rw [afterTurns_heads hl, hstart, ← hrow]
  have hturn : takeTurn o (cycleEnd skipped s) (takeTurn o (cycleEnd skipped s)
      (startedPending seg home dir interval maxSteps rest (begun pulse s), none) .examination) .stepEvents =
      (stepEventsTurn o none (startedStepping seg home dir interval maxSteps rest (begun pulse s)), none) := by
    rw [← hexamined, ← hbefore]
    rfl
  rw [hturn]
  exact turns_stand (x := (stepEventsTurn o none (startedStepping seg home dir interval maxSteps rest (begun pulse s)), none))
    (by rw [hrow]; exact hrests.of_stands hstands)

/-- Settles O33: a refused step is the halt of its segment's fault, at its command or inside the boundary. -/
theorem refusedStepHalts : Obligations.RefusedStepHalts := by
  refine ⟨fun s code hdue hcode => ⟨fun e hfin he hhome => ?_, fun f rest hout => ?_⟩,
    fun o s t code seg rest home dir interval maxSteps turns steps hends hturns hsteps haxis hexec hctx hout hqueue hfree hbody
      hinactive hdir hsetup hrefused hspacing hsettled hcode => ?_⟩
  · have hlive : s.seq.axis.live = true := by rw [axis_of_due hdue]; rfl
    refine ⟨_, haltReportOf (.segmentFault e.seg.seq code .executing) s, exec_stepPulseBegin hdue, ?_⟩
    rw [takeStep_executing hfin he hhome, stepExecuting_refused (stepRefusal_eq_some hcode) hlive]
    refine ⟨rfl, haltTaken_gen _ _, by rw [haltTaken_haltCtl], rfl, rfl, by rw [haltTaken_haltCtl]; exact Bool.or_true _, rfl,
      rfl, haltTaken_outstanding _ _, ?_⟩
    rw [haltTaken_last he]
    rfl
  · have hlive : s.seq.axis.live = true := by rw [axis_of_due hdue]; rfl
    refine ⟨_, exec_stepPulseBegin hdue, ?_⟩
    rw [takeStep_finishing (finishing_cons hout), stepFinishing_refused (stepRefusal_eq_some hcode) hlive]
    refine ⟨rfl, haltTaken_gen _ _, haltTaken_reports _ _, by rw [haltTaken_haltCtl]; exact Bool.or_true _, rfl, rfl,
      haltTaken_outstanding _ _, ?_, fun e he => ?_⟩
    · rw [haltTaken_held, List.getElem?_append_right le_rfl, Nat.sub_self, completedRecords_first hout]
      rfl
    · rw [haltTaken_last he]
      rfl
  · obtain ⟨pulse, ht⟩ := refused_at_start hends hturns hsteps haxis hexec hout hqueue hfree hbody hinactive hdir hsetup hrefused
      hspacing hsettled (stepRefusal_eq_some hcode)
    refine ⟨by rw [ht.seq]; rfl, ht.latch (by rw [haltTaken_haltCtl]; exact Bool.or_true _), ht.position.trans ?_,
      ⟨_, by rw [ht.report, haltTaken_haltCtl], rfl, rfl, rfl⟩, ?_, ?_⟩
    · rw [haltTaken_gen]
      rfl
    · rw [ht.report, haltTaken_haltCtl]
      rfl
    · rw [ht.held, haltTaken_held, haltRecords_alone (s := startedStepping seg home dir interval maxSteps rest (begun pulse s)) hout rfl,
        ← begun_cycle pulse s]
      rfl

end Sys2Proof.Claims
end

