-- ==== Sys2Proof/Proofs/HomeAndProbe.lean ====
section
/-! PROOFS. The end of a HOME or PROBE (O34). -/

namespace Sys2Proof.Machine

open Sys2Proof.Claims

/-! ## A halt after the segment has ended -/

/-- The axis is as `u` left it. -/
structure EndedAs (u x : State) : Prop where
  seq : x.seq = u.seq
  held : x.held = u.held
  position : x.gen.position = u.gen.position
  known : x.gen.known = u.gen.known
  report : x.haltCtl.report = u.haltCtl.report
  config : x.config = u.config

/-- A halt has found nothing executing and has discarded the queue. -/
structure HaltedAs (u x : State) : Prop where
  rests : Rests x
  held : x.held = u.held
  position : x.gen.position = u.gen.position
  known : x.gen.known = u.gen.known
  discarded : x.haltCtl.report.map (fun r => r.discarded) = some u.seq.queue.length
  config : x.config = u.config

/-- Station k is a stop-group member that was not LOST in `s` and is in `x`. -/
def NewlyLost (s x : State) (k : Station) : Prop :=
  inMask s.cfg.stopGroup k = true ∧ (s.entry k).presence ≠ .lost ∧ (x.entry k).presence = .lost

/-- The axis is as the end of the segment left it and no peer of the stop group is lost, or it is halted, with the latch set
where one is. -/
def AfterEnd (u x : State) : Prop :=
  (EndedAs u x ∧ ∀ k, ¬ NewlyLost u x k) ∨ (HaltedAs u x ∧ ∀ k, NewlyLost u x k → x.haltCtl.latch = true)

theorem cfg_eq {s t : State} (h : t.config = s.config) : t.cfg = s.cfg := by
  rw [State.cfg, h]
  rfl

theorem haltTaken_config (c : Cause) (s : State) : (haltTaken c s).config = s.config := (haltTaken_clock c s).station.config

theorem haltTaken_entry (c : Cause) (s : State) (k : Station) : (haltTaken c s).entry k = s.entry k := by
  rw [State.entry, haltTaken_peers]
  rfl

section After

variable {u x y : State}

/-- Any halt of an axis on which the segment has ended is one after the end. -/
theorem EndedAs.halt (h : EndedAs u x) (hexec : u.seq.exec = none) (hout : u.seq.outstanding = []) (c : Cause) :
    HaltedAs u (haltTaken c x) where
  rests := haltTaken_rests c x
  held := (haltTaken_held_none (by rw [h.seq]; exact hout) (by rw [h.seq]; exact hexec) c).trans h.held
  position := by rw [haltTaken_gen]; exact h.position
  known := by rw [haltTaken_gen]; exact h.known
  discarded := by
    rw [haltTaken_haltCtl]
    change some x.seq.queue.length = _
    rw [h.seq]
  config := (haltTaken_config c x).trans h.config

/-- What stands after a halt stays. -/
theorem HaltedAs.of_stands (h : HaltedAs u x) (hxy : StandsAs x y) (hconfig : y.config = x.config) : HaltedAs u y where
  rests := h.rests.of_stands hxy
  held := hxy.held.trans h.held
  position := hxy.position.trans h.position
  known := hxy.known.trans h.known
  discarded := by rw [hxy.report]; exact h.discarded
  config := hconfig.trans h.config

theorem NewlyLost.of_same {k : Station} (h : NewlyLost u y k) (hlost : (y.entry k).presence = .lost → (x.entry k).presence = .lost) :
    NewlyLost u x k := ⟨h.1, h.2.1, hlost h.2.2⟩

theorem NewlyLost.of_shown {k : Station} (h : NewlyLost u y k) (hshown : TableShown x y) : NewlyLost u x k :=
  h.of_same fun hlost => (hshown.entry k).presence.symm.trans hlost

end After

/-- A transition of a stop-group member leaves a HALTED axis with the latch set. -/
theorem handOn_latch {x : State} {k : Station} (hgroup : inMask x.cfg.stopGroup k = true) (haxis : x.seq.axis = .halted)
    (hctx : x.barrier.ctx = none) (b : Bool) : (handOn b k x).haltCtl.latch = true := by
  have hlost : haltPeerLost k x = setLatch x := by
    rw [haltPeerLost_of_member hgroup]
    unfold takeCause
    rw [haxis]
    rfl
  cases b with
  | true =>
    rw [handOn, if_pos rfl, barrierMemberLost_of_no_context hctx, hlost]
    rfl
  | false =>
    rw [handOn, if_neg Bool.false_ne_true, hlost, barrierMemberLost_of_no_context (s := setLatch x) hctx]
    rfl

/-- The failure of a barrier that a member's loss brings is a halt, or nothing. -/
theorem barrierMemberLost_live {x : State} (hlive : x.seq.axis.live = true) (k : Station) :
    barrierMemberLost k x = x ∨ ∃ c, barrierMemberLost k x = haltTaken c x := by
  unfold barrierMemberLost
  split
  · exact .inl rfl
  · rename_i y hctx
    split
    · exact .inl rfl
    · exact .inr ⟨_, failBarrier_of_live hctx hlive _⟩

/-- A transition hands on nothing to the axis, or a halt, after which the latch may be set. -/
theorem handOn_live {x : State} (hlive : x.seq.axis.live = true) (k : Station) (b : Bool) :
    (inMask x.cfg.stopGroup k = false ∧ handOn b k x = x) ∨
      ∃ c, StandsAs (haltTaken c x) (handOn b k x) ∧
        (inMask x.cfg.stopGroup k = true → (handOn b k x).haltCtl.latch = true) := by
  cases hgroup : inMask x.cfg.stopGroup k with
  | false =>
    have hkeep (z : State) (hz : z.cfg = x.cfg) : haltPeerLost k z = z := haltPeerLost_of_other (by rw [hz]; exact hgroup)
    have hon : handOn b k x = barrierMemberLost k x := by
      cases b with
      | true =>
        rw [handOn, if_pos rfl]
        exact hkeep _ (barrierMemberLost_clock k x).cfg
      | false => rw [handOn, if_neg Bool.false_ne_true, hkeep x rfl]
    rw [hon]
    obtain h | ⟨c, h⟩ := barrierMemberLost_live hlive k
    · exact .inl ⟨rfl, h⟩
    · exact .inr ⟨c, by rw [h]; exact .refl _, nofun⟩
  | true =>
    have htake (z : State) (hz : z.cfg = x.cfg) : haltPeerLost k z = takeCause (.fromPeer .peerLost k) z :=
      haltPeerLost_of_member (by rw [hz]; exact hgroup)
    have hlatch (c : Cause) : takeCause (.fromPeer .peerLost k) (haltTaken c x) = setLatch (haltTaken c x) := rfl
    refine .inr ?_
    cases b with
    | true =>
      rw [handOn, if_pos rfl, htake _ (barrierMemberLost_clock k x).cfg]
      obtain h | ⟨c, h⟩ := barrierMemberLost_live hlive k
      · rw [h, takeCause_of_live hlive]
        exact ⟨_, .refl _, fun _ => by rw [haltTaken_haltCtl]; exact Bool.or_true _⟩
      · rw [h, hlatch]
        exact ⟨c, setLatch_stands _, fun _ => rfl⟩
    | false =>
      rw [handOn, if_neg Bool.false_ne_true, htake x rfl, takeCause_of_live hlive,
        barrierMemberLost_of_no_context (by rw [haltTaken_barrier])]
      exact ⟨_, .refl _, fun _ => by rw [haltTaken_haltCtl]; exact Bool.or_true _⟩

section Changes

variable {u x y : State}

/-- Each change after a halt. -/
theorem HaltedAs.change (h : HaltedAs u x) (hlatched : ∀ k, NewlyLost u x k → x.haltCtl.latch = true)
    (hchange : CauseChange true x y) : HaltedAs u y ∧ ∀ k, NewlyLost u y k → y.haltCtl.latch = true := by
  have hstands := hchange.stands h.rests
  have hmotion (hm : Motion x y) : HaltedAs u y ∧ ∀ k, NewlyLost u y k → y.haltCtl.latch = true :=
    ⟨h.of_stands hstands (motion_frame hm).clock.station.config,
      fun k hk => hstands.latch (hlatched k (hk.of_shown hm.tableShown))⟩
  cases hchange with
  | other _ hcore =>
    exact ⟨h.of_stands hstands hcore.config, fun k hk => hstands.latch (hlatched k (hk.of_same (hcore.lost k)))⟩
  | cause c _ => exact hmotion (takeCause_motion c x)
  | fails code => exact hmotion (failBarrier_motion code x)
  | hostHalt _ => exact hmotion (takeCause_motion _ x)
  | flips _ => exact hmotion (flipStop_motion x)
  | leaves =>
    have hnone : leaveDisabled x = x := if_neg (by rw [h.rests.axis]; decide)
    rw [hnone]
    exact ⟨h, hlatched⟩
  | transition b k e =>
    refine ⟨h.of_stands hstands (motion_frame (handOn_motion b k (setChange k (setEntry k e x)))).clock.station.config,
      fun m hm => ?_⟩
    by_cases hmk : m = k
    · refine handOn_latch (x := setChange k (setEntry k e x)) ?_ h.rests.axis h.rests.ctx b
      rw [show (setChange k (setEntry k e x)).cfg = u.cfg from cfg_eq h.config, ← hmk]
      exact hm.1
    · refine hstands.latch (hlatched m (hm.of_same fun hlost => ?_))
      rw [handOn_entry, show (setChange k (setEntry k e x)).entry m = (setEntry k e x).entry m from rfl, setEntry_entry,
        if_neg hmk] at hlost
      exact hlost

/-- Each change of an axis on which the segment has ended. -/
theorem EndedAs.change (h : EndedAs u x) (hkept : ∀ k, ¬ NewlyLost u x k) (hlive : u.seq.axis.live = true)
    (hexec : u.seq.exec = none) (hout : u.seq.outstanding = []) (hchange : CauseChange true x y) : AfterEnd u y := by
  have hxlive : x.seq.axis.live = true := by rw [h.seq]; exact hlive
  have hhalt (c : Cause) : AfterEnd u (haltTaken c x) := .inr ⟨h.halt hexec hout c, fun k hk =>
    absurd (hk.of_same fun hlost => by rw [haltTaken_entry] at hlost; exact hlost) (hkept k)⟩
  cases hchange with
  | other _ hcore =>
    exact .inl ⟨⟨hcore.seq.trans h.seq, hcore.held.trans h.held, by rw [hcore.gen]; exact h.position,
      by rw [hcore.gen]; exact h.known, by rw [hcore.haltCtl]; exact h.report, hcore.config.trans h.config⟩,
      fun k hk => hkept k (hk.of_same (hcore.lost k))⟩
  | cause c _ =>
    rw [takeCause_of_live hxlive]
    exact hhalt c
  | fails code =>
    cases hctx : x.barrier.ctx with
    | none =>
      rw [failBarrier, hctx]
      exact .inl ⟨h, hkept⟩
    | some z =>
      rw [failBarrier_of_live hctx hxlive]
      exact hhalt _
  | hostHalt _ =>
    rw [takeCause_of_live hxlive]
    exact hhalt _
  | flips _ => exact .inl ⟨⟨h.seq, h.held, h.position, h.known, h.report, h.config⟩, fun k hk => hkept k (hk.of_same id)⟩
  | leaves =>
    have hnone : leaveDisabled x = x := if_neg fun hdisabled => by rw [hdisabled] at hxlive; cases hxlive
    rw [hnone]
    exact .inl ⟨h, hkept⟩
  | transition b k e =>
    have hz : EndedAs u (setChange k (setEntry k e x)) := ⟨h.seq, h.held, h.position, h.known, h.report, h.config⟩
    have hother {m : Station} (hm : NewlyLost u (setChange k (setEntry k e x)) m) : m = k := by
      by_contra hmk
      refine hkept m (hm.of_same fun hlost => ?_)
      rw [show (setChange k (setEntry k e x)).entry m = (setEntry k e x).entry m from rfl, setEntry_entry, if_neg hmk] at hlost
      exact hlost
    have hcfg : (setChange k (setEntry k e x)).cfg = u.cfg := cfg_eq h.config
    obtain ⟨hgroup, hnone⟩ | ⟨c, hstands, hlatch⟩ := handOn_live (x := setChange k (setEntry k e x)) hxlive k b
    · rw [hnone]
      refine .inl ⟨hz, fun m hm => ?_⟩
      rw [hcfg] at hgroup
      have hin := hm.1
      rw [hother hm, hgroup] at hin
      cases hin
    · refine .inr ⟨(hz.halt hexec hout c).of_stands hstands ?_, fun m hm => hlatch ?_⟩
      · rw [haltTaken_config]
        exact (motion_frame (handOn_motion b k (setChange k (setEntry k e x)))).clock.station.config
      · have hmk := hother (hm.of_same fun hlost => by rw [handOn_entry] at hlost; exact hlost)
        rw [hcfg, ← hmk]
        exact hm.1

theorem AfterEnd.causes (h : AfterEnd u x) (hlive : u.seq.axis.live = true) (hexec : u.seq.exec = none)
    (hout : u.seq.outstanding = []) (hcauses : Causes true x y) : AfterEnd u y := by
  induction hcauses with
  | refl => exact h
  | tail _ hchange ih =>
    obtain ⟨hended, hkept⟩ | ⟨hhalted, hlatched⟩ := ih
    · exact hended.change hkept hlive hexec hout hchange
    · exact .inr (hhalted.change hlatched hchange)

theorem AfterEnd.no_exec (h : AfterEnd u x) (hexec : u.seq.exec = none) : x.seq.exec = none := by
  obtain ⟨hended, _⟩ | ⟨hhalted, _⟩ := h
  · rw [hended.seq]
    exact hexec
  · exact hhalted.rests.exec

/-- The turns that are left after the motion's own keep to causes. -/
theorem AfterEnd.turns {o : EventOrder} {e : CycleEnd} {l : List BoundaryTurn} (h : AfterEnd u x)
    (hlive : u.seq.axis.live = true) (hexec : u.seq.exec = none) (hout : u.seq.outstanding = []) (hmotion : .motion ∉ l)
    (hsteps : .stepEvents ∉ l) : AfterEnd u (l.foldl (takeTurn o e) (x, none)).1 := by
  have hlast := turns_induct (o := o) (e := e) (l := l) (x := (x, none))
    (I := fun l x => AfterEnd u x.1 ∧ x.2 = none ∧ .motion ∉ l ∧ .stepEvents ∉ l) (fun b rest x h => by
      obtain ⟨hafter, hnone, hmotion, hsteps⟩ := h
      have hb : b ≠ .motion := fun hb => hmotion (hb ▸ List.mem_cons_self)
      refine ⟨?_, ?_, fun hmem => hmotion (List.mem_cons_of_mem b hmem), fun hmem => hsteps (List.mem_cons_of_mem b hmem)⟩
      · cases hmoves : movesAxis b with
        | false =>
          exact hafter.causes hlive hexec hout (takeTurn_causes hmoves (by rw [hnone]; exact nofun) nofun)
        | true =>
          cases b with
          | motion => exact absurd rfl hb
          | stepEvents => exact absurd List.mem_cons_self hsteps
          | examination =>
            rw [show (takeTurn o e x .examination).1 = x.1 from firstExamination_of_no_exec (hafter.no_exec hexec)]
            exact hafter
          | link | peers | lateHalt | stopInput | hostHalt | deadline | notes => cases hmoves
      · rw [takeTurn_raised hb, hnone, ite_self])
    ⟨h, rfl, hmotion, hsteps⟩
  exact hlast.1

end Changes

/-! ## A trip inside the boundary -/

/-- The state in which a PROBE has tripped. -/
def tripped (e : Executing) (u : UntimedSource) (s : State) : State :=
  endedWith (recordOf e .tripped s.timer.cycle u.emitted s.gen (.trip s.gen.position)) (flipInput .probe s)

theorem probeChanged_trips {s : State} {e : Executing} {u : UntimedSource} (he : s.seq.exec = some e)
    (hu : e.source = .untimed u) (hhome : u.home = none) (hphase : u.phase ≠ .pending) (hlast : u.lastProbe = false)
    (hconfig : s.config.isSome = true) (hlevel : s.gen.probe.level ≠ s.cfg.probeHigh) (hout : s.seq.outstanding = []) :
    probeChanged (flipInput .probe s) = tripped e u s := by
  have hactive : (flipInput .probe s).inputActive .probe = true := by
    rw [inputActive_flipped hconfig, decide_eq_true hlevel]
  have hwatch : watchProbe e u (flipInput .probe s) =
      endUntimed e .tripped (.trip (flipInput .probe s).gen.position) (flipInput .probe s) :=
    if_pos (by rw [hactive, hlast]; rfl)
  rw [probeChanged_watching (s := flipInput .probe s) he hu hhome hphase, hwatch,
    endUntimed_plain (s := flipInput .probe s) hout rfl, tripped]
  refine congrArg (endedWith · (flipInput .probe s)) ?_
  unfold State.execRecord recordOf
  rw [hu]
  rfl

/-- Once the segment of the ended cycle has ended, no further event of the row is open. -/
theorem stepRow_closed {before : Option Segment} {s : State} (hout : s.seq.outstanding = []) (hexec : s.seq.exec = none)
    (hbefore : before.isSome = true) (l : List StepTurn) : stepRow before l s = s := by
  have hclosed (e : StepTurn) : stepTurnOpen before s e = false := by
    unfold stepTurnOpen
    rw [head_exec (finishing_nil hout), finishing_nil hout, hexec]
    cases before with
    | none => cases hbefore
    | some a => rfl
  induction l with
  | nil => rfl
  | cons e l ih =>
    rw [stepRow, List.foldl_cons, hclosed e]
    exact ih

/-- A PROBE that the boundary finds stepping or closing is left as it is by the motion's turn. -/
theorem motionBoundary_untimed_on {s : State} {e : Executing} {u : UntimedSource} (he : s.seq.exec = some e)
    (hu : e.source = .untimed u) (haxis : s.seq.axis = .running) (late : Bool) (skipped : Nat) :
    motionBoundary late skipped s = (s, none) := by
  have hskip : joinSkipped skipped s = s := by
    unfold joinSkipped
    simp only [he, hu]
  have hstart : startAtBoundary false s = s := by
    unfold startAtBoundary
    rw [haxis]
    rfl
  unfold motionBoundary sequencerBoundary
  simp only [hskip, he, hu, hstart]

/-- The order's two first turns, and what is left holds neither. -/
theorem turnsOf_motion_steps {o : EventOrder} {l : List BoundaryTurn} (h : o.turns = .motion :: .stepEvents :: l) :
    ∃ rest, turnsOf o = .motion :: .stepEvents :: rest ∧ .motion ∉ rest ∧ .stepEvents ∉ rest := by
  obtain ⟨rest, hrest⟩ : ∃ rest, turnsOf o = .motion :: .stepEvents :: rest := by
    rw [turnsOf_of_head h]
    exact firsts_head_two (by decide) _
  have hnodup := turnsOf_nodup o
  rw [hrest, List.nodup_cons, List.nodup_cons] at hnodup
  obtain ⟨hmotion, hsteps, _⟩ := hnodup
  exact ⟨rest, hrest, fun hmem => hmotion (List.mem_cons_of_mem _ hmem), hsteps⟩

/-- A trip taken first in the row of step events closes the row. -/
theorem stepEventsTurn_trips {o : EventOrder} {s : State} {e : Executing} {u : UntimedSource} {steps : List StepTurn}
    (hsteps : o.steps = .probeChange :: steps) (he : s.seq.exec = some e) (hu : e.source = .untimed u) (hhome : u.home = none)
    (hphase : u.phase ≠ .pending) (hlast : u.lastProbe = false) (hconfig : s.config.isSome = true)
    (hlevel : s.gen.probe.level ≠ s.cfg.probeHigh) (hout : s.seq.outstanding = []) (hrun : 2 ≤ s.gen.probe.run)
    (hboundary : s.boundaryDue = false) : stepEventsTurn o (some e.seg) s = tripped e u s := by
  have hopen : stepTurnOpen (some e.seg) s .probeChange = true := by
    unfold stepTurnOpen
    rw [he]
    simp
  have hdue : filteredLevelChangeDue .probe s = true := by
    simp [filteredLevelChangeDue, levelChangeDue, StepGen.filter, hrun, hboundary]
  have hturn : stepTurn s .probeChange = tripped e u s :=
    (if_pos hdue).trans (probeChanged_trips he hu hhome hphase hlast hconfig hlevel hout)
  obtain ⟨rest, hrest⟩ := stepRow_heads hsteps (some e.seg) s
  rw [hrest, if_pos hopen, hturn]
  exact stepRow_closed rfl rfl rfl rest

theorem begun_not_due (pulse : Option Nat) (s : State) : (begun pulse s).boundaryDue = false := rfl

/-! ## The closing tick -/

theorem exec_closingTick {s : State} (h : closingTickDue s = true) : exec .closingTick s = .next (closeSegment s) :=
  congrArg Host.Outcome.next (if_pos h)

section Closing

variable {s : State} {e : Executing} {u : UntimedSource} (hout : s.seq.outstanding = []) (hu : e.source = .untimed u)
include hout hu

theorem endHomed_untimed (v : Position) : endHomed e v s =
    endedWith (recordOf e .homed s.timer.cycle u.emitted { s.gen with position := v, known := true } .none)
      (s.setGen { s.gen with position := v, known := true }) := by
  rw [endHomed_alone hout, hu]
  rfl

theorem endHomeFailed_untimed : endHomeFailed e s = haltTaken (.segmentFault e.seg.seq .homeFailed .ended)
    (endedWith (recordOf e .homeFailed s.timer.cycle u.emitted { s.gen with known := false } .none)
      (s.setGen { s.gen with known := false })) := by
  rw [endHomeFailed, endUntimed_halting (s := s.setGen { s.gen with known := false }) hout rfl, State.execRecord, hu]
  rfl

theorem probeMiss_untimed : endUntimed e .probeMiss .none s =
    if s.cfg.probeMissHalts then haltTaken (.segmentFault e.seg.seq .probeMiss .ended)
      (endedWith (recordOf e .probeMiss s.timer.cycle u.emitted s.gen .none) s)
    else endedWith (recordOf e .probeMiss s.timer.cycle u.emitted s.gen .none) s := by
  have hrecord : s.execRecord e .probeMiss .none = recordOf e .probeMiss s.timer.cycle u.emitted s.gen .none := by
    rw [State.execRecord, hu]
    rfl
  cases hhalts : s.cfg.probeMissHalts with
  | true => rw [endUntimed_halting (code := .probeMiss) hout hhalts, hrecord, if_pos rfl]
  | false => rw [endUntimed_plain (code := .probeMiss) hout hhalts, hrecord, if_neg Bool.false_ne_true]

end Closing

end Sys2Proof.Machine

namespace Sys2Proof.Claims

open Sys2Proof.Machine

/-- The four outcomes of the closing tick. -/
theorem closing_ends {s : State} {e : Executing} {u : UntimedSource} (hout : s.seq.outstanding = [])
    (he : s.seq.exec = some e) (hu : e.source = .untimed u) :
    (∀ v, u.home = some v → s.inputActive .home = true → closeSegment s =
      endedWith (recordOf e .homed s.timer.cycle u.emitted { s.gen with position := v, known := true } .none)
        (s.setGen { s.gen with position := v, known := true })) ∧
    (∀ v, u.home = some v → s.inputActive .home = false → closeSegment s =
      haltTaken (.segmentFault e.seg.seq .homeFailed .ended)
        (endedWith (recordOf e .homeFailed s.timer.cycle u.emitted { s.gen with known := false } .none)
          (s.setGen { s.gen with known := false }))) ∧
    (u.home = none → closeSegment s =
      if s.cfg.probeMissHalts then haltTaken (.segmentFault e.seg.seq .probeMiss .ended)
        (endedWith (recordOf e .probeMiss s.timer.cycle u.emitted s.gen .none) s)
      else endedWith (recordOf e .probeMiss s.timer.cycle u.emitted s.gen .none) s) := by
  refine ⟨fun v hv hactive => ?_, fun v hv hinactive => ?_, fun hv => ?_⟩
  · rw [closeSegment_home he hu hv, hactive, if_pos rfl, endHomed_untimed hout hu]
  · rw [closeSegment_home he hu hv, hinactive, if_neg Bool.false_ne_true, endHomeFailed_untimed hout hu]
  · rw [closeSegment_probe he hu hv, probeMiss_untimed hout hu]

/-- The closing tick leaves the timer, the link, the peers and the notes, and no executing segment. -/
theorem closing_frame {s : State} {e : Executing} {u : UntimedSource} (hout : s.seq.outstanding = [])
    (he : s.seq.exec = some e) (hu : e.source = .untimed u) : (closeSegment s).seq.exec = none ∧
      (closeSegment s).timer = s.timer ∧ (closeSegment s).link = s.link ∧ (closeSegment s).peers = s.peers ∧
      (closeSegment s).notes = s.notes := by
  obtain ⟨hhomed, hfailed, hmissed⟩ := closing_ends hout he hu
  have hhalted (c : Cause) (r : Record) (g : StepGen) : (haltTaken c (endedWith r (s.setGen g))).seq.exec = none ∧
      (haltTaken c (endedWith r (s.setGen g))).timer = s.timer ∧ (haltTaken c (endedWith r (s.setGen g))).link = s.link ∧
      (haltTaken c (endedWith r (s.setGen g))).peers = s.peers ∧ (haltTaken c (endedWith r (s.setGen g))).notes = s.notes :=
    ⟨(haltTaken_rests _ _).exec, (haltTaken_clock _ _).timer, (haltTaken_clock _ _).link, haltTaken_peers _ _,
      haltTaken_notes _ _⟩
  cases hhome : u.home with
  | some v =>
    cases hactive : s.inputActive .home with
    | true =>
      rw [hhomed v hhome hactive]
      exact ⟨rfl, rfl, rfl, rfl, rfl⟩
    | false =>
      rw [hfailed v hhome hactive]
      exact hhalted _ _ _
  | none =>
    rw [hmissed hhome]
    split
    · exact hhalted _ _ s.gen
    · exact ⟨rfl, rfl, rfl, rfl, rfl⟩

/-- What a trip at a boundary leaves, when its turn is taken first. -/
theorem tripped_at_boundary {o : EventOrder} {s t : State} {e : Executing} {u : UntimedSource} {turns : List BoundaryTurn}
    {steps : List StepTurn} (hends : EndsCycle o s t) (hturns : o.turns = .motion :: .stepEvents :: turns)
    (hsteps : o.steps = .probeChange :: steps) (haxis : s.seq.axis = .running) (hout : s.seq.outstanding = [])
    (he : s.seq.exec = some e) (hu : e.source = .untimed u) (hhome : u.home = none) (hphase : u.phase ≠ .pending)
    (hlast : u.lastProbe = false) (hconfig : s.config.isSome = true) (hrun : 2 ≤ s.gen.probe.run)
    (hlevel : s.gen.probe.level ≠ s.cfg.probeHigh) : ∃ pulse, AfterEnd (tripped e u (begun pulse s)) t := by
  obtain ⟨skipped, pulse, rfl, _⟩ := (cycleEnded_of_endsCycle hends).turns
  obtain ⟨rest, hrest, hmotion, hstepEvents⟩ := turnsOf_motion_steps hturns
  refine ⟨pulse, ?_⟩
  have hbefore : (cycleEnd skipped s).executing = some e.seg := by
    rw [cycleEnd, he]
    rfl
  have htrip : stepEventsTurn o (cycleEnd skipped s).executing (begun pulse s) = tripped e u (begun pulse s) := by
    rw [hbefore]
    exact stepEventsTurn_trips (s := begun pulse s) hsteps he hu hhome hphase hlast hconfig hlevel hout hrun
      (begun_not_due pulse s)
  have hrow : afterTurns o skipped pulse s =
      (rest.foldl (takeTurn o (cycleEnd skipped s)) (tripped e u (begun pulse s), none)).1 := by
    unfold afterTurns
    rw [hrest, List.foldl_cons, List.foldl_cons]
    have hfirst : takeTurn o (cycleEnd skipped s) (begun pulse s, none) .motion = (begun pulse s, none) :=
      motionBoundary_untimed_on (s := begun pulse s) he hu haxis _ _
    have hsecond : takeTurn o (cycleEnd skipped s) (begun pulse s, none) .stepEvents =
        (tripped e u (begun pulse s), none) := congrArg (·, none) htrip
    rw [hfirst, hsecond]
  rw [hrow]
  exact AfterEnd.turns (.inl ⟨⟨rfl, rfl, rfl, rfl, rfl, rfl⟩, fun k hk => hk.2.1 hk.2.2⟩) rfl rfl rfl hmotion hstepEvents

/-- Settles O34: a HOME or PROBE ends before a due step, at the closing tick, or by a trip inside the boundary. -/
theorem homeAndProbeEnd : Obligations.HomeAndProbeEnd := by
  refine ⟨fun s e u v hdue hout he hu hv hactive => ?_, fun s e u hdue hout he hu _ => ?_,
    fun o s t e u turns steps hends hturns hsteps haxis hout he hu hhome hphase hlast hconfig hrun hlevel => ?_⟩
  · rw [exec_stepPulseBegin hdue, takeStep_homed (finishing_nil hout) he hu hv hactive, endHomed_untimed hout hu]
    rfl
  · obtain ⟨hhomed, hfailed, hmissed⟩ := closing_ends hout he hu
    refine ⟨_, exec_closingTick hdue, fun v hv hactive => ?_, fun v hv hinactive => ?_, fun hv => ?_, closing_frame hout he hu⟩
    · rw [hhomed v hv hactive]
      exact ⟨rfl, rfl, rfl⟩
    · rw [hfailed v hv hinactive]
      refine ⟨rfl, ?_, ?_, haltTaken_held_none rfl rfl _, _, by rw [haltTaken_haltCtl], rfl, rfl⟩
      · rw [haltTaken_gen]
        rfl
      · rw [haltTaken_gen]
        rfl
    · rw [hmissed hv]
      split
      · refine ⟨rfl, ?_, ?_, haltTaken_held_none rfl rfl _⟩
        · rw [haltTaken_gen]
          rfl
        · rw [haltTaken_gen]
          rfl
      · exact ⟨rfl, rfl, rfl, rfl⟩
  · obtain ⟨pulse, hafter⟩ := tripped_at_boundary hends hturns hsteps haxis hout he hu hhome hphase hlast hconfig hrun hlevel
    have hheld : (tripped e u (begun pulse s)).held =
        s.held ++ [recordOf e .tripped (nextCycle s) u.emitted s.gen (.trip s.gen.position)] := by
      rw [← begun_cycle pulse s]
      rfl
    obtain ⟨hended, hkept⟩ | ⟨hhalted, hlatched⟩ := hafter
    · have hseq := hended.seq
      refine ⟨hended.held.trans hheld, by rw [hseq]; rfl, by rw [hseq]; rfl, hended.position, hended.known,
        .inl ⟨by rw [hseq]; rfl, by rw [hseq]; rfl, hended.report⟩, fun k hgroup hon hlost => ?_⟩
      refine absurd ⟨hgroup, fun h => ?_, hlost⟩ (hkept k)
      have hpresence : (s.entry k).presence = .lost := h
      rw [hpresence] at hon
      obtain h | h := hon <;> cases h
    · refine ⟨hhalted.held.trans hheld, hhalted.rests.exec, hhalted.rests.outstanding, hhalted.position, hhalted.known,
        .inr ⟨hhalted.rests.axis, hhalted.rests.queue, hhalted.discarded⟩, fun k hgroup hon hlost =>
          ⟨hhalted.rests.axis, hlatched k ⟨hgroup, fun h => ?_, hlost⟩⟩⟩
      have hpresence : (s.entry k).presence = .lost := h
      rw [hpresence] at hon
      obtain h | h := hon <;> cases h

end Sys2Proof.Claims
end

