-- ==== Sys2Proof/Proofs/CounterKept.lean ====
section
/-! PROOFS. What leaves the counter, its flag and the step pulse alone: every cause, every frame, every start, and every
command but the few that step, home or set the counter. -/

namespace Sys2Proof.Machine

open Sys2Proof.Claims

/-! ## Causes -/

/-- Nothing has stepped and no segment has gone on: at most the axis state differs, or a halt has ended all work. -/
structure Still (s t : State) : Prop where
  cycle : t.timer.cycle = s.timer.cycle
  config : t.config = s.config
  held : s.held <+: t.held
  rests : Rests s → Rests t
  kept : (t.gen = s.gen ∧ t.seq = { s.seq with axis := t.seq.axis }) ∨
    (Rests t ∧ t.gen = { s.gen with dirSetup := none, refused := false })

theorem Still.refl (s : State) : Still s s := ⟨rfl, rfl, List.prefix_rfl, id, .inl ⟨rfl, rfl⟩⟩

theorem Still.trans {s t u : State} (h : Still s t) (k : Still t u) : Still s u := by
  refine ⟨k.cycle.trans h.cycle, k.config.trans h.config, h.held.trans k.held, fun hs => k.rests (h.rests hs), ?_⟩
  obtain ⟨hgen, hseq⟩ | ⟨hrests, hgen⟩ := h.kept
  · obtain ⟨kgen, kseq⟩ | ⟨krests, kgen⟩ := k.kept
    · exact .inl ⟨kgen.trans hgen, by rw [kseq, hseq]⟩
    · exact .inr ⟨krests, by rw [kgen, hgen]⟩
  · refine .inr ⟨k.rests hrests, ?_⟩
    obtain ⟨kgen, _⟩ | ⟨_, kgen⟩ := k.kept
    · rw [kgen, hgen]
    · rw [kgen, hgen]

theorem SameMotion.still {s t : State} (h : SameMotion s t) : Still s t where
  cycle := h.cycle
  config := h.config
  held := by rw [h.held]
  rests hs := ⟨by rw [h.seq]; exact hs.axis, by rw [h.seq]; exact hs.exec, by rw [h.seq]; exact hs.outstanding,
    by rw [h.seq]; exact hs.queue, by rw [h.barrier]; exact hs.ctx⟩
  kept := .inl ⟨h.gen, by rw [h.seq]⟩

theorem TableFrame.still {s t : State} (h : TableFrame s t) : Still s t where
  cycle := by rw [h.clock.timer]
  config := h.clock.station.config
  held := by rw [h.held]
  rests hs := ⟨by rw [h.seq]; exact hs.axis, by rw [h.seq]; exact hs.exec, by rw [h.seq]; exact hs.outstanding,
    by rw [h.seq]; exact hs.queue, by rw [h.barrier]; exact hs.ctx⟩
  kept := .inl ⟨h.gen, by rw [h.seq]⟩

theorem haltTaken_still (c : Cause) (s : State) : Still s (haltTaken c s) where
  cycle := by rw [(haltTaken_clock c s).timer]
  config := haltTaken_config c s
  held := by rw [haltTaken_held]; exact List.prefix_append _ _
  rests _ := haltTaken_rests c s
  kept := .inr ⟨haltTaken_rests c s, haltTaken_gen c s⟩

theorem setLatch_still (s : State) : Still s (setLatch s) :=
  ⟨rfl, rfl, List.prefix_rfl, fun h => ⟨h.axis, h.exec, h.outstanding, h.queue, h.ctx⟩, .inl ⟨rfl, rfl⟩⟩

theorem takeCause_still (c : Cause) (s : State) : Still s (takeCause c s) := by
  rcases takeCause_cases c s with ⟨_, _, h⟩ | ⟨_, h⟩ | ⟨_, h⟩ <;> rw [h]
  · exact haltTaken_still c s
  · split
    · exact setLatch_still s
    · exact .refl s
  · split
    · exact setLatch_still s
    · exact .refl s

/-- A context is written only where one is. -/
theorem setBarrier_still {s : State} {x : BarrierCtx} (h : s.barrier.ctx = some x) (b : BarrierUnit) :
    Still s (s.setBarrier b) :=
  ⟨rfl, rfl, List.prefix_rfl, fun hs => (by cases h.symm.trans hs.ctx), .inl ⟨rfl, rfl⟩⟩

theorem failBarrier_still (code : Code) (s : State) : Still s (failBarrier code s) := by
  unfold failBarrier
  split
  · exact .refl s
  · rename_i x hx
    exact (setBarrier_still hx _).trans (takeCause_still _ _)

theorem barrierFrame_still (m : Station) (v : PeerView) (s : State) : Still s (barrierFrame m v s) := by
  unfold barrierFrame
  split
  · exact .refl s
  · rename_i x hx
    split
    · exact .refl s
    · split
      · exact failBarrier_still _ s
      · exact setBarrier_still hx _
      · exact (setBarrier_still hx _).trans (failBarrier_still _ _)

theorem barrierMemberLost_still (m : Station) (s : State) : Still s (barrierMemberLost m s) := by
  unfold barrierMemberLost
  split
  · exact .refl s
  · split
    · exact .refl s
    · exact failBarrier_still _ s

theorem fillFrom_still (s : State) (m : Station) : Still s (fillFrom s m) := by
  unfold fillFrom
  split
  · exact .refl s
  · split
    · exact .refl s
    · split
      · exact failBarrier_still _ s
      · exact failBarrier_still _ s
      · exact .refl s
      · exact barrierFrame_still _ _ s
      · exact barrierFrame_still _ _ s

theorem fill_still (l : List Station) (s : State) : Still s (l.foldl fillFrom s) := by
  induction l generalizing s with
  | nil => exact .refl s
  | cons m l ih => exact (fillFrom_still s m).trans (ih _)

theorem completeAtCreation_still (s : State) : Still s (completeAtCreation s) := by
  unfold completeAtCreation
  split
  · exact .refl s
  · rename_i x hx
    split
    · exact .refl s
    · exact setBarrier_still hx _

theorem haltPeerLost_still (k : Station) (s : State) : Still s (haltPeerLost k s) := by
  unfold haltPeerLost
  split
  · exact takeCause_still _ s
  · exact .refl s

theorem haltFrame_still (k : Station) (v : PeerView) (s : State) : Still s (haltFrame k v s) := by
  unfold haltFrame
  split
  · exact takeCause_still _ s
  · exact .refl s

theorem handOn_still (b : Bool) (k : Station) (s : State) : Still s (handOn b k s) := by
  unfold handOn
  split
  · exact (barrierMemberLost_still k s).trans (haltPeerLost_still k _)
  · exact (haltPeerLost_still k s).trans (barrierMemberLost_still k _)

theorem leaveDisabled_still (s : State) : Still s (leaveDisabled s) := by
  unfold leaveDisabled
  split
  · rename_i haxis
    split
    · exact haltTaken_still _ s
    · split
      · exact haltTaken_still _ s
      · exact ⟨rfl, rfl, List.prefix_rfl, fun h => (by cases haxis.symm.trans h.axis), .inl ⟨rfl, rfl⟩⟩
  · exact .refl s

theorem transition_still (b : Bool) (k : Station) (e : PeerEntry) (s : State) :
    Still s (handOn b k (setChange k (setEntry k e s))) :=
  (SameMotion.still (s := s) (t := setChange k (setEntry k e s)) ⟨rfl, rfl, rfl, rfl, rfl, rfl, rfl, rfl⟩).trans (handOn_still b k _)

theorem CauseChange.still {outside : Bool} {s t : State} (h : CauseChange outside s t) : Still s t := by
  cases h with
  | other _ hcore => exact hcore.toSameMotion.still
  | cause c _ => exact takeCause_still c s
  | fails code => exact failBarrier_still code s
  | transition b k e => exact transition_still b k e s
  | leaves => exact leaveDisabled_still s
  | flips _ =>
    exact ⟨rfl, rfl, List.prefix_rfl, fun hs => ⟨hs.axis, hs.exec, hs.outstanding, hs.queue, hs.ctx⟩, .inl ⟨rfl, rfl⟩⟩
  | hostHalt _ => exact takeCause_still _ s

theorem Causes.still {outside : Bool} {s t : State} (h : Causes outside s t) : Still s t := by
  induction h with
  | refl => exact .refl s
  | tail _ hchange ih => exact ih.trans hchange.still

/-! ## Frames -/

theorem setLink_still (x : Link) (s : State) : Still s (s.setLink x) :=
  SameMotion.still (t := s.setLink x) ⟨rfl, rfl, rfl, rfl, rfl, rfl, rfl, rfl⟩

theorem acceptFrame_still {k : Station} {s : State} (hown : k ≠ s.id) (hn : k.val < s.stationCount) (b : Bool) (f : Frame) :
    Still s (acceptFrame b k f s) := by
  have hrecord : Still s (recordFrame k f.view s) := (tables_frame (recordFrame_tables hown hn f.view)).still
  have hfaults : Still (recordFrame k f.view s) (if b then haltFrame k f.view (barrierFrame k f.view (recordFrame k f.view s))
      else barrierFrame k f.view (haltFrame k f.view (recordFrame k f.view s))) := by
    split
    · exact (barrierFrame_still k _ _).trans (haltFrame_still k _ _)
    · exact (haltFrame_still k _ _).trans (barrierFrame_still k _ _)
  have hnotes (u : State) : Still u (noteReceiverFrame k f (noteSenderFrame k f u)) :=
    (tables_frame (noteSenderFrame_tables k f u)).still.trans (tables_frame (noteReceiverFrame_tables k f _)).still
  exact hrecord.trans (hfaults.trans (hnotes _))

theorem adoptionRule_still (f : Frame) (s : State) : Still s (adoptionRule f s) := by
  unfold adoptionRule
  split
  · exact ⟨rfl, rfl, List.prefix_rfl, fun h => ⟨h.axis, h.exec, h.outstanding, h.queue, h.ctx⟩, .inl ⟨rfl, rfl⟩⟩
  · exact .refl s

theorem handleFrame_still {k : Station} {s : State} (hown : k ≠ s.id) (hn : k.val < s.stationCount) (b : Bool) (f : Frame) :
    Still s (handleFrame b k f s) := by
  unfold handleFrame
  split
  · split
    · have hstation := adoptionRule_station f s
      exact (adoptionRule_still f s).trans
        (acceptFrame_still (by rw [hstation.id]; exact hown) (by rw [hstation.stationCount]; exact hn) b f)
    · split
      · exact (setLink_still _ s).trans (acceptFrame_still (s := noteAgreed s) hown hn b f)
      · exact setLink_still _ s
    · split
      · exact acceptFrame_still hown hn b f
      · exact .refl s
    · exact .refl s
    · exact .refl s
  · unfold profileMismatch
    split
    · exact .refl s
    · exact transition_still b k _ s

theorem validFrame_still {k : Station} {s : State} (hn : k.val < s.stationCount) (b : Bool) (f : Frame) :
    Still s (validFrame b k f s) := by
  have hcounting : Still s (if k = s.id then s else handleFrame b k f s) := by
    split
    · exact .refl s
    · rename_i hown
      exact handleFrame_still hown hn b f
  unfold validFrame
  split
  · exact .refl s
  · split
    · unfold candidateRule
      split
      · split
        · exact setLink_still _ s
        · exact .refl s
      · exact setLink_still _ s
    · exact .refl s
  all_goals exact hcounting

theorem receiveFrame_still (b : Bool) (start : Nat) (chars : List RxChar) (s : State) :
    Still s (receiveFrame b start chars s) := by
  unfold receiveFrame
  dsimp only
  split
  · exact setLink_still _ s
  · rename_i k hk
    exact (setLink_still _ s).trans (validFrame_still (s := s.setLink { s.link with rx := .waiting }) (validSlot_eq_some hk) b _)

/-! ## The counter and the pulse -/

/-- The counter and its flag are kept, and no step pulse has begun. -/
structure CounterKept (s t : State) : Prop where
  position : t.gen.position = s.gen.position
  known : t.gen.known = s.gen.known
  pulse : s.gen.pulse = none → t.gen.pulse = none

theorem CounterKept.refl (s : State) : CounterKept s s := ⟨rfl, rfl, id⟩

theorem CounterKept.trans {s t u : State} (h : CounterKept s t) (k : CounterKept t u) : CounterKept s u :=
  ⟨k.position.trans h.position, k.known.trans h.known, fun hp => k.pulse (h.pulse hp)⟩

theorem CounterKept.of_gen {s t : State} (h : t.gen = s.gen) : CounterKept s t :=
  ⟨by rw [h], by rw [h], fun hp => by rw [h]; exact hp⟩

theorem CounterKept.ite {s t : State} {c : Prop} [Decidable c] (h : CounterKept s t) : CounterKept s (if c then t else s) := by
  split
  · exact h
  · exact .refl s

theorem Still.counterKept {s t : State} (h : Still s t) : CounterKept s t := by
  obtain ⟨hgen, _⟩ | ⟨_, hgen⟩ := h.kept
  · exact .of_gen hgen
  · exact ⟨by rw [hgen], by rw [hgen], fun hp => by rw [hgen]; exact hp⟩

theorem endUntimed_counterKept (e : Executing) (code : Code) (part : RecordPart) (s : State) :
    CounterKept s (endUntimed e code part s) := by
  have hended : CounterKept s (setAxis .idle (writeExecRecord (s.execRecord e code part) s)) := .of_gen rfl
  unfold endUntimed
  dsimp only
  split
  · exact hended.trans (takeCause_still _ _).counterKept
  · exact hended

theorem changeLevel_counterKept (i : AxisInput) (s : State) : CounterKept s (changeLevel i s) := by
  have hflip : CounterKept s (flipInput i s) := by cases i <;> exact ⟨rfl, rfl, id⟩
  cases i with
  | probe =>
    refine hflip.trans ?_
    change CounterKept _ (probeChanged (flipInput .probe s))
    unfold probeChanged watchProbe
    split
    · exact .refl _
    · split
      · split
        · split
          · exact endUntimed_counterKept _ _ _ _
          · exact .of_gen rfl
        · exact .refl _
      · exact .refl _
  | home | limp | limn => exact hflip

theorem fallDue_gen (s : State) : (fallDue s).gen = s.gen := by
  unfold fallDue
  split
  · rfl
  · split <;> rfl

theorem fallDueUntimed_gen (s : State) : (fallDueUntimed s).gen = s.gen := by
  unfold fallDueUntimed
  split
  · rfl
  · split <;> rfl

/-! ## Requests -/

theorem respond_counterKept (a : Answer) (r : List Byte) (n : Nat) (s : State) : CounterKept s (respond a r n s) := .of_gen rfl

theorem clockRequest_counterKept {take : List Byte → State → State} (htake : ∀ ps s, CounterKept s (take ps s)) (code : Byte)
    (needs : List Byte → Nat) (bytes : List Byte) (s : State) : CounterKept s (clockRequest code needs bytes take s) := by
  rcases clockRequest_cases code needs bytes take s with ⟨_, h⟩ | ⟨ps, _, ⟨_, h⟩ | ⟨_, h⟩⟩
  · rw [h]
    exact .refl s
  · rw [h]
    exact .of_gen rfl
  · rw [h]
    exact (CounterKept.of_gen (s := s) (t := holdParams code _ s) rfl).trans (htake _ _)

theorem clockPlain_counterKept {take : State → State} (htake : ∀ s, CounterKept s (take s)) (code : Byte) (s : State) :
    CounterKept s (clockPlain code take s) := by
  rcases clockPlain_cases code take s with ⟨_, h⟩ | ⟨_, h⟩
  · rw [h]
    exact (CounterKept.of_gen (s := s) (t := holdParams code [] s) rfl).trans (htake _)
  · rw [h]
    exact .refl s

theorem takeStart_counterKept (s : State) : CounterKept s (takeStart s) := by
  unfold takeStart
  split
  · exact .of_gen rfl
  · split <;> exact .of_gen rfl

theorem takeRestart_counterKept (s : State) : CounterKept s (takeRestart s) := by
  unfold takeRestart
  split
  · exact .of_gen rfl
  · exact ⟨rfl, rfl, id⟩

theorem takeHalt_counterKept (s : State) : CounterKept s (takeHalt s) := by
  unfold takeHalt
  split
  · exact .of_gen rfl
  · exact (takeCause_still _ s).counterKept.trans (respond_counterKept _ _ _ _)

theorem takeClearHalt_counterKept (s : State) : CounterKept s (takeClearHalt s) := by
  unfold takeClearHalt
  split <;> exact .of_gen rfl

theorem takeReadCompletion_counterKept (s : State) : CounterKept s (takeReadCompletion s) := by
  unfold takeReadCompletion
  split <;> exact .of_gen rfl

theorem takeReadHaltReport_counterKept (s : State) : CounterKept s (takeReadHaltReport s) := by
  unfold takeReadHaltReport
  split <;> exact .of_gen rfl

theorem takeReadPeerChanges_counterKept (s : State) : CounterKept s (takeReadPeerChanges s) := by
  unfold takeReadPeerChanges
  split <;> exact .of_gen rfl

theorem takeReadNote_counterKept (s : State) : CounterKept s (takeReadNote s) := by
  unfold takeReadNote
  split <;> exact .of_gen rfl

theorem takeReadPeer_counterKept (ps : List Byte) (s : State) : CounterKept s (takeReadPeer ps s) := by
  unfold takeReadPeer
  split <;> exact .of_gen rfl

theorem takeReadNoteSlot_counterKept (ps : List Byte) (s : State) : CounterKept s (takeReadNoteSlot ps s) := by
  unfold takeReadNoteSlot
  split <;> exact .of_gen rfl

theorem takeConfigure_counterKept (ps : List Byte) (s : State) : CounterKept s (takeConfigure ps s) := by
  unfold takeConfigure
  split
  · exact .of_gen rfl
  · split <;> exact .of_gen rfl

theorem takeQueueSegment_counterKept (ps : List Byte) (s : State) : CounterKept s (takeQueueSegment ps s) := by
  unfold takeQueueSegment
  split
  · exact .of_gen rfl
  · split
    · exact .of_gen rfl
    · split
      · exact .of_gen rfl
      · split
        · exact .of_gen rfl
        · split <;> exact .of_gen rfl

theorem takeSendNote_counterKept (ps : List Byte) (s : State) : CounterKept s (takeSendNote ps s) := by
  unfold takeSendNote
  split
  · exact .of_gen rfl
  · split
    · split <;> exact .of_gen rfl
    · exact .of_gen rfl

theorem takeReleaseNoteSlot_counterKept (ps : List Byte) (s : State) : CounterKept s (takeReleaseNoteSlot ps s) := by
  unfold takeReleaseNoteSlot
  split
  · split <;> exact .of_gen rfl
  · exact .of_gen rfl

/-! ## Every other command -/

/-- The commands that may begin a step, or write the counter or its flag. -/
def movesCounter : Instr → Bool
  | .deviceReset _ | .runOut _ | .stretchedRunOut _ | .syncFallingEdge _ | .closingTick | .stepPulseBegin | .setPosition _ => true
  | _ => false

theorem completeAnswer_gen (s : State) : (completeAnswer s).gen = s.gen := by
  unfold completeAnswer removeItem
  split <;> rfl

theorem slotStart_counterKept (s : State) : CounterKept s (slotStart s) := by
  have htimer : CounterKept s (s.setTimer { s.timer with raised := { s.timer.raised with slotStart := false } }) := .of_gen rfl
  unfold slotStart
  dsimp only
  split
  · refine htimer.trans ((tables_frame (noteShown_tables _)).still.counterKept.trans ?_)
    exact .of_gen rfl
  · exact htimer

theorem countDown_none : countDown none = none := rfl

theorem exec_counterKept {c : Instr} {s t : State} (hc : movesCounter c = false) (hexec : exec c s = .next t) :
    CounterKept s t := by
  obtain ⟨u, hu, hkept⟩ : ∃ u, exec c s = .next u ∧ CounterKept s u := by
    cases c with
    | deviceReset _ | runOut _ | stretchedRunOut _ | syncFallingEdge _ | closingTick | stepPulseBegin | setPosition _ => cases hc
    | tick input =>
      refine ⟨if anyDue s then s else tickAll input.pins input.lineStart s, rfl, ?_⟩
      split
      · exact .refl s
      · refine ⟨rfl, rfl, fun hp => ?_⟩
        change countDown s.gen.pulse = none
        rw [hp, countDown_none]
    | edgeDetectorArmed | syncPulseEnd | founding | silence | collision _ | stopnInactive | csnFall | ownFrameEnd =>
      exact ⟨_, rfl, .ite (.of_gen rfl)⟩
    | slotStart => exact ⟨_, rfl, .ite (slotStart_counterKept s)⟩
    | frameReceived start chars b => exact ⟨_, rfl, .ite (receiveFrame_still b start chars s).counterKept⟩
    | stepDue => exact ⟨_, rfl, .ite (.of_gen (fallDue_gen s))⟩
    | untimedStepDue => exact ⟨_, rfl, .ite (.of_gen (fallDueUntimed_gen s))⟩
    | stepPulseEnd => exact ⟨_, rfl, .ite ⟨rfl, rfl, fun _ => rfl⟩⟩
    | dirChange | dirSetupExpiry => exact ⟨_, rfl, .ite ⟨rfl, rfl, id⟩⟩
    | filteredLevelChange i => exact ⟨_, rfl, .ite (changeLevel_counterKept i s)⟩
    | stopInput =>
      refine ⟨_, rfl, .ite ((CounterKept.of_gen (s := s) (t := flipStop s) rfl).trans (takeCause_still _ _).counterKept)⟩
    | csnRise =>
      refine ⟨if s.port.csnHigh then s else endTransaction s, rfl, ?_⟩
      split
      · exact .refl s
      · exact .of_gen rfl
    | removal => exact ⟨_, rfl, .ite (.of_gen (completeAnswer_gen s))⟩
    | configure params => exact ⟨_, rfl, clockRequest_counterKept takeConfigure_counterKept _ _ params s⟩
    | start => exact ⟨_, rfl, clockPlain_counterKept takeStart_counterKept _ s⟩
    | restart => exact ⟨_, rfl, clockPlain_counterKept takeRestart_counterKept _ s⟩
    | halt => exact ⟨_, rfl, clockPlain_counterKept takeHalt_counterKept _ s⟩
    | clearHalt => exact ⟨_, rfl, clockPlain_counterKept takeClearHalt_counterKept _ s⟩
    | queueSegment params => exact ⟨_, rfl, clockRequest_counterKept takeQueueSegment_counterKept _ _ params s⟩
    | flushQueue => exact ⟨_, rfl, clockPlain_counterKept (take := takeFlushQueue) (fun _ => .of_gen rfl) _ s⟩
    | clearEvents params => exact ⟨_, rfl, clockRequest_counterKept (take := takeClearEvents) (fun _ _ => .of_gen rfl) _ _ params s⟩
    | readState => exact ⟨_, rfl, clockPlain_counterKept (take := takeReadState) (fun _ => .of_gen rfl) _ s⟩
    | readCompletion => exact ⟨_, rfl, clockPlain_counterKept takeReadCompletion_counterKept _ s⟩
    | readHaltReport => exact ⟨_, rfl, clockPlain_counterKept takeReadHaltReport_counterKept _ s⟩
    | readPeer params => exact ⟨_, rfl, clockRequest_counterKept takeReadPeer_counterKept _ _ params s⟩
    | readPeerChanges => exact ⟨_, rfl, clockPlain_counterKept takeReadPeerChanges_counterKept _ s⟩
    | sendNote params => exact ⟨_, rfl, clockRequest_counterKept takeSendNote_counterKept _ _ params s⟩
    | readNote => exact ⟨_, rfl, clockPlain_counterKept takeReadNote_counterKept _ s⟩
    | readNoteSlot params => exact ⟨_, rfl, clockRequest_counterKept takeReadNoteSlot_counterKept _ _ params s⟩
    | releaseNoteSlot params => exact ⟨_, rfl, clockRequest_counterKept takeReleaseNoteSlot_counterKept _ _ params s⟩
    | unknownRequest code =>
      refine ⟨if code ∈ requestCodes then s else clockPlain code answerUnknown s, rfl, ?_⟩
      split
      · exact .refl s
      · exact clockPlain_counterKept (take := answerUnknown) (fun _ => .of_gen rfl) _ s
    | lookForStartAgain => exact ⟨_, rfl, .of_gen rfl⟩
  rw [hu] at hexec
  cases hexec
  exact hkept

end Sys2Proof.Machine
end

