-- ==== Sys2Proof/Proofs/StepMoves.lean ====
section
/-! PROOFS. What each event of the Step Generator can do to the counter, its flag and the step pulse. -/

namespace Sys2Proof.Machine

open Sys2Proof.Claims

/-- Nothing executes and nothing owes steps. -/
structure Closed (s : State) : Prop where
  exec : s.seq.exec = none
  finishing : s.seq.finishing = []

/-- No pulse has begun and DIR has not changed. -/
structure Keeps (s t : State) : Prop where
  cycle : t.timer.cycle = s.timer.cycle
  config : t.config = s.config
  held : s.held <+: t.held
  home : t.gen.home = s.gen.home
  pulse : t.gen.pulse = s.gen.pulse
  spacing : t.gen.spacing = s.gen.spacing
  dirHigh : t.gen.dirHigh = s.gen.dirHigh
  setup : (t.gen.refused = s.gen.refused ∧ t.gen.dirSetup = s.gen.dirSetup) ∨ Rests t
  rests : Rests s → Rests t
  alone : s.seq.outstanding = [] → t.seq.outstanding = []
  closed : Closed s → Closed t

/-- The counter and its flag are kept, and what executes, if anything, has the home value that it had. -/
structure Counts (s t : State) : Prop where
  position : t.gen.position = s.gen.position
  known : t.gen.known = s.gen.known
  exec : ∀ e, t.seq.exec = some e → ∃ e', s.seq.exec = some e' ∧ e'.homeValue = e.homeValue

/-- A HOME ends HOMED. -/
structure HomesTo (v : Position) (s t : State) : Prop where
  active : s.inputActive .home = true
  exec : ∃ e, s.seq.exec = some e ∧ e.homeValue = some v
  position : t.gen.position = v
  known : t.gen.known = true
  closed : Closed t
  record : ∃ r, r ∈ t.held ∧ r.code = .homed ∧ r.position = v ∧ r.known = true ∧ r.endCycle = s.timer.cycle

/-- A HOME ends HOME_FAILED. -/
structure HomeFails (s t : State) : Prop where
  position : t.gen.position = s.gen.position
  known : t.gen.known = false
  closed : Closed t
  record : ∃ r, r ∈ t.held ∧ r.code = .homeFailed ∧ r.known = false ∧ r.endCycle = s.timer.cycle

/-! ## Causes -/

theorem Rests.closed {s : State} (h : Rests s) : Closed s := ⟨h.exec, h.finishing⟩

theorem Keeps.refl (s : State) : Keeps s s := ⟨rfl, rfl, List.prefix_rfl, rfl, rfl, rfl, rfl, .inl ⟨rfl, rfl⟩, id, id, id⟩

theorem Keeps.trans {s t u : State} (h : Keeps s t) (k : Keeps t u) : Keeps s u where
  cycle := k.cycle.trans h.cycle
  config := k.config.trans h.config
  held := h.held.trans k.held
  home := k.home.trans h.home
  pulse := k.pulse.trans h.pulse
  spacing := k.spacing.trans h.spacing
  dirHigh := k.dirHigh.trans h.dirHigh
  setup := by
    obtain ⟨krefused, ksetup⟩ | krests := k.setup
    · obtain ⟨hrefused, hsetup⟩ | hrests := h.setup
      · exact .inl ⟨krefused.trans hrefused, ksetup.trans hsetup⟩
      · exact .inr (k.rests hrests)
    · exact .inr krests
  rests hs := k.rests (h.rests hs)
  alone hs := k.alone (h.alone hs)
  closed hs := k.closed (h.closed hs)

theorem Counts.refl (s : State) : Counts s s := ⟨rfl, rfl, fun e he => ⟨e, he, rfl⟩⟩

theorem Still.keeps {s t : State} (h : Still s t) : Keeps s t := by
  obtain ⟨hgen, hseq⟩ | ⟨hrests, hgen⟩ := h.kept
  · exact ⟨h.cycle, h.config, h.held, by rw [hgen], by rw [hgen], by rw [hgen], by rw [hgen],
      .inl ⟨by rw [hgen], by rw [hgen]⟩, h.rests, fun hs => by rw [hseq]; exact hs,
      fun hs => ⟨by rw [hseq]; exact hs.exec, by rw [hseq]; exact hs.finishing⟩⟩
  · exact ⟨h.cycle, h.config, h.held, by rw [hgen], by rw [hgen], by rw [hgen], by rw [hgen], .inr hrests, h.rests,
      fun _ => hrests.outstanding, fun _ => hrests.closed⟩

theorem Still.counts {s t : State} (h : Still s t) : Counts s t := by
  obtain ⟨hgen, hseq⟩ | ⟨hrests, hgen⟩ := h.kept
  · exact ⟨by rw [hgen], by rw [hgen], fun e he => ⟨e, by rw [hseq] at he; exact he, rfl⟩⟩
  · exact ⟨by rw [hgen], by rw [hgen], fun e he => absurd (hrests.exec.symm.trans he) nofun⟩

theorem Counts.of_still {s t u : State} (h : Counts s t) (k : Still t u) : Counts s u := by
  refine ⟨k.counts.position.trans h.position, k.counts.known.trans h.known, fun e he => ?_⟩
  obtain ⟨e', he', hvalue⟩ := k.counts.exec e he
  obtain ⟨e'', he'', hvalue'⟩ := h.exec e' he'
  exact ⟨e'', he'', hvalue'.trans hvalue⟩

/-! ## Ends -/

/-- A source that goes on as one of the same segment. -/
theorem setExecSource_keeps {s : State} {e : Executing} (he : s.seq.exec = some e) (src : Source) :
    Keeps s (setExecSource e src s) :=
  ⟨rfl, rfl, List.prefix_rfl, rfl, rfl, rfl, rfl, .inl ⟨rfl, rfl⟩, fun hs => (by cases hs.exec.symm.trans he), id,
    fun hs => (by cases hs.exec.symm.trans he)⟩

theorem setExecSource_counts {s : State} {e : Executing} (he : s.seq.exec = some e) {src : Source}
    (hvalue : ({ e with source := src } : Executing).homeValue = e.homeValue) : Counts s (setExecSource e src s) := by
  refine ⟨rfl, rfl, fun e' he' => ⟨e, he, ?_⟩⟩
  cases he'
  exact hvalue.symm

theorem homeValue_untimed {e : Executing} {u : UntimedSource} (h : e.source = .untimed u) : e.homeValue = u.home := by
  unfold Executing.homeValue
  rw [h]

theorem homeValue_timed {e : Executing} {src : TimedSource} (h : e.source = .timed src) : e.homeValue = none := by
  unfold Executing.homeValue
  rw [h]

theorem heldBack_of_finishing_nil {l : List Outstanding} (h : finishingOf l = []) : ∃ rs : List Record, l = rs.map .heldBack := by
  induction l with
  | nil => exact ⟨[], rfl⟩
  | cons o l ih =>
    cases o with
    | finishing f => cases h
    | heldBack r =>
      obtain ⟨rs, rfl⟩ := ih h
      exact ⟨r :: rs, rfl⟩

section Ends

variable {s : State} {e : Executing}

/-- With nothing finishing, the record is held at once and nothing is left outstanding. -/
theorem writeExecRecord_closes (hfin : s.seq.finishing = []) (r : Record) :
    r ∈ (writeExecRecord r s).held ∧ Closed (writeExecRecord r s) := by
  obtain ⟨rs, hrs⟩ := heldBack_of_finishing_nil (by rw [← finishing_eq]; exact hfin)
  have hdrain : drain (s.seq.outstanding ++ [.heldBack r]) = (rs ++ [r], []) := by
    rw [hrs]
    exact (congrArg drain (List.map_append (l₂ := [r])).symm).trans (drain_heldBack (rs ++ [r]))
  refine ⟨?_, rfl, ?_⟩
  · change r ∈ s.held ++ (drain (s.seq.outstanding ++ [.heldBack r])).1
    rw [hdrain]
    simp
  · refine finishing_nil ?_
    change (drain (s.seq.outstanding ++ [.heldBack r])).2 = []
    rw [hdrain]

theorem endUntimed_cases (code : Code) (part : RecordPart) : ∃ c,
    endUntimed e code part s = setAxis .idle (writeExecRecord (s.execRecord e code part) s) ∨
      endUntimed e code part s = haltTaken c (setAxis .idle (writeExecRecord (s.execRecord e code part) s)) := by
  unfold endUntimed
  dsimp only
  split
  · exact ⟨_, .inr (takeCause_of_live rfl _)⟩
  · exact ⟨.plain .hostHalt, .inl rfl⟩

theorem endUntimed_keeps (he : s.seq.exec = some e) (code : Code) (part : RecordPart) :
    Keeps s (endUntimed e code part s) ∧ Counts s (endUntimed e code part s) := by
  have hended : Keeps s (setAxis .idle (writeExecRecord (s.execRecord e code part) s)) :=
    { cycle := rfl, config := rfl, held := List.prefix_append _ _, home := rfl, pulse := rfl, spacing := rfl, dirHigh := rfl
      setup := .inl ⟨rfl, rfl⟩
      rests := fun hs => by cases hs.exec.symm.trans he
      alone := fun hs => by rw [setAxis_writeExecRecord hs]; rfl
      closed := fun hs => by cases hs.exec.symm.trans he }
  have hcounts : Counts s (setAxis .idle (writeExecRecord (s.execRecord e code part) s)) :=
    ⟨rfl, rfl, fun e' he' => by cases he'⟩
  obtain ⟨c, h | h⟩ := endUntimed_cases (s := s) (e := e) code part
  · rw [h]
    exact ⟨hended, hcounts⟩
  · rw [h]
    exact ⟨hended.trans (haltTaken_still c _).keeps, hcounts.of_still (haltTaken_still c _)⟩

theorem endUntimed_closes (hfin : s.seq.finishing = []) (code : Code) (part : RecordPart) :
    Closed (endUntimed e code part s) ∧ s.execRecord e code part ∈ (endUntimed e code part s).held := by
  obtain ⟨hmem, hexec, hclosed⟩ := writeExecRecord_closes hfin (s.execRecord e code part)
  obtain ⟨c, h | h⟩ := endUntimed_cases (s := s) (e := e) code part
  · rw [h]
    exact ⟨⟨hexec, hclosed⟩, hmem⟩
  · rw [h]
    exact ⟨(haltTaken_rests c _).closed, (haltTaken_still c _).held.subset hmem⟩

/-- A write of the counter and its flag alone. -/
theorem setCounter_keeps (s : State) (v : Position) (known : Bool) :
    Keeps s (s.setGen { s.gen with position := v, known := known }) :=
  ⟨rfl, rfl, List.prefix_rfl, rfl, rfl, rfl, rfl, .inl ⟨rfl, rfl⟩,
    fun hs => ⟨hs.axis, hs.exec, hs.outstanding, hs.queue, hs.ctx⟩, id, fun hs => ⟨hs.exec, hs.finishing⟩⟩

theorem endHomed_homes {v : Position} (he : s.seq.exec = some e) (hv : e.homeValue = some v) (hfin : s.seq.finishing = [])
    (hactive : s.inputActive .home = true) : Keeps s (endHomed e v s) ∧ HomesTo v s (endHomed e v s) := by
  obtain ⟨hkeeps, hcounts⟩ := endUntimed_keeps (s := s.setGen { s.gen with position := v, known := true }) he .homed .none
  obtain ⟨hclosed, hmem⟩ := endUntimed_closes (s := s.setGen { s.gen with position := v, known := true }) (e := e) hfin .homed .none
  exact ⟨(setCounter_keeps s v true).trans hkeeps,
    ⟨hactive, ⟨e, he, hv⟩, hcounts.position, hcounts.known, hclosed, _, hmem, rfl, rfl, rfl, rfl⟩⟩

theorem endHomeFailed_fails (he : s.seq.exec = some e) (hfin : s.seq.finishing = []) :
    Keeps s (endHomeFailed e s) ∧ HomeFails s (endHomeFailed e s) := by
  obtain ⟨hkeeps, hcounts⟩ := endUntimed_keeps (s := s.setGen { s.gen with known := false }) he .homeFailed .none
  obtain ⟨hclosed, hmem⟩ := endUntimed_closes (s := s.setGen { s.gen with known := false }) (e := e) hfin .homeFailed .none
  exact ⟨(setCounter_keeps s s.gen.position false).trans hkeeps,
    ⟨hcounts.position, hcounts.known, hclosed, _, hmem, rfl, rfl, rfl⟩⟩

/-! ## Examinations -/

/-- The counter stays, or a HOME ends HOMED. -/
def Examines (s t : State) : Prop := Keeps s t ∧ (Counts s t ∨ ∃ v, HomesTo v s t)

theorem Examines.refl (s : State) : Examines s s := ⟨.refl s, .inl (.refl s)⟩

theorem examineFirst_examines {u : UntimedSource} (he : s.seq.exec = some e) (hu : e.source = .untimed u)
    (hfin : s.seq.finishing = []) : Examines s (examineFirst e u s) := by
  have hstepping : Examines s (setExecSource e (.untimed (enterStepping u)) s) :=
    ⟨setExecSource_keeps he _, .inl (setExecSource_counts he (homeValue_untimed hu).symm)⟩
  unfold examineFirst
  split
  · rename_i v hv
    split
    · rename_i hactive
      obtain ⟨hkeeps, hhomes⟩ := endHomed_homes he ((homeValue_untimed hu).trans hv) hfin hactive
      exact ⟨hkeeps, .inr ⟨v, hhomes⟩⟩
    · exact hstepping
  · split
    · obtain ⟨hkeeps, hcounts⟩ := endUntimed_keeps he .probeActiveAtStart .none
      exact ⟨hkeeps, .inl hcounts⟩
    · exact hstepping

theorem firstExamination_examines (s : State) : Examines s (firstExamination s) := by
  rcases firstExamination_cases s with h | ⟨e, u, he, hu, _, hfin, h⟩
  · rw [h]
    exact .refl s
  · rw [h]
    exact examineFirst_examines he hu hfin

end Ends

/-! ## The events -/

/-- What an event of the Step Generator can do. -/
inductive StepMoves (e : StepTurn) (s t : State) : Prop
  | examines (h : Examines s t)
  | fails (he : e = .closingTick) (hopen : ¬ Closed s) (hkeeps : Keeps s t) (h : HomeFails s t)
  | turns (he : e = .dirChange) (hdue : dirChangeDue s = true) (h : t = changeDir s)
  | begins (he : e = .stepPulseBegin) (hconditions : stepConditions s = true) (hrefusal : stepRefusal s = none)
      (hhead : ¬ Closed s) (h : Examines (beginPulse s) t)

theorem StepMoves.refl (e : StepTurn) (s : State) : StepMoves e s s := .examines (.refl s)

section Events

variable {s : State}

theorem flipInput_keeps (s : State) : Keeps s (flipInput .probe s) ∧ Counts s (flipInput .probe s) :=
  ⟨⟨rfl, rfl, List.prefix_rfl, rfl, rfl, rfl, rfl, .inl ⟨rfl, rfl⟩,
    fun hs => ⟨hs.axis, hs.exec, hs.outstanding, hs.queue, hs.ctx⟩, id, fun hs => ⟨hs.exec, hs.finishing⟩⟩,
    ⟨rfl, rfl, fun e he => ⟨e, he, rfl⟩⟩⟩

theorem probeChanged_keeps (s : State) : Keeps s (probeChanged s) ∧ Counts s (probeChanged s) := by
  unfold probeChanged
  split
  · exact ⟨.refl s, .refl s⟩
  · rename_i e he
    split
    · rename_i u hu
      split
      · unfold watchProbe
        split
        · exact endUntimed_keeps he _ _
        · exact ⟨setExecSource_keeps he _, setExecSource_counts he (homeValue_untimed hu).symm⟩
      · exact ⟨.refl s, .refl s⟩
    · exact ⟨.refl s, .refl s⟩

theorem changeProbe_keeps (s : State) : Keeps s (changeLevel .probe s) ∧ Counts s (changeLevel .probe s) := by
  obtain ⟨hflip, hsame⟩ := flipInput_keeps s
  obtain ⟨hkeeps, hcounts⟩ := probeChanged_keeps (flipInput .probe s)
  exact ⟨hflip.trans hkeeps, hcounts.position, hcounts.known, hcounts.exec⟩

theorem fallDue_keeps (s : State) : Keeps s (fallDue s) ∧ Counts s (fallDue s) := by
  unfold fallDue
  split
  · exact ⟨.refl s, .refl s⟩
  · rename_i e he
    split
    · rename_i src hsrc
      exact ⟨setExecSource_keeps he _, setExecSource_counts he (homeValue_timed hsrc).symm⟩
    · exact ⟨.refl s, .refl s⟩

theorem fallDueUntimed_keeps (s : State) : Keeps s (fallDueUntimed s) ∧ Counts s (fallDueUntimed s) := by
  unfold fallDueUntimed
  split
  · exact ⟨.refl s, .refl s⟩
  · rename_i e he
    split
    · rename_i u hu
      exact ⟨setExecSource_keeps he _, setExecSource_counts he (homeValue_untimed hu).symm⟩
    · exact ⟨.refl s, .refl s⟩

theorem closingTick_head (h : closingTickDue s = true) : s.seq.finishing = [] := by
  have hnow : closingTickNow s = true := (Bool.and_eq_true_iff.mp h).2
  unfold closingTickNow at hnow
  split at hnow
  · rename_i u hu
    obtain ⟨hfin, _⟩ := head_eq_untimed hu
    exact hfin
  · cases hnow

theorem closeSegment_moves (h : closingTickDue s = true) : StepMoves .closingTick s (closeSegment s) := by
  have hfin := closingTick_head h
  unfold closeSegment
  split
  · exact .refl _ s
  · rename_i e he
    split
    · rename_i u hu
      split
      · rename_i v hv
        split
        · rename_i hactive
          obtain ⟨hkeeps, hhomes⟩ := endHomed_homes he ((homeValue_untimed hu).trans hv) hfin hactive
          exact .examines ⟨hkeeps, .inr ⟨v, hhomes⟩⟩
        · obtain ⟨hkeeps, hfails⟩ := endHomeFailed_fails he hfin
          exact .fails rfl (fun hclosed => by cases hclosed.exec.symm.trans he) hkeeps hfails
      · obtain ⟨hkeeps, hcounts⟩ := endUntimed_keeps he .probeMiss .none
        exact .examines ⟨hkeeps, .inl hcounts⟩
    · exact .refl _ s

theorem refused_moves {seq : SeqNo} {code : Code} {who : Faulted} (hlive : s.seq.axis.live = true) :
    StepMoves .stepPulseBegin s (refuseStep seq code who s) := by
  rw [refuseStep_of_live hlive]
  exact .examines ⟨(haltTaken_still _ s).keeps, .inl (haltTaken_still _ s).counts⟩

theorem countExecStep_examines (s : State) : Examines s (countExecStep s) := by
  cases he : s.seq.exec with
  | none =>
    unfold countExecStep
    rw [he]
    exact .refl s
  | some e =>
    rw [countExecStep_eq he]
    refine ⟨setExecSource_keeps he _, .inl (setExecSource_counts he ?_)⟩
    cases hsrc : e.source with
    | none =>
      unfold Executing.homeValue
      rw [hsrc]
      rfl
    | timed src => exact (homeValue_timed hsrc).symm
    | untimed u => exact (homeValue_untimed hsrc).symm

theorem countFinishingStep_examines {f : Finishing} {fs : List Finishing} (hfin : s.seq.finishing = f :: fs) :
    Examines s (countFinishingStep f s) := by
  have hnonempty {p : Prop} (h : s.seq.outstanding = []) : p := by cases hfin.symm.trans (finishing_nil h)
  have hopen {p : Prop} (h : s.seq.finishing = []) : p := by cases hfin.symm.trans h
  have hkeeps {t : State} (hsame : t.gen = s.gen) (hexec : t.seq.exec = s.seq.exec) (hcycle : t.timer = s.timer)
      (hconfig : t.config = s.config) (hheld : s.held <+: t.held) : Keeps s t ∧ Counts s t :=
    ⟨⟨by rw [hcycle], hconfig, hheld, by rw [hsame], by rw [hsame], by rw [hsame], by rw [hsame],
      .inl ⟨by rw [hsame], by rw [hsame]⟩, fun hs => hnonempty hs.outstanding, hnonempty, fun hs => hopen hs.finishing⟩,
      by rw [hsame], by rw [hsame], fun e he => ⟨e, hexec ▸ he, rfl⟩⟩
  unfold countFinishingStep
  dsimp only
  split
  · generalize hw : writeFinishingRecord _ (s.setSeq _) = w
    obtain ⟨hkept, hcounts⟩ : Keeps s w ∧ Counts s w := by
      rw [← hw]
      exact hkeeps rfl rfl rfl rfl (List.prefix_append _ _)
    obtain ⟨hexamined, hout⟩ := firstExamination_examines w
    refine ⟨hkept.trans hexamined, ?_⟩
    obtain ⟨hposition, hknown, hexec⟩ | ⟨v, hhomes⟩ := hout
    · refine .inl ⟨hposition.trans hcounts.position, hknown.trans hcounts.known, fun e he => ?_⟩
      obtain ⟨e', he', hvalue⟩ := hexec e he
      obtain ⟨e'', he'', hvalue'⟩ := hcounts.exec e' he'
      exact ⟨e'', he'', hvalue'.trans hvalue⟩
    · obtain ⟨e, he, hv⟩ := hhomes.exec
      obtain ⟨e', he', hvalue⟩ := hcounts.exec e he
      refine .inr ⟨v, ?_, ⟨e', he', hvalue.trans hv⟩, hhomes.position, hhomes.known, hhomes.closed, ?_⟩
      · rw [← hhomes.active]
        unfold State.inputActive State.cfg StepGen.filter
        rw [hkept.config, hkept.home]
      · rw [← hkept.cycle]
        exact hhomes.record
  · refine And.imp_right .inl (hkeeps ?_ ?_ ?_ ?_ ?_)
    · rfl
    · rfl
    · rfl
    · rfl
    · exact List.prefix_rfl

theorem takeStep_moves (h : stepConditions s = true) : StepMoves .stepPulseBegin s (takeStep s) := by
  obtain ⟨haxis, _, _⟩ := (stepConditions_iff s).mp h
  have hlive : s.seq.axis.live = true := by rw [haxis]; rfl
  have hexecuting {e : Executing} (hfin : s.seq.finishing = []) (he : s.seq.exec = some e) :
      StepMoves .stepPulseBegin s (stepExecuting e s) := by
    unfold stepExecuting
    split
    · exact refused_moves hlive
    · rename_i hrefusal
      exact .begins rfl h hrefusal (fun hclosed => by cases hclosed.exec.symm.trans he) (countExecStep_examines _)
  unfold takeStep
  split
  · rename_i f fs hfin
    unfold stepFinishing
    split
    · exact refused_moves hlive
    · rename_i hrefusal
      exact .begins rfl h hrefusal (fun hclosed => by cases hclosed.finishing.symm.trans hfin)
        (countFinishingStep_examines (s := beginPulse s) hfin)
  · rename_i hfin
    split
    · exact .refl _ s
    · rename_i e he
      split
      · rename_i v hv
        split
        · rename_i hactive
          obtain ⟨hkeeps, hhomes⟩ := endHomed_homes he hv hfin hactive
          exact .examines ⟨hkeeps, .inr ⟨v, hhomes⟩⟩
        · exact hexecuting hfin he
      · exact hexecuting hfin he

theorem stepTurn_moves (s : State) (e : StepTurn) : StepMoves e s (stepTurn s e) := by
  have hkept {t : State} {c : Bool} (h : Keeps s t ∧ Counts s t) : StepMoves e s (if c then t else s) := by
    split
    · exact .examines ⟨h.1, .inl h.2⟩
    · exact .refl _ s
  cases e with
  | probeChange => exact hkept (changeProbe_keeps s)
  | stepDue => exact hkept (fallDue_keeps s)
  | untimedStepDue => exact hkept (fallDueUntimed_keeps s)
  | closingTick =>
    change StepMoves _ s (if closingTickDue s then closeSegment s else s)
    split
    · rename_i hdue
      exact closeSegment_moves hdue
    · exact .refl _ s
  | dirChange =>
    change StepMoves _ s (if dirChangeDue s then changeDir s else s)
    split
    · rename_i hdue
      exact .turns rfl hdue rfl
    · exact .refl _ s
  | stepPulseBegin =>
    change StepMoves _ s (if stepPulseBeginDue s then takeStep s else s)
    split
    · rename_i hdue
      exact takeStep_moves (stepConditions_of_due hdue)
    · exact .refl _ s

end Events

end Sys2Proof.Machine
end

