-- ==== Sys2Proof/Proofs/StepPulses.lean ====
section
/-! PROOFS. A step pulse begins only under the conditions of R42 (O36), by stages of a boundary that this and the counter's
rules share. -/

namespace Sys2Proof.Machine

open Sys2Proof.Claims

/-! ## The motion's turn -/

/-- What executes, if it is a HOME, has the home value of what executed before, or of the head of the queue. -/
def HomeFrom (q : Sequencer) (x : Option Executing) : Prop :=
  ∀ e v, x = some e → e.homeValue = some v → (∃ e', q.exec = some e' ∧ e'.homeValue = some v) ∨
    ∃ seg dir interval maxSteps, q.queue.head? = some seg ∧ seg.body = .home dir interval maxSteps v

/-- The motion's turn has ended, started or halted. -/
structure MotionTaken (s t : State) : Prop where
  cycle : t.timer.cycle = s.timer.cycle
  config : t.config = s.config
  held : s.held <+: t.held
  gen : t.gen = s.gen ∨ (Rests t ∧ t.gen = { s.gen with dirSetup := none, refused := false })
  alone : s.seq.exec = none → s.seq.outstanding = [] → t.seq.outstanding = []
  exec : HomeFrom s.seq t.seq.exec

theorem HomeFrom.refl (q : Sequencer) : HomeFrom q q.exec := fun e _ he hv => .inl ⟨e, he, hv⟩

theorem HomeFrom.none (q : Sequencer) : HomeFrom q .none := fun _ _ he => nomatch he

theorem MotionTaken.of_still {s t u : State} (h : MotionTaken s t) (k : Still t u) : MotionTaken s u := by
  refine ⟨k.cycle.trans h.cycle, k.config.trans h.config, h.held.trans k.held, ?_, ?_, ?_⟩
  · obtain ⟨hgen, _⟩ | ⟨hrests, hgen⟩ := k.kept
    · rw [hgen]
      exact h.gen.imp_left id |>.imp_right fun ⟨hr, hg⟩ => ⟨k.rests hr, hg⟩
    · refine .inr ⟨hrests, ?_⟩
      obtain hsame | ⟨_, hhalted⟩ := h.gen
      · rw [hgen, hsame]
      · rw [hgen, hhalted]
  · intro hexec hout
    exact k.keeps.alone (h.alone hexec hout)
  · obtain ⟨_, hseq⟩ | ⟨hrests, _⟩ := k.kept
    · rw [hseq]
      exact h.exec
    · rw [hrests.exec]
      exact .none _

theorem Still.motionTaken {s t : State} (h : Still s t) : MotionTaken s t :=
  MotionTaken.of_still ⟨rfl, rfl, List.prefix_rfl, .inl rfl, fun _ => id, .refl _⟩ h

section Starts

variable {s : State} {seg : Segment} {rest : List Segment} (hqueue : s.seq.queue = seg :: rest)
include hqueue

theorem startWith_taken (axis : AxisState) {src : Source} (hhome : ∀ u v, src = .untimed u → u.home = some v →
    ∃ dir interval maxSteps, seg.body = .home dir interval maxSteps v) : MotionTaken s (startWith seg axis src rest s) := by
  refine ⟨rfl, rfl, List.prefix_rfl, .inl rfl, fun _ => id, fun e v he hv => .inr ?_⟩
  cases he
  obtain ⟨u, hu, hvalue⟩ := homeValue_eq_some hv
  obtain ⟨dir, interval, maxSteps, hbody⟩ := hhome u v hu hvalue
  exact ⟨seg, dir, interval, maxSteps, by rw [hqueue]; rfl, hbody⟩

theorem startSegment_taken : MotionTaken s (startSegment seg rest s) := by
  have hfails (code : Code) : MotionTaken s (failStart seg code rest s) :=
    (startWith_taken hqueue .running (src := .none) nofun).of_still (takeCause_still _ _)
  unfold startSegment
  split
  · split
    · exact startWith_taken hqueue _ nofun
    · exact hfails _
  · split
    · exact hfails _
    · exact startWith_taken hqueue _ nofun
  · rename_i dir interval maxSteps v hbody
    refine startWith_taken hqueue _ fun u w hu hw => ?_
    cases hu
    cases hw
    exact ⟨dir, interval, maxSteps, hbody⟩
  · refine startWith_taken hqueue _ fun u w hu hw => ?_
    cases hu
    cases hw
  · rename_i tag mask timeout _
    have hfilled : MotionTaken s ((stations).foldl fillFrom
        (setCtx (newCtx seg.seq tag mask timeout s.timer.cycle) (startWith seg .waiting .none rest s))) := by
      refine MotionTaken.of_still ?_ (fill_still _ _)
      obtain ⟨_, _, _, _, _, hexec⟩ := startWith_taken hqueue .waiting (src := .none) nofun
      exact ⟨rfl, rfl, List.prefix_rfl, .inl rfl, fun _ => id, hexec⟩
    exact hfilled.of_still (completeAtCreation_still _)

end Starts

theorem startAtBoundary_taken (ended : Bool) (s : State) : MotionTaken s (startAtBoundary ended s) := by
  unfold startAtBoundary
  split
  · split
    · exact ⟨rfl, rfl, List.prefix_rfl, .inl rfl, fun _ => id, .refl _⟩
    · rename_i seg rest hqueue
      split
      · exact (takeCause_still _ s).motionTaken
      · exact startSegment_taken hqueue
  · exact (Still.refl s).motionTaken

/-- What ends ahead of a start. -/
structure EndTaken (s t : State) : Prop where
  cycle : t.timer.cycle = s.timer.cycle
  config : t.config = s.config
  held : s.held <+: t.held
  gen : t.gen = s.gen
  queue : t.seq.queue = s.seq.queue
  exec : ∀ e, t.seq.exec = some e → ∃ e', s.seq.exec = some e' ∧ e'.homeValue = e.homeValue
  alone : s.seq.exec = none → t.seq = s.seq

theorem EndTaken.refl (s : State) : EndTaken s s :=
  ⟨rfl, rfl, List.prefix_rfl, rfl, rfl, fun e he => ⟨e, he, rfl⟩, fun _ => rfl⟩

/-- An end of what executes. -/
theorem EndTaken.of_exec {s t : State} {e : Executing} (he : s.seq.exec = some e) (hcycle : t.timer.cycle = s.timer.cycle)
    (hconfig : t.config = s.config) (hheld : s.held <+: t.held) (hgen : t.gen = s.gen) (hqueue : t.seq.queue = s.seq.queue)
    (hexec : t.seq.exec = none) : EndTaken s t :=
  ⟨hcycle, hconfig, hheld, hgen, hqueue, fun _ he' => absurd (hexec.symm.trans he') nofun,
    fun hnone => absurd (hnone.symm.trans he) nofun⟩

theorem EndTaken.then_taken {s t u : State} (h : EndTaken s t) (k : MotionTaken t u) : MotionTaken s u := by
  refine ⟨k.cycle.trans h.cycle, k.config.trans h.config, h.held.trans k.held, ?_, fun hexec hout => ?_, fun e v he hv => ?_⟩
  · rw [← h.gen]
    exact k.gen
  · have hseq := h.alone hexec
    exact k.alone (by rw [hseq]; exact hexec) (by rw [hseq]; exact hout)
  · obtain ⟨e', he', hv'⟩ | ⟨seg, dir, interval, maxSteps, hhead, hbody⟩ := k.exec e v he hv
    · obtain ⟨e'', he'', hvalue⟩ := h.exec e' he'
      exact .inl ⟨e'', he'', hvalue.trans hv'⟩
    · exact .inr ⟨seg, dir, interval, maxSteps, by rw [← h.queue]; exact hhead, hbody⟩

theorem joinSkipped_taken (skipped : Nat) (s : State) : EndTaken s (joinSkipped skipped s) := by
  unfold joinSkipped
  split
  · exact .refl s
  · rename_i e he
    split
    · rename_i src hsrc
      refine ⟨rfl, rfl, List.prefix_rfl, rfl, rfl, fun e' he' => ⟨e, he, ?_⟩, fun hnone => absurd (hnone.symm.trans he) nofun⟩
      cases he'
      exact homeValue_timed hsrc
    · exact .refl s

theorem endTimed_taken {s : State} {e : Executing} (he : s.seq.exec = some e) (src : TimedSource) :
    EndTaken s (endTimed e src s) := by
  unfold endTimed
  split
  · exact .of_exec he rfl rfl (List.prefix_append _ _) rfl rfl rfl
  · exact .of_exec he rfl rfl List.prefix_rfl rfl rfl rfl

theorem takeRaised_still (c : Option Cause) (s : State) : Still s (takeRaised c s) := by
  cases c with
  | none => exact .refl s
  | some c => exact takeCause_still c s

/-- After a halt nothing starts, nor in DISABLED. -/
theorem startAtBoundary_raised (c : Option Cause) (s : State) :
    MotionTaken s (startAtBoundary true (takeRaised c s)) := by
  cases c with
  | none => exact startAtBoundary_taken true s
  | some c =>
    have hstart : startAtBoundary true (takeCause c s) = takeCause c s := by
      unfold startAtBoundary
      rw [takeCause_axis]
      split <;> exact if_neg Bool.false_ne_true
    change MotionTaken s (startAtBoundary true (takeCause c s))
    rw [hstart]
    exact (takeCause_still c s).motionTaken

theorem sequencerBoundary_taken (late : Bool) (s : State) : MotionTaken s (sequencerBoundary late s).1 := by
  unfold sequencerBoundary
  split
  · exact startAtBoundary_taken false s
  · rename_i e he
    split
    · rename_i src _
      split
      · exact (endTimed_taken he src).then_taken (startAtBoundary_taken true _)
      · exact startAtBoundary_taken false s
    · exact startAtBoundary_taken false s
    · split
      · exact startAtBoundary_taken false s
      · rename_i x r _
        have hreleased : EndTaken s (releaseBarrier e x r s) :=
          .of_exec he rfl rfl (List.prefix_append _ _) rfl rfl rfl
        dsimp only
        split
        · exact hreleased.then_taken (startAtBoundary_raised _ _)
        · exact hreleased.then_taken (startAtBoundary_taken true _)

theorem motionBoundary_taken (late : Bool) (skipped : Nat) (s : State) : MotionTaken s (motionBoundary late skipped s).1 :=
  (joinSkipped_taken skipped s).then_taken (sequencerBoundary_taken late _)

/-- The motion's turn from a state at which nothing but causes has been taken. -/
theorem MotionTaken.after_still {s t u : State} (h : Still s t) (k : MotionTaken t u) (hrests : Rests t → u = t) :
    MotionTaken s u := by
  obtain ⟨hgen, hseq⟩ | ⟨hhalted, _⟩ := h.kept
  · refine ⟨k.cycle.trans h.cycle, k.config.trans h.config, h.held.trans k.held, by rw [← hgen]; exact k.gen,
      fun hexec hout => k.alone (by rw [hseq]; exact hexec) (by rw [hseq]; exact hout), ?_⟩
    have hexec := k.exec
    rw [hseq] at hexec
    exact hexec
  · rw [hrests hhalted]
    exact h.motionTaken

/-! ## The stages of a boundary -/

theorem Still.examines {s t : State} (h : Still s t) : Examines s t := ⟨h.keeps, .inl h.counts⟩

theorem takeTurn_still {b : BoundaryTurn} (hb : movesAxis b = false) (o : EventOrder) (e : CycleEnd) (x : Raising) :
    Still x.1 (takeTurn o e x b).1 := by
  cases b with
  | link => exact Causes.still (outside := true) (linkBoundary_causes o _ _ x.1)
  | peers => exact Causes.still (outside := true) (ageing_causes _ x.1)
  | motion | examination | stepEvents => cases hb
  | lateHalt => exact takeRaised_still x.2 x.1
  | stopInput => exact (stopTurn_causes x.1).still
  | hostHalt => exact (haltRequest_causes x.1).still
  | deadline => exact Causes.still (outside := true) (barrierDeadline_causes x.1)
  | notes => exact (tables_frame (noteBoundary_tables x.1)).still

/-- What is so after the motion's turn, stays so through causes and an examination, and is carried through the row of step
events, is so at the end. The first argument of `P` says whether that row is still to come. -/
theorem boundary_stages {o : EventOrder} {skipped : Nat} {pulse : Option Nat} {s : State} {P : Bool → State → Prop}
    (hmotion : ∀ x, MotionTaken (begun pulse s) x → P true x)
    (hexamines : ∀ b x y, P b x → Examines x y → P b y)
    (hrow : ∀ x, P true x → P false (stepEventsTurn o (s.seq.exec.map Executing.seg) x)) :
    ∃ b, P b (afterTurns o skipped pulse s) := by
  have hlast := turns_induct (o := o) (e := cycleEnd skipped s) (l := turnsOf o) (x := (begun pulse s, none))
    (I := fun l x => MotionFirst l ∧ l.Nodup ∧ (.motion ∈ l → Still (begun pulse s) x.1) ∧
      (.motion ∉ l → ∃ b, P b x.1 ∧ (.stepEvents ∈ l → b = true))) (fun b rest x h => by
      obtain ⟨hfirst, hnodup, hbefore, hafter⟩ := h
      obtain ⟨hhead, hfirst⟩ := List.pairwise_cons.mp hfirst
      obtain ⟨hb, hnodup⟩ := List.nodup_cons.mp hnodup
      refine ⟨hfirst, hnodup, fun hmem => ?_, fun hmem => ?_⟩
      · have hmoves : movesAxis b = false := by
          cases b with
          | motion => exact absurd hmem hb
          | examination | stepEvents => exact absurd rfl (hhead .motion hmem rfl)
          | link | peers | lateHalt | stopInput | hostHalt | deadline | notes => rfl
        exact (hbefore (List.mem_cons_of_mem b hmem)).trans (takeTurn_still hmoves o _ x)
      · by_cases hmotionTurn : b = .motion
        · subst hmotionTurn
          have hstill := hbefore List.mem_cons_self
          refine ⟨true, hmotion _ (.after_still hstill (motionBoundary_taken _ _ x.1) fun hrests => ?_), fun _ => rfl⟩
          change (motionBoundary o.lateHaltFirst _ x.1).1 = x.1
          rw [motionBoundary_rests hrests]
        · obtain ⟨c, hc, hsteps⟩ := hafter fun hin => (List.mem_cons.mp hin).elim (hmotionTurn ·.symm) hmem
          have hstay {y : State} (hy : Examines x.1 y) : ∃ b', P b' y ∧ (.stepEvents ∈ rest → b' = true) :=
            ⟨c, hexamines c x.1 y hc hy, fun hin => hsteps (List.mem_cons_of_mem b hin)⟩
          cases hmoves : movesAxis b with
          | false => exact hstay (takeTurn_still hmoves o _ x).examines
          | true =>
            cases b with
            | motion => exact absurd rfl hmotionTurn
            | examination => exact hstay (firstExamination_examines x.1)
            | stepEvents =>
              rw [hsteps List.mem_cons_self] at hc
              exact ⟨false, hrow x.1 hc, fun hin => absurd hin hb⟩
            | link | peers | lateHalt | stopInput | hostHalt | deadline | notes => cases hmoves)
    ⟨turnsOf_motionFirst o, turnsOf_nodup o, fun _ => .refl _, fun hnot => absurd (mem_turnsOf o .motion (by decide) (by decide)) hnot⟩
  obtain ⟨_, _, _, hend⟩ := hlast
  obtain ⟨b, hb, _⟩ := hend List.not_mem_nil
  exact ⟨b, hb⟩

/-- A boundary command ends the cycle, or leaves the counter and the pulse. -/
theorem bounds_cases {c : Instr} {o : EventOrder} {s t : State} (hc : Bounds c o) (hexec : exec c s = .next t) :
    t.gen = s.gen ∨ ∃ skipped pulse, t = afterTurns o skipped pulse s := by
  have hends {u : State} (h : CycleEnded o s u) : ∃ skipped pulse, u = afterTurns o skipped pulse s := by
    obtain ⟨skipped, pulse, hu, _⟩ := h.turns
    exact ⟨skipped, pulse, hu⟩
  obtain rfl | rfl | rfl := hc
  · by_cases hdue : runOutDue s = true
    · rw [exec_runOut hdue] at hexec
      cases hexec
      exact .inr (hends (.runOut hdue))
    · cases hexec.symm.trans (congrArg Host.Outcome.next (if_neg hdue))
      exact .inl rfl
  · by_cases hdue : stretchedRunOutDue s = true
    · rw [exec_stretchedRunOut hdue] at hexec
      cases hexec
      exact .inr (hends (.stretched hdue))
    · cases hexec.symm.trans (congrArg Host.Outcome.next (if_neg hdue))
      exact .inl rfl
  · by_cases hdue : edgeDue s = true
    · by_cases haccepted : s.edgeAccepted = true
      · rw [exec_acceptedEdge hdue haccepted] at hexec
        cases hexec
        exact .inr (hends (.edge hdue haccepted))
      · cases hexec.symm.trans (congrArg Host.Outcome.next (if_pos hdue))
        refine .inl ?_
        unfold takeEdge
        split
        · rfl
        · unfold listenEdge
          split <;> rfl
        all_goals
          rw [if_neg haccepted]
          rfl
    · cases hexec.symm.trans (congrArg Host.Outcome.next (if_neg hdue))
      exact .inl rfl

/-! ## A pulse inside a boundary -/

/-- No pulse has begun, and neither the spacing, the setup timer nor a refusal has made room for one. -/
structure Unbegun (s x : State) : Prop where
  config : x.config = s.config
  pulse : x.gen.pulse = none
  spacing : x.gen.spacing = s.gen.spacing
  setup : Rests x ∨ (x.gen.refused = s.gen.refused ∧ (x.gen.dirSetup = none → s.gen.dirSetup = none))
  alone : axisLaw s = true → s.seq.axis.live = false → x.seq.outstanding = []

/-- A pulse may begin inside the boundary. -/
structure MayBegin (o : EventOrder) (s : State) : Prop where
  steps : .stepPulseBegin ∈ o.steps
  live : axisLaw s = true → s.seq.axis.live = true
  refused : s.gen.refused = false
  dirSetup : s.gen.dirSetup = none
  spacing : ∀ n, s.gen.spacing = some n → s.cfg.minStepUs ≤ n

/-- No pulse has begun, or one has that might. -/
def PulseStage (o : EventOrder) (s x : State) : Prop :=
  Unbegun s x ∨ (MayBegin o s ∧ x.gen.pulse.isSome = true ∧ x.gen.spacing = some 0)

section Pulse

variable {o : EventOrder} {s x y : State}

theorem Unbegun.of_keeps (h : Unbegun s x) (hkeeps : Keeps x y) : Unbegun s y where
  config := hkeeps.config.trans h.config
  pulse := hkeeps.pulse.trans h.pulse
  spacing := hkeeps.spacing.trans h.spacing
  setup := by
    obtain ⟨hrefused, hsetup⟩ | hrests := hkeeps.setup
    · obtain hx | ⟨hxrefused, hxsetup⟩ := h.setup
      · exact .inl (hkeeps.rests hx)
      · exact .inr ⟨hrefused.trans hxrefused, fun hnone => hxsetup (hsetup.symm.trans hnone)⟩
    · exact .inl hrests
  alone hlaw hstop := hkeeps.alone (h.alone hlaw hstop)

theorem PulseStage.of_keeps (h : PulseStage o s x) (hkeeps : Keeps x y) : PulseStage o s y := by
  obtain h | ⟨hmay, hpulse, hspacing⟩ := h
  · exact .inl (h.of_keeps hkeeps)
  · exact .inr ⟨hmay, by rw [hkeeps.pulse]; exact hpulse, hkeeps.spacing.trans hspacing⟩

theorem dirChangeDue_direction (h : dirChangeDue x = true) : x.gen.pulse = none ∧ x.seq.head.direction.isSome = true := by
  obtain ⟨_, hnow⟩ := Bool.and_eq_true_iff.mp h
  obtain ⟨hpulse, hdirection⟩ := Bool.and_eq_true_iff.mp hnow
  refine ⟨Option.isNone_iff_eq_none.mp hpulse, ?_⟩
  cases hd : x.seq.head.direction with
  | none => rw [hd] at hdirection; cases hdirection
  | some d => rfl

theorem Closed.direction (h : Closed x) : x.seq.head.direction = none := by
  rw [head_exec h.finishing, h.exec]
  rfl

/-- A change of DIR starts the setup timer, unless it never runs. -/
theorem PulseStage.changeDir (h : PulseStage o s x) (hlaw : setupLaw s = true) (hdue : dirChangeDue x = true) :
    PulseStage o s (changeDir x) := by
  obtain h | h := h
  · refine .inl ⟨h.config, h.pulse, h.spacing, ?_, h.alone⟩
    obtain hrests | ⟨hrefused, _⟩ := h.setup
    · obtain ⟨_, hsome⟩ := dirChangeDue_direction hdue
      rw [hrests.closed.direction] at hsome
      cases hsome
    · refine .inr ⟨hrefused, fun hnone => ?_⟩
      by_contra hsome
      obtain ⟨n, hn⟩ := Option.ne_none_iff_exists'.mp hsome
      have hpositive : 0 < s.cfg.dirSetupUs := by
        rw [setupLaw, hn] at hlaw
        exact (of_decide_eq_true hlaw).1
      have hzero : (if x.cfg.dirSetupUs = 0 then none else some x.cfg.dirSetupUs) = none := hnone
      rw [cfg_eq h.config, if_neg (Nat.ne_of_gt hpositive)] at hzero
      cases hzero
  · exact .inr h

/-- Why an event of the row is open. -/
theorem stepTurnOpen_cases {before : Option Segment} {e : StepTurn} (h : stepTurnOpen before x e = true) :
    x.seq.finishing ≠ [] ∨ x.seq.exec.map Executing.seg = before ∨ ownStartTurnOpen x e = true := by
  unfold stepTurnOpen at h
  rw [Bool.or_eq_true, Bool.or_eq_true] at h
  obtain (h | h) | h := h
  · exact .inl (by simpa using h)
  · exact .inr (.inl (of_decide_eq_true h))
  · split at h
    · exact .inr (.inr h)
    all_goals cases h

/-- A step that begins a pulse inside the boundary. -/
theorem Unbegun.begins (h : Unbegun s x) (hsteps : .stepPulseBegin ∈ o.steps) (hconditions : stepConditions x = true)
    (hrefusal : stepRefusal x = none) (hopen : ¬ Closed x)
    (hturn : stepTurnOpen (s.seq.exec.map Executing.seg) x .stepPulseBegin = true) (hexamines : Examines (beginPulse x) y) :
    PulseStage o s y := by
  obtain ⟨haxis, hrefused, _, hspacing, _, hsetup⟩ := (stepConditions_iff x).mp hconditions
  obtain ⟨hkeeps, _⟩ := hexamines
  have hsettled : x.gen.refused = s.gen.refused ∧ (x.gen.dirSetup = none → s.gen.dirSetup = none) := by
    obtain hrests | hsettled := h.setup
    · cases haxis.symm.trans hrests.axis
    · exact hsettled
  obtain ⟨hsame, hset⟩ := hsettled
  refine .inr ⟨⟨hsteps, fun hlaw => ?_, hsame.symm.trans hrefused, hset hsetup, fun n hn => ?_⟩, ?_, ?_⟩
  · by_contra hstop
    have hstop : s.seq.axis.live = false := by simpa using hstop
    obtain ⟨hexec, _⟩ := axisLaw_stopped hlaw hstop
    have hfin := finishing_nil (h.alone hlaw hstop)
    refine hopen ⟨?_, hfin⟩
    obtain hopen | hopen | hown := stepTurnOpen_cases hturn
    · exact absurd hfin hopen
    · rw [hexec] at hopen
      exact Option.map_eq_none_iff.mp hopen
    · rw [ownStartTurnOpen, hrefusal] at hown
      cases hown
  · rw [← cfg_eq h.config]
    exact hspacing n (h.spacing.trans hn)
  · rw [hkeeps.pulse]
    rfl
  · rw [hkeeps.spacing]
    rfl

theorem PulseStage.stepTurn (h : PulseStage o s x) (hlaw : setupLaw s = true) {e : StepTurn} (he : e ∈ o.steps)
    (hopen : stepTurnOpen (s.seq.exec.map Executing.seg) x e = true) : PulseStage o s (stepTurn x e) := by
  cases stepTurn_moves x e with
  | examines hexamines =>
    obtain ⟨hkeeps, _⟩ := hexamines
    exact h.of_keeps hkeeps
  | fails _ _ hkeeps _ => exact h.of_keeps hkeeps
  | turns _ hdue hturned =>
    rw [hturned]
    exact h.changeDir hlaw hdue
  | begins hbegin hconditions hrefusal hhead hexamines =>
    subst hbegin
    obtain h | ⟨hmay, _⟩ := h
    · exact h.begins he hconditions hrefusal hhead hopen hexamines
    · obtain ⟨hkeeps, _⟩ := hexamines
      exact .inr ⟨hmay, by rw [hkeeps.pulse]; rfl, by rw [hkeeps.spacing]; rfl⟩

theorem PulseStage.stepRow (hlaw : setupLaw s = true) {l : List StepTurn} (hl : ∀ e ∈ l, e ∈ o.steps)
    (h : PulseStage o s x) : PulseStage o s (stepRow (s.seq.exec.map Executing.seg) l x) := by
  induction l generalizing x with
  | nil => exact h
  | cons e l ih =>
    refine ih (fun e' he' => hl e' (List.mem_cons_of_mem e he')) ?_
    change PulseStage o s (if stepTurnOpen _ x e then Machine.stepTurn x e else x)
    split
    · rename_i hopen
      exact h.stepTurn hlaw (hl e List.mem_cons_self) hopen
    · exact h

theorem PulseStage.of_taken {b : State} (h : MotionTaken b x) (hconfig : b.config = s.config) (hgen : b.gen = s.gen)
    (hseq : b.seq = s.seq) (hpulse : s.gen.pulse = none) : PulseStage o s x := by
  refine .inl ⟨h.config.trans hconfig, ?_, ?_, ?_, fun hlaw hstop => ?_⟩
  · obtain hsame | ⟨_, hhalted⟩ := h.gen
    · rw [hsame, hgen]
      exact hpulse
    · rw [hhalted, hgen]
      exact hpulse
  · obtain hsame | ⟨_, hhalted⟩ := h.gen
    · rw [hsame, hgen]
    · rw [hhalted, hgen]
  · obtain hsame | ⟨hrests, _⟩ := h.gen
    · rw [hsame, hgen]
      exact .inr ⟨rfl, id⟩
    · exact .inl hrests
  · obtain ⟨hexec, hout, _⟩ := axisLaw_stopped hlaw hstop
    exact h.alone (by rw [hseq]; exact hexec) (by rw [hseq]; exact hout)

end Pulse

/-- A boundary that begins a pulse might. -/
theorem afterTurns_pulse (o : EventOrder) (skipped : Nat) (pulse : Option Nat) {s : State} (hlaw : setupLaw s = true)
    (hpulse : s.gen.pulse = none) : PulseStage o s (afterTurns o skipped pulse s) := by
  obtain ⟨_, hstage⟩ := boundary_stages (o := o) (skipped := skipped) (pulse := pulse) (s := s)
    (P := fun _ x => PulseStage o s x)
    (fun x hx => .of_taken hx rfl rfl rfl hpulse) (fun _ x y hx hexamines => hx.of_keeps hexamines.1)
    (fun x hx => hx.stepRow hlaw fun e he => (mem_firsts e o.steps).mp he)
  exact hstage

end Sys2Proof.Machine

namespace Sys2Proof.Claims

open Sys2Proof.Machine

/-- STEP_PULSE_BEGIN begins a pulse only under the conditions. -/
theorem stepPulseBegin_pulse {s t : State} (hexec : exec .stepPulseBegin s = .next t) (hpulse : s.gen.pulse = none)
    (hbegun : t.gen.pulse.isSome = true) : stepConditions s = true ∧ t.gen.spacing = some 0 := by
  by_cases hdue : stepPulseBeginDue s = true
  · rw [exec_stepPulseBegin hdue] at hexec
    cases hexec
    have hkept (hkeeps : Keeps s (takeStep s)) : False := by
      rw [hkeeps.pulse, hpulse] at hbegun
      cases hbegun
    cases takeStep_moves (stepConditions_of_due hdue) with
    | examines hexamines => exact (hkept hexamines.1).elim
    | fails _ _ hkeeps _ => exact (hkept hkeeps).elim
    | turns he _ _ => cases he
    | begins _ hconditions _ _ hexamines =>
      obtain ⟨hkeeps, _⟩ := hexamines
      exact ⟨hconditions, hkeeps.spacing⟩
  · cases hexec.symm.trans (congrArg Host.Outcome.next (if_neg hdue))
    rw [hpulse] at hbegun
    cases hbegun

theorem setPosition_pulse {bytes : List Byte} {s t : State} (hexec : exec (.setPosition bytes) s = .next t) :
    t.gen.pulse = s.gen.pulse := by
  cases hexec
  rcases clockRequest_cases 0x14 (fun _ => 4) bytes takeSetPosition s with ⟨_, h⟩ | ⟨ps, _, ⟨_, h⟩ | ⟨_, h⟩⟩
  · exact congrArg (fun u => u.gen.pulse) h
  · exact congrArg (fun u => u.gen.pulse) h
  · refine (congrArg (fun u => u.gen.pulse) h).trans ?_
    unfold takeSetPosition
    split <;> rfl

theorem closingTick_pulse {s t : State} (hexec : exec .closingTick s = .next t) : t.gen.pulse = s.gen.pulse := by
  by_cases hdue : closingTickDue s = true
  · rw [exec_closingTick hdue] at hexec
    cases hexec
    cases closeSegment_moves hdue with
    | examines hexamines => exact hexamines.1.pulse
    | fails _ _ hkeeps _ => exact hkeeps.pulse
    | turns he _ _ => cases he
    | begins he _ _ _ _ => cases he
  · cases hexec.symm.trans (congrArg Host.Outcome.next (if_neg hdue))
    rfl

/-- Settles O36: no command begins a pulse but STEP_PULSE_BEGIN and the boundaries, whose row of events may name it. -/
theorem stepPulseBeginsOnlyWhenAllowed : Obligations.StepPulseBeginsOnlyWhenAllowed := by
  intro c s t hlaw hexec hpulse hbegun
  have hsame {p : Prop} (h : t.gen.pulse = s.gen.pulse) : p := by
    rw [h, hpulse] at hbegun
    cases hbegun
  have hbounds {o : EventOrder} (hc : Bounds c o) : (∃ o, Bounds c o ∧ .stepPulseBegin ∈ o.steps ∧
      (axisLaw s = true → Haltable s.seq.axis)) ∧ s.gen.refused = false ∧ s.gen.dirSetup = none ∧
      (∀ n, s.gen.spacing = some n → s.cfg.minStepUs ≤ n) ∧ t.gen.spacing = some 0 := by
    obtain hkept | ⟨skipped, pulse, rfl⟩ := bounds_cases hc hexec
    · exact hsame (by rw [hkept])
    · obtain hunbegun | ⟨hmay, _, hspacing⟩ := afterTurns_pulse o skipped pulse hlaw hpulse
      · exact hsame (hunbegun.pulse.trans hpulse.symm)
      · exact ⟨⟨o, hc, hmay.steps, fun haxis => (haltable_iff _).mpr (hmay.live haxis)⟩, hmay.refused, hmay.dirSetup, hmay.spacing,
          hspacing⟩
  by_cases hmoves : movesCounter c = true
  · cases c with
    | deviceReset straps =>
      cases hexec
      cases hbegun
    | runOut o => exact (hbounds (.inl rfl)).imp_left .inr
    | stretchedRunOut o => exact (hbounds (.inr (.inl rfl))).imp_left .inr
    | syncFallingEdge o => exact (hbounds (.inr (.inr rfl))).imp_left .inr
    | closingTick => exact hsame (closingTick_pulse hexec)
    | setPosition bytes => exact hsame (setPosition_pulse hexec)
    | stepPulseBegin =>
      obtain ⟨hconditions, hspacing⟩ := stepPulseBegin_pulse hexec hpulse hbegun
      obtain ⟨haxis, hrefused, _, hapart, _, hsetup⟩ := (stepConditions_iff s).mp hconditions
      exact ⟨.inl ⟨rfl, haxis⟩, hrefused, hsetup, hapart, hspacing⟩
    | _ => cases hmoves
  · have hkept := exec_counterKept (by simpa using hmoves) hexec
    exact hsame ((hkept.pulse hpulse).trans hpulse.symm)

end Sys2Proof.Claims
end

