-- ==== Sys2Proof/Proofs/PositionCounter.lean ====
section
/-! PROOFS. The counter and its flag change only by the events of R52 (O37). -/

namespace Sys2Proof.Machine

open Sys2Proof.Claims

/-! ## The counter inside a boundary -/

/-- The counter one step on in the direction of DIR. -/
def SteppedTo (p : Position) (t : State) : Prop := t.gen.position = if t.gen.dirHigh then p + 1 else p - 1

/-- A HOME that executed in `s`, or stood at the head of its queue, has ended HOMED. -/
structure HomedIn (s : State) (c : Cycle) (t : State) : Prop where
  active : s.inputActive .home = true
  known : t.gen.known = true
  exec : (∃ e, s.seq.exec = some e ∧ e.homeValue = some t.gen.position) ∨ ∃ seg dir interval maxSteps,
    s.seq.queue.head? = some seg ∧ seg.body = .home dir interval maxSteps t.gen.position
  record : ∃ r, r ∈ t.held ∧ r.code = .homed ∧ r.position = t.gen.position ∧ r.known = true ∧ r.endCycle = c

/-- A HOME has ended HOME_FAILED. -/
structure FailedIn (named : List StepTurn) (s : State) (c : Cycle) (t : State) : Prop where
  steps : .closingTick ∈ named
  position : t.gen.position = s.gen.position ∨ (.stepPulseBegin ∈ named ∧ SteppedTo s.gen.position t)
  known : t.gen.known = false
  record : ∃ r, r ∈ t.held ∧ r.code = .homeFailed ∧ r.known = false ∧ r.endCycle = c

/-- What the counter has come to by the named events. `row` says whether a step may still come. -/
inductive CounterStage (named : List StepTurn) (s : State) (c : Cycle) (row : Prop) (x : State) : Prop
  | same (hposition : x.gen.position = s.gen.position) (hknown : x.gen.known = s.gen.known)
      (hexec : HomeFrom s.seq x.seq.exec)
  | stepped (hrow : ¬ row) (hsteps : .stepPulseBegin ∈ named) (hposition : SteppedTo s.gen.position x)
      (hknown : x.gen.known = s.gen.known) (hpulse : x.gen.pulse ≠ none) (hexec : HomeFrom s.seq x.seq.exec)
  | homed (h : HomedIn s c x) (hclosed : Closed x)
  | failed (h : FailedIn named s c x) (hclosed : Closed x)

/-- What an examination of HOME reads is as it was at the boundary. -/
structure SameHome (s : State) (c : Cycle) (x : State) : Prop where
  cycle : x.timer.cycle = c
  config : x.config = s.config
  home : x.gen.home = s.gen.home

section Counter

variable {named : List StepTurn} {s x y : State} {c : Cycle} {row later : Prop}

theorem SameHome.of_keeps (h : SameHome s c x) (hkeeps : Keeps x y) : SameHome s c y :=
  ⟨hkeeps.cycle.trans h.cycle, hkeeps.config.trans h.config, hkeeps.home.trans h.home⟩

theorem SameHome.inputActive (h : SameHome s c x) : x.inputActive .home = s.inputActive .home := by
  unfold State.inputActive State.cfg StepGen.filter
  rw [h.config, h.home]

theorem SteppedTo.of_keeps {p : Position} (h : SteppedTo p x) (hkeeps : Keeps x y) (hposition : y.gen.position = x.gen.position) :
    SteppedTo p y := by
  unfold SteppedTo
  rw [hposition, hkeeps.dirHigh]
  exact h

theorem HomeFrom.of_counts {q : Sequencer} (h : HomeFrom q x.seq.exec) (hcounts : Counts x y) : HomeFrom q y.seq.exec := by
  intro e v he hv
  obtain ⟨e', he', hvalue⟩ := hcounts.exec e he
  exact h e' v he' (hvalue.trans hv)

/-- An examination that homes. -/
theorem HomesTo.homedIn {v : Position} (h : HomesTo v x y) (hexec : HomeFrom s.seq x.seq.exec) (hsame : SameHome s c x) :
    HomedIn s c y := by
  obtain ⟨e, he, hv⟩ := h.exec
  refine ⟨by rw [← hsame.inputActive]; exact h.active, h.known, ?_, ?_⟩
  · rw [h.position]
    exact hexec e v he hv
  · rw [h.position, ← hsame.cycle]
    exact h.record

/-- Once nothing executes and nothing owes steps, what the counter has come to stays. -/
theorem CounterStage.of_closed (h : CounterStage named s c row x) (hlater : later → row) (hkeeps : Keeps x y)
    (hcounts : Counts x y) : CounterStage named s c later y := by
  cases h with
  | same hposition hknown hexec =>
    exact .same (hcounts.position.trans hposition) (hcounts.known.trans hknown) (hexec.of_counts hcounts)
  | stepped hrow hsteps hposition hknown hpulse hexec =>
    exact .stepped (fun h => hrow (hlater h)) hsteps (hposition.of_keeps hkeeps hcounts.position)
      (hcounts.known.trans hknown) (by rw [hkeeps.pulse]; exact hpulse) (hexec.of_counts hcounts)
  | homed hhomed hclosed =>
    obtain ⟨r, hr, hrecord⟩ := hhomed.record
    refine .homed ⟨hhomed.active, hcounts.known.trans hhomed.known, ?_, ⟨r, hkeeps.held.subset hr, ?_⟩⟩ (hkeeps.closed hclosed)
    · rw [hcounts.position]
      exact hhomed.exec
    · rw [hcounts.position]
      exact hrecord
  | failed hfailed hclosed =>
    obtain ⟨r, hr, hrecord⟩ := hfailed.record
    refine .failed ⟨hfailed.steps, ?_, hcounts.known.trans hfailed.known, r, hkeeps.held.subset hr, hrecord⟩
      (hkeeps.closed hclosed)
    exact hfailed.position.imp hcounts.position.trans fun ⟨hsteps, hstepped⟩ =>
      ⟨hsteps, hstepped.of_keeps hkeeps hcounts.position⟩

theorem CounterStage.of_examines (h : CounterStage named s c row x) (hsame : SameHome s c x) (hlater : later → row)
    (hexamines : Examines x y) : CounterStage named s c later y := by
  obtain ⟨hkeeps, hcounts | ⟨v, hhomes⟩⟩ := hexamines
  · exact h.of_closed hlater hkeeps hcounts
  · have hopen {p : Prop} (hclosed : Closed x) : p := by
      obtain ⟨e, he, _⟩ := hhomes.exec
      cases hclosed.exec.symm.trans he
    cases h with
    | same _ _ hexec => exact .homed (hhomes.homedIn hexec hsame) hhomes.closed
    | stepped _ _ _ _ _ hexec => exact .homed (hhomes.homedIn hexec hsame) hhomes.closed
    | homed _ hclosed => exact hopen hclosed
    | failed _ hclosed => exact hopen hclosed

/-- A HOME that fails. -/
theorem CounterStage.fails (h : CounterStage named s c row x) (hsame : SameHome s c x) (hsteps : .closingTick ∈ named)
    (hopen : ¬ Closed x) (hkeeps : Keeps x y) (hfails : HomeFails x y) : CounterStage named s c later y := by
  have hfailed (hposition : y.gen.position = s.gen.position ∨ (.stepPulseBegin ∈ named ∧ SteppedTo s.gen.position y)) :
      CounterStage named s c later y :=
    .failed ⟨hsteps, hposition, hfails.known, by rw [← hsame.cycle]; exact hfails.record⟩ hfails.closed
  cases h with
  | same hposition _ _ => exact hfailed (.inl (hfails.position.trans hposition))
  | stepped _ hbegin hposition _ _ _ => exact hfailed (.inr ⟨hbegin, hposition.of_keeps hkeeps hfails.position⟩)
  | homed _ hclosed => exact absurd hclosed hopen
  | failed _ hclosed => exact absurd hclosed hopen

/-- DIR does not change while STEP is active. -/
theorem CounterStage.changeDir (h : CounterStage named s c row x) (hdue : dirChangeDue x = true) :
    CounterStage named s c later (changeDir x) := by
  obtain ⟨hpulse, hdirection⟩ := dirChangeDue_direction hdue
  have hopen {p : Prop} (hclosed : Closed x) : p := by
    rw [hclosed.direction] at hdirection
    cases hdirection
  cases h with
  | same hposition hknown hexec => exact .same hposition hknown hexec
  | stepped _ _ _ _ hactive _ => exact absurd hpulse hactive
  | homed _ hclosed => exact hopen hclosed
  | failed _ hclosed => exact hopen hclosed

theorem beginPulse_steps (x : State) : SteppedTo x.gen.position (beginPulse x) := by
  rw [beginPulse_eq]
  rfl

/-- The one step of the row. -/
theorem CounterStage.begins (h : CounterStage named s c row x) (hsame : SameHome s c x) (hrow : row) (hlater : ¬ later)
    (hsteps : .stepPulseBegin ∈ named) (hopen : ¬ Closed x) (hexamines : Examines (beginPulse x) y) :
    CounterStage named s c later y := by
  cases h with
  | same hposition hknown hexec =>
    have hbegun : CounterStage named s c later (beginPulse x) :=
      .stepped hlater hsteps (by rw [← hposition]; exact beginPulse_steps x) hknown nofun hexec
    exact hbegun.of_examines ⟨hsame.cycle, hsame.config, hsame.home⟩ id hexamines
  | stepped hnone _ _ _ _ _ => exact absurd hrow hnone
  | homed _ hclosed => exact absurd hclosed hopen
  | failed _ hclosed => exact absurd hclosed hopen

theorem CounterStage.stepTurn {e : StepTurn} (h : CounterStage named s c row x) (hsame : SameHome s c x) (he : e ∈ named)
    (hlater : later → row) (hrow : e = .stepPulseBegin → row ∧ ¬ later) :
    CounterStage named s c later (stepTurn x e) ∧ SameHome s c (stepTurn x e) := by
  cases stepTurn_moves x e with
  | examines hexamines => exact ⟨h.of_examines hsame hlater hexamines, hsame.of_keeps hexamines.1⟩
  | fails hclosing hopen hkeeps hfails =>
    exact ⟨h.fails hsame (hclosing ▸ he) hopen hkeeps hfails, hsame.of_keeps hkeeps⟩
  | turns _ hdue hturned =>
    rw [hturned]
    exact ⟨h.changeDir hdue, hsame.cycle, hsame.config, hsame.home⟩
  | begins hbegin _ _ hopen hexamines =>
    obtain ⟨hcome, hgone⟩ := hrow hbegin
    exact ⟨h.begins hsame hcome hgone (hbegin ▸ he) hopen hexamines,
      (⟨hsame.cycle, hsame.config, hsame.home⟩ : SameHome s c (beginPulse x)).of_keeps hexamines.1⟩

theorem CounterStage.stepRow {before : Option Segment} {l : List StepTurn} (hl : ∀ e ∈ l, e ∈ named) (hnodup : l.Nodup)
    (h : CounterStage named s c (.stepPulseBegin ∈ l) x) (hsame : SameHome s c x) :
    CounterStage named s c False (stepRow before l x) ∧ SameHome s c (stepRow before l x) := by
  induction l generalizing x with
  | nil => exact ⟨h.of_closed False.elim (.refl x) (.refl x), hsame⟩
  | cons e l ih =>
    obtain ⟨he, hnodup⟩ := List.nodup_cons.mp hnodup
    obtain ⟨hstage, hkept⟩ : CounterStage named s c (.stepPulseBegin ∈ l) (if stepTurnOpen before x e then Machine.stepTurn x e else x) ∧
        SameHome s c (if stepTurnOpen before x e then Machine.stepTurn x e else x) := by
      split
      · exact h.stepTurn hsame (hl e List.mem_cons_self) (List.mem_cons_of_mem e) fun hbegin =>
          ⟨hbegin ▸ List.mem_cons_self, hbegin ▸ he⟩
      · exact ⟨h.of_closed (List.mem_cons_of_mem e) (.refl x) (.refl x), hsame⟩
    exact ih (fun e' he' => hl e' (List.mem_cons_of_mem e he')) hnodup hstage hkept

theorem CounterStage.of_taken {b : State} (h : MotionTaken b x) (hgen : b.gen = s.gen) (hseq : b.seq = s.seq) :
    CounterStage named s c row x := by
  have hexec : HomeFrom s.seq x.seq.exec := hseq ▸ h.exec
  obtain hsame | ⟨_, hhalted⟩ := h.gen
  · exact .same (by rw [hsame, hgen]) (by rw [hsame, hgen]) hexec
  · exact .same (by rw [hhalted, hgen]) (by rw [hhalted, hgen]) hexec

end Counter

/-- What the counter has come to at the end of a boundary. -/
theorem afterTurns_counter (o : EventOrder) (skipped : Nat) (pulse : Option Nat) (s : State) :
    CounterStage o.steps s (afterTurns o skipped pulse s).timer.cycle False (afterTurns o skipped pulse s) := by
  obtain ⟨b, hstage, hsame⟩ := boundary_stages (o := o) (skipped := skipped) (pulse := pulse) (s := s)
    (P := fun b x => CounterStage o.steps s (begun pulse s).timer.cycle (b = true) x ∧ SameHome s (begun pulse s).timer.cycle x)
    (fun x hx => by
      refine ⟨.of_taken hx rfl rfl, hx.cycle, hx.config, ?_⟩
      obtain hgen | ⟨_, hgen⟩ := hx.gen <;> rw [hgen] <;> rfl)
    (fun _ x y ⟨hx, hsame⟩ hexamines => ⟨hx.of_examines hsame id hexamines, hsame.of_keeps hexamines.1⟩)
    (fun x ⟨hx, hsame⟩ => by
      have hrow : CounterStage o.steps s (begun pulse s).timer.cycle (.stepPulseBegin ∈ firsts o.steps) x :=
        hx.of_closed (fun _ => rfl) (.refl x) (.refl x)
      obtain ⟨hdone, hkept⟩ := hrow.stepRow (before := s.seq.exec.map Executing.seg) (fun e he => (mem_firsts e o.steps).mp he)
        (firsts_nodup o.steps) hsame
      exact ⟨hdone.of_closed (fun h => by cases h) (.refl _) (.refl _), hkept⟩)
  rw [hsame.cycle]
  exact hstage.of_closed False.elim (.refl _) (.refl _)

end Sys2Proof.Machine

namespace Sys2Proof.Claims

open Sys2Proof.Machine

theorem homed_of_homedIn {s t : State} (h : HomedIn s t.timer.cycle t) : Homed s t := by
  refine ⟨h.active, h.known, ?_, h.record⟩
  obtain ⟨e, he, hv⟩ | hhead := h.exec
  · obtain ⟨u, hu, hvalue⟩ := homeValue_eq_some hv
    exact .inl ⟨e, u, he, hu, hvalue⟩
  · exact .inr hhead

/-- What the rules of R52 allow by the named events. -/
structure CounterRules (named : List StepTurn) (s t : State) : Prop where
  position : t.gen.position ≠ s.gen.position → Homed s t ∨ (.stepPulseBegin ∈ named ∧ SteppedTo s.gen.position t)
  known : t.gen.known ≠ s.gen.known → Homed s t ∨ (.closingTick ∈ named ∧ t.gen.known = false ∧
    ∃ r, r ∈ t.held ∧ r.code = .homeFailed ∧ r.known = false ∧ r.endCycle = t.timer.cycle)

theorem counterRules_of_same {named : List StepTurn} {s t : State} (hposition : t.gen.position = s.gen.position)
    (hknown : t.gen.known = s.gen.known) : CounterRules named s t := ⟨absurd hposition, absurd hknown⟩

theorem counterRules_of_stage {named : List StepTurn} {s t : State} {row : Prop}
    (h : CounterStage named s t.timer.cycle row t) : CounterRules named s t := by
  cases h with
  | same hposition hknown _ => exact counterRules_of_same hposition hknown
  | stepped _ hsteps hposition hknown _ _ => exact ⟨fun _ => .inr ⟨hsteps, hposition⟩, absurd hknown⟩
  | homed hhomed _ => exact ⟨fun _ => .inl (homed_of_homedIn hhomed), fun _ => .inl (homed_of_homedIn hhomed)⟩
  | failed hfailed _ =>
    exact ⟨fun hne => .inr (hfailed.position.resolve_left hne), fun _ => .inr ⟨hfailed.steps, hfailed.known, hfailed.record⟩⟩

theorem bounds_counter {c : Instr} {o : EventOrder} {s t : State} (hc : Bounds c o) (hexec : exec c s = .next t) :
    CounterRules o.steps s t := by
  obtain hkept | ⟨skipped, pulse, rfl⟩ := bounds_cases hc hexec
  · exact counterRules_of_same (by rw [hkept]) (by rw [hkept])
  · exact counterRules_of_stage (afterTurns_counter o skipped pulse s)

/-- An event of the Step Generator as a command of its own. -/
theorem stepTurn_counter (s : State) (e : StepTurn) : CounterRules [e] s (stepTurn s e) := by
  have hstart : CounterStage [e] s s.timer.cycle True s := .same rfl rfl (.refl _)
  obtain ⟨hstage, hsame⟩ := hstart.stepTurn (e := e) (later := False) ⟨rfl, rfl, rfl⟩ List.mem_cons_self False.elim
    fun _ => ⟨trivial, id⟩
  rw [← hsame.cycle] at hstage
  exact counterRules_of_stage hstage

/-- The bytes that have come in the right state of the port make up the request. -/
theorem completes_of_assembled {code : Byte} {n : Nat} {bytes all : List Byte} {p : HostPort}
    (h : assembled code bytes p = some all) (hlen : n ≤ all.length) : Completes code n bytes p (all.take n) := by
  refine ⟨all, ?_, hlen, rfl⟩
  unfold assembled at h
  split at h
  · rename_i hphase
    cases h
    exact .inl ⟨hphase, rfl⟩
  · rename_i hphase
    split at h
    · rename_i hrequest
      cases h
      exact .inr ⟨hphase, hrequest, rfl⟩
    · cases h
  all_goals cases h

theorem setPosition_counter {bytes : List Byte} {s t : State} (hexec : exec (.setPosition bytes) s = .next t) :
    (t.gen.position = s.gen.position ∧ t.gen.known = s.gen.known) ∨ SetsPosition (.setPosition bytes) s t := by
  cases hexec
  rcases clockRequest_cases 0x14 (fun _ => 4) bytes takeSetPosition s with ⟨_, h⟩ | ⟨ps, hall, ⟨_, h⟩ | ⟨hlen, h⟩⟩
  · rw [h]
    exact .inl ⟨rfl, rfl⟩
  · rw [h]
    exact .inl ⟨rfl, rfl⟩
  · rw [h]
    unfold takeSetPosition
    split
    · exact .inl ⟨rfl, rfl⟩
    · exact .inr ⟨bytes, ps.take 4, rfl, completes_of_assembled hall hlen, word32At_eq _ _, rfl⟩

/-- The rules as R52 gives them: what may home, step or fail is what the named events are part of. -/
theorem CounterRules.allow {named : List StepTurn} {s t : State} (h : CounterRules named s t)
    {reset sets homes steps fails : Prop} (hhomes : homes) (hsteps : .stepPulseBegin ∈ named → steps)
    (hfails : .closingTick ∈ named → fails) :
    (t.gen.position ≠ s.gen.position → reset ∨ sets ∨ (homes ∧ Homed s t) ∨ (steps ∧ SteppedTo s.gen.position t)) ∧
    (t.gen.known ≠ s.gen.known → reset ∨ sets ∨ (homes ∧ Homed s t) ∨ (fails ∧ t.gen.known = false ∧
      ∃ r, r ∈ t.held ∧ r.code = .homeFailed ∧ r.known = false ∧ r.endCycle = t.timer.cycle)) :=
  ⟨fun hne => .inr (.inr ((h.position hne).imp (⟨hhomes, ·⟩) (.imp_left hsteps))),
    fun hne => .inr (.inr ((h.known hne).imp (⟨hhomes, ·⟩) (.imp_left hfails)))⟩

/-- Settles O37: the counter and its flag are followed through every command, and through each turn of a boundary. -/
theorem positionChangesOnlyByItsRules : Obligations.PositionChangesOnlyByItsRules := by
  intro c s t hexec
  have hbounds {o : EventOrder} (hc : Bounds c o) := (bounds_counter hc hexec).allow
    (reset := ∃ k, c = .deviceReset k ∧ t.gen.position = 0 ∧ t.gen.known = false) (sets := SetsPosition c s t)
    (homes := c = .stepPulseBegin ∨ c = .closingTick ∨ ∃ o, Bounds c o)
    (steps := c = .stepPulseBegin ∨ ∃ o, Bounds c o ∧ .stepPulseBegin ∈ o.steps)
    (fails := c = .closingTick ∨ ∃ o, Bounds c o ∧ .closingTick ∈ o.steps)
    (.inr (.inr ⟨o, hc⟩)) (fun h => .inr ⟨o, hc, h⟩) (fun h => .inr ⟨o, hc, h⟩)
  by_cases hmoves : movesCounter c = true
  · cases c with
    | deviceReset straps =>
      cases hexec
      exact ⟨fun _ => .inl ⟨straps, rfl, rfl, rfl⟩, fun _ => .inl ⟨straps, rfl, rfl, rfl⟩⟩
    | runOut o => exact hbounds (.inl rfl)
    | stretchedRunOut o => exact hbounds (.inr (.inl rfl))
    | syncFallingEdge o => exact hbounds (.inr (.inr rfl))
    | closingTick =>
      cases hexec
      exact (stepTurn_counter s .closingTick).allow (.inr (.inl rfl)) (fun h => by simp at h) fun _ => .inl rfl
    | stepPulseBegin =>
      cases hexec
      exact (stepTurn_counter s .stepPulseBegin).allow (.inl rfl) (fun _ => .inl rfl) fun h => by simp at h
    | setPosition bytes =>
      obtain ⟨hposition, hknown⟩ | hsets := setPosition_counter hexec
      · exact ⟨absurd hposition, absurd hknown⟩
      · exact ⟨fun _ => .inr (.inl hsets), fun _ => .inr (.inl hsets)⟩
    | _ => cases hmoves
  · have hkept := exec_counterKept (by simpa using hmoves) hexec
    exact ⟨absurd hkept.position, absurd hkept.known⟩

end Sys2Proof.Claims
end

