-- ==== Sys2Proof/Proofs/LinkTurns.lean ====
section
/-! PROOFS. The link's turn among the turns of a boundary, and a link that stays in step while it counts collisions (O18). -/

namespace Sys2Proof.Machine

open Sys2Proof.Claims

/-! ## Around the link's turn -/

theorem MotionChange.keeps_enabled {s t : State} (h : MotionChange s t) (hs : s.seq.axis ≠ .disabled) :
    t.seq.axis ≠ .disabled := by
  have hafter {a : AxisState} (ha : AxisAfter s a) : a ≠ .disabled := by
    obtain rfl | ⟨_, rfl⟩ := ha
    · exact nofun
    · exact hs
  cases h with
  | gen | haltCtl | withdrawn | context | source | stepCounted | stepsDone => exact hs
  | halted | started | barrierStarted | startFailed => exact nofun
  | ended e r a he hsrc ha => exact hafter ha
  | finishing e src a he hsrc howes ha => exact hafter ha
  | released e r b a he hsrc hb ha => exact hafter ha

theorem WorkChange.keeps_enabled {s t : State} (h : WorkChange s t) (hs : s.seq.axis ≠ .disabled) : t.seq.axis ≠ .disabled := by
  obtain h | h := h
  · exact h.keeps_enabled hs
  · rw [h.frame.seq]
    exact hs

/-- DISABLED is entered by RESTART and device reset alone. -/
theorem Change.keeps_enabled {s t : State} (h : Change .removal s t) (hs : s.seq.axis ≠ .disabled) : t.seq.axis ≠ .disabled := by
  cases h with
  | work _ h => exact h.keeps_enabled hs
  | leaves x y p t h => exact rows_keep (fun _ _ h => h.keeps_enabled) h.work hs
  | leavesDisabled | cleared => exact nofun
  | restarted _ hcmd => cases hcmd
  | reset _ hcmd => cases hcmd
  | _ => exact hs

theorem turns_enabled {o : EventOrder} {e : CycleEnd} {l : List BoundaryTurn} {x : Raising} (h : x.1.seq.axis ≠ .disabled) :
    (l.foldl (takeTurn o e) x).1.seq.axis ≠ .disabled :=
  rows_keep (fun _ _ h => h.keeps_enabled) (turns_changes (cmd := .removal) o e l x) h

theorem turns_axisLaw {o : EventOrder} {e : CycleEnd} {l : List BoundaryTurn} {x : Raising} (h : axisLaw x.1 = true) :
    axisLaw (l.foldl (takeTurn o e) x).1 = true :=
  rows_keep (fun _ _ h => h.keeps_axisLaw) (turns_changes (cmd := .removal) o e l x) h

theorem work_linkFlag {s t : State} (h : Work s t) : t.port.linkFlag = s.port.linkFlag := by
  induction h with
  | refl => rfl
  | tail _ hchange ih =>
    rw [← ih]
    obtain h | h := hchange
    · rw [h.frame.port]
    · rw [h.frame.port]

theorem takeTurn_linkFlag (o : EventOrder) (e : CycleEnd) (x : Raising) {b : BoundaryTurn} (hb : b ≠ .link) :
    (takeTurn o e x b).1.port.linkFlag = x.1.port.linkFlag := by
  cases b with
  | link => exact absurd rfl hb
  | peers => exact work_linkFlag (ageing_work _ x.1)
  | motion => exact work_linkFlag (work_of_motion (motionBoundary_motion _ _ x.1))
  | examination => exact work_linkFlag (work_of_motion (firstExamination_motion x.1))
  | stepEvents => exact work_linkFlag (work_of_motion (stepEventsTurn_motion o _ x.1))
  | lateHalt => exact work_linkFlag (work_of_motion (takeRaised_motion _ x.1))
  | stopInput => exact work_linkFlag (work_of_motion (stopTurn_motion x.1))
  | hostHalt =>
    change (clockPlain 0x12 takeHalt x.1).port.linkFlag = _
    obtain ⟨_, h⟩ | ⟨_, h⟩ := clockPlain_cases 0x12 takeHalt x.1
    · rw [h, takeHalt]
      split
      · rfl
      · change (takeCause (.plain .hostHalt) (holdParams 0x12 [] x.1)).port.linkFlag = (holdParams 0x12 [] x.1).port.linkFlag
        exact work_linkFlag (work_of_motion (takeCause_motion _ _))
    · rw [h]
  | deadline => exact work_linkFlag (work_of_motion (barrierDeadline_motion x.1))
  | notes => exact work_linkFlag (work_of_tables (noteBoundary_tables x.1))

/-- A row of turns of a boundary, none of them the link's. -/
abbrev OtherTurns (o : EventOrder) (e : CycleEnd) : State → State → Prop :=
  Relation.ReflTransGen fun s t => ∃ b raised, b ≠ BoundaryTurn.link ∧ t = (takeTurn o e (s, raised) b).1

theorem otherTurns_row {o : EventOrder} {e : CycleEnd} {l : List BoundaryTurn} (hl : .link ∉ l) (x : Raising) :
    OtherTurns o e x.1 (l.foldl (takeTurn o e) x).1 :=
  turns_relate (fun _ => .refl) (fun h k => h.trans k)
    (fun x b hb => .single ⟨b, x.2, fun h => hl (h ▸ hb), rfl⟩) x

/-- The boundary is the turns before the link's, that turn, and the turns after it, which leave its timer and its link. -/
structure AroundLink (o : EventOrder) (skipped : Nat) (pulse : Option Nat) (s u : State) (t : State) : Prop where
  before : SameClock (begun pulse s) u
  earlier : OtherTurns o (cycleEnd skipped s) (begun pulse s) u
  later : OtherTurns o (cycleEnd skipped s) (linkBoundary o s.timer.adoption.isSome (earlyLossOf s.timer) u) t
  after : SameClock (linkBoundary o s.timer.adoption.isSome (earlyLossOf s.timer) u) t
  linkFlag : t.port.linkFlag = (linkBoundary o s.timer.adoption.isSome (earlyLossOf s.timer) u).port.linkFlag
  axisLaw : axisLaw s = true → axisLaw u = true
  enabled : s.seq.axis ≠ .disabled → u.seq.axis ≠ .disabled
  stands : Rests (linkBoundary o s.timer.adoption.isSome (earlyLossOf s.timer) u) →
    StandsAs (linkBoundary o s.timer.adoption.isSome (earlyLossOf s.timer) u) t

theorem afterTurns_around (o : EventOrder) (skipped : Nat) (pulse : Option Nat) (s : State) :
    ∃ u, AroundLink o skipped pulse s u (afterTurns o skipped pulse s) := by
  obtain ⟨pre, post, hsplit, hpre, hpost⟩ := turnsOf_split o (link_mem_turnsOf o)
  have hrow (l : List BoundaryTurn) (hl : .link ∉ l) (x : Raising) :
      SameClock x.1 (l.foldl (takeTurn o (cycleEnd skipped s)) x).1 :=
    turns_relate SameClock.refl SameClock.trans (fun x b hb => takeTurn_clock o _ x (fun h => hl (h ▸ hb))) x
  have hflag (x : Raising) : (post.foldl (takeTurn o (cycleEnd skipped s)) x).1.port.linkFlag = x.1.port.linkFlag :=
    turns_relate (R := fun a b => b.port.linkFlag = a.port.linkFlag) (fun _ => rfl) (fun h k => k.trans h)
      (fun x b hb => takeTurn_linkFlag o _ x (fun h => hpost (h ▸ hb))) x
  obtain ⟨x, hx⟩ : ∃ x, x = pre.foldl (takeTurn o (cycleEnd skipped s)) (begun pulse s, none) := ⟨_, rfl⟩
  have hend : afterTurns o skipped pulse s =
      (post.foldl (takeTurn o (cycleEnd skipped s)) (takeTurn o (cycleEnd skipped s) x .link)).1 := by
    unfold afterTurns
    rw [hsplit, List.foldl_append, List.foldl_cons, hx]
  rw [hend]
  refine ⟨x.1, ?_, ?_, otherTurns_row hpost (takeTurn o (cycleEnd skipped s) x .link),
    hrow post hpost (takeTurn o (cycleEnd skipped s) x .link), hflag _, fun h => ?_, fun h => ?_,
    fun h => turns_stand (x := takeTurn o (cycleEnd skipped s) x .link) h⟩
  · rw [hx]
    exact hrow pre hpre (begun pulse s, none)
  · rw [hx]
    exact otherTurns_row hpre (begun pulse s, none)
  · rw [hx]
    exact turns_axisLaw (x := (begun pulse s, none)) h
  · rw [hx]
    exact turns_enabled (x := (begun pulse s, none)) h

/-! ## A link in step -/

/-- The link has counted no collision and has not lost the sync. -/
structure Passes (s t : State) : Prop where
  timer : t.timer = s.timer
  state : t.link.state = s.link.state ∨ (s.link.state = .joining ∧ t.link.state = .active)
  collision : t.link.collision = s.link.collision
  collisionRun : t.link.collisionRun = s.link.collisionRun
  slips : s.link.slips ≠ .allSlips → t.link.slips ≠ .allSlips
  active : s.link.state = .active → t.seq = s.seq
  axisLaw : axisLaw s = true → axisLaw t = true
  left : s.link.state = .duplicate → t = s

theorem Passes.refl (s : State) : Passes s s := ⟨rfl, .inl rfl, rfl, rfl, id, fun _ => rfl, id, fun _ => rfl⟩

theorem Passes.trans {s t u : State} (h : Passes s t) (k : Passes t u) : Passes s u where
  timer := k.timer.trans h.timer
  state := by
    obtain hsame | ⟨hjoining, hactive⟩ := h.state
    · rw [← hsame]
      exact k.state
    · obtain ksame | ⟨kjoining, _⟩ := k.state
      · exact .inr ⟨hjoining, ksame.trans hactive⟩
      · cases kjoining.symm.trans hactive
  collision := k.collision.trans h.collision
  collisionRun := k.collisionRun.trans h.collisionRun
  slips hs := k.slips (h.slips hs)
  active hs := by
    have hactive : t.link.state = .active := h.state.elim (·.trans hs) And.right
    exact (k.active hactive).trans (h.active hs)
  axisLaw hs := k.axisLaw (h.axisLaw hs)
  left hs := by
    have hsame := h.left hs
    exact (k.left (by rw [hsame]; exact hs)).trans hsame

theorem linkTurn_axisLaw {s t : State} (h : LinkTurn s t) (hs : axisLaw s = true) : axisLaw t = true :=
  rows_keep (fun _ _ h => h.keeps_axisLaw) (h.changes (cmd := .removal)) hs

theorem joinCountTurn_of_not_joining {s : State} (h : s.link.state ≠ .joining) (adopted : Bool) : joinCountTurn adopted s = s :=
  if_neg h

theorem joinCountTurn_passes (adopted : Bool) (s : State) : Passes s (joinCountTurn adopted s) := by
  by_cases hjoining : s.link.state = .joining
  · have hnot {x : LinkState} {p : Prop} (hx : x ≠ .joining) (h : s.link.state = x) : p := absurd (h.symm.trans hjoining) hx
    obtain ⟨n, hn⟩ : ∃ n, (joinCountTurn adopted s).timer = s.timer ∧
        ((joinCountTurn adopted s).link = { s.link with joinCount := n, request := none } ∨
          (joinCountTurn adopted s).link = { s.link with joinCount := n, request := none, state := .active }) := by
      unfold joinCountTurn
      rw [if_pos hjoining]
      dsimp only
      generalize (if adopted then 0 else s.link.joinCount + 1) = n
      refine ⟨n, ?_⟩
      split
      · have hclock := leaveDisabled_clock (latchLink ((s.setLink { s.link with joinCount := n, request := none }).setLink
          { s.link with joinCount := n, request := none, state := .active }))
        exact ⟨hclock.timer, .inr hclock.link⟩
      · exact ⟨rfl, .inl rfl⟩
    obtain ⟨htimer, hlink | hlink⟩ := hn
    · exact ⟨htimer, .inl (by rw [hlink]), by rw [hlink], by rw [hlink], fun hs => by rw [hlink]; exact hs, hnot (by decide),
        linkTurn_axisLaw (joinCountTurn_linkTurn adopted s), hnot (by decide)⟩
    · exact ⟨htimer, .inr ⟨hjoining, by rw [hlink]⟩, by rw [hlink], by rw [hlink], fun hs => by rw [hlink]; exact hs,
        hnot (by decide), linkTurn_axisLaw (joinCountTurn_linkTurn adopted s), hnot (by decide)⟩
  · rw [joinCountTurn_of_not_joining hjoining]
    exact .refl s

theorem slipTurn_of_not_active {s : State} (h : s.link.state ≠ .active) : slipTurn s = (s, false) := if_neg h

/-- A cycle that agreed somewhere clears the run of slips. -/
theorem slipTurn_of_agreed {s : State} (h : s.link.slips ≠ .allSlips) (hactive : s.link.state = .active) :
    slipTurn s = (s.setLink { s.link with slipRun := 0, slips := .none }, false) := by
  rw [slipTurn, if_pos hactive, if_neg h]

theorem syncLossTurn_passes {s : State} (h : s.link.slips ≠ .allSlips) (o : EventOrder) :
    Passes s (syncLossTurn o false s) := by
  unfold syncLossTurn
  by_cases hactive : s.link.state = .active
  · rw [slipTurn_of_agreed h hactive]
    dsimp only
    rw [if_neg (fun hloss => absurd hloss.1 (by decide))]
    exact ⟨rfl, .inl rfl, rfl, rfl, fun _ => nofun, fun _ => rfl, id, fun hs => absurd (hs.symm.trans hactive) (by decide)⟩
  · rw [slipTurn_of_not_active hactive]
    dsimp only
    rw [if_neg (fun hloss => absurd hloss.1 (by decide))]
    exact .refl s

theorem collisionTurn_slips (s : State) : (collisionTurn s).link.slips = s.link.slips := by
  unfold collisionTurn
  split
  · split
    · split
      · rw [enterDuplicate_eq, (linkLost_clock _ _).link]
        rfl
      · rfl
    · rfl
  · rfl

/-- Without a loss of the sync the link's turn is the collision's, with what passes before and after it. -/
theorem linkBoundary_passes {s : State} (h : s.link.slips ≠ .allSlips) (o : EventOrder) (adopted : Bool) :
    ∃ v, Passes s v ∧ Passes (collisionTurn v) (linkBoundary o adopted false s) := by
  have hleave {s : State} (h : s.link.slips ≠ .allSlips) :
      ∃ v, Passes s v ∧ Passes (collisionTurn v) (leaveTurns o false s) := by
    unfold leaveTurns
    split
    · exact ⟨_, syncLossTurn_passes h o, .refl _⟩
    · exact ⟨s, .refl s, syncLossTurn_passes (by rw [collisionTurn_slips]; exact h) o⟩
  unfold linkBoundary
  split
  · have hjoin := joinCountTurn_passes adopted s
    obtain ⟨v, hbefore, hafter⟩ := hleave (hjoin.slips h)
    exact ⟨v, hjoin.trans hbefore, hafter⟩
  · obtain ⟨v, hbefore, hafter⟩ := hleave h
    exact ⟨v, hbefore, hafter.trans (joinCountTurn_passes adopted _)⟩

theorem Passes.counting {s t : State} (h : Passes s t) (hs : s.link.state = .joining ∨ s.link.state = .active) :
    t.link.state = .joining ∨ t.link.state = .active := by
  obtain hsame | ⟨_, hactive⟩ := h.state
  · rw [hsame]
    exact hs
  · exact .inr hactive

theorem collisionTurn_third {s : State} (hs : s.link.state = .joining ∨ s.link.state = .active) (hcollision : s.link.collision = true)
    (hrun : 2 ≤ s.link.collisionRun) : collisionTurn s = linkLost (decide (s.link.state = .active)) (duplicateEntered s) := by
  rw [collisionTurn, if_pos hs, if_pos hcollision, if_pos (by omega)]
  rfl

theorem collisionTurn_earlier {s : State} (hs : s.link.state = .joining ∨ s.link.state = .active) (hcollision : s.link.collision = true)
    (hrun : s.link.collisionRun < 2) : collisionTurn s =
      s.setLink { s.link with collisionRun := s.link.collisionRun + 1, collision := false } := by
  rw [collisionTurn, if_pos hs, if_pos hcollision, if_neg (by omega)]

theorem collisionTurn_none {s : State} (hs : s.link.state = .joining ∨ s.link.state = .active) (hcollision : s.link.collision = false) :
    collisionTurn s = s.setLink { s.link with collisionRun := 0 } := by
  rw [collisionTurn, if_pos hs, if_neg (by rw [hcollision]; exact Bool.false_ne_true)]

theorem earlyLossOf_eq_false {x : Timer} (h : x.earlySeen = true → x.earlyRun + 1 < 3) : earlyLossOf x = false := by
  unfold earlyLossOf
  cases hseen : x.earlySeen with
  | false => rfl
  | true => exact decide_eq_false (by have := h hseen; omega)

/-- LINK_LOST halts an axis that is not DISABLED, and sets the latch of one that is HALTED. -/
theorem linkLost_halts {s : State} (h : s.seq.axis ≠ .disabled) : (linkLost true s).seq.axis = .halted ∧
    (linkLost true s).haltCtl.latch = true := by
  rw [linkLost, if_pos rfl]
  rcases takeCause_cases (.plain .linkLost) s with ⟨_, _, hcause⟩ | ⟨haxis, hcause⟩ | ⟨haxis, _⟩
  · rw [hcause]
    refine ⟨rfl, ?_⟩
    rw [haltTaken_haltCtl]
    exact Bool.or_true _
  · rw [hcause]
    exact ⟨haxis, rfl⟩
  · exact absurd haxis h

theorem rests_of_axisLaw {s : State} (hlaw : axisLaw s = true) (haxis : s.seq.axis = .halted) : Rests s := by
  obtain ⟨hexec, hout, hctx, hqueue⟩ := (axisLaw_halted haxis).mp hlaw
  exact ⟨haxis, hexec, hout, hqueue, hctx⟩

end Sys2Proof.Machine

namespace Sys2Proof.Claims

open Sys2Proof.Machine

/-- Settles O18: the collision's turn alone, among the parts of the link's turn, reads and writes the run of collisions. -/
theorem thirdCollisionMakesDuplicate : Obligations.ThirdCollisionMakesDuplicate := by
  intro o s t hends hstate hlaw hslips hearly
  obtain ⟨skipped, pulse, rfl, _⟩ := (cycleEnded_of_endsCycle hends).turns
  obtain ⟨u, haround⟩ := afterTurns_around o skipped pulse s
  set t := afterTurns o skipped pulse s
  have hulink : u.link = s.link := haround.before.link
  obtain ⟨hafter, hflag, hstands⟩ := And.intro haround.after (And.intro haround.linkFlag haround.stands)
  rw [earlyLossOf_eq_false hearly] at hafter hflag hstands
  obtain ⟨v, hbefore, hpasses⟩ := linkBoundary_passes (s := u) (by rw [hulink]; exact hslips) o s.timer.adoption.isSome
  set w := linkBoundary o s.timer.adoption.isSome false u
  have hcounting : v.link.state = .joining ∨ v.link.state = .active := hbefore.counting (by rw [hulink]; exact hstate)
  have hcollision : v.link.collision = s.link.collision := by rw [hbefore.collision, hulink]
  have hrun : v.link.collisionRun = s.link.collisionRun := by rw [hbefore.collisionRun, hulink]
  refine ⟨fun hseen hthird => ?_, fun hseen hearlier => ?_, fun hnone => ?_⟩
  · have hturn := collisionTurn_third hcounting (hcollision.trans hseen) (by rw [hrun]; exact hthird)
    have hclock := linkLost_clock (decide (v.link.state = .active)) (duplicateEntered v)
    rw [hturn] at hpasses
    have hw := hpasses.left (by rw [hclock.link]; rfl)
    have htimer : t.timer = (duplicateEntered v).timer := by rw [hafter.timer, hw, hclock.timer]
    have hlink : t.link = (duplicateEntered v).link := by rw [hafter.link, hw, hclock.link]
    refine ⟨by rw [hlink]; rfl, by rw [hlink]; rfl, by rw [htimer]; rfl, by rw [hlink]; rfl, by rw [hlink]; rfl, ?_,
      fun hactive haxis => ?_⟩
    · rw [hflag, hw, work_linkFlag (work_of_motion (linkLost_motion _ _))]
      rfl
    · have huactive : u.link.state = .active := by rw [hulink]; exact hactive
      have hvactive : v.link.state = .active := hbefore.state.elim (·.trans huactive) And.right
      have henabled : (duplicateEntered v).seq.axis ≠ .disabled := by
        change v.seq.axis ≠ _
        rw [hbefore.active huactive]
        exact haround.enabled haxis
      rw [decide_eq_true hvactive] at hw
      obtain ⟨hhalted, hlatch⟩ := linkLost_halts henabled
      have hwlaw : axisLaw w = true := by
        rw [hw]
        exact work_keeps_axisLaw (s := duplicateEntered v) (work_of_motion (linkLost_motion true _))
          (hbefore.axisLaw (haround.axisLaw hlaw))
      have hrests := rests_of_axisLaw hwlaw (by rw [hw]; exact hhalted)
      have hend := hstands hrests
      exact ⟨by rw [hend.seq]; exact hrests.axis, hend.latch (by rw [hw]; exact hlatch)⟩
  · rw [collisionTurn_earlier hcounting (hcollision.trans hseen) (by rw [hrun]; exact hearlier)] at hpasses
    rw [hafter.link]
    exact ⟨hpasses.counting hcounting, hpasses.collisionRun.trans (by rw [← hrun]; rfl), hpasses.collision⟩
  · rw [collisionTurn_none hcounting (hcollision.trans hnone)] at hpasses
    rw [hafter.link]
    exact ⟨hpasses.counting hcounting, hpasses.collisionRun⟩

end Sys2Proof.Claims
end

