-- ==== Sys2Proof/Proofs/NoteTurns.lean ====
section
/-! PROOFS. The Note Unit's turn at a boundary: what its failures and its starts write, destination by destination. -/

namespace Sys2Proof.Machine

open Sys2Proof.Claims

/-! ## Settling one destination after another -/

/-- A fold that settles one destination after another, each from its own standing and its own entry. -/
theorem foldl_settling {F : Settling → Station → Settling} {g : Station → Standing → PeerEntry → Standing}
    {h : Station → Standing → PeerEntry → PeerEntry}
    (hstanding : ∀ x d m, (F x d).1.get m = if m = d then g d (x.1.get d) (x.2.entry d) else x.1.get m)
    (hentry : ∀ x d m, (F x d).2.entry m = if m = d then h d (x.1.get d) (x.2.entry d) else x.2.entry m)
    {l : List Station} (hl : l.Nodup) (x : Settling) (k : Station) :
    (l.foldl F x).1.get k = (if k ∈ l then g k (x.1.get k) (x.2.entry k) else x.1.get k) ∧
      (l.foldl F x).2.entry k = if k ∈ l then h k (x.1.get k) (x.2.entry k) else x.2.entry k := by
  induction l generalizing x with
  | nil => exact ⟨rfl, rfl⟩
  | cons d l ih =>
    obtain ⟨hd, hl⟩ := List.nodup_cons.mp hl
    obtain ⟨hst, he⟩ := ih hl (F x d)
    rw [List.foldl_cons, hst, he, hstanding, hentry]
    by_cases hk : k = d
    · subst hk
      simp [hd]
    · simp [hk]

theorem foldl_stations_settling {F : Settling → Station → Settling} {g : Station → Standing → PeerEntry → Standing}
    {h : Station → Standing → PeerEntry → PeerEntry}
    (hstanding : ∀ x d m, (F x d).1.get m = if m = d then g d (x.1.get d) (x.2.entry d) else x.1.get m)
    (hentry : ∀ x d m, (F x d).2.entry m = if m = d then h d (x.1.get d) (x.2.entry d) else x.2.entry m)
    (x : Settling) (k : Station) : (stations.foldl F x).1.get k = g k (x.1.get k) (x.2.entry k) ∧
      (stations.foldl F x).2.entry k = h k (x.1.get k) (x.2.entry k) := by
  obtain ⟨hst, he⟩ := foldl_settling hstanding hentry stations_nodup x k
  rw [if_pos (mem_stations k)] at hst he
  exact ⟨hst, he⟩

/-! ## Failures -/

/-- The standing that a boundary's failures leave, with whether it begins b + 16. -/
def failedStanding (due : Bool) (st : Standing) (e : PeerEntry) : Standing :=
  if st.isOpen then (if gonePresence e.presence then .failed .gone else if due then .failed .noAck else st) else st

/-- The entry that they leave. -/
def failedEntry (due : Bool) (st : Standing) (e : PeerEntry) : PeerEntry :=
  if st.isOpen then
    (if gonePresence e.presence then (if st.isPending then enterResync e else e) else if due then noAckEntry e else e)
  else e

section Failed

variable {due : Bool} {st : Standing} {e : PeerEntry}

theorem failed_of_closed (h : st.isOpen = false) : failedStanding due st e = st ∧ failedEntry due st e = e := by
  rw [failedStanding, failedEntry, h]
  exact ⟨rfl, rfl⟩

theorem failed_of_gone (h : st.isOpen = true) (hgone : gonePresence e.presence = true) :
    failedStanding due st e = .failed .gone ∧ failedEntry due st e = if st.isPending then enterResync e else e := by
  rw [failedStanding, failedEntry, h, hgone]
  exact ⟨rfl, rfl⟩

theorem failed_of_on (h : st.isOpen = true) (hon : gonePresence e.presence = false) :
    failedStanding due st e = (if due then .failed .noAck else st) ∧ failedEntry due st e = if due then noAckEntry e else e := by
  rw [failedStanding, failedEntry, h, hon]
  exact ⟨rfl, rfl⟩

/-- The NO_ACK failures follow those with GONE. -/
theorem failed_due (st : Standing) (e : PeerEntry) :
    (if (failedStanding false st e).isOpen then .failed .noAck else failedStanding false st e) = failedStanding true st e ∧
      (if (failedStanding false st e).isOpen then noAckEntry (failedEntry false st e) else failedEntry false st e) =
        failedEntry true st e := by
  cases hopen : st.isOpen with
  | false =>
    obtain ⟨hst, he⟩ := failed_of_closed (due := false) (e := e) hopen
    obtain ⟨hst', he'⟩ := failed_of_closed (due := true) (e := e) hopen
    rw [hst, he, hst', he', hopen]
    exact ⟨rfl, rfl⟩
  | true =>
    cases hgone : gonePresence e.presence with
    | true =>
      obtain ⟨hst, he⟩ := failed_of_gone (due := false) hopen hgone
      obtain ⟨hst', he'⟩ := failed_of_gone (due := true) hopen hgone
      rw [hst, he, hst', he']
      exact ⟨rfl, rfl⟩
    | false =>
      obtain ⟨hst, he⟩ := failed_of_on (due := false) hopen hgone
      obtain ⟨hst', he'⟩ := failed_of_on (due := true) hopen hgone
      rw [hst, he, hst', he', if_neg Bool.false_ne_true, if_neg Bool.false_ne_true, hopen]
      exact ⟨rfl, rfl⟩

end Failed

/-- Nothing is written at a station whose part stays. -/
theorem unsettled {x : Settling} {d : Station} (m : Station) {a : Standing} {e : PeerEntry} (ha : a = x.1.get d)
    (he : e = x.2.entry d) : x.1.get m = (if m = d then a else x.1.get m) ∧
      x.2.entry m = if m = d then e else x.2.entry m := by
  by_cases hm : m = d
  · rw [if_pos hm, if_pos hm, ha, he, hm]
    exact ⟨rfl, rfl⟩
  · rw [if_neg hm, if_neg hm]
    exact ⟨rfl, rfl⟩

theorem failGone_step (x : Settling) (d m : Station) :
    (failGone x d).1.get m = (if m = d then failedStanding false (x.1.get d) (x.2.entry d) else x.1.get m) ∧
      (failGone x d).2.entry m = if m = d then failedEntry false (x.1.get d) (x.2.entry d) else x.2.entry m := by
  unfold failGone
  split
  · rename_i h
    obtain ⟨hopen, hgone⟩ := Bool.and_eq_true_iff.mp h
    obtain ⟨hst, he⟩ := failed_of_gone (due := false) hopen hgone
    rw [hst, he]
    refine ⟨standing_set_get _ _ _ _, ?_⟩
    split
    · exact updateEntry_entry d m enterResync x.2
    · exact (unsettled m rfl rfl).2
  · rename_i h
    have hkept : failedStanding false (x.1.get d) (x.2.entry d) = x.1.get d ∧
        failedEntry false (x.1.get d) (x.2.entry d) = x.2.entry d := by
      cases hopen : (x.1.get d).isOpen with
      | false => exact failed_of_closed hopen
      | true => exact failed_of_on hopen (by simpa [hopen] using h)
    exact unsettled m hkept.1 hkept.2

theorem failNoAck_step (x : Settling) (d m : Station) :
    (failNoAck x d).1.get m = (if m = d then (if (x.1.get d).isOpen then .failed .noAck else x.1.get d) else x.1.get m) ∧
      (failNoAck x d).2.entry m =
        if m = d then (if (x.1.get d).isOpen then noAckEntry (x.2.entry d) else x.2.entry d) else x.2.entry m := by
  unfold failNoAck
  split
  · exact ⟨standing_set_get _ _ _ _, updateEntry_entry d m noAckEntry x.2⟩
  · exact unsettled m rfl rfl

theorem failGone_fold (x : Settling) (k : Station) :
    (stations.foldl failGone x).1.get k = failedStanding false (x.1.get k) (x.2.entry k) ∧
      (stations.foldl failGone x).2.entry k = failedEntry false (x.1.get k) (x.2.entry k) :=
  foldl_stations_settling (g := fun _ => failedStanding false) (h := fun _ => failedEntry false)
    (fun x d m => (failGone_step x d m).1) (fun x d m => (failGone_step x d m).2) x k

theorem failNoAck_fold (x : Settling) (k : Station) :
    (stations.foldl failNoAck x).1.get k = (if (x.1.get k).isOpen then .failed .noAck else x.1.get k) ∧
      (stations.foldl failNoAck x).2.entry k = if (x.1.get k).isOpen then noAckEntry (x.2.entry k) else x.2.entry k :=
  foldl_stations_settling (g := fun _ st _ => if st.isOpen then .failed .noAck else st)
    (h := fun _ st e => if st.isOpen then noAckEntry e else e)
    (fun x d m => (failNoAck_step x d m).1) (fun x d m => (failNoAck_step x d m).2) x k

/-- The failures of a boundary, destination by destination. -/
theorem noteFailures_sending {s : State} {n : SendingNote} (h : s.sending = some n) : ∃ st y,
    noteFailures s = putSending n st y ∧ NoteBits s y ∧
      ∀ k, st.get k = failedStanding (decide (s.timer.cycle = n.startCycle + 16)) (n.standing.get k) (s.entry k) ∧
        y.entry k = failedEntry (decide (s.timer.cycle = n.startCycle + 16)) (n.standing.get k) (s.entry k) := by
  have hgone := settling_noteBits failGone_noteBits stations (n.standing, s)
  unfold noteFailures
  rw [h]
  dsimp only
  split
  · rename_i hdue
    rw [decide_eq_true hdue]
    refine ⟨_, _, rfl, hgone.trans (settling_noteBits failNoAck_noteBits stations _), fun k => ?_⟩
    obtain ⟨hst, he⟩ := failNoAck_fold (stations.foldl failGone (n.standing, s)) k
    obtain ⟨hst', he'⟩ := failGone_fold (n.standing, s) k
    rw [hst, he, hst', he']
    exact failed_due _ _
  · rename_i hdue
    rw [decide_eq_false hdue]
    exact ⟨_, _, rfl, hgone, failGone_fold (n.standing, s)⟩

theorem noteFailures_none {s : State} (h : s.sending = none) : noteFailures s = s := by
  unfold noteFailures
  rw [h]

/-! ## Starts -/

/-- The standing with which a destination of a note starts. -/
def startedStanding (dests : Mask) (k : Station) (e : PeerEntry) : Standing :=
  if inMask dests k then (if gonePresence e.presence then .failed .gone else if e.resync then .deferred else .pending none)
  else .no

/-- A pending destination flips its toggle. -/
def startedEntry (dests : Mask) (k : Station) (e : PeerEntry) : PeerEntry :=
  if startedStanding dests k e = .pending none then { e with toggle := !e.toggle } else e

theorem settleDest_step (dests : Mask) (x : Settling) (d m : Station) :
    (settleDest dests x d).1.get m =
        (if m = d then (if inMask dests d then startedStanding dests d (x.2.entry d) else x.1.get d) else x.1.get m) ∧
      (settleDest dests x d).2.entry m = if m = d then startedEntry dests d (x.2.entry d) else x.2.entry m := by
  unfold settleDest
  split
  · split
    · rename_i hin hgone
      have hst : startedStanding dests d (x.2.entry d) = .failed .gone := by
        rw [startedStanding, if_pos hin, if_pos hgone]
      rw [startedEntry, hst]
      exact ⟨standing_set_get _ _ _ _, (unsettled m rfl rfl).2⟩
    · split
      · rename_i hin hon hresync
        have hst : startedStanding dests d (x.2.entry d) = .deferred := by
          rw [startedStanding, if_pos hin, if_neg hon, if_pos hresync]
        rw [startedEntry, hst]
        exact ⟨standing_set_get _ _ _ _, (unsettled m rfl rfl).2⟩
      · rename_i hin hon hresync
        have hst : startedStanding dests d (x.2.entry d) = .pending none := by
          rw [startedStanding, if_pos hin, if_neg hon, if_neg hresync]
        rw [startedEntry, hst, if_pos rfl]
        exact ⟨standing_set_get _ _ _ _, updateEntry_entry d m _ x.2⟩
  · rename_i hout
    have hst : startedStanding dests d (x.2.entry d) = .no := by rw [startedStanding, if_neg hout]
    rw [startedEntry, hst]
    exact unsettled m rfl rfl

theorem settleDest_fold (dests : Mask) (s : State) (k : Station) :
    (stations.foldl (settleDest dests) (Vector.replicate 16 .no, s)).1.get k = startedStanding dests k (s.entry k) ∧
      (stations.foldl (settleDest dests) (Vector.replicate 16 .no, s)).2.entry k = startedEntry dests k (s.entry k) := by
  obtain ⟨hst, he⟩ := foldl_stations_settling
    (g := fun k st e => if inMask dests k then startedStanding dests k e else st) (h := fun k _ e => startedEntry dests k e)
    (fun x d m => (settleDest_step dests x d m).1) (fun x d m => (settleDest_step dests x d m).2)
    (Vector.replicate 16 .no, s) k
  refine ⟨hst.trans ?_, he⟩
  have hno : (Vector.replicate 16 Standing.no).get k = .no := by simp [Vector.get_eq_getElem]
  rw [hno]
  unfold startedStanding
  cases inMask dests k <;> rfl

/-- A QUEUED note starts. -/
theorem startNote_queued {s : State} {i : Fin 4} {n : Byte} {dests : Mask} {p : List Byte}
    (h : s.notes.slots.get i = .queued n dests p) : ∃ st y,
    startNote i s = putSending ⟨i, n, dests, p, s.timer.cycle, st⟩ st y ∧ NoteBits s y ∧
      ∀ k, st.get k = startedStanding dests k (s.entry k) ∧ y.entry k = startedEntry dests k (s.entry k) := by
  refine ⟨_, _, ?_, settling_noteBits (settleDest_noteBits dests) stations (Vector.replicate 16 .no, s), settleDest_fold dests s⟩
  unfold startNote
  rw [h]

/-- Notes of these slots have started: other slots stay, and of an entry the toggle alone may change, and only where the
destination is neither gone nor in the resync set. -/
structure Started (l : List (Fin 4)) (s t : State) : Prop where
  slots : ∀ i, i ∉ l → t.notes.slots.get i = s.notes.slots.get i
  inbox : t.notes.inbox = s.notes.inbox
  nextNumber : t.notes.nextNumber = s.notes.nextNumber
  entry : ∀ k, ∃ b, t.entry k = { s.entry k with toggle := b } ∧
    (gonePresence (s.entry k).presence = true ∨ (s.entry k).resync = true → b = (s.entry k).toggle)

theorem Started.refl (l : List (Fin 4)) (s : State) : Started l s s :=
  ⟨fun _ _ => rfl, rfl, rfl, fun k => ⟨(s.entry k).toggle, rfl, fun _ => rfl⟩⟩

theorem Started.trans {l m : List (Fin 4)} {s t u : State} (h : Started l s t) (k : Started m t u) (hsub : ∀ i ∈ l, i ∈ m) :
    Started m s u := by
  refine ⟨fun i hi => (k.slots i hi).trans (h.slots i fun hl => hi (hsub i hl)), k.inbox.trans h.inbox,
    k.nextNumber.trans h.nextNumber, fun j => ?_⟩
  obtain ⟨b, hb, hkeep⟩ := h.entry j
  obtain ⟨c, hc, hkeep'⟩ := k.entry j
  rw [hb] at hc hkeep'
  exact ⟨c, hc, fun hj => (hkeep' hj).trans (hkeep hj)⟩

theorem startNote_started (i : Fin 4) (s : State) : Started [i] s (startNote i s) := by
  by_cases hqueued : ∃ n dests p, s.notes.slots.get i = .queued n dests p
  · obtain ⟨n, dests, p, hslot⟩ := hqueued
    obtain ⟨st, y, hstart, hbits, hsettled⟩ := startNote_queued hslot
    rw [hstart]
    refine ⟨fun j hj => ?_, by rw [← hbits.notes]; rfl, by rw [← hbits.notes]; rfl, fun k => ?_⟩
    · rw [putSending, setSlot_get, if_neg fun hji => hj (List.mem_singleton.mpr hji), hbits.notes]
    · obtain ⟨_, hentry⟩ := hsettled k
      change ∃ b, y.entry k = _ ∧ _
      rw [hentry, startedEntry]
      split
      · rename_i hpending
        refine ⟨!(s.entry k).toggle, rfl, fun hk => ?_⟩
        unfold startedStanding at hpending
        split at hpending
        · obtain hgone | hresync := hk
          · rw [if_pos hgone] at hpending
            cases hpending
          · rw [if_pos hresync] at hpending
            split at hpending <;> cases hpending
        · cases hpending
      · exact ⟨(s.entry k).toggle, rfl, fun _ => rfl⟩
  · have hsame : startNote i s = s := by
      unfold startNote
      split
      · rename_i n dests p hslot
        exact absurd ⟨n, dests, p, hslot⟩ hqueued
      · rfl
    rw [hsame]
    exact .refl _ s

theorem startNotes_started (l : List (Fin 4)) (s : State) : Started l s (startNotes l s) := by
  induction l generalizing s with
  | nil => exact .refl [] s
  | cons i l ih =>
    have hordered : Started [i] s (setOrder l s) := ⟨fun _ _ => rfl, rfl, rfl, fun k => ⟨(s.entry k).toggle, rfl, fun _ => rfl⟩⟩
    have hstart : Started [i] s (startNote i (setOrder l s)) :=
      hordered.trans (startNote_started i (setOrder l s)) fun _ hj => hj
    unfold startNotes
    dsimp only
    split
    · exact hstart.trans (.refl (i :: l) _) fun j hj => List.mem_cons.mpr (.inl (List.mem_singleton.mp hj))
    · refine hstart.trans (l := [i]) (m := i :: l) ⟨fun j hj => ?_, (ih _).inbox, (ih _).nextNumber, (ih _).entry⟩
        fun j hj => List.mem_cons.mpr (.inl (List.mem_singleton.mp hj))
      exact (ih _).slots j fun hl => hj (List.mem_cons_of_mem i hl)

/-! ## The SENDING slot -/

theorem sendingId_of_slot {s : State} (hlaw : noteLaw s = true) {i : Fin 4} {n : Byte} {dests : Mask} {p : List Byte} {c : Cycle}
    {st : Vector Standing 16} (h : s.notes.slots.get i = .sending n dests p c st) : s.notes.sendingId = some i := by
  obtain ⟨hone, _⟩ := (noteLaw_iff s).mp hlaw
  have hi : s.notes.isSending i = true := isSending_iff.mpr ⟨n, dests, p, c, st, h⟩
  cases hid : s.notes.sendingId with
  | none =>
    rw [sendingId_eq_none.mp hid i] at hi
    cases hi
  | some j => rw [hone j i (sendingId_eq_some hid) hi]

theorem anyOpen_iff (st : Vector Standing 16) : anyOpen st = true ↔ ∃ k, (st.get k).isOpen = true := by
  unfold anyOpen
  rw [List.any_eq_true]
  exact ⟨fun ⟨k, _, hk⟩ => ⟨k, hk⟩, fun ⟨k, hk⟩ => ⟨k, mem_stations k, hk⟩⟩

theorem putSending_slot (n : SendingNote) (st : Vector Standing 16) (s : State) : (putSending n st s).notes.slots.get n.id =
    if ∃ k, (st.get k).isOpen = true then .sending n.number n.dests n.payload n.startCycle st
    else .done n.number n.dests st := by
  rw [putSending, setSlot_get, if_pos rfl]
  exact if_congr (anyOpen_iff st) rfl rfl

end Sys2Proof.Machine
end

