-- ==== Sys2Proof/Proofs/NoteDelivery.lean ====
section
/-! PROOFS. The sender side of a note: a frame that delivers it or resyncs its sender, and a quiet boundary that starts it or
fails its destinations (O22). -/

namespace Sys2Proof.Machine

open Sys2Proof.Claims

/-! ## A frame -/

section Frames

variable {d : Station} {ack : Bool} {x : Settling}

theorem senderDelivery_delivers {shown : Option Cycle} (h : x.1.get d = .pending shown) (hcounts : frameCounts x.2 d shown = true)
    (hack : ack = (x.2.entry d).toggle) : senderDelivery d ack x = (x.1.set d.val .delivered, x.2) := by
  unfold senderDelivery
  rw [h]
  exact if_pos (by rw [hcounts, hack]; simp)

theorem senderDelivery_of_not_pending (h : ∀ shown, x.1.get d ≠ .pending shown) : senderDelivery d ack x = x := by
  unfold senderDelivery
  split
  · rename_i shown hpending
    exact absurd hpending (h shown)
  · rfl

/-- Where nothing is deferred a resync leaves the standings and the toggle. -/
theorem senderResync_not_deferred (h : x.1.get d ≠ .deferred) : (senderResync d ack x).1 = x.1 ∧
    ((senderResync d ack x).2.entry d).toggle = (x.2.entry d).toggle := by
  unfold senderResync
  dsimp only
  split
  · refine ⟨rfl, ?_⟩
    rw [updateEntry_entry, if_pos rfl]
  · exact ⟨rfl, rfl⟩

/-- A counting frame with ack 0 takes its sender out of the resync set, and makes a deferred destination pending. -/
theorem senderResync_leaves (hresync : (x.2.entry d).resync = true) (hcounts : frameCounts x.2 d (x.2.entry d).resyncShown = true)
    (hack : ack = false) : ((senderResync d ack x).2.entry d).resync = false ∧
      ((senderResync d ack x).2.entry d).resyncShown = none ∧
      (x.1.get d = .deferred → (senderResync d ack x).1 = x.1.set d.val (.pending none) ∧
        ((senderResync d ack x).2.entry d).toggle = !(x.2.entry d).toggle) := by
  unfold senderResync
  dsimp only
  rw [if_pos (by rw [hresync, hcounts, hack]; rfl)]
  split
  · rw [updateEntry_entry, if_pos rfl]
    exact ⟨rfl, rfl, fun _ => ⟨rfl, rfl⟩⟩
  · rename_i hother
    rw [updateEntry_entry, if_pos rfl]
    exact ⟨rfl, rfl, fun h => absurd h hother⟩

end Frames

theorem frameCounts_some {s : State} {k : Station} {x : Cycle} (hlink : s.link.state ≠ .joining)
    (h : later s.timer.cycle x = true ∨ (s.timer.cycle = x ∧ s.id.val < k.val)) : frameCounts s k (some x) = true := by
  unfold frameCounts
  obtain h | ⟨hcycle, hid⟩ := h
  · simp [hlink, h]
  · simp [hlink, hcycle, hid]

theorem settledBy_of_member {f : Frame} (h : f.view.join = false) (k : Station) (s : State) : settledBy k f s =
    senderResync k (inMask f.ackMap s.id) (senderDelivery k (inMask f.ackMap s.id) (standings s, s)) := by
  unfold settledBy senderSteps senderJoin
  rw [h]
  rfl

theorem standings_sending {s : State} {n : SendingNote} (h : s.sending = some n) : standings s = n.standing := by
  unfold standings
  rw [h]

theorem standings_none {s : State} (h : s.sending = none) (k : Station) : (standings s).get k = .no := by
  unfold standings
  rw [h]
  simp [Vector.get_eq_getElem]

/-- The state in which the Note Unit meets a recorded frame, as far as its sender side reads it. -/
structure MeetsFrame (s r : State) (k : Station) : Prop where
  id : r.id = s.id
  cycle : r.timer.cycle = s.timer.cycle
  link : r.link.state = s.link.state
  notes : r.notes = s.notes
  toggle : (r.entry k).toggle = (s.entry k).toggle
  resync : (r.entry k).resync = (s.entry k).resync
  resyncShown : (r.entry k).resyncShown = (s.entry k).resyncShown

theorem MeetsFrame.counts {s r : State} {k : Station} (h : MeetsFrame s r k) (x : Option Cycle) :
    frameCounts r k x = frameCounts s k x := by
  unfold frameCounts
  rw [h.id, h.cycle, h.link]

/-- A recorded frame as the two sides of the Note Unit take it. -/
theorem frame_meets {start : Nat} {chars : List RxChar} {s : State} {k : Station} {f : Frame}
    (h : Records start chars s k f) (b : Bool) : ∃ r, MeetsFrame s r k ∧
      exec (.frameReceived start chars b) s = .next (noteReceiverFrame k f (noteSenderFrame k f r)) := by
  have htook : LinkTook (judged s) (linkTakes f (judged s)) := linkTakes_took f (judged s)
  have hclock := recordedState_clock b k f (linkTakes f (judged s))
  have hentry : (recordedState b k f (linkTakes f (judged s))).entry k = recordedEntry f.view (s.entry k) := by
    rw [recordedState_entry, if_pos rfl, htook.state]
    rfl
  have hbits := recordedEntry_noteBits f.view (s.entry k)
  refine ⟨recordedState b k f (linkTakes f (judged s)), ⟨hclock.station.id.trans htook.station.id, ?_, ?_, ?_, ?_, ?_, ?_⟩,
    exec_frame_of_records h b⟩
  · rw [hclock.timer, htook.state]
    rfl
  · rw [hclock.link, htook.state]
    rfl
  · rw [recordedState_notes, htook.state]
    rfl
  · rw [hentry]
    exact hbits.toggle
  · rw [hentry]
    exact hbits.resync
  · rw [hentry]
    exact hbits.resyncShown

theorem received_slot (k : Station) (f : Frame) (s : State) (j : Fin 4) :
    (noteReceiverFrame k f s).notes.slots.get j = s.notes.slots.get j := by rw [noteReceiverFrame_slots]

theorem noteSenderFrame_other_slot {s : State} {n : SendingNote} (h : s.sending = some n) (k : Station) (f : Frame) {j : Fin 4}
    (hj : j ≠ n.id) : (noteSenderFrame k f s).notes.slots.get j = s.notes.slots.get j := by
  rw [noteSenderFrame_some h, putSending, setSlot_get, if_neg hj, (settledBy_step k f s).noteBits.notes]

/-- The SENDING slot after a frame that gives one destination this standing. -/
theorem noteSenderFrame_slot {s : State} {n : SendingNote} (h : s.sending = some n) {k : Station} {f : Frame} {a : Standing}
    (hsettled : (settledBy k f s).1 = n.standing.set k.val a) : ∃ st' : Vector Standing 16, st'.get k = a ∧
      (∀ m, m ≠ k → st'.get m = n.standing.get m) ∧ (noteSenderFrame k f s).notes.slots.get n.id =
        if ∃ m, (st'.get m).isOpen = true then .sending n.number n.dests n.payload n.startCycle st'
        else .done n.number n.dests st' := by
  refine ⟨n.standing.set k.val a, ?_, fun m hm => ?_, ?_⟩
  · rw [standing_set_get, if_pos rfl]
  · rw [standing_set_get, if_neg hm]
  · rw [noteSenderFrame_some h, hsettled]
    exact putSending_slot n _ _

end Sys2Proof.Machine

namespace Sys2Proof.Claims

open Sys2Proof.Machine

/-- A frame that delivers the note, or whose JOIN flag fails its destination. -/
theorem frame_settles {start : Nat} {chars : List RxChar} {b : Bool} {s : State} {k : Station} {f : Frame} {i : Fin 4}
    {n : Byte} {dests : Mask} {p : List Byte} {c : Cycle} {st : Vector Standing 16} (hrecords : Records start chars s k f)
    (hactive : s.link.state = .active) (hid : s.notes.sendingId = some i) (hslot : s.notes.slots.get i = .sending n dests p c st) :
    ∃ t, exec (.frameReceived start chars b) s = .next t ∧
      (∀ x, f.view.join = false → st.get k = .pending (some x) →
        later s.timer.cycle x = true ∨ (s.timer.cycle = x ∧ s.id.val < k.val) →
        inMask f.ackMap s.id = (s.entry k).toggle →
        ∃ st' : Vector Standing 16, st'.get k = .delivered ∧ (∀ m, m ≠ k → st'.get m = st.get m) ∧
          t.notes.slots.get i = (if ∃ m, (st'.get m).isOpen = true then .sending n dests p c st' else .done n dests st')) ∧
      (f.view.join = true → (st.get k).isOpen = true → (t.entry k).toggle = false ∧
        ∃ st' : Vector Standing 16, st'.get k = .failed .restarted ∧ (∀ m, m ≠ k → st'.get m = st.get m) ∧
          t.notes.slots.get i = (if ∃ m, (st'.get m).isOpen = true then .sending n dests p c st' else .done n dests st')) ∧
      (∀ j, j ≠ i → t.notes.slots.get j = s.notes.slots.get j) := by
  obtain ⟨r, hmeets, hexec⟩ := frame_meets hrecords b
  have hsending : r.sending = some ⟨i, n, dests, p, c, st⟩ :=
    (sending_of_notes hmeets.notes).trans (sending_of_slot hid hslot)
  have hst : standings r = st := standings_sending hsending
  refine ⟨_, hexec, fun x hjoin hpending hcounts hack => ?_, fun hjoin hopen => ?_, fun j hj => ?_⟩
  · rw [received_slot]
    refine noteSenderFrame_slot hsending ?_
    have hdelivered : senderDelivery k (inMask f.ackMap r.id) (standings r, r) = (st.set k.val .delivered, r) := by
      rw [hst]
      refine senderDelivery_delivers (x := (st, r)) hpending ?_ ?_
      · rw [hmeets.counts]
        exact frameCounts_some (by rw [hactive]; decide) hcounts
      · rw [hmeets.id, hack, hmeets.toggle]
    rw [settledBy_of_member hjoin, hdelivered]
    exact (senderResync_not_deferred (x := (st.set k.val .delivered, r)) (by rw [standing_set_get, if_pos rfl]; exact nofun)).1
  · have hjoined : settledBy k f r = senderResync k (inMask f.ackMap r.id)
        (st.set k.val (.failed .restarted), updateEntry k (fun e => { e with toggle := false }) r) := by
      have hfailed (shown : Option Cycle) : (st.set k.val (.failed .restarted)).get k ≠ .pending shown := by
        rw [standing_set_get, if_pos rfl]
        exact nofun
      unfold settledBy senderSteps senderJoin
      rw [hst, if_pos hjoin]
      dsimp only
      rw [if_pos hopen, senderDelivery_of_not_pending (x := (st.set k.val (.failed .restarted), _)) hfailed]
    have hrest := senderResync_not_deferred (d := k) (ack := inMask f.ackMap r.id)
      (x := (st.set k.val (.failed .restarted), updateEntry k (fun e => { e with toggle := false }) r))
      (by rw [standing_set_get, if_pos rfl]; exact nofun)
    rw [← hjoined] at hrest
    obtain ⟨hstanding, htoggle⟩ := hrest
    refine ⟨?_, ?_⟩
    · rw [(noteReceiverFrame_entry k k f _).2.toggle, noteSenderFrame_entry, htoggle, updateEntry_entry, if_pos rfl]
    · rw [received_slot]
      exact noteSenderFrame_slot hsending hstanding
  · rw [received_slot, noteSenderFrame_other_slot hsending k f hj, hmeets.notes]

/-- A frame that takes its sender out of the resync set. -/
theorem frame_resyncs {start : Nat} {chars : List RxChar} {b : Bool} {s : State} {k : Station} {f : Frame} {x : Cycle}
    (hrecords : Records start chars s k f) (hlink : s.link.state ≠ .joining) (hjoin : f.view.join = false)
    (hack : inMask f.ackMap s.id = false) (hresync : (s.entry k).resync = true) (hshown : (s.entry k).resyncShown = some x)
    (hcounts : later s.timer.cycle x = true ∨ (s.timer.cycle = x ∧ s.id.val < k.val)) :
    ∃ t, exec (.frameReceived start chars b) s = .next t ∧ (t.entry k).resync = false ∧ (t.entry k).resyncShown = none ∧
      (s.notes.sendingId = none → (t.entry k).toggle = (s.entry k).toggle) ∧
      (∀ i n dests p c st, s.notes.sendingId = some i → s.notes.slots.get i = .sending n dests p c st →
        (st.get k = .deferred → (t.entry k).toggle = !(s.entry k).toggle ∧ ∃ st' : Vector Standing 16,
          st'.get k = .pending none ∧ (∀ m, m ≠ k → st'.get m = st.get m) ∧
          t.notes.slots.get i = .sending n dests p c st') ∧
        (st.get k ≠ .deferred → (t.entry k).toggle = (s.entry k).toggle)) := by
  obtain ⟨r, hmeets, hexec⟩ := frame_meets hrecords b
  have hr : (senderDelivery k (inMask f.ackMap r.id) (standings r, r)).2 = r := senderDelivery_state _ _ _
  have hstay (h : (standings r).get k = .deferred) : senderDelivery k (inMask f.ackMap r.id) (standings r, r) = (standings r, r) :=
    senderDelivery_of_not_pending fun shown => by rw [h]; exact nofun
  have hother (h : (standings r).get k ≠ .deferred) :
      (senderDelivery k (inMask f.ackMap r.id) (standings r, r)).1.get k ≠ .deferred := by
    unfold senderDelivery
    split
    · split
      · rw [standing_set_get, if_pos rfl]
        exact nofun
      · exact h
    · exact h
  have hsettled := settledBy_of_member hjoin k r
  obtain ⟨hleaves, hnone, hdeferred⟩ := senderResync_leaves (d := k) (ack := inMask f.ackMap r.id)
    (x := senderDelivery k (inMask f.ackMap r.id) (standings r, r)) (by rw [hr, hmeets.resync]; exact hresync)
    (by rw [hr, hmeets.counts, hmeets.resyncShown, hshown]; exact frameCounts_some hlink hcounts)
    (by rw [hmeets.id]; exact hack)
  rw [← hsettled] at hleaves hnone hdeferred
  have hbits := (noteReceiverFrame_entry k k f (noteSenderFrame k f r)).2
  have hentry : (noteSenderFrame k f r).entry k = (settledBy k f r).2.entry k := noteSenderFrame_entry k k f r
  have hsame (h : (standings r).get k ≠ .deferred) : ((noteReceiverFrame k f (noteSenderFrame k f r)).entry k).toggle =
      (s.entry k).toggle := by
    rw [hbits.toggle, hentry, hsettled, (senderResync_not_deferred (hother h)).2, hr, hmeets.toggle]
  refine ⟨_, hexec, by rw [hbits.resync, hentry, hleaves], by rw [hbits.resyncShown, hentry, hnone], fun hno => ?_,
    fun i n dests p c st hid hslot => ?_⟩
  · refine hsame ?_
    rw [standings_none (sending_eq_none.mpr (by rw [hmeets.notes]; exact hno))]
    exact nofun
  · have hsending : r.sending = some ⟨i, n, dests, p, c, st⟩ :=
      (sending_of_notes hmeets.notes).trans (sending_of_slot hid hslot)
    have hst : standings r = st := standings_sending hsending
    rw [hst] at hsame hstay hdeferred
    refine ⟨fun hdef => ?_, hsame⟩
    rw [hstay hdef] at hdeferred
    obtain ⟨hstanding, htoggle⟩ := hdeferred hdef
    refine ⟨by rw [hbits.toggle, hentry, htoggle, hmeets.toggle], ?_⟩
    obtain ⟨st', hk, hm, hslot'⟩ := noteSenderFrame_slot hsending hstanding
    refine ⟨st', hk, hm, ?_⟩
    rw [received_slot, hslot', if_pos ⟨k, by rw [hk]; rfl⟩]

end Sys2Proof.Claims
end

