-- ==== Sys2Proof/Proofs/NoteBoundaries.lean ====
section
/-! PROOFS. The Note Unit's turn among the turns of a boundary, and the notes at a quiet one (O22). -/

namespace Sys2Proof.Machine

open Sys2Proof.Claims

/-! ## The turns that leave the notes alone -/

theorem SameNoteBits.refl (a : PeerEntry) : SameNoteBits a a := ⟨rfl, rfl, rfl, rfl, rfl⟩

theorem SameNoteBits.trans {a b c : PeerEntry} (h : SameNoteBits a b) (k : SameNoteBits b c) : SameNoteBits a c :=
  ⟨k.toggle.trans h.toggle, k.memory.trans h.memory, k.refuse.trans h.refuse, k.resync.trans h.resync,
    k.resyncShown.trans h.resyncShown⟩

/-- Everything that the Note Unit writes is the same. -/
structure NotesKept (s t : State) : Prop where
  notes : t.notes = s.notes
  entry : ∀ k, SameNoteBits (s.entry k) (t.entry k)

theorem NotesKept.refl (s : State) : NotesKept s s := ⟨rfl, fun _ => .refl _⟩

theorem NotesKept.trans {s t u : State} (h : NotesKept s t) (k : NotesKept t u) : NotesKept s u :=
  ⟨k.notes.trans h.notes, fun m => (h.entry m).trans (k.entry m)⟩

theorem NotesKept.of_peers {s t : State} (hpeers : t.peers = s.peers) (hnotes : t.notes = s.notes) : NotesKept s t := by
  refine ⟨hnotes, fun k => ?_⟩
  rw [State.entry, State.entry, hpeers]
  exact .refl _

theorem Motion.notesKept {s t : State} (h : Motion s t) : NotesKept s t :=
  .of_peers (motion_frame h).peers (motion_frame h).notes

theorem notesKept_foldl {F : State → Station → State} (h : ∀ s k, NotesKept s (F s k)) (l : List Station) (s : State) :
    NotesKept s (l.foldl F s) := by
  induction l generalizing s with
  | nil => exact .refl s
  | cons k l ih => exact (h s k).trans (ih _)

theorem setEntry_notesKept {k : Station} {e : PeerEntry} {s : State} (h : SameNoteBits (s.entry k) e) :
    NotesKept s (setEntry k e s) := by
  refine ⟨rfl, fun m => ?_⟩
  rw [setEntry_entry]
  split
  · rename_i hm
    rw [hm]
    exact h
  · exact .refl _

/-- The transition of an entry hands on nothing that the Note Unit writes. -/
theorem transition_notesKept {k : Station} {e : PeerEntry} {s : State} (h : SameNoteBits (s.entry k) e) (b : Bool) :
    NotesKept s (handOn b k (setChange k (setEntry k e s))) :=
  (setEntry_notesKept h).trans ((NotesKept.mk (s := setEntry k e s) (t := setChange k (setEntry k e s)) rfl fun _ => .refl _).trans
    (handOn_motion b k _).notesKept)

theorem agedEntry_noteBits (limit : Nat) (e : PeerEntry) : SameNoteBits e (agedEntry limit e) := by
  unfold agedEntry
  split
  · split
    · exact ⟨rfl, rfl, rfl, rfl, rfl⟩
    · split <;> exact ⟨rfl, rfl, rfl, rfl, rfl⟩
  · exact ⟨rfl, rfl, rfl, rfl, rfl⟩

theorem ageing_notesKept (b : Bool) (s : State) : NotesKept s (ageing b s) := by
  have hentry (s : State) (k : Station) : NotesKept s (ageEntry b s k) := by
    by_cases hother : k = s.id ∨ s.stationCount ≤ k.val
    · rw [ageEntry_of_other hother]
      exact .refl s
    · obtain h | h := ageEntry_cases hother b
      · rw [h]
        exact setEntry_notesKept (agedEntry_noteBits _ _)
      · rw [h]
        exact transition_notesKept (agedEntry_noteBits _ _) b
  unfold ageing
  split
  · exact notesKept_foldl hentry stations s
  · exact .refl s

theorem haltRequest_notesKept (s : State) : NotesKept s (clockPlain 0x12 takeHalt s) := by
  obtain ⟨_, h⟩ | ⟨_, h⟩ := clockPlain_cases 0x12 takeHalt s
  · rw [h, takeHalt]
    split
    · exact .of_peers rfl rfl
    · have hcause := motion_frame (takeCause_motion (.plain .hostHalt) (holdParams 0x12 [] s))
      exact .of_peers hcause.peers hcause.notes
  · rw [h]
    exact .refl s

theorem takeTurn_notesKept (o : EventOrder) (e : CycleEnd) (x : Raising) {b : BoundaryTurn} (hlink : b ≠ .link)
    (hnotes : b ≠ .notes) : NotesKept x.1 (takeTurn o e x b).1 := by
  cases b with
  | link => exact absurd rfl hlink
  | peers => exact ageing_notesKept _ x.1
  | motion => exact (takeTurn_motion o e x (b := .motion) rfl).notesKept
  | examination => exact (takeTurn_motion o e x (b := .examination) rfl).notesKept
  | stepEvents => exact (takeTurn_motion o e x (b := .stepEvents) rfl).notesKept
  | lateHalt => exact (takeTurn_motion o e x (b := .lateHalt) rfl).notesKept
  | stopInput => exact (stopTurn_motion x.1).notesKept
  | hostHalt => exact haltRequest_notesKept x.1
  | deadline => exact (takeTurn_motion o e x (b := .deadline) rfl).notesKept
  | notes => exact absurd rfl hnotes

/-! ## The notes of a quiet boundary -/

/-- What the Note Unit's turn reads of a quiet boundary, with the turns `l` still to come. -/
structure QuietLink (s : State) (l : List BoundaryTurn) (x : State) : Prop where
  nodup : l.Nodup
  station : SameStation s x
  cycle : x.timer.cycle = nextCycle s
  active : x.link.state = .active
  link : .link ∈ l → x.link = s.link
  heard : .peers ∈ l → AllHeard x
  gone : ∀ k, gonePresence (x.entry k).presence = gonePresence (s.entry k).presence

theorem gonePresence_onLink {p : Presence} (h : onLink p = true) : gonePresence p = false := by
  cases p with
  | present | stale => rfl
  | absent | lost | incompatible => cases h

section Quietness

variable {o : EventOrder} {skipped : Nat} {pulse : Option Nat} {s : State} {b : BoundaryTurn} {rest : List BoundaryTurn}
  {x : Raising}

theorem QuietLink.step (hq : Quiet o s) (h : QuietLink s (b :: rest) x.1) :
    QuietLink s rest (takeTurn o (cycleEnd skipped s) x b).1 := by
  obtain ⟨hb, hrest⟩ := List.nodup_cons.mp h.nodup
  by_cases hlink : b = .link
  · subst hlink
    have hsame := h.link List.mem_cons_self
    have hturn : (takeTurn o (cycleEnd skipped s) x .link).1 =
        x.1.setLink { x.1.link with collisionRun := 0, slipRun := 0, slips := .none } := by
      change linkBoundary o _ (earlyLossOf s.timer) x.1 = _
      rw [earlyLossOf_eq_false hq.early]
      exact linkBoundary_quiet h.active (by rw [hsame]; exact hq.collision) (by rw [hsame]; exact hq.slips) o _
    rw [hturn]
    exact ⟨hrest, h.station.trans ⟨rfl, rfl, rfl, rfl⟩, h.cycle, h.active, fun hmem => absurd hmem hb,
      fun hmem => h.heard (List.mem_cons_of_mem _ hmem), h.gone⟩
  have hclock := takeTurn_clock o (cycleEnd skipped s) x hlink
  have hactive : (takeTurn o (cycleEnd skipped s) x b).1.link.state = .active := by
    rw [hclock.link]
    exact h.active
  refine ⟨hrest, h.station.trans hclock.station, by rw [hclock.timer]; exact h.cycle, hactive,
    fun hmem => by rw [hclock.link]; exact h.link (List.mem_cons_of_mem _ hmem), fun hmem => ?_, fun k => ?_⟩
  · have hshown := (takeTurn_shown o (cycleEnd skipped s) x (b := b) fun hpeers => hb (hpeers ▸ hmem)).resolve_right
      (by rw [hactive]; exact nofun)
    intro k hid hlt hp
    rw [(hshown.entry k).heard]
    rw [(hshown.entry k).presence] at hp
    exact h.heard (List.mem_cons_of_mem b hmem) k (by rw [← hclock.station.id]; exact hid)
      (by rw [← hclock.station.stationCount]; exact hlt) hp
  · rw [← h.gone k]
    by_cases hpeers : b = .peers
    · subst hpeers
      change gonePresence ((ageing o.barrierFirst x.1).entry k).presence = _
      rw [ageing_entry (by rw [State.counting, h.active])]
      split
      · rfl
      · rename_i hother
        obtain ⟨hid, hlt⟩ := not_or.mp hother
        obtain hsame | ⟨hon, hon'⟩ := agedEntry_onLink x.1.cfg.lossLimit
          (h.heard List.mem_cons_self k hid (Nat.not_le.mp hlt))
        · rw [hsame]
        · rw [gonePresence_onLink hon, gonePresence_onLink hon']
    · have hshown := (takeTurn_shown o (cycleEnd skipped s) x hpeers).resolve_right (by rw [hactive]; exact nofun)
      rw [(hshown.entry k).presence]

/-- The state in which the Note Unit takes a quiet boundary. -/
structure MeetsBoundary (s u : State) : Prop where
  cycle : u.timer.cycle = nextCycle s
  active : u.link.state = .active
  gone : ∀ k, gonePresence (u.entry k).presence = gonePresence (s.entry k).presence
  kept : NotesKept s u

/-- The notes at the end of a quiet boundary are those that the Note Unit's turn leaves. -/
theorem quiet_notes (hq : Quiet o s) : ∃ u, MeetsBoundary s u ∧ NotesKept (noteBoundary u) (afterTurns o skipped pulse s) := by
  have hstart : QuietLink s (turnsOf o) (begun pulse s) :=
    ⟨turnsOf_nodup o, ⟨rfl, rfl, rfl, rfl⟩, begun_cycle pulse s, hq.active, fun _ => rfl, fun _ => hq.heard, fun _ => rfl⟩
  obtain ⟨_, ⟨hmem, _⟩ | ⟨_, h⟩⟩ := turns_induct (o := o) (e := cycleEnd skipped s) (x := (begun pulse s, none))
    (I := fun l x => QuietLink s l x.1 ∧ ((.notes ∈ l ∧ NotesKept s x.1) ∨
      (.notes ∉ l ∧ ∃ u, MeetsBoundary s u ∧ NotesKept (noteBoundary u) x.1)))
    (fun b rest x h => by
      obtain ⟨hquiet, h⟩ := h
      refine ⟨hquiet.step hq, ?_⟩
      obtain ⟨hb, _⟩ := List.nodup_cons.mp hquiet.nodup
      by_cases hnotes : b = .notes
      · subst hnotes
        obtain ⟨_, hkept⟩ | ⟨hnot, _⟩ := h
        · exact .inr ⟨hb, x.1, ⟨hquiet.cycle, hquiet.active, hquiet.gone, hkept⟩, .refl _⟩
        · exact absurd List.mem_cons_self hnot
      · have hturn : NotesKept x.1 (takeTurn o (cycleEnd skipped s) x b).1 := by
          by_cases hlink : b = .link
          · subst hlink
            have hsame := hquiet.link List.mem_cons_self
            change NotesKept x.1 (linkBoundary o _ (earlyLossOf s.timer) x.1)
            rw [earlyLossOf_eq_false hq.early, linkBoundary_quiet hquiet.active (by rw [hsame]; exact hq.collision)
              (by rw [hsame]; exact hq.slips)]
            exact .of_peers rfl rfl
          · exact takeTurn_notesKept o _ x hlink hnotes
        exact h.imp (fun ⟨hmem, hkept⟩ => ⟨(List.mem_cons.mp hmem).resolve_left (Ne.symm hnotes), hkept.trans hturn⟩)
          fun ⟨hnot, u, hu, hkept⟩ => ⟨fun hmem => hnot (List.mem_cons_of_mem b hmem), u, hu, hkept.trans hturn⟩)
    ⟨hstart, .inl ⟨mem_turnsOf o .notes (by decide) (by decide), .of_peers rfl rfl⟩⟩
  · exact absurd hmem List.not_mem_nil
  · exact h

end Quietness

/-! ## The Note Unit's turn -/

/-- The failures of a boundary, and the starts after them. -/
theorem noteBoundary_started (s : State) : Started (noteFailures s).notes.order (noteFailures s) (noteBoundary s) := by
  unfold noteBoundary
  dsimp only
  split
  · exact startNotes_started _ _
  · exact .refl _ _

theorem noteBoundary_starts {s : State} (hactive : s.link.state = .active) (hnone : s.notes.sendingId = none) :
    noteBoundary s = startNotes s.notes.order s := by
  unfold noteBoundary
  rw [noteFailures_none (sending_eq_none.mpr hnone)]
  exact if_pos ⟨hactive, hnone⟩

/-- The oldest QUEUED note starts. -/
theorem startNotes_head {s : State} {i : Fin 4} {rest : List (Fin 4)} {n : Byte} {dests : Mask} {p : List Byte}
    (hrest : i ∉ rest) (hslot : s.notes.slots.get i = .queued n dests p) : ∃ st : Vector Standing 16,
      (∀ k, st.get k = startedStanding dests k (s.entry k)) ∧
      ((∃ k, (st.get k).isOpen = true) →
        (startNotes (i :: rest) s).notes.slots.get i = .sending n dests p s.timer.cycle st ∧
          (startNotes (i :: rest) s).notes.order = rest ∧
          ∀ k, (startNotes (i :: rest) s).entry k = startedEntry dests k (s.entry k)) ∧
      ((∀ k, (st.get k).isOpen = false) → (startNotes (i :: rest) s).notes.slots.get i = .done n dests st) := by
  obtain ⟨st, y, hstart, hbits, hsettled⟩ := startNote_queued (s := setOrder rest s) hslot
  have hput := putSending_slot ⟨i, n, dests, p, s.timer.cycle, st⟩ st y
  refine ⟨st, fun k => (hsettled k).1, fun hopen => ?_, fun hclosed => ?_⟩
  · rw [if_pos hopen] at hput
    have hsome : (startNote i (setOrder rest s)).notes.sendingId.isSome = true := by
      rw [hstart, Option.isSome_iff_ne_none]
      intro hnone
      exact absurd (isSending_iff.mpr ⟨_, _, _, _, _, hput⟩) (Bool.eq_false_iff.mp (sendingId_eq_none.mp hnone i))
    rw [startNotes, if_pos hsome, hstart]
    exact ⟨hput, by rw [← show y.notes.order = rest by rw [hbits.notes]; rfl]; rfl, fun k => (hsettled k).2⟩
  · rw [if_neg fun ⟨k, hk⟩ => by rw [hclosed k] at hk; cases hk] at hput
    rw [startNotes]
    split
    · rw [hstart]
      exact hput
    · rw [(startNotes_started rest _).slots i hrest, hstart]
      exact hput

end Sys2Proof.Machine

namespace Sys2Proof.Claims

open Sys2Proof.Machine

/-- The oldest QUEUED note starts at a quiet boundary with nothing SENDING. -/
theorem quiet_starts {o : EventOrder} {s t : State} {i : Fin 4} {rest : List (Fin 4)} {n : Byte} {dests : Mask} {p : List Byte}
    (hends : EndsCycle o s t) (hq : Quiet o s) (hlaw : noteLaw s = true) (hnone : s.notes.sendingId = none)
    (horder : s.notes.order = i :: rest) (hslot : s.notes.slots.get i = .queued n dests p) : ∃ st : Vector Standing 16,
      (∀ k, st.get k =
        if inMask dests k = false then .no
        else if Returning (s.entry k).presence then .failed .gone
        else if (s.entry k).resync = true then .deferred
        else .pending none) ∧
      ((∃ k, (st.get k).isOpen = true) →
        t.notes.slots.get i = .sending n dests p (nextCycle s) st ∧ t.notes.order = rest ∧
          ∀ k, (t.entry k).toggle = ((s.entry k).toggle != decide (st.get k = .pending none))) ∧
      ((∀ k, (st.get k).isOpen = false) → t.notes.slots.get i = .done n dests st) := by
  obtain ⟨skipped, pulse, rfl, _⟩ := (cycleEnded_of_endsCycle hends).turns
  obtain ⟨u, hu, hkept⟩ := quiet_notes (skipped := skipped) (pulse := pulse) hq
  obtain ⟨_, hnodup, _⟩ := (noteLaw_iff s).mp hlaw
  rw [horder] at hnodup
  have hunotes := hu.kept.notes
  obtain ⟨st, hst, hopen, hclosed⟩ := startNotes_head (s := u) (List.nodup_cons.mp hnodup).1
    (by rw [hunotes]; exact hslot)
  rw [noteBoundary_starts hu.active (by rw [hunotes]; exact hnone), hunotes, horder] at hkept
  rw [hkept.notes]
  refine ⟨st, fun k => ?_, fun h => ?_, hclosed⟩
  · rw [hst, startedStanding, hu.gone, (hu.kept.entry k).resync]
    simp only [gonePresence_iff]
    cases inMask dests k <;> rfl
  · obtain ⟨hslot', horder', hentry⟩ := hopen h
    refine ⟨by rw [hslot', hu.cycle], horder', fun k => ?_⟩
    rw [(hkept.entry k).toggle, hentry k, startedEntry, ← hst k, ← (hu.kept.entry k).toggle]
    split
    · rename_i hpending
      rw [decide_eq_true hpending, Bool.bne_true]
    · rename_i hother
      rw [decide_eq_false hother, Bool.bne_false]

/-- A quiet boundary fails destinations of the SENDING note. -/
theorem quiet_fails {o : EventOrder} {s t : State} {i : Fin 4} {n : Byte} {dests : Mask} {p : List Byte} {c : Cycle}
    {st : Vector Standing 16} (hends : EndsCycle o s t) (hq : Quiet o s) (hlaw : noteLaw s = true)
    (hslot : s.notes.slots.get i = .sending n dests p c st) : ∃ st' : Vector Standing 16,
      (∀ k, st'.get k =
        if (st.get k).isOpen = false then st.get k
        else if Returning (s.entry k).presence then .failed .gone
        else if nextCycle s = c + 16 then .failed .noAck
        else st.get k) ∧
      t.notes.slots.get i = (if ∃ k, (st'.get k).isOpen = true then .sending n dests p c st' else .done n dests st') ∧
      (∀ k, (st.get k).isOpen = true → Returning (s.entry k).presence → st.get k ≠ .deferred →
        (t.entry k).resync = true ∧ (t.entry k).resyncShown = none ∧ (t.entry k).toggle = false) ∧
      (∀ k, (st.get k).isOpen = true → ¬ Returning (s.entry k).presence → nextCycle s = c + 16 →
        (t.entry k).resync = true ∧ (t.entry k).toggle = false ∧
          (t.entry k).resyncShown = if (s.entry k).resync = true then (s.entry k).resyncShown else none) := by
  obtain ⟨skipped, pulse, rfl, _⟩ := (cycleEnded_of_endsCycle hends).turns
  obtain ⟨u, hu, hkept⟩ := quiet_notes (skipped := skipped) (pulse := pulse) hq
  obtain ⟨_, _, hqueued, _⟩ := (noteLaw_iff s).mp hlaw
  have hunotes := hu.kept.notes
  have hsending : u.sending = some ⟨i, n, dests, p, c, st⟩ :=
    (sending_of_notes hunotes).trans (sending_of_slot (sendingId_of_slot hlaw hslot) hslot)
  obtain ⟨st', y, hfailures, hbits, hfailed⟩ := noteFailures_sending hsending
  have hstarted := noteBoundary_started u
  rw [hfailures] at hstarted
  have hnot : i ∉ (putSending ⟨i, n, dests, p, c, st⟩ st' y).notes.order := by
    change i ∉ y.notes.order
    rw [hbits.notes, hunotes, hqueued i, isQueued_iff, hslot]
    exact nofun
  have hentry (k : Station) (h : (y.entry k).resync = true) : ((afterTurns o skipped pulse s).entry k).resync = true ∧
      ((afterTurns o skipped pulse s).entry k).toggle = (y.entry k).toggle ∧
      ((afterTurns o skipped pulse s).entry k).resyncShown = (y.entry k).resyncShown := by
    obtain ⟨b, hb, hkeeps⟩ := hstarted.entry k
    have hend := hkept.entry k
    rw [hb] at hend
    exact ⟨hend.resync.trans h, hend.toggle.trans (hkeeps (.inr h)), hend.resyncShown⟩
  refine ⟨st', fun k => ?_, ?_, fun k hopen hgone hdeferred => ?_, fun k hopen hon hdue => ?_⟩
  · rw [(hfailed k).1, failedStanding, hu.gone, hu.cycle]
    simp only [gonePresence_iff, decide_eq_true_eq]
    cases (st.get k).isOpen <;> rfl
  · rw [hkept.notes, hstarted.slots i hnot]
    exact putSending_slot _ _ _
  · have hy := (hfailed k).2
    have hpending : (st.get k).isPending = true := by
      cases hk : st.get k with
      | pending => rfl
      | deferred => exact absurd hk hdeferred
      | no | delivered | failed => rw [hk] at hopen; cases hopen
    rw [(failed_of_gone hopen (by rw [hu.gone]; exact (gonePresence_iff _).mpr hgone)).2, if_pos hpending] at hy
    obtain ⟨hresync, htoggle, hshown⟩ := hentry k (by rw [hy]; rfl)
    rw [hy] at htoggle hshown
    exact ⟨hresync, hshown, htoggle⟩
  · have hy := (hfailed k).2
    rw [(failed_of_on hopen (by rw [hu.gone, Bool.eq_false_iff]; exact fun h => hon ((gonePresence_iff _).mp h))).2,
      if_pos (decide_eq_true (hu.cycle.trans hdue))] at hy
    obtain ⟨hresync, htoggle, hshown⟩ := hentry k (by rw [hy]; rfl)
    rw [hy] at htoggle hshown
    refine ⟨hresync, htoggle, hshown.trans ?_⟩
    rw [noAckEntry, (hu.kept.entry k).resync, (hu.kept.entry k).resyncShown]

/-- Settles O22: the frame's two parts, and the Note Unit's turn at a quiet boundary. -/
theorem noteIsDelivered : Obligations.NoteIsDelivered :=
  ⟨fun _ _ _ _ _ _ _ _ _ _ _ _ hrecords hactive hid hslot => frame_settles hrecords hactive hid hslot,
    fun _ _ _ _ _ _ _ hrecords hlink hjoin hack hresync hshown hcounts =>
      frame_resyncs hrecords hlink hjoin hack hresync hshown hcounts,
    fun _ _ _ _ _ _ _ _ hends hq hlaw hnone horder hslot => quiet_starts hends hq hlaw hnone horder hslot,
    fun _ _ _ _ _ _ _ _ _ hends hq hlaw hslot => quiet_fails hends hq hlaw hslot⟩

end Sys2Proof.Claims
end

