-- ==== Sys2Proof/Proofs/JoiningTurns.lean ====
section
/-! PROOFS. The boundaries of JOINING: its count, the entry to ACTIVE, and an axis that finds nothing to do (O17). -/

namespace Sys2Proof.Machine

open Sys2Proof.Claims

/-! ## The link's turn in JOINING -/

/-- Nothing has changed but the runs of collisions and of slips. -/
def OnlyRuns (s t : State) : Prop :=
  ∃ collisions slipRun slips, t = s.setLink { s.link with collisionRun := collisions, slipRun := slipRun, slips := slips }

theorem OnlyRuns.refl (s : State) : OnlyRuns s s := ⟨_, _, _, rfl⟩

theorem OnlyRuns.trans {s t u : State} (h : OnlyRuns s t) (k : OnlyRuns t u) : OnlyRuns s u := by
  obtain ⟨_, _, _, rfl⟩ := h
  obtain ⟨_, _, _, rfl⟩ := k
  exact ⟨_, _, _, rfl⟩

theorem OnlyRuns.counts {s t : State} (h : OnlyRuns s t) :
    t.link.state = s.link.state ∧ t.link.joinCount = s.link.joinCount := by
  obtain ⟨_, _, _, rfl⟩ := h
  exact ⟨rfl, rfl⟩

theorem collisionTurn_runs {s : State} (hs : s.link.state = .joining ∨ s.link.state = .active) (hcollision : s.link.collision = false) :
    OnlyRuns s (collisionTurn s) := by
  rw [collisionTurn_none hs hcollision]
  exact ⟨0, _, _, rfl⟩

theorem syncLossTurn_runs {s : State} (hslips : s.link.slips ≠ .allSlips) (o : EventOrder) :
    OnlyRuns s (syncLossTurn o false s) := by
  unfold syncLossTurn
  by_cases hactive : s.link.state = .active
  · rw [slipTurn_of_agreed hslips hactive]
    dsimp only
    rw [if_neg fun hloss => absurd hloss.1 (by decide)]
    exact ⟨_, 0, .none, rfl⟩
  · rw [slipTurn_of_not_active hactive]
    dsimp only
    rw [if_neg fun hloss => absurd hloss.1 (by decide)]
    exact .refl s

/-- A link that nothing takes out of JOINING or ACTIVE clears runs alone. -/
theorem leaveTurns_runs {s : State} (hs : s.link.state = .joining ∨ s.link.state = .active) (hcollision : s.link.collision = false)
    (hslips : s.link.slips ≠ .allSlips) (o : EventOrder) : OnlyRuns s (leaveTurns o false s) := by
  unfold leaveTurns
  split
  · have hsync := syncLossTurn_passes hslips o
    exact (syncLossTurn_runs hslips o).trans (collisionTurn_runs (hsync.counting hs) (hsync.collision.trans hcollision))
  · exact (collisionTurn_runs hs hcollision).trans (syncLossTurn_runs (by rw [collisionTurn_slips]; exact hslips) o)

/-- A boundary that is not the fourth counts, or restarts the count. -/
theorem joinCountTurn_stays {s : State} (hjoining : s.link.state = .joining) {adopted : Bool}
    (h : adopted = true ∨ s.link.joinCount < 3) : joinCountTurn adopted s =
      s.setLink { s.link with joinCount := if adopted then 0 else s.link.joinCount + 1, request := none } := by
  have hcount : ¬4 ≤ if adopted then 0 else s.link.joinCount + 1 := by
    split
    · omega
    · have := h.resolve_left (by assumption)
      omega
  rw [joinCountTurn, if_pos hjoining]
  exact if_neg hcount

/-- The fourth enters ACTIVE. -/
theorem joinCountTurn_enters {s : State} (hjoining : s.link.state = .joining) (h : 3 ≤ s.link.joinCount) :
    joinCountTurn false s = leaveDisabled (latchLink (s.setLink
      { s.link with joinCount := s.link.joinCount + 1, request := none, state := .active })) := by
  rw [joinCountTurn, if_pos hjoining]
  exact if_pos (by rw [if_neg Bool.false_ne_true]; omega)

section Joining

variable {s : State} (hjoining : s.link.state = .joining) (hcollision : s.link.collision = false)
  (hslips : s.link.slips ≠ .allSlips)
include hjoining hcollision hslips

/-- The link's turn is the count's, with the runs cleared before it and after it. -/
theorem linkBoundary_counts (o : EventOrder) (adopted : Bool) : ∃ v, OnlyRuns s v ∧
    OnlyRuns (joinCountTurn adopted v) (linkBoundary o adopted false s) := by
  unfold linkBoundary
  split
  · have hjoin := joinCountTurn_passes adopted s
    exact ⟨s, .refl s, leaveTurns_runs (hjoin.counting (.inl hjoining)) (hjoin.collision.trans hcollision) (hjoin.slips hslips) o⟩
  · exact ⟨_, leaveTurns_runs (.inl hjoining) hcollision hslips o, .refl _⟩

/-- A boundary that is not the fourth counts, or restarts the count. -/
theorem linkBoundary_stays (o : EventOrder) {adopted : Bool} (h : adopted = true ∨ s.link.joinCount < 3) :
    (linkBoundary o adopted false s).link.state = .joining ∧ (linkBoundary o adopted false s).link.request = none ∧
      (linkBoundary o adopted false s).link.joinCount = if adopted then 0 else s.link.joinCount + 1 := by
  obtain ⟨v, hv, _, _, _, hturn⟩ := linkBoundary_counts hjoining hcollision hslips o adopted
  obtain ⟨hstate, hcount⟩ := hv.counts
  rw [hturn, joinCountTurn_stays (hstate.trans hjoining) (by rw [hcount]; exact h), ← hcount]
  exact ⟨hstate.trans hjoining, rfl, rfl⟩

/-- The fourth boundary enters ACTIVE. -/
theorem linkBoundary_enters (o : EventOrder) (h : 3 ≤ s.link.joinCount) : ∃ l : Link, l.state = .active ∧ l.request = none ∧
    OnlyRuns (leaveDisabled (latchLink (s.setLink l))) (linkBoundary o false false s) := by
  obtain ⟨v, hv, hturn⟩ := linkBoundary_counts hjoining hcollision hslips o false
  obtain ⟨hstate, hcount⟩ := hv.counts
  rw [joinCountTurn_enters (hstate.trans hjoining) (by rw [hcount]; exact h)] at hturn
  obtain ⟨_, _, _, rfl⟩ := hv
  exact ⟨_, rfl, rfl, hturn⟩

end Joining

theorem leaveDisabled_linkFlag (s : State) : (leaveDisabled s).port.linkFlag = s.port.linkFlag := by
  unfold leaveDisabled
  split
  · split
    · rw [haltTaken_port]
    · split
      · rw [haltTaken_port]
      · rfl
  · rfl

/-! ## An axis with nothing to do -/

/-- Nothing is started or owed, no context is held, and nothing can start. -/
structure Vacant (s : State) : Prop where
  exec : s.seq.exec = none
  outstanding : s.seq.outstanding = []
  ctx : s.barrier.ctx = none
  axis : s.seq.axis = .disabled ∨ (s.seq.axis = .idle ∧ s.seq.queue = [])

/-- The axis, the barrier, the Halt Controller and the records are the same. -/
structure Untouched (s t : State) : Prop where
  seq : t.seq = s.seq
  barrier : t.barrier = s.barrier
  haltCtl : t.haltCtl = s.haltCtl
  held : t.held = s.held

theorem Untouched.refl (s : State) : Untouched s s := ⟨rfl, rfl, rfl, rfl⟩

theorem Untouched.trans {s t u : State} (h : Untouched s t) (k : Untouched t u) : Untouched s u :=
  ⟨k.seq.trans h.seq, k.barrier.trans h.barrier, k.haltCtl.trans h.haltCtl, k.held.trans h.held⟩

theorem SameMotion.untouched {s t : State} (h : SameMotion s t) : Untouched s t := ⟨h.seq, h.barrier, h.haltCtl, h.held⟩

theorem Vacant.of_untouched {s t : State} (h : Vacant s) (k : Untouched s t) : Vacant t :=
  ⟨by rw [k.seq]; exact h.exec, by rw [k.seq]; exact h.outstanding, by rw [k.barrier]; exact h.ctx, by rw [k.seq]; exact h.axis⟩

section Vacancy

variable {s : State} (h : Vacant s)
include h

theorem vacant_stepRow (before : Option Segment) (l : List StepTurn) : Untouched s (stepRow before l s) := by
  induction l generalizing s with
  | nil => exact .refl s
  | cons e l ih =>
    have hhead : s.seq.head = .none := by
      rw [head_exec (finishing_nil h.outstanding), h.exec]
      rfl
    have hrunning : s.seq.axis ≠ .running := by
      obtain haxis | ⟨haxis, _⟩ := h.axis <;> rw [haxis] <;> exact nofun
    have hstep : Untouched s (if stepTurnOpen before s e then stepTurn s e else s) := by
      split
      · obtain hsame | hflip := stepTurn_of_no_exec h.exec hhead hrunning e
        · rw [hsame]
          exact .refl s
        · rw [hflip]
          exact ⟨rfl, rfl, rfl, rfl⟩
      · exact .refl s
    exact hstep.trans (ih (h.of_untouched hstep))

theorem vacant_motionBoundary (late : Bool) (skipped : Nat) : motionBoundary late skipped s = (s, none) := by
  have hskipped : joinSkipped skipped s = s := by rw [joinSkipped, h.exec]
  have hstart : startAtBoundary false s = s := by
    unfold startAtBoundary
    obtain haxis | ⟨haxis, hqueue⟩ := h.axis
    · rw [haxis]
      exact if_neg Bool.false_ne_true
    · rw [haxis, hqueue]
      exact setAxis_self haxis
  rw [motionBoundary, hskipped, sequencerBoundary, h.exec]
  exact congrArg (·, none) hstart

end Vacancy

/-- The transitions of a boundary reach no axis that is DISABLED and no barrier without a context. -/
theorem handOn_disabled {s : State} (haxis : s.seq.axis = .disabled) (hctx : s.barrier.ctx = none) (b : Bool) (k : Station) :
    handOn b k s = s := by
  have hlost : haltPeerLost k s = s := by
    unfold haltPeerLost takeCause
    rw [haxis]
    exact ite_self s
  unfold handOn
  rw [hlost, barrierMemberLost_of_no_context hctx, hlost, ite_self]

theorem ageing_disabled {s : State} (haxis : s.seq.axis = .disabled) (hctx : s.barrier.ctx = none) (b : Bool) :
    Untouched s (ageing b s) := by
  have hentry {s : State} (haxis : s.seq.axis = .disabled) (hctx : s.barrier.ctx = none) (k : Station) :
      Untouched s (ageEntry b s k) := by
    by_cases hother : k = s.id ∨ s.stationCount ≤ k.val
    · rw [ageEntry_of_other hother]
      exact .refl s
    · obtain h | h := ageEntry_cases hother b
      · rw [h]
        exact ⟨rfl, rfl, rfl, rfl⟩
      · rw [h, handOn_disabled (s := setChange k (setEntry k _ s)) haxis hctx]
        exact ⟨rfl, rfl, rfl, rfl⟩
  have hrow : ∀ (l : List Station) (u : State), Untouched s u → Untouched s (l.foldl (ageEntry b) u) := by
    intro l
    induction l with
    | nil => exact fun u hu => hu
    | cons k l ih =>
      exact fun u hu => ih _ (hu.trans (hentry (by rw [hu.seq]; exact haxis) (by rw [hu.barrier]; exact hctx) k))
  unfold ageing
  split
  · exact hrow stations s (.refl s)
  · exact .refl s

/-- A vacant axis is touched by no turn but the link's, where nothing halts it from outside or loses a peer. -/
theorem takeTurn_vacant {o : EventOrder} {e : CycleEnd} {b : BoundaryTurn} {x : Raising} (h : Vacant x.1) (hnone : x.2 = none)
    (hlink : b ≠ .link) (hstop : b = .stopInput → stopInputDue x.1 = false) (hhost : b = .hostHalt → x.1.port.phase ≠ .request)
    (hheard : b = .peers → x.1.seq.axis = .idle → AllHeard x.1) :
    Untouched x.1 (takeTurn o e x b).1 ∧ (takeTurn o e x b).2 = none := by
  have hsame {t : State} (ht : t = x.1) : Untouched x.1 t := ht ▸ .refl x.1
  cases b with
  | link => exact absurd rfl hlink
  | peers =>
    refine ⟨?_, hnone⟩
    obtain haxis | ⟨haxis, _⟩ := h.axis
    · exact ageing_disabled haxis h.ctx _
    · exact (ageing_quiet (hheard rfl haxis) _).toSameMotion.untouched
  | motion =>
    change Untouched x.1 (motionBoundary _ _ x.1).1 ∧ (motionBoundary _ _ x.1).2 = none
    rw [vacant_motionBoundary h]
    exact ⟨.refl x.1, rfl⟩
  | examination => exact ⟨hsame (firstExamination_of_no_exec h.exec), hnone⟩
  | stepEvents => exact ⟨vacant_stepRow h _ _, hnone⟩
  | lateHalt =>
    refine ⟨hsame ?_, rfl⟩
    change takeRaised x.2 x.1 = x.1
    rw [hnone]
    rfl
  | stopInput => exact ⟨hsame (if_neg (Bool.eq_false_iff.mp (hstop rfl))), hnone⟩
  | hostHalt => exact ⟨hsame (clockPlain_of_not_request (hhost rfl) 0x12 takeHalt), hnone⟩
  | deadline => exact ⟨hsame (barrierDeadline_no_context h.ctx), hnone⟩
  | notes =>
    have hframe := tables_frame (noteBoundary_tables x.1)
    exact ⟨⟨hframe.seq, hframe.barrier, hframe.haltCtl, hframe.held⟩, hnone⟩

/-! ## A vacant axis at a boundary -/

/-- The phase of the port at a turn that is not the link's, where no HALT request comes. -/
theorem takeTurn_phase {o : EventOrder} {e : CycleEnd} {b : BoundaryTurn} (x : Raising) (hlink : b ≠ .link)
    (hhost : b = .hostHalt → x.1.port.phase ≠ .request) : (takeTurn o e x b).1.port.phase = x.1.port.phase := by
  cases b with
  | link => exact absurd rfl hlink
  | peers => exact work_phase (ageing_work _ x.1)
  | motion => exact work_phase (work_of_motion (takeTurn_motion o e x (b := .motion) rfl))
  | examination => exact work_phase (work_of_motion (takeTurn_motion o e x (b := .examination) rfl))
  | stepEvents => exact work_phase (work_of_motion (takeTurn_motion o e x (b := .stepEvents) rfl))
  | lateHalt => exact work_phase (work_of_motion (takeTurn_motion o e x (b := .lateHalt) rfl))
  | stopInput => exact work_phase (work_of_motion (stopTurn_motion x.1))
  | hostHalt => exact congrArg (·.port.phase) (clockPlain_of_not_request (hhost rfl) 0x12 takeHalt)
  | deadline => exact work_phase (work_of_motion (takeTurn_motion o e x (b := .deadline) rfl))
  | notes => exact work_phase (work_of_tables (noteBoundary_tables x.1))

/-- A vacant axis at a boundary, with the turns `l` still to come. -/
structure Awaits (o : EventOrder) (s : State) (l : List BoundaryTurn) (x : Raising) : Prop where
  nodup : l.Nodup
  turns : ∀ b ∈ l, b ∈ turnsOf o
  station : SameStation s x.1
  phase : x.1.port.phase = s.port.phase
  stopn : x.1.haltCtl.stopn = s.haltCtl.stopn
  onLink : x.1.link.state ≠ .listen
  heard : AllHeard s → .peers ∈ l → AllHeard x.1
  raised : x.2 = none
  vacant : Vacant x.1
  idle : x.1.seq.axis = .idle → AllHeard s

section Awaiting

variable {o : EventOrder} {skipped : Nat} {pulse : Option Nat} {s : State} {b : BoundaryTurn} {rest : List BoundaryTurn}
  {x : Raising}

theorem TableShown.keeps_allHeard {s t : State} (h : TableShown s t) (hstation : SameStation s t) (hs : AllHeard s) :
    AllHeard t := by
  intro k hid hlt hp
  rw [(h.entry k).heard]
  rw [(h.entry k).presence] at hp
  exact hs k (by rw [← hstation.id]; exact hid) (by rw [← hstation.stationCount]; exact hlt) hp

theorem Awaits.step (hs : Unstopped o s) (h : Awaits o s (b :: rest) x) (hlink : b ≠ .link) :
    Untouched x.1 (takeTurn o (cycleEnd skipped s) x b).1 ∧ Awaits o s rest (takeTurn o (cycleEnd skipped s) x b) := by
  obtain ⟨hb, hrest⟩ := List.nodup_cons.mp h.nodup
  have hnamed (hout : b = .stopInput ∨ b = .hostHalt) : b ∈ o.turns :=
    mem_order_of_mem_turnsOf (h.turns b List.mem_cons_self) hout
  have hhost (hhalt : b = .hostHalt) : x.1.port.phase ≠ .request := by
    rw [h.phase]
    exact hs.hostHalt (hhalt ▸ hnamed (.inr hhalt))
  have hstop (hinput : b = .stopInput) : stopInputDue x.1 = false := by
    have hdue := hs.stopInput (hinput ▸ hnamed (.inl hinput))
    rw [stopInputDue, stopChangeDue, h.stopn]
    exact hdue
  obtain ⟨hsame, hnone⟩ := takeTurn_vacant (o := o) (e := cycleEnd skipped s) h.vacant h.raised hlink hstop hhost
    fun hpeers haxis => h.heard (h.idle haxis) (by rw [hpeers]; exact List.mem_cons_self)
  have hclock := takeTurn_clock o (cycleEnd skipped s) x hlink
  have hon : (takeTurn o (cycleEnd skipped s) x b).1.link.state ≠ .listen := by
    rw [hclock.link]
    exact h.onLink
  refine ⟨hsame, hrest, fun c hc => h.turns c (List.mem_cons_of_mem b hc), h.station.trans hclock.station,
    (takeTurn_phase x hlink hhost).trans h.phase, by rw [hsame.haltCtl]; exact h.stopn, hon, fun hall hmem => ?_, hnone,
    h.vacant.of_untouched hsame, fun haxis => h.idle (by rw [← hsame.seq]; exact haxis)⟩
  exact ((takeTurn_shown o _ x fun hpeers => hb (by rw [hpeers]; exact hmem)).resolve_right hon).keeps_allHeard hclock.station
    (h.heard hall (List.mem_cons_of_mem b hmem))

/-- The boundary of a station whose axis is vacant: its link's turn finds the axis untouched. -/
theorem awaits_induct (hs : Unstopped o s) (hvacant : Vacant s) (hidle : s.seq.axis ≠ .idle) (honLink : s.link.state ≠ .listen)
    {Q : List BoundaryTurn → Raising → Prop}
    (hlink : ∀ rest x, Awaits o s (.link :: rest) x → Untouched s x.1 → x.1.link = s.link → x.1.timer.cycle = nextCycle s →
      Q rest (takeTurn o (cycleEnd skipped s) x .link))
    (hafter : ∀ b rest x, b ≠ .link → Q (b :: rest) x → Q rest (takeTurn o (cycleEnd skipped s) x b)) :
    ∃ c, Q [] (afterTurns o skipped pulse s, c) := by
  have hbegun : Untouched s (begun pulse s) := ⟨rfl, rfl, rfl, rfl⟩
  have hstart : Awaits o s (turnsOf o) (begun pulse s, none) :=
    ⟨turnsOf_nodup o, fun _ hb => hb, ⟨rfl, rfl, rfl, rfl⟩, rfl, rfl, honLink, fun hall _ => hall, rfl, hvacant.of_untouched hbegun,
      fun haxis => absurd haxis hidle⟩
  obtain ⟨hmem, _⟩ | ⟨_, _, h⟩ := turns_induct (o := o) (e := cycleEnd skipped s) (x := (begun pulse s, none))
    (I := fun l x => (.link ∈ l ∧ Awaits o s l x ∧ Untouched s x.1 ∧ x.1.link = s.link ∧ x.1.timer.cycle = nextCycle s) ∨
      (l.Nodup ∧ .link ∉ l ∧ Q l x))
    (fun b rest x h => by
      obtain ⟨hmem, hwaits, hsame, hlinked, hcycle⟩ | ⟨hnodup, hnot, h⟩ := h
      · obtain ⟨hb, hrest⟩ := List.nodup_cons.mp hwaits.nodup
        by_cases hturn : b = .link
        · subst hturn
          exact .inr ⟨hrest, hb, hlink rest x hwaits hsame hlinked hcycle⟩
        · have hclock := takeTurn_clock o (cycleEnd skipped s) x hturn
          obtain ⟨hstep, hwaits'⟩ := hwaits.step (skipped := skipped) hs hturn
          exact .inl ⟨(List.mem_cons.mp hmem).resolve_left (Ne.symm hturn), hwaits', hsame.trans hstep,
            hclock.link.trans hlinked, by rw [hclock.timer]; exact hcycle⟩
      · exact .inr ⟨(List.nodup_cons.mp hnodup).2, fun hmem => hnot (List.mem_cons_of_mem b hmem),
          hafter b rest x (fun hturn => hnot (hturn ▸ List.mem_cons_self)) h⟩)
    (.inl ⟨link_mem_turnsOf o, hstart, hbegun, rfl, begun_cycle pulse s⟩)
  · exact absurd hmem List.not_mem_nil
  · exact ⟨_, h⟩

end Awaiting

end Sys2Proof.Machine

namespace Sys2Proof.Claims

open Sys2Proof.Machine

section Entry

variable {o : EventOrder} {skipped : Nat} {pulse : Option Nat} {s : State} (hjoining : s.link.state = .joining)
  (hcollision : s.link.collision = false) (hslips : s.link.slips ≠ .allSlips)
  (hearly : s.timer.earlySeen = true → s.timer.earlyRun + 1 < 3) (hadoption : s.timer.adoption = none)
  (hcount : 3 ≤ s.link.joinCount) (hs : Unstopped o s) (haxis : s.seq.axis = .disabled) (hexec : s.seq.exec = none)
  (hout : s.seq.outstanding = []) (hctx : s.barrier.ctx = none)
include hjoining hcollision hslips hearly hadoption hcount

/-- The link's turn at the fourth boundary of JOINING. -/
theorem linkTurn_enters {x : Raising} (hlink : x.1.link = s.link) : ∃ l : Link, l.state = .active ∧ l.request = none ∧
    OnlyRuns (leaveDisabled (latchLink (x.1.setLink l))) (takeTurn o (cycleEnd skipped s) x .link).1 := by
  change ∃ l : Link, _ ∧ _ ∧ OnlyRuns _ (linkBoundary o s.timer.adoption.isSome (earlyLossOf s.timer) x.1)
  rw [earlyLossOf_eq_false hearly, hadoption]
  exact linkBoundary_enters (by rw [hlink]; exact hjoining) (by rw [hlink]; exact hcollision) (by rw [hlink]; exact hslips) o
    (by rw [hlink]; exact hcount)

include hs haxis hexec hout hctx

/-- The axis leaves DISABLED for HALTED where STOPN is active or the latch is set. -/
theorem enters_halted (hcause : s.haltCtl.stopn.level = false ∨ s.haltCtl.latch = true) :
    (afterTurns o skipped pulse s).seq.axis = .halted ∧ (afterTurns o skipped pulse s).seq.queue = [] ∧
      (afterTurns o skipped pulse s).held = s.held ∧ (afterTurns o skipped pulse s).port.haltFlag = true ∧
      ∃ r, (afterTurns o skipped pulse s).haltCtl.report = some r ∧
        r.cause = (if s.haltCtl.stopn.level = false then .stopInput else .hostHalt) ∧ r.cycle = nextCycle s ∧
        r.discarded = s.seq.queue.length := by
  obtain ⟨_, v, hrests, ⟨hheld, hflag, r, hreport, hr⟩, hstands⟩ := awaits_induct (skipped := skipped) (pulse := pulse) hs
    ⟨hexec, hout, hctx, .inl haxis⟩ (by rw [haxis]; exact nofun) (by rw [hjoining]; exact nofun)
    (Q := fun _ x => ∃ v, Rests v ∧ (v.held = s.held ∧ v.port.haltFlag = true ∧ ∃ r, v.haltCtl.report = some r ∧
      r.cause = (if s.haltCtl.stopn.level = false then .stopInput else .hostHalt) ∧ r.cycle = nextCycle s ∧
      r.discarded = s.seq.queue.length) ∧ StandsAs v x.1)
    (fun rest x _ hsame hlink hcycle => by
      obtain ⟨l, _, _, _, _, _, hturn⟩ := linkTurn_enters (o := o) (skipped := skipped) hjoining hcollision hslips hearly hadoption
        hcount (x := x) hlink
      obtain ⟨c, hc, hkind⟩ : ∃ c : Cause, leaveDisabled (latchLink (x.1.setLink l)) = haltTaken c (latchLink (x.1.setLink l)) ∧
          c.kind = if s.haltCtl.stopn.level = false then .stopInput else .hostHalt := by
        have hdisabled : (latchLink (x.1.setLink l)).seq.axis = .disabled := by
          change x.1.seq.axis = _
          rw [hsame.seq]
          exact haxis
        have hctl : (latchLink (x.1.setLink l)).haltCtl = s.haltCtl := hsame.haltCtl
        rw [leaveDisabled, if_pos hdisabled, State.stopActive, hctl]
        cases hlevel : s.haltCtl.stopn.level with
        | false => exact ⟨_, rfl, rfl⟩
        | true =>
          have hlatch : s.haltCtl.latch = true := hcause.resolve_left (by rw [hlevel]; exact nofun)
          rw [hlatch]
          exact ⟨_, rfl, rfl⟩
      refine ⟨haltTaken c (latchLink (x.1.setLink l)), haltTaken_rests c _, ⟨?_, by rw [haltTaken_port], ?_⟩, ?_⟩
      · refine (haltTaken_held_none ?_ ?_ c).trans hsame.held
        · change x.1.seq.outstanding = []
          rw [hsame.seq]
          exact hout
        · change x.1.seq.exec = none
          rw [hsame.seq]
          exact hexec
      · refine ⟨haltReportOf c (latchLink (x.1.setLink l)), by rw [haltTaken_haltCtl], hkind, hcycle, ?_⟩
        change x.1.seq.queue.length = _
        rw [hsame.seq]
      · rw [hturn, hc]
        exact ⟨rfl, rfl, rfl, rfl, id, rfl, rfl, id⟩)
    (fun b rest x _ h => by
      obtain ⟨v, hv, hP, hstands⟩ := h
      exact ⟨v, hv, hP, hstands.trans (takeTurn_stands (hv.of_stands hstands) o _ b)⟩)
  have hend := hrests.of_stands hstands
  exact ⟨hend.axis, hend.queue, hstands.held.trans hheld, hstands.haltFlag hflag, r, hstands.report.trans hreport, hr⟩

/-- The axis leaves DISABLED for IDLE where nothing halts it. -/
theorem enters_idle (hstop : s.haltCtl.stopn.level = true) (hlatch : s.haltCtl.latch = false) (hqueue : s.seq.queue = [])
    (hheard : AllHeard s) : (afterTurns o skipped pulse s).seq.axis = .idle ∧
      (afterTurns o skipped pulse s).haltCtl = s.haltCtl := by
  obtain ⟨_, _, haxis', hctl⟩ := awaits_induct (skipped := skipped) (pulse := pulse) hs
    ⟨hexec, hout, hctx, .inl haxis⟩ (by rw [haxis]; exact nofun) (by rw [hjoining]; exact nofun)
    (Q := fun l x => Awaits o s l x ∧ x.1.seq.axis = .idle ∧ x.1.haltCtl = s.haltCtl)
    (fun rest x h hsame hlink _ => by
      obtain ⟨l, hactive, _, _, _, _, hturn⟩ := linkTurn_enters (o := o) (skipped := skipped) hjoining hcollision hslips hearly
        hadoption hcount (x := x) hlink
      have hidle : leaveDisabled (latchLink (x.1.setLink l)) = setAxis .idle (latchLink (x.1.setLink l)) := by
        have hdisabled : (latchLink (x.1.setLink l)).seq.axis = .disabled := by
          change x.1.seq.axis = _
          rw [hsame.seq]
          exact haxis
        have hctl : (latchLink (x.1.setLink l)).haltCtl = s.haltCtl := hsame.haltCtl
        rw [leaveDisabled, if_pos hdisabled, State.stopActive, hctl, hstop, hlatch]
        rfl
      rw [hidle] at hturn
      have hctl : (takeTurn o (cycleEnd skipped s) x .link).1.haltCtl = s.haltCtl := by
        rw [hturn]
        exact hsame.haltCtl
      have hshown : TableShown x.1 (takeTurn o (cycleEnd skipped s) x .link).1 := by
        rw [hturn]
        exact tableShown_of_peers rfl
      have hstation : SameStation x.1 (takeTurn o (cycleEnd skipped s) x .link).1 := by
        rw [hturn]
        exact ⟨rfl, rfl, rfl, rfl⟩
      refine ⟨⟨(List.nodup_cons.mp h.nodup).2, fun c hc => h.turns c (List.mem_cons_of_mem _ hc), h.station.trans hstation, ?_,
        by rw [hctl], ?_, fun hall hmem => hshown.keeps_allHeard hstation (h.heard hall (List.mem_cons_of_mem _ hmem)), h.raised,
        ?_, fun _ => hheard⟩, by rw [hturn]; rfl, hctl⟩
      · rw [hturn]
        exact h.phase
      · rw [hturn]
        change l.state ≠ _
        rw [hactive]
        exact nofun
      · rw [hturn]
        exact ⟨h.vacant.exec, h.vacant.outstanding, h.vacant.ctx,
          .inr ⟨rfl, by change x.1.seq.queue = []; rw [hsame.seq]; exact hqueue⟩⟩)
    (fun b rest x hb h => by
      obtain ⟨hwaits, hidle, hctl⟩ := h
      obtain ⟨hsame, hwaits'⟩ := hwaits.step (skipped := skipped) hs hb
      exact ⟨hwaits', by rw [hsame.seq]; exact hidle, hsame.haltCtl.trans hctl⟩)
  exact ⟨haxis', hctl⟩

end Entry

/-- Settles O17: the link's turn counts, and at the fourth boundary finds the axis untouched by the turns before it. -/
theorem joiningCountsToActive : Obligations.JoiningCountsToActive := by
  intro o s t hends hjoining hcollision hslips hearly
  obtain ⟨skipped, pulse, rfl, _⟩ := (cycleEnded_of_endsCycle hends).turns
  obtain ⟨u, haround⟩ := afterTurns_around o skipped pulse s
  have hulink : u.link = s.link := haround.before.link
  have hlink := haround.after.link
  have hflag := haround.linkFlag
  rw [earlyLossOf_eq_false hearly] at hlink hflag
  have hstays (h : s.timer.adoption.isSome = true ∨ s.link.joinCount < 3) := linkBoundary_stays (s := u)
    (by rw [hulink]; exact hjoining) (by rw [hulink]; exact hcollision) (by rw [hulink]; exact hslips) o
    (adopted := s.timer.adoption.isSome) (by rw [hulink]; exact h)
  have henters (hadoption : s.timer.adoption = none) (h : 3 ≤ s.link.joinCount) :
      (afterTurns o skipped pulse s).link.state = .active ∧ (afterTurns o skipped pulse s).link.request = none ∧
        (afterTurns o skipped pulse s).port.linkFlag = true := by
    obtain ⟨l, hactive, hrequest, _, _, _, hturn⟩ := linkTurn_enters (o := o) (skipped := skipped) hjoining hcollision hslips
      hearly hadoption h (x := (u, none)) hulink
    have hclock := leaveDisabled_clock (latchLink (u.setLink l))
    change linkBoundary o s.timer.adoption.isSome (earlyLossOf s.timer) u = _ at hturn
    rw [earlyLossOf_eq_false hearly] at hturn
    rw [hturn] at hlink hflag
    rw [hlink, hflag]
    refine ⟨?_, ?_, ?_⟩
    · change (leaveDisabled (latchLink (u.setLink l))).link.state = _
      rw [hclock.link]
      exact hactive
    · change (leaveDisabled (latchLink (u.setLink l))).link.request = _
      rw [hclock.link]
      exact hrequest
    · exact leaveDisabled_linkFlag _
  refine ⟨?_, fun hadopted => ?_, fun hadoption hcount => ?_, fun hadoption hcount => ?_⟩
  · by_cases h : s.timer.adoption.isSome = true ∨ s.link.joinCount < 3
    · rw [hlink]
      exact (hstays h).2.1
    · obtain ⟨hnone, hcount⟩ := not_or.mp h
      exact (henters (by simpa using hnone) (Nat.not_lt.mp hcount)).2.1
  · obtain ⟨hstate, _, hn⟩ := hstays (.inl hadopted)
    rw [hlink]
    exact ⟨hstate, hn.trans (if_pos hadopted)⟩
  · obtain ⟨hstate, _, hn⟩ := hstays (.inr hcount)
    rw [hlink]
    refine ⟨hstate, hn.trans ?_⟩
    rw [hadoption, hulink]
    rfl
  · obtain ⟨hactive, _, hlatched⟩ := henters hadoption hcount
    exact ⟨hactive, hlatched, fun hs haxis hexec hout hctx =>
      ⟨enters_halted hjoining hcollision hslips hearly hadoption hcount hs haxis hexec hout hctx,
        enters_idle hjoining hcollision hslips hearly hadoption hcount hs haxis hexec hout hctx⟩⟩

end Sys2Proof.Claims
end

