-- ==== Sys2Proof/Proofs/TablesAtBoundaries.lean ====
section
/-! PROOFS. What the turns other than the link's can do to the notes and to the Peer Table, at any boundary. -/

namespace Sys2Proof.Machine

open Sys2Proof.Claims

/-! ## The notes -/

/-- What the failures of a boundary make of a standing: it stays, or an open destination fails. -/
def Settles (due : Prop) (a b : Standing) : Prop :=
  if a.isOpen = true then b = a ∨ b = .failed .gone ∨ (due ∧ b = .failed .noAck) else b = a

theorem Settles.refl {due : Prop} (a : Standing) : Settles due a a := by
  unfold Settles
  split
  · exact .inl rfl
  · rfl

theorem Settles.trans {due : Prop} {a b c : Standing} (h : Settles due a b) (k : Settles due b c) : Settles due a c := by
  by_cases hopen : a.isOpen = true
  · rw [Settles, if_pos hopen] at h
    obtain rfl | rfl | ⟨hdue, rfl⟩ := h
    · exact k
    · have hc : c = .failed .gone := k
      rw [Settles, if_pos hopen]
      exact .inr (.inl hc)
    · have hc : c = .failed .noAck := k
      rw [Settles, if_pos hopen]
      exact .inr (.inr ⟨hdue, hc⟩)
  · rw [Settles, if_neg hopen] at h
    rw [← h]
    exact k

theorem failedStanding_settles {due : Prop} [Decidable due] (a : Standing) (e : PeerEntry) :
    Settles due a (failedStanding (decide due) a e) := by
  cases hopen : a.isOpen with
  | false =>
    rw [(failed_of_closed hopen).1]
    exact .refl a
  | true =>
    cases hgone : gonePresence e.presence with
    | true =>
      rw [(failed_of_gone hopen hgone).1, Settles, if_pos hopen]
      exact .inr (.inl rfl)
    | false =>
      rw [(failed_of_on hopen hgone).1]
      by_cases hdue : due
      · rw [decide_eq_true hdue, Settles, if_pos hopen]
        exact .inr (.inr ⟨hdue, rfl⟩)
      · rw [decide_eq_false hdue]
        exact .refl a

/-- The bits of an entry as an entry to LISTEN leaves them. -/
structure Cleared (e : PeerEntry) : Prop where
  toggle : e.toggle = false
  memory : e.memory = false
  refuse : e.refuse = false
  resyncShown : e.resyncShown = none

theorem SameNoteBits.cleared {a b : PeerEntry} (h : SameNoteBits a b) (ha : Cleared a) : Cleared b :=
  ⟨h.toggle.trans ha.toggle, h.memory.trans ha.memory, h.refuse.trans ha.refuse, h.resyncShown.trans ha.resyncShown⟩

/-- A failure takes no station out of the resync set, and sets no bit that an entry to LISTEN clears. -/
theorem failedEntry_resync (due : Bool) (a : Standing) (e : PeerEntry) :
    (e.resync = true → (failedEntry due a e).resync = true) ∧ (Cleared e → Cleared (failedEntry due a e)) := by
  cases hopen : a.isOpen with
  | false =>
    rw [(failed_of_closed hopen).2]
    exact ⟨id, id⟩
  | true =>
    cases hgone : gonePresence e.presence with
    | true =>
      rw [(failed_of_gone hopen hgone).2]
      split
      · exact ⟨fun _ => rfl, fun h => ⟨rfl, h.memory, h.refuse, rfl⟩⟩
      · exact ⟨id, id⟩
    | false =>
      rw [(failed_of_on hopen hgone).2]
      split
      · refine ⟨fun _ => rfl, fun h => ⟨rfl, h.memory, h.refuse, ?_⟩⟩
        change (if e.resync then e.resyncShown else none) = none
        rw [h.resyncShown, ite_self]
      · exact ⟨id, id⟩

/-- The notes as the turns of a boundary move them. -/
structure NotesMove (s t : State) : Prop where
  cycle : t.timer.cycle = s.timer.cycle
  link : t.link.state = s.link.state
  inbox : t.notes.inbox = s.notes.inbox
  nextNumber : t.notes.nextNumber = s.notes.nextNumber
  resync : ∀ k, (s.entry k).resync = true → (t.entry k).resync = true
  done : ∀ i n dests st, s.notes.slots.get i = .done n dests st → t.notes.slots.get i = .done n dests st
  sending : ∀ i n dests p c st, s.notes.slots.get i = .sending n dests p c st → ∃ st' : Vector Standing 16,
    (∀ k, Settles (s.timer.cycle = c + 16) (st.get k) (st'.get k)) ∧ (t.notes.slots.get i = .sending n dests p c st' ∨
      (t.notes.slots.get i = .done n dests st' ∧ ∀ k, (st'.get k).isOpen = false))
  listen : s.link.state = .listen →
    (∀ k, Cleared (s.entry k) → Cleared (t.entry k)) ∧ (s.notes.sendingId = none → t.notes = s.notes)

theorem NotesKept.moves {s t : State} (h : NotesKept s t) (hclock : SameClock s t) : NotesMove s t where
  cycle := by rw [hclock.timer]
  link := by rw [hclock.link]
  inbox := by rw [h.notes]
  nextNumber := by rw [h.notes]
  resync k hk := (h.entry k).resync.trans hk
  done i n dests st hslot := by rw [h.notes]; exact hslot
  sending i n dests p c st hslot := ⟨st, fun _ => .refl _, .inl (by rw [h.notes]; exact hslot)⟩
  listen _ := ⟨fun k => (h.entry k).cleared, fun _ => h.notes⟩

theorem NotesMove.refl (s : State) : NotesMove s s := (NotesKept.refl s).moves (.refl s)

theorem NotesMove.trans {s t u : State} (h : NotesMove s t) (k : NotesMove t u) : NotesMove s u where
  cycle := k.cycle.trans h.cycle
  link := k.link.trans h.link
  inbox := k.inbox.trans h.inbox
  nextNumber := k.nextNumber.trans h.nextNumber
  resync m hm := k.resync m (h.resync m hm)
  done i n dests st hslot := k.done i n dests st (h.done i n dests st hslot)
  sending i n dests p c st hslot := by
    obtain ⟨st', hsettles, hsending | ⟨hdone, hclosed⟩⟩ := h.sending i n dests p c st hslot
    · obtain ⟨st'', hsettles', hend⟩ := k.sending i n dests p c st' hsending
      rw [h.cycle] at hsettles'
      exact ⟨st'', fun m => (hsettles m).trans (hsettles' m), hend⟩
    · exact ⟨st', hsettles, .inr ⟨k.done i n dests st' hdone, hclosed⟩⟩
  listen hlisten := by
    obtain ⟨hcleared, hnotes⟩ := h.listen hlisten
    obtain ⟨hcleared', hnotes'⟩ := k.listen (h.link.trans hlisten)
    refine ⟨fun m hm => hcleared' m (hcleared m hm), fun hnone => ?_⟩
    have hsame := hnotes hnone
    exact (hnotes' (by rw [hsame]; exact hnone)).trans hsame

theorem noteFailures_moves (s : State) : NotesMove s (noteFailures s) := by
  cases hsending : s.sending with
  | none =>
    rw [noteFailures_none hsending]
    exact .refl s
  | some m =>
    obtain ⟨st', y, hfailures, hbits, hfailed⟩ := noteFailures_sending hsending
    obtain ⟨hid, hslot⟩ := sending_eq_some hsending
    have hclock := noteFailures_clock s
    have hother {i : Fin 4} (hi : i ≠ m.id) : (noteFailures s).notes.slots.get i = s.notes.slots.get i := by
      rw [hfailures, putSending, setSlot_get, if_neg hi, hbits.notes]
    have hentry (k : Station) : (noteFailures s).entry k =
        failedEntry (decide (s.timer.cycle = m.startCycle + 16)) (m.standing.get k) (s.entry k) := by
      rw [hfailures]
      exact (hfailed k).2
    refine ⟨by rw [hclock.timer], by rw [hclock.link], ?_, ?_, fun k hk => ?_, fun i n dests st hdone => ?_,
      fun i n dests p c st hi => ?_, fun _ => ⟨fun k hk => ?_, fun hnone => ?_⟩⟩
    · rw [hfailures, ← hbits.notes]
      rfl
    · rw [hfailures, ← hbits.notes]
      rfl
    · rw [hentry k]
      exact (failedEntry_resync _ _ _).1 hk
    · rw [hother fun hi => by rw [hi, hslot] at hdone; cases hdone]
      exact hdone
    · by_cases him : i = m.id
      · rw [him, hslot] at hi
        cases hi
        refine ⟨st', fun k => ?_, ?_⟩
        · rw [(hfailed k).1]
          exact failedStanding_settles _ _
        · rw [him, hfailures, putSending_slot]
          split
          · exact .inl rfl
          · rename_i hclosed
            exact .inr ⟨rfl, fun k => by simpa using not_exists.mp hclosed k⟩
      · exact ⟨st, fun _ => .refl _, .inl (by rw [hother him]; exact hi)⟩
    · rw [hentry k]
      exact (failedEntry_resync _ _ _).2 hk
    · rw [hnone] at hid
      cases hid

/-- Only a QUEUED slot starts. -/
theorem startNote_of_not_queued {i : Fin 4} {s : State} (h : s.notes.isQueued i = false) : startNote i s = s := by
  unfold startNote
  split
  · rename_i n dests p hslot
    rw [isQueued_iff.mpr ⟨n, dests, p, hslot⟩] at h
    cases h
  · rfl

theorem startNotes_other_slots (l : List (Fin 4)) {s : State} {j : Fin 4} (h : s.notes.isQueued j = false) :
    (startNotes l s).notes.slots.get j = s.notes.slots.get j := by
  induction l generalizing s with
  | nil => rfl
  | cons i l ih =>
    have hstart : (startNote i (setOrder l s)).notes.slots.get j = s.notes.slots.get j := by
      by_cases hj : j = i
      · rw [← hj, startNote_of_not_queued (s := setOrder l s) h]
        rfl
      · exact (startNote_started i (setOrder l s)).slots j (fun hmem => hj (List.mem_singleton.mp hmem))
    unfold startNotes
    dsimp only
    split
    · exact hstart
    · refine (ih ?_).trans hstart
      rw [NoteUnit.isQueued, hstart]
      exact h

theorem startNotes_moves {s : State} (hactive : s.link.state = .active) (l : List (Fin 4)) : NotesMove s (startNotes l s) := by
  have hclock := startNotes_clock l s
  have hstarted := startNotes_started l s
  refine ⟨by rw [hclock.timer], by rw [hclock.link], hstarted.inbox, hstarted.nextNumber, fun k hk => ?_,
    fun i n dests st hdone => ?_, fun i n dests p c st hi => ?_, fun hlisten => ?_⟩
  · obtain ⟨b, hb, _⟩ := hstarted.entry k
    rw [hb]
    exact hk
  · rw [startNotes_other_slots l (by rw [NoteUnit.isQueued, hdone])]
    exact hdone
  · refine ⟨st, fun _ => .refl _, .inl ?_⟩
    rw [startNotes_other_slots l (by rw [NoteUnit.isQueued, hi])]
    exact hi
  · rw [hactive] at hlisten
    cases hlisten

theorem noteBoundary_moves (s : State) : NotesMove s (noteBoundary s) := by
  unfold noteBoundary
  dsimp only
  split
  · rename_i h
    exact (noteFailures_moves s).trans (startNotes_moves h.1 _)
  · exact noteFailures_moves s

/-- The turns of a boundary but the link's, in a row. -/
theorem OtherTurns.notes {o : EventOrder} {e : CycleEnd} {s t : State} (h : OtherTurns o e s t) : NotesMove s t := by
  refine rows_relate NotesMove.refl NotesMove.trans (fun hturn => ?_) h
  obtain ⟨b, raised, hlink, rfl⟩ := hturn
  by_cases hnotes : b = .notes
  · rw [hnotes]
    exact noteBoundary_moves _
  · exact (takeTurn_notesKept o e (_, raised) hlink hnotes).moves (takeTurn_clock o e (_, raised) hlink)

/-! ## The Peer Table -/

/-- A station is on the link, or is LOST with its change bit set. -/
def OnOrLost (k : Station) (s : State) : Prop :=
  onLink (s.entry k).presence = true ∨ ((s.entry k).presence = .lost ∧ inMask s.peers.changeMap k = true)

theorem TableShown.onOrLost {s t : State} (h : TableShown s t) {k : Station} (hs : OnOrLost k s) : OnOrLost k t := by
  unfold OnOrLost
  rw [(h.entry k).presence, h.changeMap]
  exact hs

theorem foldl_keeps_bit {F : State → Station → State} {k : Station}
    (hF : ∀ s d, inMask s.peers.changeMap k = true → inMask (F s d).peers.changeMap k = true) (l : List Station) {s : State}
    (h : inMask s.peers.changeMap k = true) : inMask (l.foldl F s).peers.changeMap k = true := by
  induction l generalizing s with
  | nil => exact h
  | cons d l ih => exact ih (hF s d h)

theorem agedEntry_of_off {e : PeerEntry} (h : onLink e.presence = false) (limit : Nat) :
    (agedEntry limit e).presence = e.presence := by
  rw [agedEntry, if_neg (by rw [h]; exact Bool.false_ne_true)]

/-- The ageing loses a station with its change bit. -/
theorem ageing_onOrLost (b : Bool) {s : State} {k : Station} (h : OnOrLost k s) : OnOrLost k (ageing b s) := by
  by_cases hcounting : s.counting = true
  · unfold OnOrLost
    rw [ageing_entry hcounting]
    obtain hon | ⟨hlost, hbit⟩ := h
    · split
      · exact .inl hon
      · rename_i hother
        by_cases hstays : (s.entry k).heard = true ∨ (s.entry k).missed + 1 < s.cfg.lossLimit
        · refine .inl ?_
          rw [agedEntry, if_pos hon]
          by_cases hheard : (s.entry k).heard = true
          · rw [if_pos hheard]
            rfl
          · rw [if_neg hheard, if_pos (hstays.resolve_left hheard)]
            rfl
        · obtain ⟨hsilent, hmissed⟩ := not_or.mp hstays
          refine .inr ⟨?_, ageing_bit hcounting b hother hon (by simpa using hsilent) hmissed⟩
          rw [agedEntry, if_pos hon, if_neg hsilent, if_neg hmissed]
    · refine .inr ⟨?_, ?_⟩
      · split
        · exact hlost
        · rw [agedEntry_of_off (by rw [hlost]; rfl)]
          exact hlost
      · rw [ageing, if_pos hcounting]
        exact foldl_keeps_bit (fun _ d hd => ageEntry_keeps_bit hd b d) stations hbit
  · rw [ageing, if_neg hcounting]
    exact h

theorem OtherTurns.onOrLost {o : EventOrder} {e : CycleEnd} {s t : State} (h : OtherTurns o e s t) {k : Station}
    (hs : OnOrLost k s) : OnOrLost k t := by
  refine rows_keep (P := OnOrLost k) (fun s t hturn hs => ?_) h hs
  obtain ⟨b, raised, hlink, rfl⟩ := hturn
  by_cases hpeers : b = .peers
  · rw [hpeers]
    exact ageing_onOrLost o.barrierFirst hs
  · exact (takeTurn_table o e (s, raised) hlink hpeers).onOrLost hs

/-- In LISTEN no turn of a boundary writes the table. -/
theorem OtherTurns.listen {o : EventOrder} {e : CycleEnd} {s t : State} (h : OtherTurns o e s t) (hs : s.link.state = .listen) :
    TableShown s t := by
  refine (rows_keep (P := fun t => t.link.state = .listen ∧ TableShown s t) (fun t u hturn ht => ?_) h ⟨hs, .refl s⟩).2
  obtain ⟨b, raised, hlink, rfl⟩ := hturn
  obtain ⟨hlisten, hshown⟩ := ht
  refine ⟨by rw [(takeTurn_clock o e (t, raised) hlink).link]; exact hlisten, hshown.trans ?_⟩
  by_cases hpeers : b = .peers
  · rw [hpeers]
    change TableShown t (ageing o.barrierFirst t)
    rw [ageing, if_neg (by rw [State.counting, hlisten]; exact Bool.false_ne_true)]
    exact .refl t
  · exact takeTurn_table o e (t, raised) hlink hpeers

end Sys2Proof.Machine
end

