-- ==== Sys2Proof/Proofs/SyncLosses.lean ====
section
/-! PROOFS. Sync loss: the link's return to LISTEN, the table and the notes it leaves, and the halt of an ACTIVE station
(O19). -/

namespace Sys2Proof.Machine

open Sys2Proof.Claims

/-! ## The link's turn that loses the sync -/

/-- The boundary reports a sync loss, of early edges or of slips. -/
def Loses (loss : Bool) (s : State) : Prop :=
  loss = true ∨ (s.link.state = .active ∧ s.link.slips = .allSlips ∧ 2 ≤ s.link.slipRun)

theorem slipTurn_runs (s : State) : OnlyRuns s (slipTurn s).1 := by
  unfold slipTurn
  split
  · split
    · split <;> exact ⟨_, _, _, rfl⟩
    · exact ⟨_, _, _, rfl⟩
  · exact .refl s

theorem slipTurn_third {s : State} (hactive : s.link.state = .active) (hslips : s.link.slips = .allSlips)
    (hrun : 2 ≤ s.link.slipRun) : (slipTurn s).2 = true := by
  rw [slipTurn, if_pos hactive, if_pos hslips, if_pos (by omega)]

theorem syncLossTurn_loses {s : State} (hs : s.link.state = .joining ∨ s.link.state = .active) {loss : Bool}
    (hloss : Loses loss s) (o : EventOrder) : ∃ v, OnlyRuns s v ∧ syncLossTurn o loss s = syncLoss o v := by
  refine ⟨_, slipTurn_runs s, if_pos ⟨?_, by rw [(slipTurn_runs s).counts.1]; exact hs⟩⟩
  obtain rfl | ⟨hactive, hslips, hrun⟩ := hloss
  · rfl
  · rw [slipTurn_third hactive hslips hrun, Bool.or_true]

theorem collisionTurn_listen {s : State} (h : s.link.state = .listen) : collisionTurn s = s :=
  if_neg (by rw [h]; decide)

theorem leaveTurns_loses {s : State} (hs : s.link.state = .joining ∨ s.link.state = .active) (hcollision : s.link.collision = false)
    {loss : Bool} (hloss : Loses loss s) (o : EventOrder) : ∃ v, OnlyRuns s v ∧ leaveTurns o loss s = syncLoss o v := by
  unfold leaveTurns
  split
  · obtain ⟨v, hv, hturn⟩ := syncLossTurn_loses hs hloss o
    rw [hturn, collisionTurn_listen (syncLoss_listens o v)]
    exact ⟨v, hv, rfl⟩
  · have hcollide := collisionTurn_none hs hcollision
    obtain ⟨v, hv, hturn⟩ := syncLossTurn_loses (s := collisionTurn s) (loss := loss) (by rw [hcollide]; exact hs)
      (by rw [hcollide]; exact hloss) o
    exact ⟨v, (collisionTurn_runs hs hcollision).trans hv, hturn⟩

/-- What the link's turn has done before the sync is lost. -/
structure NearsLoss (s v : State) : Prop where
  counting : v.link.state = .joining ∨ v.link.state = .active
  station : SameStation s v
  cycle : v.timer.cycle = s.timer.cycle
  peers : v.peers = s.peers
  notes : v.notes = s.notes
  active : s.link.state = .active → v.link.state = .active ∧ v.seq = s.seq
  axisLaw : axisLaw s = true → axisLaw v = true

theorem OnlyRuns.nears {s t v : State} (h : NearsLoss s t) (k : OnlyRuns t v) : NearsLoss s v := by
  obtain ⟨_, _, _, rfl⟩ := k
  exact ⟨h.counting, h.station.trans ⟨rfl, rfl, rfl, rfl⟩, h.cycle, h.peers, h.notes, h.active, h.axisLaw⟩

theorem joinCountTurn_tables (adopted : Bool) (s : State) :
    (joinCountTurn adopted s).peers = s.peers ∧ (joinCountTurn adopted s).notes = s.notes := by
  have hleave (s : State) : (leaveDisabled s).peers = s.peers ∧ (leaveDisabled s).notes = s.notes := by
    unfold leaveDisabled
    split
    · split
      · exact ⟨haltTaken_peers _ s, haltTaken_notes _ s⟩
      · split
        · exact ⟨haltTaken_peers _ s, haltTaken_notes _ s⟩
        · exact ⟨rfl, rfl⟩
    · exact ⟨rfl, rfl⟩
  unfold joinCountTurn
  split
  · dsimp only
    generalize (if adopted then 0 else s.link.joinCount + 1) = n
    split
    · exact hleave _
    · exact ⟨rfl, rfl⟩
  · exact ⟨rfl, rfl⟩

theorem joinCountTurn_nears {s : State} (hs : s.link.state = .joining ∨ s.link.state = .active) (adopted : Bool) :
    NearsLoss s (joinCountTurn adopted s) := by
  have hjoin := joinCountTurn_passes adopted s
  obtain ⟨hpeers, hnotes⟩ := joinCountTurn_tables adopted s
  exact ⟨hjoin.counting hs, (joinCountTurn_turn adopted s).station, by rw [hjoin.timer], hpeers, hnotes,
    fun hactive => ⟨hjoin.state.elim (·.trans hactive) And.right, hjoin.active hactive⟩, hjoin.axisLaw⟩

/-- The link's turn at a boundary that reports a sync loss. -/
theorem linkBoundary_loses {s : State} (hs : s.link.state = .joining ∨ s.link.state = .active) (hcollision : s.link.collision = false)
    {loss : Bool} (hloss : Loses loss s) (o : EventOrder) (adopted : Bool) :
    ∃ v, NearsLoss s v ∧ linkBoundary o adopted loss s = syncLoss o v := by
  unfold linkBoundary
  split
  · have hjoin := joinCountTurn_nears hs adopted
    obtain ⟨v, hv, hturn⟩ := leaveTurns_loses (s := joinCountTurn adopted s) (loss := loss) hjoin.counting
      ((joinCountTurn_passes adopted s).collision.trans hcollision) (by
        obtain h | h := hloss
        · exact .inl h
        · rw [joinCountTurn_of_not_joining (by rw [h.1]; decide)]
          exact .inr h) o
    exact ⟨v, hv.nears hjoin, hturn⟩
  · obtain ⟨v, hv, hturn⟩ := leaveTurns_loses hs hcollision hloss o
    rw [hturn, joinCountTurn_of_not_joining (by rw [syncLoss_listens]; decide)]
    exact ⟨v, hv.nears ⟨hs, .refl s, rfl, rfl, rfl, fun h => ⟨h, rfl⟩, id⟩, rfl⟩

/-! ## The Note Unit at the entry to LISTEN -/

/-- The bits of an entry that an entry to LISTEN clears. -/
def clearedEntry (e : PeerEntry) : PeerEntry := { e with toggle := false, memory := false, refuse := false, resyncShown := none }

theorem clearNoteBits_fold (s : State) (k : Station) : (stations.foldl clearNoteBits s).entry k = clearedEntry (s.entry k) :=
  foldl_stations_entry (P := fun _ => True) (g := fun _ => clearedEntry) (fun _ _ => id)
    (fun s d m _ => updateEntry_entry d m clearedEntry s) trivial k

theorem failAtListen_fold (st : Vector Standing 16) (k : Station) : (stations.foldl failAtListen st).get k =
    if (st.get k).isOpen = true then .failed .gone else st.get k := by
  rw [foldl_standing (g := fun _ a => if a.isOpen = true then .failed .gone else a) (fun st d m => ?_) stations_nodup,
    if_pos (mem_stations k)]
  unfold failAtListen
  split
  · exact standing_set_get _ _ _ _
  · split
    · rename_i hm
      rw [hm]
    · rfl

/-- The notes after an entry to LISTEN: no note of the one SENDING slot is left SENDING. -/
structure NotesListen (s t : State) : Prop where
  inbox : t.notes.inbox = s.notes.inbox
  nextNumber : t.notes.nextNumber = s.notes.nextNumber
  entry : ∀ k, SameNoteBits (clearedEntry (s.entry k)) (t.entry k)
  none : s.notes.sendingId = none → t.notes = s.notes
  other : ∀ i, some i ≠ s.notes.sendingId → t.notes.slots.get i = s.notes.slots.get i
  sending : ∀ i n dests p c st, s.notes.sendingId = some i → s.notes.slots.get i = .sending n dests p c st →
    ∃ st' : Vector Standing 16, t.notes.slots.get i = .done n dests st' ∧
      ∀ k, st'.get k = if (st.get k).isOpen = true then .failed .gone else st.get k

theorem NotesListen.kept {s t u : State} (h : NotesListen s t) (k : NotesKept t u) : NotesListen s u :=
  ⟨by rw [k.notes]; exact h.inbox, by rw [k.notes]; exact h.nextNumber, fun m => (h.entry m).trans (k.entry m),
    by rw [k.notes]; exact h.none, by rw [k.notes]; exact h.other, by rw [k.notes]; exact h.sending⟩

theorem notesAtListen_eq (s : State) : ∃ y, NoteBits s y ∧ (∀ k, y.entry k = clearedEntry (s.entry k)) ∧
    (s.sending = none → notesAtListen s = y) ∧
    ∀ n, s.sending = some n → notesAtListen s = putSending n (stations.foldl failAtListen n.standing) y := by
  have hbits := noteBits_foldl clearNoteBits_noteBits stations s
  have hfold := sending_of_notes hbits.notes
  refine ⟨_, hbits, clearNoteBits_fold s, fun h => ?_, fun n h => ?_⟩
  · unfold notesAtListen
    dsimp only
    rw [hfold, h]
  · unfold notesAtListen
    dsimp only
    rw [hfold, h]

theorem notesAtListen_listen (s : State) : NotesListen s (notesAtListen s) := by
  obtain ⟨y, hbits, hentry, hnothing, hnote⟩ := notesAtListen_eq s
  cases hsending : s.sending with
  | none =>
    have hnone := sending_eq_none.mp hsending
    rw [hnothing hsending]
    refine ⟨by rw [hbits.notes], by rw [hbits.notes], fun k => by rw [hentry]; exact .refl _, fun _ => hbits.notes,
      fun i _ => by rw [hbits.notes], fun i n dests p c st hid => ?_⟩
    rw [hnone] at hid
    cases hid
  | some m =>
    obtain ⟨hid, hslot⟩ := sending_eq_some hsending
    have hclosed : ¬∃ k, ((stations.foldl failAtListen m.standing).get k).isOpen = true := by
      rintro ⟨k, hk⟩
      rw [failAtListen_fold] at hk
      split at hk
      · cases hk
      · rename_i hnot
        exact hnot hk
    have hfails := failAtListen_fold m.standing
    rw [hnote m hsending]
    generalize stations.foldl failAtListen m.standing = st' at hclosed hfails
    refine ⟨by rw [← hbits.notes]; rfl, by rw [← hbits.notes]; rfl, fun k => ?_, fun hnone => ?_, fun i hi => ?_,
      fun i n dests p c st hi hsent => ?_⟩
    · rw [putSending, setSlot_entry, hentry]
      exact .refl _
    · rw [hnone] at hid
      cases hid
    · rw [putSending, setSlot_get, if_neg (fun him => hi (by rw [him, hid])), hbits.notes]
    · rw [hid] at hi
      cases hi
      rw [hslot] at hsent
      cases hsent
      exact ⟨st', (putSending_slot m st' y).trans (if_neg hclosed), hfails⟩

/-! ## The table at the sync loss -/

/-- An entry below N other than the own one once every peer is LOST. -/
def lostEntry (e : PeerEntry) : PeerEntry :=
  if onLink e.presence then { e with presence := .lost, heard := false } else { e with heard := false }

theorem markLost_of_other {s : State} {k : Station} (h : k = s.id ∨ s.stationCount ≤ k.val) (b : Bool) : markLost b s k = s :=
  if_pos h

theorem markLost_on {s : State} {k : Station} (hother : ¬(k = s.id ∨ s.stationCount ≤ k.val))
    (hon : onLink (s.entry k).presence = true) (b : Bool) :
    markLost b s k = handOn b k (setChange k (setEntry k (lostEntry (s.entry k)) s)) := by
  rw [markLost, lostEntry, if_neg hother, if_pos hon, if_pos hon]

theorem markLost_off {s : State} {k : Station} (hother : ¬(k = s.id ∨ s.stationCount ≤ k.val))
    (hoff : ¬onLink (s.entry k).presence = true) (b : Bool) : markLost b s k = setEntry k (lostEntry (s.entry k)) s := by
  rw [markLost, lostEntry, if_neg hother, if_neg hoff, if_neg hoff]

theorem markLost_entry (b : Bool) (s : State) (k m : Station) : (markLost b s k).entry m =
    if m = k then (if k = s.id ∨ s.stationCount ≤ k.val then s.entry k else lostEntry (s.entry k)) else s.entry m := by
  by_cases hother : k = s.id ∨ s.stationCount ≤ k.val
  · rw [markLost_of_other hother, if_pos hother]
    split
    · rename_i hm
      rw [hm]
    · rfl
  · rw [if_neg hother]
    by_cases hon : onLink (s.entry k).presence = true
    · rw [markLost_on hother hon, handOn_entry]
      exact setEntry_entry k m _ s
    · rw [markLost_off hother hon, setEntry_entry]

theorem markLost_station (b : Bool) (s : State) (k : Station) : SameStation s (markLost b s k) := (work_clock (markLost_work b s k)).station

theorem markLost_keeps_bit {m : Station} {s : State} (h : inMask s.peers.changeMap m = true) (b : Bool) (k : Station) :
    inMask (markLost b s k).peers.changeMap m = true := by
  by_cases hother : k = s.id ∨ s.stationCount ≤ k.val
  · rw [markLost_of_other hother]
    exact h
  · by_cases hon : onLink (s.entry k).presence = true
    · rw [markLost_on hother hon]
      exact transition_bit (.inl h)
    · rw [markLost_off hother hon]
      exact h

theorem lostEntry_noteBits (e : PeerEntry) : SameNoteBits e (lostEntry e) := by
  unfold lostEntry
  split <;> exact ⟨rfl, rfl, rfl, rfl, rfl⟩

theorem markAllLost_notesKept (b : Bool) (s : State) : NotesKept s (markAllLost b s) := by
  refine notesKept_foldl (fun s k => ?_) stations s
  by_cases hother : k = s.id ∨ s.stationCount ≤ k.val
  · rw [markLost_of_other hother]
    exact .refl s
  · by_cases hon : onLink (s.entry k).presence = true
    · rw [markLost_on hother hon]
      exact transition_notesKept (lostEntry_noteBits _) b
    · rw [markLost_off hother hon]
      exact setEntry_notesKept (lostEntry_noteBits _)

/-- Every peer is LOST with its change bit, and none is heard. -/
theorem markAllLost_peer (b : Bool) {s : State} {k : Station} (hid : k ≠ s.id) (hlt : k.val < s.stationCount) :
    ((markAllLost b s).entry k).heard = false ∧ (OnOrLost k s → ((markAllLost b s).entry k).presence = .lost ∧
      inMask (markAllLost b s).peers.changeMap k = true) := by
  have hother : ¬(k = s.id ∨ s.stationCount ≤ k.val) := not_or.mpr ⟨hid, Nat.not_le.mpr hlt⟩
  have hentry : (markAllLost b s).entry k = lostEntry (s.entry k) := by
    rw [markAllLost, foldl_stations_entry (F := markLost b) (P := SameStation s)
      (g := fun k e => if k = s.id ∨ s.stationCount ≤ k.val then e else lostEntry e)
      (fun u d hu => hu.trans (markLost_station b u d))
      (fun u d m hu => by rw [markLost_entry, hu.id, hu.stationCount]) (.refl s) k, if_neg hother]
  rw [hentry]
  refine ⟨?_, fun h => ?_⟩
  · unfold lostEntry
    split <;> rfl
  · by_cases hon : onLink (s.entry k).presence = true
    · rw [lostEntry, if_pos hon]
      refine ⟨rfl, ?_⟩
      rw [markAllLost]
      refine foldl_bit (F := markLost b) (P := SameStation s) (e := s.entry k)
        (fun u d hu => hu.trans (markLost_station b u d)) (fun u d hd => by rw [markLost_entry, if_neg hd.symm])
        (fun u d hu => markLost_keeps_bit hu b d) (fun u hu he => ?_) (.refl s) rfl
      rw [markLost_on (by rw [hu.id, hu.stationCount]; exact hother) (by rw [he]; exact hon)]
      exact transition_bit (.inr rfl)
    · obtain ⟨hlost, hbit⟩ := h.resolve_left hon
      rw [lostEntry, if_neg hon]
      refine ⟨hlost, ?_⟩
      rw [markAllLost]
      exact foldl_keeps_bit (fun _ d hd => markLost_keeps_bit hd b d) stations hbit

theorem markAllLost_causes (b : Bool) (s : State) : Causes true s (markAllLost b s) :=
  rows_foldl _ (fun s k => markLost_causes b s k) _ s

/-! ## Sync loss -/

/-- The notes, the table and LINK_LOST, the last two in either order. -/
theorem syncLoss_cases (o : EventOrder) (s : State) :
    syncLoss o s = markAllLost o.barrierFirst (linkLost (decide (s.link.state = .active)) (notesAtListen (enterListen s))) ∨
      syncLoss o s = linkLost (decide (s.link.state = .active)) (markAllLost o.barrierFirst (notesAtListen (enterListen s))) := by
  unfold syncLoss
  dsimp only
  split
  · exact .inl rfl
  · exact .inr rfl

theorem syncLoss_work (o : EventOrder) (s : State) : Work (enterListen s) (syncLoss o s) := by
  have hnotes : Work (enterListen s) (notesAtListen (enterListen s)) := work_of_tables (notesAtListen_tables _)
  obtain hloss | hloss := syncLoss_cases o s <;> rw [hloss]
  · exact hnotes.trans ((work_of_motion (linkLost_motion _ _)).trans (markAllLost_work _ _))
  · exact hnotes.trans ((markAllLost_work _ _).trans (work_of_motion (linkLost_motion _ _)))

theorem syncLoss_notes (o : EventOrder) (s : State) : NotesListen s (syncLoss o s) := by
  have hlisten := notesAtListen_listen (enterListen s)
  have hnotes : NotesListen s (notesAtListen (enterListen s)) :=
    ⟨hlisten.inbox, hlisten.nextNumber, hlisten.entry, hlisten.none, hlisten.other, hlisten.sending⟩
  obtain hloss | hloss := syncLoss_cases o s <;> rw [hloss]
  · exact hnotes.kept ((linkLost_motion _ _).notesKept.trans (markAllLost_notesKept _ _))
  · exact hnotes.kept ((markAllLost_notesKept _ _).trans (linkLost_motion _ _).notesKept)

theorem syncLoss_peer (o : EventOrder) {s : State} {k : Station} (hid : k ≠ s.id) (hlt : k.val < s.stationCount) :
    ((syncLoss o s).entry k).heard = false ∧ (OnOrLost k s → ((syncLoss o s).entry k).presence = .lost ∧
      inMask (syncLoss o s).peers.changeMap k = true) := by
  have hshown : TableShown s (notesAtListen (enterListen s)) :=
    (tableShown_of_peers (s := s) (t := enterListen s) rfl).trans (notesAtListen_shown (enterListen s))
  have hstation : SameStation s (notesAtListen (enterListen s)) :=
    SameStation.trans (t := enterListen s) ⟨rfl, rfl, rfl, rfl⟩ (notesAtListen_clock (enterListen s)).station
  obtain hloss | hloss := syncLoss_cases o s <;> rw [hloss]
  · have hmotion := linkLost_motion (decide (s.link.state = .active)) (notesAtListen (enterListen s))
    have hstation' := hstation.trans (motion_frame hmotion).clock.station
    obtain ⟨hheard, hlost⟩ := markAllLost_peer o.barrierFirst (s := linkLost (decide (s.link.state = .active))
      (notesAtListen (enterListen s))) (k := k) (by rw [hstation'.id]; exact hid) (by rw [hstation'.stationCount]; exact hlt)
    exact ⟨hheard, fun h => hlost ((hshown.trans hmotion.tableShown).onOrLost h)⟩
  · obtain ⟨hheard, hlost⟩ := markAllLost_peer o.barrierFirst (s := notesAtListen (enterListen s)) (k := k)
      (by rw [hstation.id]; exact hid) (by rw [hstation.stationCount]; exact hlt)
    have hpeers := linkLost_peers (decide (s.link.state = .active)) (markAllLost o.barrierFirst (notesAtListen (enterListen s)))
    rw [State.entry, hpeers]
    exact ⟨hheard, fun h => hlost (hshown.onOrLost h)⟩

/-- A link that was ACTIVE halts an axis that is not DISABLED, and the latch is set. -/
theorem syncLoss_halts (o : EventOrder) {s : State} (hactive : s.link.state = .active) (haxis : s.seq.axis ≠ .disabled)
    (hlaw : axisLaw s = true) : Rests (syncLoss o s) ∧ (syncLoss o s).haltCtl.latch = true := by
  have hnotes := tables_frame (notesAtListen_tables (enterListen s))
  have hseq : (notesAtListen (enterListen s)).seq = s.seq := hnotes.seq
  have hlisten : axisLaw (notesAtListen (enterListen s)) = true := by
    rw [axisLaw_congr hseq (by rw [hnotes.barrier]; rfl)]
    exact hlaw
  have hhalts {t : State} (ht : t.seq.axis ≠ .disabled) (htlaw : axisLaw t = true) :
      Rests (linkLost true t) ∧ (linkLost true t).haltCtl.latch = true := by
    obtain ⟨hhalted, hlatch⟩ := linkLost_halts ht
    exact ⟨rests_of_axisLaw (work_keeps_axisLaw (work_of_motion (linkLost_motion true t)) htlaw) hhalted, hlatch⟩
  have hcases := syncLoss_cases o s
  rw [decide_eq_true hactive] at hcases
  obtain hloss | hloss := hcases <;> rw [hloss]
  · obtain ⟨hrests, hlatch⟩ := hhalts (by rw [hseq]; exact haxis) hlisten
    have hstands : StandsAs _ (markAllLost o.barrierFirst (linkLost true (notesAtListen (enterListen s)))) :=
      (markAllLost_causes _ _).stands hrests
    exact ⟨hrests.of_stands hstands, hstands.latch hlatch⟩
  · have hmarks := markAllLost_work o.barrierFirst (notesAtListen (enterListen s))
    have henabled : (notesAtListen (enterListen s)).seq.axis ≠ .disabled := by
      rw [hseq]
      exact haxis
    have hmarked : (markAllLost o.barrierFirst (notesAtListen (enterListen s))).seq.axis ≠ .disabled :=
      rows_keep (P := fun t => t.seq.axis ≠ .disabled) (fun _ _ h => h.keeps_enabled) hmarks henabled
    exact hhalts hmarked (work_keeps_axisLaw hmarks hlisten)

end Sys2Proof.Machine

namespace Sys2Proof.Claims

open Sys2Proof.Machine

theorem turns_linkAxisLaw {o : EventOrder} {e : CycleEnd} {l : List BoundaryTurn} {x : Raising} (h : axisLaw x.1 = true)
    (hlink : linkAxisLaw x.1 = true) : linkAxisLaw (l.foldl (takeTurn o e) x).1 = true :=
  (rows_keep (P := fun s => axisLaw s = true ∧ linkAxisLaw s = true)
    (fun _ _ h hs => ⟨h.keeps_axisLaw hs.1, h.keeps_linkAxisLaw hs.1 hs.2⟩) (turns_changes (cmd := .removal) o e l x) ⟨h, hlink⟩).2

theorem otherTurns_noteLaw {o : EventOrder} {e : CycleEnd} {s t : State} (h : OtherTurns o e s t) (hs : noteLaw s = true) :
    noteLaw t = true :=
  rows_keep (P := fun s => noteLaw s = true) (fun s _ ⟨b, raised, _, ht⟩ hs => ht ▸
    rows_keep (fun _ _ h => h.keeps_noteLaw) (takeTurn_changes (cmd := .removal) o e (s, raised) b) hs) h hs

/-- The notes at the end of a boundary whose link's turn loses the sync. -/
theorem loss_settles_notes {s u v w t : State} {i : Fin 4} {n : Byte} {dests : Mask} {p : List Byte} {c : Cycle}
    {st : Vector Standing 16} (hbefore : NotesMove s u) (hnotes : v.notes = u.notes) (hlaw : noteLaw u = true)
    (hloss : NotesListen v w) (hafter : NotesMove w t) (hslot : s.notes.slots.get i = .sending n dests p c st) :
    ∃ st' : Vector Standing 16, t.notes.slots.get i = .done n dests st' ∧ ∀ k, if (st.get k).isOpen = true then
      st'.get k = .failed .gone ∨ (s.timer.cycle = c + 16 ∧ st'.get k = .failed .noAck) else st'.get k = st.get k := by
  obtain ⟨st', hsettles, hsending | ⟨hdone, hclosed⟩⟩ := hbefore.sending i n dests p c st hslot
  · obtain ⟨st'', hdone, hfails⟩ := hloss.sending i n dests p c st' (by rw [hnotes]; exact sendingId_of_slot hlaw hsending)
      (by rw [hnotes]; exact hsending)
    refine ⟨st'', hafter.done i n dests st'' hdone, fun k => ?_⟩
    have hk := hsettles k
    unfold Settles at hk
    split at hk
    · rename_i hopen
      rw [if_pos hopen, hfails k]
      obtain hsame | hgone | ⟨hdue, hnoAck⟩ := hk
      · rw [hsame, if_pos hopen]
        exact .inl rfl
      · rw [hgone]
        exact .inl rfl
      · rw [hnoAck]
        exact .inr ⟨hdue, rfl⟩
    · rename_i hnot
      rw [if_neg hnot, hfails k, hk, if_neg hnot]
  · have hother : some i ≠ v.notes.sendingId := fun hid => by
      have hsent := sendingId_eq_some hid.symm
      rw [hnotes, NoteUnit.isSending, hdone] at hsent
      cases hsent
    refine ⟨st', hafter.done i n dests st' ((hloss.other i hother).trans (by rw [hnotes]; exact hdone)), fun k => ?_⟩
    have hk := hsettles k
    unfold Settles at hk
    split at hk
    · rename_i hopen
      rw [if_pos hopen]
      obtain hsame | hgone | hnoAck := hk
      · rw [← hsame, hclosed k] at hopen
        cases hopen
      · exact .inl hgone
      · exact .inr hnoAck
    · rename_i hnot
      rw [if_neg hnot]
      exact hk

/-- Settles O19: the sync loss itself, between the turns before the link's and the turns after it. -/
theorem syncLossReturnsToListen : Obligations.SyncLossReturnsToListen := by
  intro o s t hends hcollision hstate hlaw hlinkLaw hreport
  obtain ⟨skipped, pulse, rfl, _⟩ := (cycleEnded_of_endsCycle hends).turns
  obtain ⟨u, haround⟩ := afterTurns_around o skipped pulse s
  set t := afterTurns o skipped pulse s
  have hulink : u.link = s.link := haround.before.link
  have hloses : Loses (earlyLossOf s.timer) u := by
    obtain ⟨hseen, hrun⟩ | hslips := hreport
    · refine .inl ?_
      rw [earlyLossOf, hseen]
      exact decide_eq_true (by omega)
    · exact .inr (by rw [hulink]; exact hslips)
  obtain ⟨v, hv, hturn⟩ := linkBoundary_loses (by rw [hulink]; exact hstate) (by rw [hulink]; exact hcollision) hloses o
    s.timer.adoption.isSome
  obtain ⟨hafter, hlater, hflag, hstands⟩ := And.intro haround.after (And.intro haround.later
    (And.intro haround.linkFlag haround.stands))
  rw [hturn] at hafter hlater hflag hstands
  have hclock := (syncLoss_clock o v).trans hafter
  have hlisten : (syncLoss o v).link.state = .listen := syncLoss_listens o v
  have hshown := hlater.listen hlisten
  have hbefore := haround.earlier.notes
  have hloss := syncLoss_notes o v
  have hmoves := hlater.notes
  obtain ⟨hcleared, hquiet⟩ := hmoves.listen hlisten
  have htstate : t.link.state = .listen := by rw [hclock.link]; rfl
  have hstopped : t.seq.axis.live = false :=
    ((linkAxisLaw_iff t).mp (turns_linkAxisLaw (x := (begun pulse s, none)) hlaw hlinkLaw)).resolve_left
      (by rw [htstate]; exact nofun)
  have hbits (k : Station) : Cleared (t.entry k) := hcleared k ((hloss.entry k).cleared ⟨rfl, rfl, rfl, rfl⟩)
  have hvstation := haround.before.station.trans hv.station
  refine ⟨htstate, by rw [hclock.link]; rfl, by rw [hclock.link]; rfl, by rw [hclock.link]; rfl, by rw [hclock.link]; rfl,
    by rw [hclock.link]; rfl, by rw [hclock.link]; rfl, by rw [hclock.timer]; rfl, ?_, fun k hid hlt => ?_,
    fun hlive => ?_, fun hactive haxis => ?_, fun k => ?_, ?_, ?_, fun hnoteLaw => ?_⟩
  · rw [hflag, work_linkFlag (syncLoss_work o v)]
    rfl
  · obtain ⟨hheard, hlost⟩ := syncLoss_peer o (s := v) (k := k) (by rw [hvstation.id]; exact hid)
      (by rw [hvstation.stationCount]; exact hlt)
    rw [(hshown.entry k).heard, (hshown.entry k).presence, hshown.changeMap]
    refine ⟨hheard, fun hp => hlost ((tableShown_of_peers hv.peers).onOrLost (haround.earlier.onOrLost (.inl ?_)))⟩
    change onLink (s.entry k).presence = true
    obtain h | h := hp <;> rw [h] <;> rfl
  · rw [(haltable_iff _).mp hlive] at hstopped
    cases hstopped
  · obtain ⟨hvactive, hvseq⟩ := hv.active (by rw [hulink]; exact hactive)
    obtain ⟨hrests, hlatch⟩ := syncLoss_halts o hvactive (by rw [hvseq]; exact haround.enabled haxis)
      (hv.axisLaw (haround.axisLaw hlaw))
    have hend := hstands hrests
    exact ⟨(hrests.of_stands hend).axis, hend.latch hlatch⟩
  · obtain ⟨htoggle, hmemory, hrefuse, hresyncShown⟩ := hbits k
    refine ⟨htoggle, hmemory, hrefuse, hresyncShown, fun hresync => hmoves.resync k ?_⟩
    rw [(hloss.entry k).resync]
    change (v.entry k).resync = true
    rw [State.entry, hv.peers]
    exact hbefore.resync k hresync
  · rw [hmoves.inbox, hloss.inbox, hv.notes, hbefore.inbox]
    rfl
  · rw [hmoves.nextNumber, hloss.nextNumber, hv.notes, hbefore.nextNumber]
    rfl
  · have hulaw := otherTurns_noteLaw haround.earlier (s := begun pulse s) hnoteLaw
    have hnone : (syncLoss o v).notes.sendingId = none := by
      cases hid : v.notes.sendingId with
      | none => rw [hloss.none hid]; exact hid
      | some i =>
        rw [sendingId_eq_none]
        intro j
        obtain ⟨n, dests, p, c, st, hslot⟩ := isSending_iff.mp (sendingId_eq_some hid)
        by_cases hj : j = i
        · obtain ⟨st', hdone, _⟩ := hloss.sending i n dests p c st hid hslot
          rw [hj, NoteUnit.isSending, hdone]
        · rw [NoteUnit.isSending, hloss.other j (by rw [hid]; exact fun h => hj (Option.some.inj h)), Bool.eq_false_iff]
          refine fun hsent => hj (((noteLaw_iff u).mp hulaw).1 j i ?_ ?_)
          · rw [← hv.notes]
            exact hsent
          · rw [← hv.notes]
            exact sendingId_eq_some hid
    refine ⟨by rw [hquiet hnone]; exact hnone, fun i n dests p c st hslot => ?_⟩
    rw [← begun_cycle pulse s]
    exact loss_settles_notes hbefore hv.notes hulaw hloss hmoves hslot

end Sys2Proof.Claims
end
